-- ==== Sys2Proof/Word.lean ====
section
/-! DEFINITION. The plain types of values on the line and the code ranges of the part (00_scope 0.6). -/

namespace Sys2Proof

/-- One character of the supervisory link (R159). -/
abbrev Byte := BitVec 8

/-- A point number (R1). -/
abbrev PointNo := Fin 2048
/-- An area code (00_scope 0.6). -/
abbrev AreaNo := Fin 32
/-- A console number (R29). -/
abbrev ConsoleNo := Fin 8
/-- A trip code 1 to 15, held as the code less one (R103). -/
abbrev TripNo := Fin 15
/-- An index of the trip list store (R104). -/
abbrev EntryNo := Fin 512
/-- An index of the step store (R141). -/
abbrev StepNo := Fin 256
/-- A slot of the item pool (R120). -/
abbrev SlotNo := Fin 1024
/-- A standing order number (R123). -/
abbrev OrderNo := Fin 64

end Sys2Proof
end

