-- ==== Sys2Proof/Syntax.lean ====
section
/-! DEFINITION. The commands of the part: one constructor per row of spec/opcode_table.json.

A request row is the handler's taking of one frame of that kind (R163, R164). Its operands are the frame's tag and
its payload bytes, whatever they are: R164 gives a reply to every payload, and R180 the layout of a right one. An
event row carries what tells one such event from another (a console and key, a point, a code, an area, a level). -/

namespace Sys2Proof

/-- The two keys of a console (R63). -/
inductive KeyName | ack | silence
  deriving DecidableEq, Repr

/-- One step of the part (95_what_each_step_holds). -/
inductive Instr
  /-- HARD_RESET (R177). -/
  | hardReset (strapLow : Bool)
  /-- RECEIVE_CHARACTER (R161). -/
  | receiveCharacter (b : Byte)
  /-- GAP_TIMER_EXPIRY (R161). -/
  | gapTimerExpiry
  /-- LINK_ERROR (R165). -/
  | linkError
  /-- IDENTIFY (R178). -/
  | identify (tag : Byte) (payload : List Byte)
  /-- SET_CLOCK (R175). -/
  | setClock (tag : Byte) (payload : List Byte)
  /-- START (R176). -/
  | start (tag : Byte) (payload : List Byte)
  /-- RESTART (R177). -/
  | restart (tag : Byte) (payload : List Byte)
  /-- SET_TIMING (R174). -/
  | setTiming (tag : Byte) (payload : List Byte)
  /-- SET_SHIFT (R174). -/
  | setShift (tag : Byte) (payload : List Byte)
  /-- FETCH_NOTICES (R169). -/
  | fetchNotices (tag : Byte) (payload : List Byte)
  /-- LOAD_POINTS (R2). -/
  | loadPoints (tag : Byte) (payload : List Byte)
  /-- LOAD_AREA (R173). -/
  | loadArea (tag : Byte) (payload : List Byte)
  /-- LOAD_CONSOLE (R29). -/
  | loadConsole (tag : Byte) (payload : List Byte)
  /-- LOAD_OPERATOR (R26). -/
  | loadOperator (tag : Byte) (payload : List Byte)
  /-- LOAD_OPERATOR_REMOVE (R27). -/
  | loadOperatorRemove (tag : Byte) (payload : List Byte)
  /-- LOAD_ROLE (R28). -/
  | loadRole (tag : Byte) (payload : List Byte)
  /-- LOAD_STEPS (R141). -/
  | loadSteps (tag : Byte) (payload : List Byte)
  /-- LOAD_TRIP_CODE (R105). -/
  | loadTripCode (tag : Byte) (payload : List Byte)
  /-- LOAD_TRIP_ENTRIES (R106). -/
  | loadTripEntries (tag : Byte) (payload : List Byte)
  /-- LOAD_ORDER (R123). -/
  | loadOrder (tag : Byte) (payload : List Byte)
  /-- SET_POINT (R20). -/
  | setPoint (tag : Byte) (payload : List Byte)
  /-- RAISE (R5). -/
  | raise (tag : Byte) (payload : List Byte)
  /-- CLEAR (R9). -/
  | clear (tag : Byte) (payload : List Byte)
  /-- QUERY_POINT (R21). -/
  | queryPoint (tag : Byte) (payload : List Byte)
  /-- LIST_STANDING (R22). -/
  | listStanding (tag : Byte) (payload : List Byte)
  /-- QUERY_CONSOLE (R48). -/
  | queryConsole (tag : Byte) (payload : List Byte)
  /-- QUERY_OPERATOR (R48). -/
  | queryOperator (tag : Byte) (payload : List Byte)
  /-- LIST_SHELVES (R88). -/
  | listShelves (tag : Byte) (payload : List Byte)
  /-- QUERY_METERS (R99). -/
  | queryMeters (tag : Byte) (payload : List Byte)
  /-- QUERY_TRIP (R107). -/
  | queryTrip (tag : Byte) (payload : List Byte)
  /-- READ_SHEET (R136). -/
  | readSheet (tag : Byte) (payload : List Byte)
  /-- QUERY_HANDOVER (R157). -/
  | queryHandover (tag : Byte) (payload : List Byte)
  /-- SIGN_ON (R31). -/
  | signOn (tag : Byte) (payload : List Byte)
  /-- SIGN_OFF (R33). -/
  | signOff (tag : Byte) (payload : List Byte)
  /-- SILENCE (R57). -/
  | silence (tag : Byte) (payload : List Byte)
  /-- ACK (R72). -/
  | ack (tag : Byte) (payload : List Byte)
  /-- ACK_HEAD (R73). -/
  | ackHead (tag : Byte) (payload : List Byte)
  /-- ACK_AREA (R74). -/
  | ackArea (tag : Byte) (payload : List Byte)
  /-- SHELVE (R80). -/
  | shelve (tag : Byte) (payload : List Byte)
  /-- UNSHELVE (R83). -/
  | unshelve (tag : Byte) (payload : List Byte)
  /-- TAKE_OUT (R17). -/
  | takeOut (tag : Byte) (payload : List Byte)
  /-- RETURN (R19). -/
  | returnPoint (tag : Byte) (payload : List Byte)
  /-- RELEASE_TRIP (R116). -/
  | releaseTrip (tag : Byte) (payload : List Byte)
  /-- LOCK_DRAFT (R124). -/
  | lockDraft (tag : Byte) (payload : List Byte)
  /-- UNLOCK_DRAFT (R125). -/
  | unlockDraft (tag : Byte) (payload : List Byte)
  /-- ADD_ITEM (R126). -/
  | addItem (tag : Byte) (payload : List Byte)
  /-- REMOVE_ITEM (R127). -/
  | removeItem (tag : Byte) (payload : List Byte)
  /-- POST (R128). -/
  | post (tag : Byte) (payload : List Byte)
  /-- REVIEW_ITEM (R135). -/
  | reviewItem (tag : Byte) (payload : List Byte)
  /-- CONFIRM_STEP (R150). -/
  | confirmStep (tag : Byte) (payload : List Byte)
  /-- RESTART_AREA (R153). -/
  | restartArea (tag : Byte) (payload : List Byte)
  /-- CLEAR_TRIP_FAULT (R115). -/
  | clearTripFault (tag : Byte) (payload : List Byte)
  /-- BEGIN_HANDOVER (R143). -/
  | beginHandover (tag : Byte) (payload : List Byte)
  /-- CANCEL_HANDOVER (R155). -/
  | cancelHandover (tag : Byte) (payload : List Byte)
  /-- SUSPEND_AREA (R148). -/
  | suspendArea (tag : Byte) (payload : List Byte)
  /-- RESUME_AREA (R148). -/
  | resumeArea (tag : Byte) (payload : List Byte)
  /-- ABORT_AREA (R152). -/
  | abortArea (tag : Byte) (payload : List Byte)
  /-- CLEAR_ABORT (R151). -/
  | clearAbort (tag : Byte) (payload : List Byte)
  /-- KEY_CONTACT_CHANGE (R64). -/
  | keyContactChange (console : ConsoleNo) (key : KeyName) (closed : Bool)
  /-- KEY_QUALIFY_TIMER_EXPIRY (R64). -/
  | keyQualifyTimerExpiry (console : ConsoleNo) (key : KeyName)
  /-- KEY_RELEASE_TIMER_EXPIRY (R65). -/
  | keyReleaseTimerExpiry (console : ConsoleNo) (key : KeyName)
  /-- STUCK_TIMER_EXPIRY (R66). -/
  | stuckTimerExpiry (console : ConsoleNo) (key : KeyName)
  /-- PRESENCE_DEADLINE (R36). -/
  | presenceDeadline (console : ConsoleNo)
  /-- P1_RESOUND_DEADLINE (R61). -/
  | p1ResoundDeadline (console : ConsoleNo)
  /-- SHELF_EXPIRED (R84). -/
  | shelfExpired (point : PointNo)
  /-- CLOCK_SECOND (R175). -/
  | clockSecond
  /-- DECAY_STEP (R94). -/
  | decayStep (area : AreaNo)
  /-- TRIP_LINES_CHANGE (R101). -/
  | tripLinesChange (lines : Fin 16)
  /-- TRIP_QUALIFY_TIMER_EXPIRY (R101). -/
  | tripQualifyTimerExpiry
  /-- TRIP_RELEASE_TIMER_EXPIRY (R101). -/
  | tripReleaseTimerExpiry
  /-- WAIT_DEADLINE (R111). -/
  | waitDeadline (code : TripNo)
  /-- TRIP_HOLD_DEADLINE (R118). -/
  | tripHoldDeadline (code : TripNo)
  /-- STEP_TIMEOUT (R151). -/
  | stepTimeout (area : AreaNo)
  /-- HANDOVER_HOLD_DEADLINE (R142). -/
  | handoverHoldDeadline (area : AreaNo)
  /-- BAD_KIND (R164). -/
  | badKind (kind tag : Byte) (payload : List Byte)
  deriving DecidableEq, Repr

end Sys2Proof
end

