-- ==== Sys2Proof/WellFormed.lean ====
section
/-! DEFINITION. Which commands are well formed: a request's payload fits a frame (R160), a BAD_KIND command's
kind names no request (R164), and the two rows of the kind LOAD_OPERATOR are told apart by the remove flag (R26, R27). -/

namespace Sys2Proof

/-- The kind byte names a request of the part (R179). -/
def isRequestKind (k : Byte) : Bool :=
  let n := k.toNat
  (0x01 ≤ n && n ≤ 0x07) || (0x10 ≤ n && n ≤ 0x19) || (0x20 ≤ n && n ≤ 0x21) || (0x28 ≤ n && n ≤ 0x30)
    || (0x40 ≤ n && n ≤ 0x52) || (0x60 ≤ n && n ≤ 0x66)

/-- The longest payload of a frame: its length byte counts kind, tag and payload and is at most 250 (R160). -/
def maxPayload : Nat := 248

/-- The remove flag of LOAD_OPERATOR, its last payload byte, is set (R26, R27). -/
def removeFlag (payload : List Byte) : Bool := payload.getLast? == some 1

/-- The payload of a request row, none for the other rows. -/
def Instr.payload? : Instr → Option (List Byte)
  | .identify _ p | .setClock _ p | .start _ p | .restart _ p | .setTiming _ p | .setShift _ p
  | .fetchNotices _ p | .loadPoints _ p | .loadArea _ p | .loadConsole _ p | .loadOperator _ p
  | .loadOperatorRemove _ p | .loadRole _ p | .loadSteps _ p | .loadTripCode _ p | .loadTripEntries _ p
  | .loadOrder _ p | .setPoint _ p | .raise _ p | .clear _ p | .queryPoint _ p | .listStanding _ p
  | .queryConsole _ p | .queryOperator _ p | .listShelves _ p | .queryMeters _ p | .queryTrip _ p
  | .readSheet _ p | .queryHandover _ p | .signOn _ p | .signOff _ p | .silence _ p | .ack _ p
  | .ackHead _ p | .ackArea _ p | .shelve _ p | .unshelve _ p | .takeOut _ p | .returnPoint _ p
  | .releaseTrip _ p | .lockDraft _ p | .unlockDraft _ p | .addItem _ p | .removeItem _ p | .post _ p
  | .reviewItem _ p | .confirmStep _ p | .restartArea _ p | .clearTripFault _ p | .beginHandover _ p
  | .cancelHandover _ p | .suspendArea _ p | .resumeArea _ p | .abortArea _ p | .clearAbort _ p
  | .badKind _ _ p => some p
  | .hardReset _ | .receiveCharacter _ | .gapTimerExpiry | .linkError | .keyContactChange _ _ _
  | .keyQualifyTimerExpiry _ _ | .keyReleaseTimerExpiry _ _ | .stuckTimerExpiry _ _ | .presenceDeadline _
  | .p1ResoundDeadline _ | .shelfExpired _ | .clockSecond | .decayStep _ | .tripLinesChange _
  | .tripQualifyTimerExpiry | .tripReleaseTimerExpiry | .waitDeadline _ | .tripHoldDeadline _
  | .stepTimeout _ | .handoverHoldDeadline _ => none

/-- What its own row asks of a command's operands. -/
def Instr.rowFits : Instr → Bool
  | .badKind k _ _ => !isRequestKind k
  | .loadOperator _ p => !removeFlag p
  | .loadOperatorRemove _ p => removeFlag p
  | _ => true

/-- A well-formed command: its payload, if it has one, fits a frame, and its row is the right one for it. -/
def Instr.wellFormed (i : Instr) : Bool :=
  ((i.payload?.map fun p => decide (p.length ≤ maxPayload)).getD true) && i.rowFits

end Sys2Proof
end

