-- ==== Sys2Proof/Decode.lean ====
section
/-! DEFINITION. Which command a word or a frame spells. No row of spec/opcode_table.json gives bits, so no word of the
table spells a command (DESIGN CHOICE, log entry 17). A frame spells the request row of its kind byte (R179), and back. -/

namespace Sys2Proof

/-- The command that a word of the table spells: the table gives no bits, so none. -/
def decodeTableWord (_nbits _w : Nat) : Option Instr := none

/-- The command by which the handler takes a frame (R164 step 1, R179). -/
def Instr.ofFrame (kind tag : Byte) (payload : List Byte) : Instr :=
  match kind.toNat with
  | 0x01 => .identify tag payload
  | 0x02 => .setClock tag payload
  | 0x03 => .start tag payload
  | 0x04 => .restart tag payload
  | 0x05 => .setTiming tag payload
  | 0x06 => .setShift tag payload
  | 0x07 => .fetchNotices tag payload
  | 0x10 => .loadPoints tag payload
  | 0x11 => .loadArea tag payload
  | 0x12 => .loadConsole tag payload
  | 0x13 => if removeFlag payload then .loadOperatorRemove tag payload else .loadOperator tag payload
  | 0x14 => .loadRole tag payload
  | 0x15 => .loadSteps tag payload
  | 0x16 => .loadTripCode tag payload
  | 0x17 => .loadTripEntries tag payload
  | 0x18 => .loadOrder tag payload
  | 0x19 => .setPoint tag payload
  | 0x20 => .raise tag payload
  | 0x21 => .clear tag payload
  | 0x28 => .queryPoint tag payload
  | 0x29 => .listStanding tag payload
  | 0x2A => .queryConsole tag payload
  | 0x2B => .queryOperator tag payload
  | 0x2C => .listShelves tag payload
  | 0x2D => .queryMeters tag payload
  | 0x2E => .queryTrip tag payload
  | 0x2F => .readSheet tag payload
  | 0x30 => .queryHandover tag payload
  | 0x40 => .signOn tag payload
  | 0x41 => .signOff tag payload
  | 0x42 => .silence tag payload
  | 0x43 => .ack tag payload
  | 0x44 => .ackHead tag payload
  | 0x45 => .ackArea tag payload
  | 0x46 => .shelve tag payload
  | 0x47 => .unshelve tag payload
  | 0x48 => .takeOut tag payload
  | 0x49 => .returnPoint tag payload
  | 0x4A => .releaseTrip tag payload
  | 0x4B => .lockDraft tag payload
  | 0x4C => .unlockDraft tag payload
  | 0x4D => .addItem tag payload
  | 0x4E => .removeItem tag payload
  | 0x4F => .post tag payload
  | 0x50 => .reviewItem tag payload
  | 0x51 => .confirmStep tag payload
  | 0x52 => .restartArea tag payload
  | 0x60 => .clearTripFault tag payload
  | 0x61 => .beginHandover tag payload
  | 0x62 => .cancelHandover tag payload
  | 0x63 => .suspendArea tag payload
  | 0x64 => .resumeArea tag payload
  | 0x65 => .abortArea tag payload
  | 0x66 => .clearAbort tag payload
  | _ => .badKind kind tag payload

/-- The kind, tag and payload of the frame that a request row takes, none for the other rows (R179). -/
def Instr.frame? : Instr → Option (Byte × Byte × List Byte)
  | .identify t p => some (0x01, t, p)
  | .setClock t p => some (0x02, t, p)
  | .start t p => some (0x03, t, p)
  | .restart t p => some (0x04, t, p)
  | .setTiming t p => some (0x05, t, p)
  | .setShift t p => some (0x06, t, p)
  | .fetchNotices t p => some (0x07, t, p)
  | .loadPoints t p => some (0x10, t, p)
  | .loadArea t p => some (0x11, t, p)
  | .loadConsole t p => some (0x12, t, p)
  | .loadOperator t p => some (0x13, t, p)
  | .loadOperatorRemove t p => some (0x13, t, p)
  | .loadRole t p => some (0x14, t, p)
  | .loadSteps t p => some (0x15, t, p)
  | .loadTripCode t p => some (0x16, t, p)
  | .loadTripEntries t p => some (0x17, t, p)
  | .loadOrder t p => some (0x18, t, p)
  | .setPoint t p => some (0x19, t, p)
  | .raise t p => some (0x20, t, p)
  | .clear t p => some (0x21, t, p)
  | .queryPoint t p => some (0x28, t, p)
  | .listStanding t p => some (0x29, t, p)
  | .queryConsole t p => some (0x2A, t, p)
  | .queryOperator t p => some (0x2B, t, p)
  | .listShelves t p => some (0x2C, t, p)
  | .queryMeters t p => some (0x2D, t, p)
  | .queryTrip t p => some (0x2E, t, p)
  | .readSheet t p => some (0x2F, t, p)
  | .queryHandover t p => some (0x30, t, p)
  | .signOn t p => some (0x40, t, p)
  | .signOff t p => some (0x41, t, p)
  | .silence t p => some (0x42, t, p)
  | .ack t p => some (0x43, t, p)
  | .ackHead t p => some (0x44, t, p)
  | .ackArea t p => some (0x45, t, p)
  | .shelve t p => some (0x46, t, p)
  | .unshelve t p => some (0x47, t, p)
  | .takeOut t p => some (0x48, t, p)
  | .returnPoint t p => some (0x49, t, p)
  | .releaseTrip t p => some (0x4A, t, p)
  | .lockDraft t p => some (0x4B, t, p)
  | .unlockDraft t p => some (0x4C, t, p)
  | .addItem t p => some (0x4D, t, p)
  | .removeItem t p => some (0x4E, t, p)
  | .post t p => some (0x4F, t, p)
  | .reviewItem t p => some (0x50, t, p)
  | .confirmStep t p => some (0x51, t, p)
  | .restartArea t p => some (0x52, t, p)
  | .clearTripFault t p => some (0x60, t, p)
  | .beginHandover t p => some (0x61, t, p)
  | .cancelHandover t p => some (0x62, t, p)
  | .suspendArea t p => some (0x63, t, p)
  | .resumeArea t p => some (0x64, t, p)
  | .abortArea t p => some (0x65, t, p)
  | .clearAbort t p => some (0x66, t, p)
  | .badKind k t p => some (k, t, p)
  | .hardReset _ | .receiveCharacter _ | .gapTimerExpiry | .linkError | .keyContactChange _ _ _
  | .keyQualifyTimerExpiry _ _ | .keyReleaseTimerExpiry _ _ | .stuckTimerExpiry _ _ | .presenceDeadline _
  | .p1ResoundDeadline _ | .shelfExpired _ | .clockSecond | .decayStep _ | .tripLinesChange _
  | .tripQualifyTimerExpiry | .tripReleaseTimerExpiry | .waitDeadline _ | .tripHoldDeadline _
  | .stepTimeout _ | .handoverHoldDeadline _ => none

end Sys2Proof
end

