-- ==== Sys2Proof/Config.lean ====
section
/-! DEFINITION. What the part fixes once and for all: the limits the chapters state, and the one value
that each revision of the silicon fixes for itself. -/

namespace Sys2Proof.Config

/-- The largest mill time (R175). -/
def maxTime : Nat := 4294967295

/-- The largest raise sequence number, 2^48 − 1 (R4). -/
def maxSeq : Nat := 281474976710655

/-- Operator numbers run from 1 to this (R25). -/
def maxOperator : Nat := 9999

/-- Records of the roster (R25). -/
def rosterSize : Nat := 128

/-- Records of the shelf list (R79). -/
def shelfListSize : Nat := 128

/-- Shelf records of one area (R79). -/
def shelvesPerArea : Nat := 8

/-- Operator items of a draft (R122). -/
def draftItems : Nat := 16

/-- Defined standing orders of one area (R123). -/
def ordersPerArea : Nat := 8

/-- Notices of the queue (R167). -/
def queueSize : Nat := 64

/-- Bytes of the receive buffer (R162). -/
def bufferSize : Nat := 256

/-- Errors of the error list (R163). -/
def errorListSize : Nat := 16

/-- Steps of the longest step list (R141). -/
def stepListSize : Nat := 32

/-- The part number that IDENTIFY reports (R178). -/
def partNumber : Nat := 4120

/-- The silicon revision less one: R178 says a number from 1 to 255 fixed by each revision of the part and
states none, so it is a free value (DESIGN CHOICE, log entry 8). -/
opaque siliconRevision : Fin 255

end Sys2Proof.Config
end

