-- ==== Sys2Proof/Machine/State.lean ====
section
/-! DEFINITION. The state of the Stalwen 4120, block by block (00_scope 0.4), and the state a hard reset leaves. -/

namespace Sys2Proof.Machine

/-- The reasons for a stop: none. No step of the part stops it: what the spec calls a refusal is a reply (R165) and what
it calls a fault of a trip list is an effect on the state (R114). Safe: nothing can be proved of a stop there is not. -/
inductive Fault
  deriving DecidableEq, Repr

/-- Why a command has no meaning. -/
inductive Refusal
  /-- Raised by an arm of `exec` whose row has no meaning yet; there is no such arm. Safe. -/
  | notModelled (mnemonic : String)
  deriving DecidableEq, Repr

/-! ### Names the chapters use -/

/-- The operating state (R172). -/
inductive Mode | config | run
  deriving DecidableEq, Repr

/-- The crews A to E (00_scope 0.6). -/
inductive Crew | A | B | C | D | E
  deriving DecidableEq, Repr

/-- The roles (00_scope 0.6). -/
inductive Role | trainee | board | lead | supervisor
  deriving DecidableEq, Repr

/-- The nine action classes in the order of R28's table. -/
inductive ActionClass | ack | silence | shelve | service | edit | review | confirm | release | restart
  deriving DecidableEq, Repr

/-- The priorities P1 to P4; P1 is the emergency priority (00_scope 0.6). -/
inductive Priority | p1 | p2 | p3 | p4
  deriving DecidableEq, Repr

/-- The condition of a point (R3). -/
inductive Condition | clear | active
  deriving DecidableEq, Repr

/-- The annunciation state of a point (R3). -/
inductive Annunciation | normal | new | acked | faded
  deriving DecidableEq, Repr

/-- The status byte of a reply (R165). -/
inductive Status
  | done | already | badKind | badField | runOnly | configOnly | badConfig | noSuch | notSeated | notPermitted
  | notRouted | notQualified | notOnDuty | seatedElsewhere | wrongState | limit | busy | locked | poolEmpty
  | headMoved | sameCrew
  deriving DecidableEq, Repr

/-! ### The mill clock (R175) -/

/-- The seconds count, and the timebase in whole seconds since it was last restarted. -/
structure Clock where
  count    : Nat
  timebase : Nat
  deriving DecidableEq, Repr

/-- A deadline: the mill time at which something is due, and the second of the timebase from which it can be reached.
The second field says R175's "reached at the next second of the timebase" (DEDUCED, log entry 4). -/
structure Deadline where
  time  : Nat
  since : Nat
  deriving DecidableEq, Repr

/-- The timing settings of R174. -/
structure Settings where
  presenceTimeout : Nat
  p1Resound       : Nat
  keyQualify      : Nat
  keyRelease      : Nat
  tripQualify     : Nat
  tripRelease     : Nat
  trigger         : Nat
  deriving DecidableEq, Repr

/-! ### The point table (chapter 1) -/

/-- Who did something, and when: an acknowledgement (R11) or a review (R121). -/
structure Stamp where
  operator : Nat
  time     : Nat
  deriving DecidableEq, Repr

/-- One point record (section 1.1). The suppression set is kept in ascending order. -/
structure Point where
  configured   : Bool
  area         : AreaNo
  priority     : Priority
  condition    : Condition
  ann          : Annunciation
  shelved      : Bool
  outOfService : Bool
  suppression  : List TripNo
  raiseSeq     : Option Nat
  raisedAt     : Option Nat
  acked        : Option Stamp
  postTrip     : Bool
  occurrences  : Nat
  deriving DecidableEq, Repr

/-! ### The roster and the consoles (chapters 2 and 3) -/

/-- A five-bit value and mask over area codes (R25, R29). -/
structure Pair where
  value : BitVec 5
  mask  : BitVec 5
  deriving DecidableEq, Repr

/-- One operator record (R25). -/
structure Operator where
  number : Nat
  crew   : Crew
  role   : Role
  quals  : List Pair
  seat   : Option ConsoleNo
  deriving DecidableEq, Repr

/-- The configuration fields of a console (R29). -/
structure ConsoleConfig where
  configured : Bool
  routing    : Pair
  fallback   : Option ConsoleNo
  deriving DecidableEq, Repr

/-- The state of a console with the seated operator and the presence deadline, each present where R30 says. -/
inductive Seat
  | vacant
  | seated (operator : Nat) (deadline : Option Deadline)
  | absent (operator : Nat)
  deriving DecidableEq, Repr

/-- The state of a key's qualifier (R63). The qualify timer runs in PRESSING, the stuck timer in HELD, the release
timer in RELEASING and, in STUCK, while `releasing` (R64 to R66). -/
inductive KeyState
  | idle | pressing | held | releasing
  | stuck (releasing : Bool)
  deriving DecidableEq, Repr

/-- One key: the level of its contact, and its qualifier. -/
structure Key where
  closed : Bool
  state  : KeyState
  deriving DecidableEq, Repr

/-- A horn's drive: off, or the cadence of a priority (R55). -/
inductive Horn
  | off
  | cadence (p : Priority)
  deriving DecidableEq, Repr

/-- A beacon's drive (R62). -/
inductive Beacon | off | steady | flashing
  deriving DecidableEq, Repr

/-- One console record: its configuration (R29), its seat (R30), its silence marks (R53) and P1 re-sound deadline
(R61), its keys (R63), its banner as last compared (R51), and its two outputs (R55, R62). -/
structure Console where
  config      : ConsoleConfig
  seat        : Seat
  generalMark : Nat
  p1Mark      : Nat
  resound     : Option Deadline
  ackKey      : Key
  silenceKey  : Key
  head        : Option PointNo
  horn        : Horn
  beacon      : Beacon
  deriving DecidableEq, Repr

/-- The room silence mark (R47) and the room horn (R46). -/
structure Room where
  mark : Nat
  horn : Horn
  deriving DecidableEq, Repr

/-! ### The area record -/

/-- The posting mode of an area (R122). -/
inductive PostingMode | reviewAll | latest
  deriving DecidableEq, Repr

/-- The configuration fields of an area (R173). -/
structure AreaConfig where
  configured : Bool
  start      : StepNo
  posting    : PostingMode
  decay      : Nat
  floodOn    : Nat
  floodOff   : Nat
  deriving DecidableEq, Repr

/-- The suspension-reason set (R147). -/
structure Reasons where
  p1      : Bool
  flood   : Bool
  trip    : Bool
  request : Bool
  deriving DecidableEq, Repr

/-- The current step: its index in the step store and its ordinal in the list (R139). -/
structure Position where
  index   : StepNo
  ordinal : Nat
  deriving DecidableEq, Repr

/-- The handover state of an area with the fields that R139 makes present in it: deadlines while RUNNING, saved times
and the suspension set while SUSPENDED (the set is empty in every other state). -/
inductive Handover
  | steady
  | running (pos : Position) (step hold : Option Deadline)
  | suspended (pos : Position) (step hold : Option Nat) (reasons : Reasons)
  | halted (pos : Position)
  | done (pos : Position)
  deriving DecidableEq, Repr

/-- Why an area was halted (R151, R152). -/
inductive AbortReason | stepTimeout | hostAbort
  deriving DecidableEq, Repr

/-- The abort record of an area (R151). -/
structure Abort where
  reason  : AbortReason
  ordinal : Nat
  time    : Nat
  further : Bool
  deriving DecidableEq, Repr

/-- The draft frame of an area: its items and the fields of the role (R122). The commit crew is present exactly while
the draft is committed. -/
structure Draft where
  items     : List SlotNo
  lock      : Option ConsoleNo
  commit    : Option Crew
  poolShort : Bool
  deriving DecidableEq, Repr

/-- The posting summary (R134): NEW, ACKED and FADED by priority 1 to 4, then shelved, out of service, suppressed. -/
structure Summary where
  new          : Vector Nat 4
  acked        : Vector Nat 4
  faded        : Vector Nat 4
  shelved      : Nat
  outOfService : Nat
  suppressed   : Nat
  deriving DecidableEq, Repr

/-- What an exchange records on the posted frame (R132 step 5). -/
structure Posting where
  shift   : Nat
  crew    : Crew
  time    : Nat
  summary : Summary
  deriving DecidableEq, Repr

/-- The posted frame of an area (R122). -/
structure Posted where
  items   : List SlotNo
  posting : Option Posting
  deriving DecidableEq, Repr

/-- One area record: configuration (R173), meter (R90), coverage (R44), shelved count (R79), duty crew (R140),
handover record (R139), and its two sheet frames with the number of the draft frame (R122). -/
structure Area where
  config       : AreaConfig
  meter        : Nat
  flooded      : Bool
  covered      : Bool
  shelvedCount : Nat
  duty         : Crew
  handover     : Handover
  abort        : Option Abort
  draftFrame   : Fin 2
  draft        : Draft
  posted       : Posted
  deriving DecidableEq, Repr

/-! ### The shelf list (R79) -/

/-- The kind of a shelf with what ends it (R79). -/
inductive ShelfEnd
  | minutes (expiry : Deadline)
  | shifts (remaining : Nat)
  deriving DecidableEq, Repr

/-- One shelf record (R79). -/
structure Shelf where
  point    : PointNo
  area     : AreaNo
  operator : Nat
  console  : ConsoleNo
  start    : Nat
  ending   : ShelfEnd
  deriving DecidableEq, Repr

/-! ### The trip unit (chapter 6) -/

/-- The trip line qualifier (R101). In SETTLING the release timer runs or not; in QUALIFYING the qualify timer runs. -/
inductive TripQualifier
  | settling (releasing : Bool)
  | ready
  | qualifying (code : TripNo)
  deriving DecidableEq, Repr

/-- The state of a trip code with the fields that R103 makes present in it. -/
inductive TripState
  | idle
  | running (entry : EntryNo) (wait : Option Deadline)
  | holding (hold : Option Deadline)
  deriving DecidableEq, Repr

/-- One trip code record (R103). -/
structure TripCode where
  configured : Bool
  start      : EntryNo
  areas      : BitVec 32
  holdTime   : Nat
  state      : TripState
  takenAt    : Option Nat
  suppressed : Nat
  faulted    : Bool
  deriving DecidableEq, Repr

/-- A GROUP entry's own fields (R104). -/
structure Group where
  base      : PointNo
  selection : BitVec 32
  spare     : Nat
  activeToo : Bool
  deriving DecidableEq, Repr

/-- One entry of the trip list store (R104). -/
inductive TripEntry
  | empty
  | group (g : Group) (last notify : Bool)
  | wait (seconds : Nat) (last notify : Bool)
  deriving DecidableEq, Repr

/-- The trip unit: the level of the trip request lines, the qualifier, the records, the store, the pending slot and the
fault latch. -/
structure TripUnit where
  lines     : Fin 16
  qualifier : TripQualifier
  codes     : Vector TripCode 15
  store     : Vector TripEntry 512
  pending   : Option TripNo
  latch     : Bool
  deriving DecidableEq, Repr

/-! ### The sheet store (chapter 7) -/

/-- The reference of a captured shelf (R121): what ends it, as it stood. -/
inductive ShelfCopy
  | minutes (expiry : Nat)
  | shifts (remaining : Nat)
  deriving DecidableEq, Repr

/-- The kind of an item with its reference (R121). -/
inductive ItemKind
  | note (ref : Nat)
  | point (p : PointNo)
  | equipment (tag : Nat)
  | order (number : OrderNo) (ref : Nat)
  | shelf (p : PointNo) (copy : ShelfCopy)
  deriving DecidableEq, Repr

/-- One item (R121). Its origin follows from its kind. -/
structure Item where
  kind     : ItemKind
  author   : Option Nat
  created  : Nat
  reviewed : Option Stamp
  deriving DecidableEq, Repr

/-- One standing order (R123). -/
structure Order where
  defined       : Bool
  area          : AreaNo
  ref           : Nat
  rotationValue : BitVec 8
  rotationMask  : BitVec 8
  enabled       : Bool
  deriving DecidableEq, Repr

/-! ### The handover unit (chapter 8) -/

/-- The kinds of a step (R141). -/
inductive StepKind | seatIn | sheetPosted | review | clearP1 | confirmOut | confirmIn | hold
  deriving DecidableEq, Repr

/-- One entry of the step store (R141). -/
structure StepEntry where
  kind      : StepKind
  parameter : Nat
  timeout   : Nat
  next      : StepNo
  last      : Bool
  notify    : Bool
  deriving DecidableEq, Repr

/-- The mill handover record (R138). The state is OPEN exactly while an incoming crew is present. -/
structure Mill where
  shift       : Nat
  duty        : Crew
  incoming    : Option Crew
  outstanding : Nat
  deriving DecidableEq, Repr

/-! ### The supervisory link (chapter 9) -/

/-- The source of a silence (R59). -/
inductive SilenceSource | key | request | room
  deriving DecidableEq, Repr

/-- The source of a release (R117). -/
inductive ReleaseSource
  | console (c : ConsoleNo)
  | host
  | expiry
  deriving DecidableEq, Repr

/-- Why a delivered code was dropped (R108). -/
inductive DropReason | faultLatched | pendingFull | undefined
  deriving DecidableEq, Repr

/-- A notice kind with its parameters (R167). -/
inductive NoticeKind
  | banner (c : ConsoleNo) (head : Option PointNo)
  | keyAck (c : ConsoleNo) (p : PointNo) (operator : Nat)
  | keyRefused (c : ConsoleNo) (key : KeyName) (reason : Status)
  | keyStuck (c : ConsoleNo) (key : KeyName)
  | silenced (c : ConsoleNo) (source : SilenceSource)
  | shelfExpired (p : PointNo)
  | floodOn (a : AreaNo)
  | floodOff (a : AreaNo)
  | tripTaken (c : TripNo)
  | tripStep (c : TripNo) (entry : EntryNo)
  | tripDone (c : TripNo)
  | tripFault (c : TripNo) (entry : EntryNo)
  | tripReleased (c : TripNo) (source : ReleaseSource)
  | tripDropped (c : TripNo) (reason : DropReason)
  | consoleAbsent (c : ConsoleNo)
  | consolePresent (c : ConsoleNo)
  | areaUncovered (a : AreaNo)
  | areaCovered (a : AreaNo)
  | sheetPosted (a : AreaNo)
  | poolShort (a : AreaNo)
  | stepDone (a : AreaNo) (ordinal : Nat)
  | handoverSuspended (a : AreaNo) (reasons : Reasons)
  | handoverResumed (a : AreaNo)
  | handoverAborted (a : AreaNo) (reason : AbortReason) (ordinal : Nat)
  | areaHandedOver (a : AreaNo) (crew : Crew)
  | shiftChanged (shift : Nat) (crew : Crew)
  deriving DecidableEq, Repr

/-- A notice record: the notice and the mill time at which it was queued (R167). -/
structure Notice where
  kind : NoticeKind
  time : Nat
  deriving DecidableEq, Repr

/-- The notice queue, oldest first, its overflow flag (R167) and the attention output (R170). -/
structure NoticeQueue where
  records   : List Notice
  overflow  : Bool
  attention : Bool
  deriving DecidableEq, Repr

/-- The kind, tag and payload of a frame (R160). -/
structure Frame where
  kind    : Byte
  tag     : Byte
  payload : List Byte
  deriving DecidableEq, Repr

/-- The error of a discarded frame (R161, R162). -/
inductive LinkError | check | length | gap | overrun
  deriving DecidableEq, Repr

/-- What the receiver hands on (R163). -/
inductive Received
  | frame (f : Frame)
  | error (e : LinkError)
  deriving DecidableEq, Repr

/-- The receiver (R161). In BODY it holds the frame's length and the bytes after it, oldest first. Its gap timer runs
exactly in LENGTH and BODY. -/
inductive Receiver
  | hunting
  | length
  | body (len : Nat) (bytes : List Byte)
  deriving DecidableEq, Repr

/-- The link: the line speed (`slow` is 57,600 baud, R159), the receiver, the receive buffer and error list in their
one order (R163), and the reply frames sent on the transmit line, oldest first (DESIGN CHOICE, log entry 7). -/
structure Link where
  slow     : Bool
  receiver : Receiver
  order    : List Received
  sent     : List Frame
  deriving DecidableEq, Repr

/-! ### The whole -/

structure State where
  mode         : Mode
  clock        : Clock
  settings     : Settings
  points       : Vector Point 2048
  raiseCounter : Nat
  roster       : List Operator
  roles        : Vector (Vector Bool 9) 4
  consoles     : Vector Console 8
  room         : Room
  areas        : Vector Area 32
  shelves      : List Shelf
  trip         : TripUnit
  pool         : Vector (Option Item) 1024
  freeCount    : Nat
  orders       : Vector Order 64
  mill         : Mill
  steps        : Vector StepEntry 256
  queue        : NoticeQueue
  link         : Link
  pending      : List Instr
  deriving DecidableEq, Repr

/-! ### Reset values -/

/-- R174. -/
def Settings.reset : Settings :=
  { presenceTimeout := 1800, p1Resound := 120, keyQualify := 50, keyRelease := 100, tripQualify := 100,
    tripRelease := 500, trigger := 1 }

/-- R23. -/
def Point.reset : Point :=
  { configured := false, area := 0, priority := .p4, condition := .clear, ann := .normal, shelved := false,
    outOfService := false, suppression := [], raiseSeq := none, raisedAt := none, acked := none,
    postTrip := false, occurrences := 0 }

/-- R28: the default rows, trainee first, each in the order of the classes. -/
def rolesReset : Vector (Vector Bool 9) 4 :=
  #v[#v[true, true, false, false, false, true, false, false, false],
     #v[true, true, true, false, true, true, true, false, false],
     #v[true, true, true, true, true, true, true, true, false],
     #v[true, true, true, true, true, true, true, true, true]]

/-- A key at rest (R49), its contact open (DESIGN CHOICE, log entry 5). -/
def Key.reset : Key := { closed := false, state := .idle }

/-- R29, R49, R70. -/
def Console.reset : Console :=
  { config := { configured := false, routing := ⟨0, 0⟩, fallback := none }, seat := .vacant, generalMark := 0,
    p1Mark := 0, resound := none, ackKey := Key.reset, silenceKey := Key.reset, head := none, horn := .off,
    beacon := .off }

/-- R46, R47. -/
def Room.reset : Room := { mark := 0, horn := .off }

/-- R122. -/
def Draft.reset : Draft := { items := [], lock := none, commit := none, poolShort := false }

/-- R122. -/
def Posted.reset : Posted := { items := [], posting := none }

/-- R90, R122, R141; not configured (DESIGN CHOICE, log entry 6). -/
def AreaConfig.reset : AreaConfig :=
  { configured := false, start := 0, posting := .reviewAll, decay := 1, floodOn := 8192, floodOff := 2560 }

/-- R44, R79, R90, R122, R158. -/
def Area.reset : Area :=
  { config := AreaConfig.reset, meter := 0, flooded := false, covered := false, shelvedCount := 0, duty := .A,
    handover := .steady, abort := none, draftFrame := 0, draft := Draft.reset, posted := Posted.reset }

/-- R119. -/
def TripCode.reset : TripCode :=
  { configured := false, start := 0, areas := 0, holdTime := 0, state := .idle, takenAt := none, suppressed := 0,
    faulted := false }

/-- R119; the lines show 0 (DESIGN CHOICE, log entry 5). -/
def TripUnit.reset : TripUnit :=
  { lines := 0, qualifier := .settling false, codes := Vector.replicate 15 TripCode.reset,
    store := Vector.replicate 512 .empty, pending := none, latch := false }

/-- R123. -/
def Order.reset : Order :=
  { defined := false, area := 0, ref := 0, rotationValue := 0, rotationMask := 0, enabled := false }

/-- R141. -/
def StepEntry.reset : StepEntry :=
  { kind := .confirmOut, parameter := 0, timeout := 0, next := 0, last := false, notify := false }

/-- R138. -/
def Mill.reset : Mill := { shift := 0, duty := .A, incoming := none, outstanding := 0 }

/-- R171. -/
def NoticeQueue.reset : NoticeQueue := { records := [], overflow := false, attention := false }

/-- R171, at 115,200 baud (DESIGN CHOICE, log entry 5). -/
def Link.reset : Link := { slow := false, receiver := .hunting, order := [], sent := [] }

/-- The part right after a hard reset (R177), every block at its hard-reset values. -/
def State.reset : State :=
  { mode := .config, clock := ⟨0, 0⟩, settings := Settings.reset, points := Vector.replicate 2048 Point.reset,
    raiseCounter := 0, roster := [], roles := rolesReset, consoles := Vector.replicate 8 Console.reset,
    room := Room.reset, areas := Vector.replicate 32 Area.reset, shelves := [], trip := TripUnit.reset,
    pool := Vector.replicate 1024 none, freeCount := 1024, orders := Vector.replicate 64 Order.reset,
    mill := Mill.reset, steps := Vector.replicate 256 StepEntry.reset, queue := NoticeQueue.reset,
    link := Link.reset, pending := [] }

end Sys2Proof.Machine
end

