-- ==== Sys2Proof/Machine/Ops.lean ====
section
/-! DEFINITION. The named operations over the tables of the part: reading and writing one record, the mill clock's
deadlines, the notice queue, hiding and unhiding a point, the shelf list and the item pool. -/

namespace Sys2Proof.Machine

/-! ### Records -/

/-- The record of point `n` (R1). -/
def State.point (s : State) (n : PointNo) : Point := s.points[n]

/-- `s` with the record of point `n` replaced. -/
def State.setPoint (n : PointNo) (p : Point) (s : State) : State := { s with points := s.points.set n p }

/-- The record of area `a`. -/
def State.area (s : State) (a : AreaNo) : Area := s.areas[a]

/-- `s` with the record of area `a` changed by `f`. -/
def State.modArea (a : AreaNo) (f : Area → Area) (s : State) : State :=
  { s with areas := s.areas.set a (f (s.area a)) }

/-- The record of console `c` (R29). -/
def State.console (s : State) (c : ConsoleNo) : Console := s.consoles[c]

/-- `s` with the record of console `c` changed by `f`. -/
def State.modConsole (c : ConsoleNo) (f : Console → Console) (s : State) : State :=
  { s with consoles := s.consoles.set c (f (s.console c)) }

/-- The record of trip code `c` (R103). -/
def State.code (s : State) (c : TripNo) : TripCode := s.trip.codes[c]

/-- `s` with the record of trip code `c` changed by `f`. -/
def State.modCode (c : TripNo) (f : TripCode → TripCode) (s : State) : State :=
  { s with trip := { s.trip with codes := s.trip.codes.set c (f (s.code c)) } }

/-- The record of operator number `n`, if the roster holds it (R25). -/
def State.operator? (s : State) (n : Nat) : Option Operator := s.roster.find? (·.number == n)

/-- `s` with the record of operator `n`, where there is one, changed by `f`. -/
def State.modOperator (n : Nat) (f : Operator → Operator) (s : State) : State :=
  { s with roster := s.roster.map fun o => if o.number == n then f o else o }

/-- The entry at index `i` of the step store (R141). -/
def State.stepEntry (s : State) (i : StepNo) : StepEntry := s.steps[i]

/-- The entry at index `i` of the trip list store (R104). -/
def State.tripEntry (s : State) (i : EntryNo) : TripEntry := s.trip.store[i]

/-- The item in slot `i` of the pool, none where the slot is free (R120). -/
def State.item (s : State) (i : SlotNo) : Option Item := s.pool[i]

/-- Every area, ascending. -/
def allAreas : List AreaNo := List.finRange 32
/-- Every console, ascending. -/
def allConsoles : List ConsoleNo := List.finRange 8
/-- Every trip code, ascending. -/
def allCodes : List TripNo := List.finRange 15

/-- Every point with its number, ascending. -/
def State.numbered (s : State) : List (PointNo × Point) := (List.finRange 2048).zip s.points.toList

/-- The index of a role in R28's table. -/
def Role.index : Role → Fin 4
  | .trainee => 0 | .board => 1 | .lead => 2 | .supervisor => 3

/-- The index of an action class in R28's table. -/
def ActionClass.index : ActionClass → Fin 9
  | .ack => 0 | .silence => 1 | .shelve => 2 | .service => 3 | .edit => 4 | .review => 5 | .confirm => 6
  | .release => 7 | .restart => 8

/-- The priority number 1 to 4 (00_scope 0.6). -/
def Priority.num : Priority → Nat
  | .p1 => 1 | .p2 => 2 | .p3 => 3 | .p4 => 4

/-- The index 0 to 3 of a priority. -/
def Priority.index : Priority → Fin 4
  | .p1 => 0 | .p2 => 1 | .p3 => 2 | .p4 => 3

/-! ### The mill clock (R175) -/

/-- The present mill time. -/
def State.now (s : State) : Nat := s.clock.count

/-- A mill time that would exceed the maximum is the maximum (R175). -/
def clampTime (t : Nat) : Nat := min t Config.maxTime

/-- The deadline `n` seconds from now, reached at a later second (R175). -/
def State.deadlineIn (s : State) (n : Nat) : Deadline := ⟨clampTime (s.now + n), s.clock.timebase + 1⟩

/-- The deadline that a saved time becomes at a resumption: a saved time of 0 is reached in that moment (R149). -/
def State.resumeIn (s : State) (n : Nat) : Deadline :=
  ⟨clampTime (s.now + n), if n = 0 then s.clock.timebase else s.clock.timebase + 1⟩

/-- The deadline has been reached (R175). One not yet acted on stays reached (DEDUCED, log entry 3). -/
def State.due (s : State) (d : Deadline) : Bool := d.time ≤ s.now && d.since ≤ s.clock.timebase

/-- The seconds still to run to a deadline. -/
def State.remaining (s : State) (d : Deadline) : Nat := d.time - s.now

/-- A deadline moved by SET_CLOCK from the count `old` to the count `new`: it keeps the seconds it had left, and is
not reached by the setting itself (R175). -/
def Deadline.move (old new timebase : Nat) (d : Deadline) : Deadline :=
  ⟨clampTime (new + (d.time - old)), timebase + 1⟩

/-! ### The notice queue (R167 to R170) -/

/-- The record is a BANNER notice for console `c`. -/
def Notice.isBannerOf (c : ConsoleNo) (n : Notice) : Bool :=
  match n.kind with
  | .banner d _ => d == c
  | _ => false

/-- The urgent kinds (R170). -/
def NoticeKind.urgent : NoticeKind → Bool
  | .tripFault _ _ | .areaUncovered _ | .keyStuck _ _ => true
  | _ => false

/-- When the attention output is driven, at a trigger level (R170). -/
def attentionFor (trigger : Nat) (records : List Notice) : Bool :=
  trigger ≤ records.length || records.any (·.kind.urgent)

/-- The attention output re-derived from the queue (R170). -/
def State.deriveAttention (s : State) : State :=
  { s with queue := { s.queue with attention := attentionFor s.settings.trigger s.queue.records } }

/-- A notice appended at the end, or discarded with the overflow flag set when the queue is full (R167). -/
def State.append (k : NoticeKind) (s : State) : State :=
  if s.queue.records.length < Config.queueSize then
    State.deriveAttention { s with queue := { s.queue with
      records := s.queue.records ++ [{ kind := k, time := s.now }] } }
  else
    { s with queue := { s.queue with overflow := true } }

/-- A BANNER notice takes the place of the console's record where there is one, in its position: the head and the time are
replaced (R168), and the console stands, where R181 says that the first parameter is replaced (DESIGN CHOICE, log
entry 24). -/
def State.mergeBanner (c : ConsoleNo) (k : NoticeKind) (s : State) : State :=
  { s with queue := { s.queue with
      records := s.queue.records.map fun n => if n.isBannerOf c then { kind := k, time := s.now } else n } }

/-- A notice handed to the queue (R167, R168). -/
def State.notify (k : NoticeKind) (s : State) : State :=
  match k with
  | .banner c h =>
    if s.queue.records.any (·.isBannerOf c) then s.mergeBanner c (.banner c h) else s.append (.banner c h)
  | k => s.append k

/-- Notices handed to the queue in their order. -/
def State.notifyAll (ks : List NoticeKind) (s : State) : State := ks.foldl (fun s k => s.notify k) s

/-! ### Points (chapter 1) -/

/-- A point with at least one hiding reason is hidden (R3, R13). -/
def Point.hidden (p : Point) : Bool := p.shelved || p.outOfService || !p.suppression.isEmpty

/-- The point exists for the purposes of the part (R1). -/
def State.exists? (s : State) (p : Point) : Bool := p.configured && (s.area p.area).config.configured

/-- The raise sequence counter after one more point has become NEW; it stays at its maximum (R4). -/
def nextSeq (n : Nat) : Nat := min (n + 1) Config.maxSeq

/-- Point `n`, with the record `p`, becomes NEW: it takes a fresh raise sequence number (R4), its acknowledgement
fields become absent (R11), and the post-trip mark is as given (R12). -/
def State.becomeNew (n : PointNo) (marked : Bool) (p : Point) (s : State) : State :=
  { s with raiseCounter := nextSeq s.raiseCounter }.setPoint n
    { p with ann := .new, raiseSeq := some (nextSeq s.raiseCounter), acked := none, postTrip := marked }

/-- A hiding reason is added to point `n` by `f` (R14). -/
def State.addReason (n : PointNo) (f : Point → Point) (s : State) : State :=
  let p := s.point n
  if p.hidden then s.setPoint n (f p) else s.setPoint n { f p with ann := .normal, postTrip := false }

/-- A hiding reason is removed from point `n` by `f` (R15); `marked` says that the reason was suppression. -/
def State.removeReason (n : PointNo) (f : Point → Point) (marked : Bool) (s : State) : State :=
  let p := s.point n
  if p.hidden && !(f p).hidden && p.condition == .active then s.becomeNew n marked (f p) else s.setPoint n (f p)

/-- A code joins a suppression set, kept ascending. -/
def insertCode (c : TripNo) : List TripNo → List TripNo
  | [] => [c]
  | d :: ds => if c < d then c :: d :: ds else if c = d then d :: ds else d :: insertCode c ds

/-! ### The shelf list (R79) -/

/-- The shelf record of a point, if it has one. -/
def State.shelfOf? (s : State) (n : PointNo) : Option Shelf := s.shelves.find? (·.point == n)

/-- The shelf records of an area, in shelving order. -/
def State.shelvesOf (s : State) (a : AreaNo) : List Shelf := s.shelves.filter (·.area == a)

/-- The shelf record `r` leaves the list and its area's shelved count decreases by one (R79). -/
def State.dropShelf (r : Shelf) (s : State) : State :=
  { s with shelves := s.shelves.filter (· != r) }.modArea r.area
    fun a => { a with shelvedCount := a.shelvedCount - 1 }

/-- The shelf record `r` ends: it leaves the list and the shelved reason leaves its point (R83 to R85). -/
def State.endShelf (r : Shelf) (s : State) : State :=
  (s.dropShelf r).removeReason r.point (fun p => { p with shelved := false }) false

/-! ### The item pool (R120) -/

/-- Every slot with what it holds, ascending. -/
def State.slots (s : State) : List (SlotNo × Option Item) := (List.finRange 1024).zip s.pool.toList

/-- The lowest-numbered free slot. -/
def State.lowestFree (s : State) : Option SlotNo := (s.slots.find? (·.2.isNone)).map Prod.fst

/-- The item is placed in slot `i`, and the free count decreases by one. -/
def State.placeItem (i : SlotNo) (x : Item) (s : State) : State :=
  { s with pool := s.pool.set i (some x), freeCount := s.freeCount - 1 }

/-- Slot `i` becomes free and the free count increases by one. -/
def State.freeSlot (i : SlotNo) (s : State) : State :=
  { s with pool := s.pool.set i none, freeCount := s.freeCount + 1 }

/-- Every slot of a list becomes free. -/
def State.freeSlots (is : List SlotNo) (s : State) : State := is.foldl (fun s i => s.freeSlot i) s

/-- The item in slot `i`, where there is one, changed by `f`. -/
def State.modItem (i : SlotNo) (f : Item → Item) (s : State) : State :=
  { s with pool := s.pool.set i ((s.item i).map f) }

/-- The reviewed fields of every item of a list of slots become absent (R132 step 3). -/
def State.clearReviews (is : List SlotNo) (s : State) : State :=
  is.foldl (fun s i => s.modItem i fun x => { x with reviewed := none }) s

/-- The origin of an item is CAPTURED for ORDER and SHELF items, else OPERATOR (R121). -/
def Item.captured (x : Item) : Bool :=
  match x.kind with
  | .order _ _ | .shelf _ _ => true
  | .note _ | .point _ | .equipment _ => false

end Sys2Proof.Machine
end

