-- ==== Sys2Proof/Machine/Flags.lean ====
section
/-! DEFINITION. The standing relations of the part: what is derived from the records and stored nowhere (effective
routing, annunciation order, eligibility, coverage, duty, suspension reasons, step and exchange conditions). -/

namespace Sys2Proof.Machine

/-! ### Routing and qualification -/

/-- A value/mask pair matches an area code (00_scope 0.6). -/
def Pair.matches (q : Pair) (a : AreaNo) : Bool := (BitVec.ofNat 5 a.val &&& q.mask) == (q.value &&& q.mask)

/-- The operator is qualified for the area (R25). -/
def Operator.qualified (o : Operator) (a : AreaNo) : Bool := o.quals.any (·.matches a)

/-- The console is SEATED (R30). -/
def Seat.isSeated : Seat → Bool
  | .seated _ _ => true
  | .vacant | .absent _ => false

/-- The number of the operator signed on at the console (R30). -/
def Seat.operator? : Seat → Option Nat
  | .vacant => none
  | .seated n _ | .absent n => some n

/-- The area is in the console's own routing (R29). -/
def Console.ownRouting (c : Console) (a : AreaNo) : Bool := c.config.routing.matches a

/-- The area is in the effective routing of console `c` (R38). -/
def State.routes (s : State) (c : ConsoleNo) (a : AreaNo) : Bool :=
  (s.console c).config.configured &&
    ((s.console c).ownRouting a ||
      allConsoles.any fun d =>
        let r := s.console d
        r.config.configured && r.config.fallback == some c && !r.seat.isSeated && r.ownRouting a)

/-- The set of areas for which `f` holds, as 32 area flags (R180). -/
def areaSet (f : AreaNo → Bool) : BitVec 32 :=
  allAreas.foldl (fun w a => if f a then w ||| (1#32 <<< a.val) else w) 0

/-- Area `a` is a member of a set of areas (R180). -/
def inSet (w : BitVec 32) (a : AreaNo) : Bool := w.getLsbD a.val

/-! ### Duty -/

/-- The mill handover state is OPEN (R138). -/
def Mill.isOpen (m : Mill) : Bool := m.incoming.isSome

/-- The area's handover is RUNNING or SUSPENDED. -/
def Handover.inProgress : Handover → Bool
  | .running _ _ _ | .suspended _ _ _ _ => true
  | .steady | .halted _ | .done _ => false

/-- The area's handover state is RUNNING. -/
def Handover.isRunning : Handover → Bool
  | .running _ _ _ => true
  | _ => false

/-- The area's handover state is SUSPENDED. -/
def Handover.isSuspended : Handover → Bool
  | .suspended _ _ _ _ => true
  | _ => false

/-- The area's handover state is HALTED. -/
def Handover.isHalted : Handover → Bool
  | .halted _ => true
  | _ => false

/-- The area's handover state is DONE. -/
def Handover.isDone : Handover → Bool
  | .done _ => true
  | _ => false

/-- The current step of an area, present where R139 says. -/
def Handover.position? : Handover → Option Position
  | .steady => none
  | .running p _ _ | .suspended p _ _ _ | .halted p | .done p => some p

/-- The kind of the area's current step. -/
def State.stepKind? (s : State) (a : AreaNo) : Option StepKind :=
  (s.area a).handover.position?.map fun p => (s.stepEntry p.index).kind

/-- On duty for the area in the ACK sense (R42). -/
def State.dutyAck (s : State) (k : Crew) (a : AreaNo) : Bool :=
  k == (s.area a).duty || (s.mill.incoming == some k && (s.area a).handover.inProgress)

/-- On duty for the SILENCE class (R42). -/
def State.dutySilence (s : State) (k : Crew) : Bool := k == s.mill.duty || s.mill.incoming == some k

/-- On duty for every other action with an area (R42). -/
def State.dutyArea (s : State) (k : Crew) (a : AreaNo) : Bool := k == (s.area a).duty

/-! ### The annunciation order (R50) -/

/-- The unhidden points that are NEW, ACKED or FADED, ascending. -/
def State.inView (s : State) : List (PointNo × Point) :=
  s.numbered.filter fun x => !x.2.hidden && x.2.ann != .normal

/-- R50's keys, each deciding among points that are equal on every key before it. -/
def ranksBefore (x y : PointNo × Point) : Bool :=
  let fx := x.2.ann == .faded
  let fy := y.2.ann == .faded
  if fx != fy then fy
  else if x.2.priority.num ≠ y.2.priority.num then x.2.priority.num < y.2.priority.num
  else if x.2.postTrip != y.2.postTrip then y.2.postTrip
  else if x.2.raiseSeq.getD 0 ≠ y.2.raiseSeq.getD 0 then x.2.raiseSeq.getD 0 < y.2.raiseSeq.getD 0
  else x.1 < y.1

/-- A point placed in a ranked list. -/
def insertRanked (x : PointNo × Point) : List (PointNo × Point) → List (PointNo × Point)
  | [] => [x]
  | y :: ys => if ranksBefore x y then x :: y :: ys else y :: insertRanked x ys

/-- A list of points put in rank order. -/
def ranked : List (PointNo × Point) → List (PointNo × Point)
  | [] => []
  | x :: xs => insertRanked x (ranked xs)

/-- The conditions of R50 on a point of `inView`: it exists, it is NEW or FADED, and console `c` routes its area. -/
def State.ordered (s : State) (c : ConsoleNo) (x : PointNo × Point) : Bool :=
  s.exists? x.2 && (x.2.ann == .new || x.2.ann == .faded) && s.routes c x.2.area

/-- The annunciation order of console `c`, first rank first (R50). -/
def State.orderOf (s : State) (c : ConsoleNo) : List (PointNo × Point) := ranked (s.inView.filter (s.ordered c))

/-- The banner of console `c`: the first point of its order (R51). -/
def State.bannerOf (s : State) (c : ConsoleNo) : Option PointNo := (s.orderOf c).head?.map Prod.fst

/-! ### Horns and beacons -/

/-- The best priority among points that satisfy `f`, as a horn drive (R46, R55). -/
def hornFor (f : Point → Bool) (xs : List (PointNo × Point)) : Horn :=
  let has (p : Priority) := xs.any fun x => x.2.priority == p && f x.2
  if has .p1 then .cadence .p1 else if has .p2 then .cadence .p2 else if has .p3 then .cadence .p3
  else if has .p4 then .cadence .p4 else .off

/-- Unhidden and NEW. -/
def Point.sounding (p : Point) : Bool := !p.hidden && p.ann == .new

/-- The point's raise sequence number lies above a silence mark. -/
def Point.above (p : Point) (mark : Nat) : Bool := mark < p.raiseSeq.getD 0

/-- The point is eligible for the horn of console `c` (R54). -/
def State.hornEligible (s : State) (c : ConsoleNo) (p : Point) : Bool :=
  p.sounding && s.routes c p.area && !p.postTrip
    && !((p.priority == .p3 || p.priority == .p4) && (s.area p.area).flooded)
    && (p.above (s.console c).generalMark || (p.priority == .p1 && p.above (s.console c).p1Mark))

/-- The horn of console `c` (R55): off in CONFIG, at a VACANT console and at an unconfigured one. -/
def State.hornOf (s : State) (c : ConsoleNo) : Horn :=
  if s.mode == .run && (s.console c).config.configured && (s.console c).seat != .vacant then
    hornFor (s.hornEligible c) s.inView
  else .off

/-- The beacon of console `c` (R62). -/
def State.beaconOf (s : State) (c : ConsoleNo) : Beacon :=
  let routed := s.inView.filter fun x => s.routes c x.2.area
  if s.mode == .run && (s.console c).config.configured then
    if routed.any (·.2.ann == .new) then .flashing else if routed.isEmpty then .off else .steady
  else .off

/-- The point is eligible for the room horn (R46). -/
def State.roomEligible (s : State) (p : Point) : Bool :=
  p.sounding && !p.postTrip && !(s.area p.area).covered && p.above s.room.mark

/-- The room horn (R46); off in CONFIG. -/
def State.roomHornOf (s : State) : Horn :=
  if s.mode == .run then hornFor s.roomEligible s.inView else .off

/-! ### Coverage (R44) -/

/-- The area is covered by console `c`: SEATED, routing it, by an operator qualified and on duty for it. -/
def State.coveredBy (s : State) (a : AreaNo) (c : ConsoleNo) : Bool :=
  match (s.console c).seat with
  | .seated n _ =>
    match s.operator? n with
    | some o => s.routes c a && o.qualified a && s.dutyAck o.crew a
    | none => false
  | .vacant | .absent _ => false

/-- The configured area is covered (R44). -/
def State.coveredNow (s : State) (a : AreaNo) : Bool :=
  (s.area a).config.configured && allConsoles.any (s.coveredBy a)

/-! ### Trips -/

/-- The trip code is RUNNING (R103). -/
def TripState.isRunning : TripState → Bool
  | .running _ _ => true
  | .idle | .holding _ => false

/-- The trip code is IDLE. -/
def TripState.isIdle : TripState → Bool
  | .idle => true
  | .running _ _ | .holding _ => false

/-- The running code, of which there is at most one (R108). -/
def State.runningCode (s : State) : Option TripNo := allCodes.find? fun c => (s.code c).state.isRunning

/-- A RUNNING trip code's area set includes the area: the BUSY test and the TRIP reason. -/
def State.tripCovers (s : State) (a : AreaNo) : Bool :=
  allCodes.any fun c => (s.code c).state.isRunning && inSet (s.code c).areas a

/-- No code is RUNNING or HOLDING (R105, R106). -/
def State.tripsIdle (s : State) : Bool := allCodes.all fun c => (s.code c).state.isIdle

/-! ### The handover unit -/

/-- A point of priority 1 of the area, unhidden, in an annunciation state. -/
def State.p1In (s : State) (a : AreaNo) (f : Annunciation → Bool) : Bool :=
  s.numbered.any fun x => x.2.area == a && x.2.priority == .p1 && !x.2.hidden && f x.2.ann

/-- The suspension reasons whose conditions stand in area `a`, beside the REQUEST reason as given (R147). -/
def State.reasonsNow (s : State) (a : AreaNo) (request : Bool) : Reasons :=
  { p1 := s.p1In a (· == .new), flood := (s.area a).flooded, trip := s.tripCovers a, request }

/-- The set is empty. -/
def Reasons.isEmpty (r : Reasons) : Bool := !(r.p1 || r.flood || r.trip || r.request)

/-- The shift a sheet is posted for: the one after the mill shift number (R123). -/
def State.nextShift (s : State) : Nat := if s.mill.shift = 65535 then 0 else s.mill.shift + 1

/-- Some operator of the incoming crew, qualified for the area, is seated at a SEATED console routing it (R142). -/
def State.seatInMet (s : State) (a : AreaNo) : Bool :=
  allConsoles.any fun c =>
    match (s.console c).seat with
    | .seated n _ =>
      match s.operator? n with
      | some o => s.mill.incoming == some o.crew && o.qualified a && s.routes c a
      | none => false
    | .vacant | .absent _ => false

/-- The item in a slot has a reviewer. -/
def State.reviewed (s : State) (i : SlotNo) : Bool :=
  match s.item i with
  | some x => x.reviewed.isSome
  | none => true

/-- The condition of a condition step (R142); a step of another kind completes on no condition. -/
def State.conditionMet (s : State) (a : AreaNo) : StepKind → Bool
  | .seatIn => s.seatInMet a
  | .sheetPosted => (s.area a).posted.posting.map (·.shift) == some s.nextShift
  | .review => (s.area a).posted.items.all s.reviewed
  | .clearP1 => !s.p1In a fun n => n == .new || n == .faded
  | .confirmOut | .confirmIn | .hold => false

/-! ### The exchange (R129) -/

/-- The standing order is due for the area at an exchange (R123). -/
def State.orderDue (s : State) (a : AreaNo) (o : Order) : Bool :=
  o.defined && o.enabled && o.area == a
    && (BitVec.ofNat 8 s.nextShift &&& o.rotationMask) == (o.rotationValue &&& o.rotationMask)

/-- The standing orders due for the area with their numbers, ascending (R123). -/
def State.ordersDue (s : State) (a : AreaNo) : List (OrderNo × Order) :=
  ((List.finRange 64).zip s.orders.toList).filter fun x => s.orderDue a x.2

/-- The number of captured items that an exchange of the area needs (R129 condition 4). -/
def State.captureNeed (s : State) (a : AreaNo) : Nat := (s.area a).shelvedCount + (s.ordersDue a).length

/-- The area's handover is at a REVIEW step (R129 condition 2). -/
def State.underReview (s : State) (a : AreaNo) : Bool :=
  (s.area a).handover.inProgress && s.stepKind? a == some .review

/-- The posted frame may be replaced (R129 condition 3). -/
def State.mayReplace (s : State) (a : AreaNo) : Bool :=
  let r := s.area a
  r.config.posting == .latest || r.posted.items.isEmpty || r.posted.items.all s.reviewed
    || (r.draft.commit.isSome && r.posted.posting.map (·.crew) == r.draft.commit)

/-- Conditions 1 to 3 of R129. -/
def State.exchangeReady (s : State) (a : AreaNo) : Bool :=
  (s.area a).draft.commit.isSome && !s.underReview a && s.mayReplace a

/-- Condition 4 of R129. -/
def State.poolSuffices (s : State) (a : AreaNo) : Bool := s.captureNeed a ≤ s.freeCount

/-- How many points satisfy `f` (R134). -/
def State.countPoints (s : State) (f : Point → Bool) : Nat := s.points.toList.countP f

/-- The posting summary of the area (R134). -/
def State.summaryOf (s : State) (a : AreaNo) : Summary :=
  let inArea (p : Point) : Bool := s.exists? p && p.area == a
  let byState (n : Annunciation) : Vector Nat 4 :=
    #v[Priority.p1, .p2, .p3, .p4].map fun q =>
      s.countPoints fun p => inArea p && !p.hidden && p.ann == n && p.priority == q
  { new := byState .new, acked := byState .acked, faded := byState .faded,
    shelved := s.countPoints fun p => inArea p && p.shelved,
    outOfService := s.countPoints fun p => inArea p && p.outOfService,
    suppressed := s.countPoints fun p => inArea p && !p.suppression.isEmpty }

end Sys2Proof.Machine
end

