-- ==== Sys2Proof/Machine/Annunciate.lean ====
section
/-! DEFINITION. The re-derivations at the end of an event: coverage (R45), the banner comparison (R51), the horns, the
beacons and the room horn (R46, R56, R62). -/

namespace Sys2Proof.Machine

/-- The configured areas whose covered flag a re-derivation changes, ascending (R44). -/
def State.coverageChanges (s : State) : List AreaNo :=
  allAreas.filter fun a => (s.area a).config.configured && (s.area a).covered != s.coveredNow a

/-- The notice of a changed covered flag (R44). -/
def State.coverageNotice (s : State) (a : AreaNo) : NoticeKind :=
  if s.coveredNow a then .areaCovered a else .areaUncovered a

/-- Every covered flag at its derived value. -/
def State.setCoverage (s : State) : State :=
  { s with areas := Vector.ofFn fun a => { s.area a with covered := s.coveredNow a } }

/-- Coverage re-derived, with the notices of the changed flags in ascending area code (R45). -/
def State.rederiveCoverage (s : State) : State :=
  s.setCoverage.notifyAll (s.coverageChanges.map s.coverageNotice)

/-- The consoles whose banner has moved since it was last compared, ascending (R51). -/
def State.bannerChanges (s : State) : List ConsoleNo := allConsoles.filter fun c => (s.console c).head != s.bannerOf c

/-- Every banner as it now stands. -/
def State.setBanners (s : State) : State :=
  { s with consoles := Vector.ofFn fun c => { s.console c with head := s.bannerOf c } }

/-- The banner comparison, with a BANNER notice for each console whose banner moved (R51). -/
def State.compareBanners (s : State) : State :=
  s.setBanners.notifyAll (s.bannerChanges.map fun c => .banner c (s.bannerOf c))

/-- The horns, the beacons and the room horn re-derived (R46, R56, R62). They give no notice. -/
def State.driveOutputs (s : State) : State :=
  { s with
    consoles := Vector.ofFn fun c => { s.console c with horn := s.hornOf c, beacon := s.beaconOf c }
    room := { s.room with horn := s.roomHornOf } }

/-- The annunciator at the end of an event: the banner comparison, then the outputs. -/
def State.annunciate (s : State) : State := s.compareBanners.driveOutputs

end Sys2Proof.Machine
end

