-- ==== Sys2Proof/Machine/Procedure.lean ====
section
/-! DEFINITION. The handover unit's work inside an event (chapter 8): entering and completing steps, suspension and
resumption, halting, and the shift change. The notices it gives are kept beside the state until coverage and banner
notices have been queued before them (R156). -/

namespace Sys2Proof.Machine

/-- An event in progress: the state so far, the handover notices in the order they arose (R156), and what its end must
still do: re-derive coverage (R45), change the shift (R154), and let the sheet store examine (R130). -/
structure Work where
  s      : State
  out    : List NoticeKind := []
  cover  : Bool := false
  shift  : Bool := false
  sheets : Bool := false
  deriving DecidableEq, Repr

/-- A handover notice arises. -/
def Work.say (k : NoticeKind) (w : Work) : Work := { w with out := w.out ++ [k] }

/-- Area `a`'s handover record changes, and the sheet store is told (R139). -/
def Work.setHandover (a : AreaNo) (h : Handover) (w : Work) : Work :=
  { w with s := w.s.modArea a fun r => { r with handover := h }, sheets := true }

/-! ### Steps -/

/-- The seconds of a step's timeout, none where it is 0 (R144). -/
def StepEntry.timeoutSeconds (e : StepEntry) : Option Nat := if e.timeout = 0 then none else some e.timeout

/-- The seconds of a HOLD step, none for another kind (R144). -/
def StepEntry.holdSeconds (e : StepEntry) : Option Nat := if e.kind = .hold then some e.parameter else none

/-- The handover record of an area that enters the step at `p`, RUNNING when the reasons are none (R144). -/
def State.entering (s : State) (p : Position) (r : Reasons) : Handover :=
  let e := s.stepEntry p.index
  if r.isEmpty then .running p (e.timeoutSeconds.map s.deadlineIn) (e.holdSeconds.map s.deadlineIn)
  else .suspended p e.timeoutSeconds e.holdSeconds r

/-- No suspension reason. -/
def Reasons.none : Reasons := ⟨false, false, false, false⟩

/-- Area `a` completes the LAST step of its list (R146). -/
def Work.completeArea (a : AreaNo) (p : Position) (w : Work) : Work :=
  let crew := w.s.mill.incoming.getD w.s.mill.duty
  let s := w.s.modArea a fun r =>
    { r with handover := .done p, duty := crew, draft := { r.draft with lock := none } }
  let left := s.mill.outstanding - 1
  { (w.say (.areaHandedOver a crew)) with
    s := { s with mill := { s.mill with outstanding := left } }, cover := true, sheets := true,
    shift := w.shift || left == 0 }

/-- The current step of the RUNNING area `a` completes (R145), and the steps after it whose conditions already hold
(R144). The first argument bounds the steps: a list holds at most 32 (R141). -/
def Work.advance : Nat → AreaNo → Work → Work
  | 0, _, w => w
  | n + 1, a, w =>
    match (w.s.area a).handover with
    | .running p _ _ =>
      let e := w.s.stepEntry p.index
      let w := if e.notify then w.say (.stepDone a p.ordinal) else w
      if e.last then w.completeArea a p
      else
        let q : Position := ⟨e.next, p.ordinal + 1⟩
        let w := w.setHandover a (w.s.entering q Reasons.none)
        if w.s.conditionMet a (w.s.stepEntry q.index).kind then advance n a w else w
    | .steady | .suspended _ _ _ _ | .halted _ | .done _ => w

/-- The current step of area `a` completes, by a confirmation or a hold deadline (R145). -/
def Work.completeStep (a : AreaNo) (w : Work) : Work := w.advance Config.stepListSize a

/-- The current step of area `a`, when it is a condition step of one of the kinds `f`, is examined: it completes while
RUNNING with its condition met (R142). -/
def Work.examine (a : AreaNo) (f : StepKind → Bool) (w : Work) : Work :=
  match (w.s.area a).handover with
  | .running p _ _ =>
    let k := (w.s.stepEntry p.index).kind
    if f k && w.s.conditionMet a k then w.completeStep a else w
  | .steady | .suspended _ _ _ _ | .halted _ | .done _ => w

/-- Area `a` begins its step list (R143, R153): its suspension set is built from the state with REQUEST absent, it
enters its first step, and the step is examined. -/
def Work.begin (a : AreaNo) (w : Work) : Work :=
  let r := w.s.reasonsNow a false
  let w := w.setHandover a (w.s.entering ⟨(w.s.area a).config.start, 1⟩ r)
  let w := { w with cover := true }
  if r.isEmpty then w.examine a fun _ => true else w.say (.handoverSuspended a r)

/-! ### Suspension -/

/-- The suspension set of area `a` becomes `r` (R149). -/
def Work.setReasons (a : AreaNo) (r : Reasons) (w : Work) : Work :=
  match (w.s.area a).handover with
  | .running p step hold =>
    if r.isEmpty then w
    else (w.setHandover a (.suspended p (step.map w.s.remaining) (hold.map w.s.remaining) r)).say
      (.handoverSuspended a r)
  | .suspended p step hold _ =>
    if r.isEmpty then
      ((w.setHandover a (.running p (step.map w.s.resumeIn) (hold.map w.s.resumeIn))).say (.handoverResumed a)).examine a
        fun _ => true
    else { w with s := w.s.modArea a fun x => { x with handover := .suspended p step hold r } }
  | .steady | .halted _ | .done _ => w

/-- The REQUEST reason of the set as it stands. -/
def Handover.requested : Handover → Bool
  | .suspended _ _ _ r => r.request
  | .steady | .running _ _ _ | .halted _ | .done _ => false

/-- The reasons of area `a` are read again at the end of a change (R147), and its current step, where it is of one of
the kinds `f`, is examined (R142). -/
def Work.reconsider (a : AreaNo) (f : StepKind → Bool) (w : Work) : Work :=
  if (w.s.area a).handover.inProgress then
    (w.setReasons a (w.s.reasonsNow a (w.s.area a).handover.requested)).examine a f
  else w

/-- A priority-1 point of its area has changed: the P1 reason and any CLEAR_P1 step are re-examined (R16, R71). -/
def Work.pointChanged (p : Point) (w : Work) : Work :=
  if p.priority = .p1 then w.reconsider p.area (· == .clearP1) else w

/-- The running area set has changed: the TRIP reason of every area follows it, in ascending area code (R147). -/
def Work.tripsChanged (w : Work) : Work := allAreas.foldl (fun w a => w.reconsider a fun _ => false) w

/-- The SEAT_IN steps of the areas that satisfy `f` are examined, in ascending area code (R142). -/
def Work.seatsChanged (f : AreaNo → Bool) (w : Work) : Work :=
  allAreas.foldl (fun w a => if f a then w.examine a (· == .seatIn) else w) w

/-! ### Halting -/

/-- The abort record after an abort (R151): the first is kept, and a later one sets its further-aborts flag. -/
def State.abortRecord (s : State) (a : AreaNo) (why : AbortReason) (ordinal : Nat) : Abort :=
  match (s.area a).abort with
  | some r => { r with further := true }
  | none => { reason := why, ordinal, time := s.now, further := false }

/-- The RUNNING or SUSPENDED area `a` is halted (R151, R152). -/
def Work.halt (a : AreaNo) (why : AbortReason) (w : Work) : Work :=
  match (w.s.area a).handover with
  | .running p _ _ | .suspended p _ _ _ =>
    let record := w.s.abortRecord a why p.ordinal
    let w := w.setHandover a (.halted p)
    { (w.say (.handoverAborted a why p.ordinal)) with
      s := w.s.modArea a fun r => { r with abort := some record }, cover := true }
  | .steady | .halted _ | .done _ => w

/-! ### The shift change (R154) -/

/-- A SHIFTS shelf's remaining shift changes decrease by one (R85). -/
def Shelf.countDown (r : Shelf) : Shelf :=
  match r.ending with
  | .shifts n => { r with ending := .shifts (n - 1) }
  | .minutes _ => r

/-- The SHIFTS shelf has no shift change left (R85). -/
def Shelf.spent (r : Shelf) : Bool := r.ending == .shifts 0

/-- The shelf record `r` expires: its SHELF_EXPIRED notice, then the banner comparison of this expiry (R84, R85). -/
def State.expireShelf (r : Shelf) (s : State) : State := ((s.endShelf r).notify (.shelfExpired r.point)).annunciate

/-- The shelf list's part in the shift change (R85): every SHIFTS record counts down, then the spent ones expire in
shelving order. -/
def State.countShelves (s : State) : State :=
  let list := s.shelves.map Shelf.countDown
  (list.filter Shelf.spent).foldl (fun s r => s.expireShelf r) { s with shelves := list }

/-- The crews and the areas at the shift change (R154 steps 1 to 3). -/
def State.changeCrews (crew : Crew) (s : State) : State :=
  { s with
    mill := { shift := s.nextShift, duty := crew, incoming := none, outstanding := 0 }
    areas := s.areas.map fun r => { r with duty := crew, handover := .steady } }

/-- The shift change (R154), with its notices (R156). -/
def State.shiftChange (s : State) : State :=
  let crew := s.mill.incoming.getD s.mill.duty
  let s := (s.changeCrews crew).countShelves
  ((s.notify (.shiftChanged s.mill.shift s.mill.duty)).rederiveCoverage).driveOutputs

/-! ### The end of an event, up to the sheet store's pass -/

/-- Coverage and its notices, the annunciator and its notices, the handover notices, and the shift change with its
notices, in the order of R156. -/
def Work.settle (w : Work) : State :=
  let s := if w.cover then w.s.rederiveCoverage else w.s
  let s := s.annunciate.notifyAll w.out
  if w.shift then s.shiftChange else s

end Sys2Proof.Machine
end

