-- ==== Sys2Proof/Machine/Exchange.lean ====
section
/-! DEFINITION. The exchange of a committed draft (R132 to R134), the pass that finds it (R130, R131), and the end of
an event. -/

namespace Sys2Proof.Machine

/-- A captured item takes the lowest free slot and joins the end of area `a`'s posted frame (R133). -/
def State.capture (a : AreaNo) (k : ItemKind) (s : State) : State :=
  match s.lowestFree with
  | some i =>
    (s.placeItem i { kind := k, author := none, created := s.now, reviewed := none }).modArea a fun r =>
      { r with posted := { r.posted with items := r.posted.items ++ [i] } }
  | none => s

/-- What a SHELF item copies of a shelf record (R121). -/
def Shelf.copy (r : Shelf) : ShelfCopy :=
  match r.ending with
  | .minutes d => .minutes d.time
  | .shifts n => .shifts n

/-- The kinds of the items an exchange of area `a` captures, in their order (R133). -/
def State.captures (s : State) (a : AreaNo) : List ItemKind :=
  (s.ordersDue a).map (fun x => .order x.1 x.2.ref) ++ (s.shelvesOf a).map fun r => .shelf r.point r.copy

/-- The frames of area `a` swap roles, and the new draft is empty and cleared (R132 steps 1 and 2). -/
def Area.swapFrames (r : Area) : Area :=
  { r with
    draftFrame := 1 - r.draftFrame
    draft := Draft.reset
    posted := { items := r.draft.items, posting := none } }

/-- What the new posted frame of area `a` records (R132 step 5), the commit crew being `crew`. -/
def State.postingFor (s : State) (a : AreaNo) (crew : Crew) : Posting :=
  { shift := s.nextShift, crew, time := s.now, summary := s.summaryOf a }

/-- The sheet store's part of an exchange of area `a` (R132 steps 1 to 5). -/
def State.swapSheets (a : AreaNo) (s : State) : State :=
  let old := (s.area a).posted.items
  let drafted := (s.area a).draft.items
  let crew := (s.area a).draft.commit.getD (s.area a).duty
  let kinds := s.captures a
  let s := ((s.modArea a Area.swapFrames).freeSlots old).clearReviews drafted
  let s := kinds.foldl (fun s k => s.capture a k) s
  s.modArea a fun r => { r with posted := { r.posted with posting := some (s.postingFor a crew) } }

/-- An exchange of area `a` (R132): the frames, then SHEET_POSTED, then the handover unit's examination of a
SHEET_POSTED or REVIEW step with its notices. Coverage that the completion of an area brings about, and the shift change
that the completion of the last area brings about, are made whole here, before the pass goes on (DESIGN CHOICE, log
entry 10). -/
def State.exchange (a : AreaNo) (s : State) : State :=
  let s := (s.swapSheets a).notify (.sheetPosted a)
  (Work.mk s [] false false false |>.examine a fun k => k == .sheetPosted || k == .review).settle

/-- The pool is short for area `a`: POOL_SHORT is given once for its commit (R131). -/
def State.reportShort (a : AreaNo) (s : State) : State :=
  if (s.area a).draft.poolShort then s
  else (s.modArea a fun r => { r with draft := { r.draft with poolShort := true } }).notify (.poolShort a)

/-- The examination of one area in a pass, and whether it was exchanged (R130, R131). -/
def State.examineSheet (a : AreaNo) (s : State) : State × Bool :=
  if (s.area a).config.configured && s.exchangeReady a then
    if s.poolSuffices a then (s.exchange a, true) else (s.reportShort a, false)
  else (s, false)

/-- One pass over the areas in ascending code, and whether it made an exchange (R130). -/
def State.passOnce (s : State) : State × Bool :=
  allAreas.foldl (fun x a => let y := x.1.examineSheet a; (y.1, x.2 || y.2)) (s, false)

/-- Passes repeated until one makes no exchange (R130). Each exchange takes a commit away, so 33 passes suffice. -/
def State.passes : Nat → State → State
  | 0, s => s
  | n + 1, s => let x := s.passOnce; if x.2 then passes n x.1 else x.1

/-- The sheet store's examination (R130). -/
def State.examineSheets (s : State) : State := s.passes 33

/-- The end of an event: the settling of R156, the owner's notices that stand after it (DESIGN CHOICE, log entry 11), and the sheet store's pass where
one of R130's events has occurred. -/
def Work.finish (w : Work) (after : List NoticeKind := []) : State :=
  let s := w.settle.notifyAll after
  if w.sheets then s.examineSheets else s

end Sys2Proof.Machine
end

