-- ==== Sys2Proof/Machine/Operands.lean ====
section
/-! DEFINITION. The bytes of the link: the frame check (R160), the encodings of R180 both ways, the fields of every
request's payload with their ranges (steps 2 and 3 of R164), and the layouts of notices and reported records (R181, R182).
A payload that is too short, too long or holds a field out of range is read as none. -/

namespace Sys2Proof.Machine

/-! ### The frame check (R160) -/

/-- One bit of the check register: a shift left, with the polynomial x^16 + x^12 + x^5 + 1 where a one leaves it. -/
def crcBit (r : BitVec 16) : BitVec 16 := if r.msb then (r <<< 1) ^^^ 0x1021#16 else r <<< 1

/-- One byte enters the check register, most significant bit first. -/
def crcByte (r : BitVec 16) (b : Byte) : BitVec 16 :=
  crcBit (crcBit (crcBit (crcBit (crcBit (crcBit (crcBit (crcBit (r ^^^ (b.setWidth 16 <<< 8)))))))))

/-- The check of a list of bytes, the register preset to all ones. -/
def crc (bs : List Byte) : BitVec 16 := bs.foldl crcByte 0xFFFF#16

/-- The byte that holds a number (R180). -/
def byte (n : Nat) : Byte := BitVec.ofNat 8 n

/-- The bytes a frame's check covers: length, kind, tag and payload (R160). -/
def Frame.covered (f : Frame) : List Byte := byte (f.payload.length + 2) :: f.kind :: f.tag :: f.payload

/-- The bytes of a frame on the line, in the order they are sent (R160). -/
def Frame.wire (f : Frame) : List Byte :=
  let check := crc f.covered
  0xC3 :: f.covered ++ [(check >>> 8).setWidth 8, check.setWidth 8]

/-! ### Encoding (R180): most significant byte first -/

def be16 (n : Nat) : List Byte := [byte (n / 256), byte n]
def be32 (n : Nat) : List Byte := [byte (n / 16777216), byte (n / 65536), byte (n / 256), byte n]
def be48 (n : Nat) : List Byte := be16 (n / 4294967296) ++ be32 n

/-- Yes/no and flags: 0 no, 1 yes. -/
def flagByte (b : Bool) : Byte := if b then 1 else 0

/-- A field of `w` bytes that may be absent and has no code for none: a presence byte, then the field, or zeros. -/
def present (w : Nat) (f : α → List Byte) : Option α → List Byte
  | none => 0 :: List.replicate w 0
  | some x => 1 :: f x

/-- A one-byte code, or 0xFF for none. -/
def orNone (f : α → Nat) : Option α → Byte
  | none => 0xFF
  | some x => byte (f x)

def Crew.code : Crew → Nat
  | .A => 0 | .B => 1 | .C => 2 | .D => 3 | .E => 4

def Condition.code : Condition → Nat
  | .clear => 0 | .active => 1

def Annunciation.code : Annunciation → Nat
  | .normal => 0 | .new => 1 | .acked => 2 | .faded => 3

/-- A trip code 1 to 15 (R103). -/
def tripCodeOf (c : TripNo) : Nat := c.val + 1

/-- The status values (R179). -/
def Status.code : Status → Nat
  | .done => 0x00 | .already => 0x01
  | .badKind => 0x10 | .badField => 0x11 | .runOnly => 0x12 | .configOnly => 0x13 | .badConfig => 0x14
  | .noSuch => 0x20 | .notSeated => 0x21 | .notPermitted => 0x22 | .notRouted => 0x23 | .notQualified => 0x24
  | .notOnDuty => 0x25 | .seatedElsewhere => 0x26
  | .wrongState => 0x30 | .limit => 0x31 | .busy => 0x32 | .locked => 0x33 | .poolEmpty => 0x34
  | .headMoved => 0x35 | .sameCrew => 0x36

/-- The LINK_ERROR reasons (R179). -/
def LinkError.code : LinkError → Nat
  | .check => 1 | .length => 2 | .gap => 3 | .overrun => 4

/-- The handover states in the order of R139. -/
def Handover.code : Handover → Nat
  | .steady => 0 | .running _ _ _ => 1 | .suspended _ _ _ _ => 2 | .halted _ => 3 | .done _ => 4

def StepKind.code : StepKind → Nat
  | .seatIn => 0 | .sheetPosted => 1 | .review => 2 | .clearP1 => 3 | .confirmOut => 4 | .confirmIn => 5 | .hold => 6

def PostingMode.code : PostingMode → Nat
  | .reviewAll => 0 | .latest => 1

/-- Suspension reasons as the sum of R181. -/
def Reasons.code (r : Reasons) : Nat :=
  (if r.p1 then 1 else 0) + (if r.flood then 2 else 0) + (if r.trip then 4 else 0) + (if r.request then 8 else 0)

/-- Abort reasons as R181 numbers the parameter of HANDOVER_ABORTED. -/
def AbortReason.code : AbortReason → Nat
  | .stepTimeout => 1 | .hostAbort => 2

/-- A set of areas in four bytes, bit n set when area n is a member. -/
def setBytes (w : BitVec 32) : List Byte := be32 w.toNat

/-- The kind byte and the parameters of a notice (R181). -/
def NoticeKind.encode : NoticeKind → Nat × List Nat
  | .banner c h => (1, [c.val, (h.map Fin.val).getD 0xFFFF])
  | .keyAck c p o => (2, [c.val, p.val, o])
  | .keyRefused c k r => (3, [c.val, if k = .ack then 0 else 1, r.code])
  | .keyStuck c k => (4, [c.val, if k = .ack then 0 else 1])
  | .silenced c x => (5, [c.val, match x with | .key => 0 | .request => 1 | .room => 2])
  | .shelfExpired p => (6, [p.val])
  | .floodOn a => (7, [a.val])
  | .floodOff a => (8, [a.val])
  | .tripTaken c => (9, [tripCodeOf c])
  | .tripStep c e => (10, [tripCodeOf c, e.val])
  | .tripDone c => (11, [tripCodeOf c])
  | .tripFault c e => (12, [tripCodeOf c, e.val])
  | .tripReleased c x => (13, [tripCodeOf c, match x with | .console d => d.val | .host => 0xFE | .expiry => 0xFD])
  | .tripDropped c r =>
    (14, [tripCodeOf c, match r with | .faultLatched => 1 | .pendingFull => 2 | .undefined => 3])
  | .consoleAbsent c => (15, [c.val])
  | .consolePresent c => (16, [c.val])
  | .areaUncovered a => (17, [a.val])
  | .areaCovered a => (18, [a.val])
  | .sheetPosted a => (21, [a.val])
  | .poolShort a => (22, [a.val])
  | .stepDone a n => (23, [a.val, n])
  | .handoverSuspended a r => (24, [a.val, r.code])
  | .handoverResumed a => (25, [a.val])
  | .handoverAborted a r n => (26, [a.val, r.code, n])
  | .areaHandedOver a k => (27, [a.val, k.code])
  | .shiftChanged n k => (28, [n, k.code])

/-- A notice record in 11 bytes (R181). -/
def Notice.bytes (n : Notice) : List Byte :=
  let (kind, ps) := n.kind.encode
  byte kind :: be32 n.time ++ be16 (ps.getD 0 0) ++ be16 (ps.getD 1 0) ++ be16 (ps.getD 2 0)

/-- A sum of four indication bits. -/
def indications (a b c d : Bool) : Byte :=
  byte ((if a then 1 else 0) + (if b then 2 else 0) + (if c then 4 else 0) + (if d then 8 else 0))

/-- An operator and a time, 6 bytes. -/
def Stamp.bytes (x : Stamp) : List Byte := be16 x.operator ++ be32 x.time

/-- The point record of the QUERY_POINT reply (R182). -/
def Point.bytes (n : PointNo) (p : Point) (counter : Nat) : List Byte :=
  be16 n.val ++ [flagByte p.configured, byte p.area.val, byte p.priority.num, byte p.condition.code, byte p.ann.code,
    indications p.shelved p.outOfService p.hidden p.postTrip, byte p.occurrences]
  ++ present 6 be48 p.raiseSeq ++ present 4 be32 p.raisedAt ++ present 6 Stamp.bytes p.acked ++ be48 counter
  ++ byte p.suppression.length :: p.suppression.map fun c => byte (tripCodeOf c)

/-- An entry of the LIST_STANDING reply (R182). -/
def Point.standingBytes (n : PointNo) (p : Point) : List Byte :=
  be16 n.val ++ [byte p.priority.num, byte p.condition.code, byte p.ann.code,
    indications p.shelved p.outOfService (!p.suppression.isEmpty) p.postTrip]

/-- A record of the LIST_SHELVES reply (R182). -/
def Shelf.bytes (position : Nat) (r : Shelf) : List Byte :=
  byte position :: be16 r.point.val ++ byte r.area.val :: be16 r.operator ++ byte r.console.val :: be32 r.start
  ++ match r.ending with
    | .minutes d => 0 :: be32 d.time
    | .shifts n => 1 :: be32 n

/-- The kind codes of an item (R182). -/
def ItemKind.code : ItemKind → Nat
  | .note _ => 0 | .point _ => 1 | .equipment _ => 2 | .order _ _ => 3 | .shelf _ _ => 4

/-- The reference of an item in the 8 bytes of R182. -/
def ItemKind.reference : ItemKind → List Byte
  | .note n => be32 n ++ [0, 0, 0, 0]
  | .point p => be16 p.val ++ [0, 0, 0, 0, 0, 0]
  | .equipment n => be32 n ++ [0, 0, 0, 0]
  | .order o n => byte o.val :: be32 n ++ [0, 0, 0]
  | .shelf p (.minutes t) => be16 p.val ++ 0 :: be32 t ++ [0]
  | .shelf p (.shifts n) => be16 p.val ++ 1 :: be32 n ++ [0]

/-- An item record of the READ_SHEET reply (R182). -/
def Item.bytes (position : Nat) (slot : SlotNo) (x : Item) : List Byte :=
  byte position :: be16 slot.val ++ [byte x.kind.code, flagByte x.captured] ++ x.kind.reference
  ++ present 2 be16 x.author ++ be32 x.created ++ present 6 Stamp.bytes x.reviewed

/-- The posting summary in fifteen 2-byte counts (R182). -/
def Summary.bytes (x : Summary) : List Byte :=
  (x.new.toList ++ x.acked.toList ++ x.faded.toList ++ [x.shelved, x.outOfService, x.suppressed]).flatMap be16

/-! ### Decoding of one field (R180) -/

def num16 (a b : Byte) : Nat := a.toNat * 256 + b.toNat
def num32 (a b c d : Byte) : Nat := num16 a b * 65536 + num16 c d

/-- A number below `n`. -/
def below (n k : Nat) : Option (Fin n) := if h : k < n then some ⟨k, h⟩ else none

/-- A number from `lo` to `hi`. -/
def within (lo hi k : Nat) : Option Nat := if lo ≤ k ∧ k ≤ hi then some k else none

def flagOf (b : Byte) : Option Bool := if b = 0 then some false else if b = 1 then some true else none
def areaOf (b : Byte) : Option AreaNo := below 32 b.toNat
def consoleOf (b : Byte) : Option ConsoleNo := below 8 b.toNat
def pointOf (a b : Byte) : Option PointNo := below 2048 (num16 a b)
def operatorOf (a b : Byte) : Option Nat := within 1 Config.maxOperator (num16 a b)

/-- A trip code 1 to 15. -/
def codeOf (b : Byte) : Option TripNo := if b = 0 then none else below 15 (b.toNat - 1)

def crewOf (b : Byte) : Option Crew :=
  if b = 0 then some .A else if b = 1 then some .B else if b = 2 then some .C else if b = 3 then some .D
  else if b = 4 then some .E else none

def roleOf (b : Byte) : Option Role :=
  if b = 0 then some .trainee else if b = 1 then some .board else if b = 2 then some .lead
  else if b = 3 then some .supervisor else none

def priorityOf (b : Byte) : Option Priority :=
  if b = 1 then some .p1 else if b = 2 then some .p2 else if b = 3 then some .p3 else if b = 4 then some .p4 else none

/-- A five-bit value or mask. -/
def fiveOf (b : Byte) : Option (BitVec 5) := if b.toNat < 32 then some (b.setWidth 5) else none

/-- A value and mask over area codes. -/
def pairOf (v m : Byte) : Option Pair := do some ⟨← fiveOf v, ← fiveOf m⟩

/-- A field that holds 0xFF for none, else a value read by `f`. -/
def optionOf (f : Byte → Option α) (b : Byte) : Option (Option α) := if b = 0xFF then some none else (f b).map some

def stepKindOf (b : Byte) : Option StepKind :=
  if b = 0 then some .seatIn else if b = 1 then some .sheetPosted else if b = 2 then some .review
  else if b = 3 then some .clearP1 else if b = 4 then some .confirmOut else if b = 5 then some .confirmIn
  else if b = 6 then some .hold else none

/-! ### The payloads of the requests -/

/-- A request with no payload. -/
def parseNone : List Byte → Option Unit
  | [] => some ()
  | _ => none

/-- SET_CLOCK(value) (R175). -/
def parseTime : List Byte → Option Nat
  | [a, b, c, d] => some (num32 a b c d)
  | _ => none

/-- The selectors of SET_TIMING (R174). -/
inductive Setting
  | presenceTimeout | p1Resound | keyQualify | keyRelease | tripQualify | tripRelease | trigger
  deriving DecidableEq, Repr

def settingOf (b : Byte) : Option Setting :=
  if b = 1 then some .presenceTimeout else if b = 2 then some .p1Resound else if b = 3 then some .keyQualify
  else if b = 4 then some .keyRelease else if b = 5 then some .tripQualify else if b = 6 then some .tripRelease
  else if b = 7 then some .trigger else none

/-- SET_TIMING(selector, value) (R174). -/
def parseTiming : List Byte → Option (Setting × Nat)
  | [k, a, b] => do some (← settingOf k, num16 a b)
  | _ => none

/-- SET_SHIFT(shift, crew) (R174). -/
def parseShift : List Byte → Option (Nat × Crew)
  | [a, b, k] => do some (num16 a b, ← crewOf k)
  | _ => none

/-- FETCH_NOTICES(max) (R169). -/
def parseMax : List Byte → Option Nat
  | [n] => within 1 8 n.toNat
  | _ => none

/-- The three configuration fields of a point (R2). -/
structure PointEntry where
  configured : Bool
  area       : AreaNo
  priority   : Priority
  deriving DecidableEq, Repr

def parsePointEntries : List Byte → Option (List PointEntry)
  | [] => some []
  | k :: a :: p :: rest => do
    let e : PointEntry := ⟨← flagOf k, ← areaOf a, ← priorityOf p⟩
    some (e :: (← parsePointEntries rest))
  | _ => none

/-- LOAD_POINTS: the first point number and the entries (R2). -/
def parsePoints : List Byte → Option (Nat × List PointEntry)
  | a :: b :: n :: rest => do
    let es ← parsePointEntries rest
    if es.length = n.toNat ∧ 1 ≤ n.toNat ∧ n.toNat ≤ 80 ∧ num16 a b + n.toNat ≤ 2048 then some (num16 a b, es) else none
  | _ => none

/-- LOAD_AREA (R173, with the meter settings of R91). -/
def parseArea : List Byte → Option (AreaNo × AreaConfig)
  | [a, k, i, m, d, p, q, r, t] => do
    let area ← areaOf a
    let configured ← flagOf k
    let posting : PostingMode ← if m = 0 then some .reviewAll else if m = 1 then some .latest else none
    let on := num16 p q
    let off := num16 r t
    if 1 ≤ d.toNat ∧ d.toNat ≤ 64 ∧ 512 ≤ on ∧ off ≤ on - 256 then
      some (area, { configured, start := i.toFin, posting, decay := d.toNat, floodOn := on, floodOff := off })
    else none
  | _ => none

/-- LOAD_CONSOLE (R29). -/
def parseConsole : List Byte → Option (ConsoleNo × ConsoleConfig)
  | [c, k, v, m, f] => do
    some (← consoleOf c, { configured := ← flagOf k, routing := ← pairOf v m, fallback := ← optionOf consoleOf f })
  | _ => none

def parsePairs : List Byte → Option (List Pair)
  | [] => some []
  | v :: m :: rest => do some ((← pairOf v m) :: (← parsePairs rest))
  | _ => none

/-- A LOAD_OPERATOR request: an operator record to add or replace (R26), or a number to remove (R27). -/
inductive OperatorLoad
  | store (o : Operator)
  | remove (number : Nat)
  deriving DecidableEq, Repr

/-- LOAD_OPERATOR (R26, R27). The remove flag is the last byte of the payload, whose length is 8 to 14; with it set the
number alone is examined (DESIGN CHOICE, log entry 14). -/
def parseOperator (bs : List Byte) : Option OperatorLoad :=
  if 8 ≤ bs.length ∧ bs.length ≤ 14 then
    match bs with
    | a :: b :: k :: r :: n :: rest => do
      let number ← operatorOf a b
      let remove ← flagOf (rest.getLastD 0)
      if remove then some (.remove number)
      else do
        let quals ← parsePairs rest.dropLast
        if quals.length = n.toNat ∧ 1 ≤ n.toNat ∧ n.toNat ≤ 4 then
          some (.store { number, crew := ← crewOf k, role := ← roleOf r, quals, seat := none })
        else none
    | _ => none
  else none

/-- LOAD_ROLE: a role and nine yes/no values (R28). -/
def parseRole : List Byte → Option (Role × Vector Bool 9)
  | [r, a, b, c, d, e, f, g, h, i] => do
    some (← roleOf r, #v[← flagOf a, ← flagOf b, ← flagOf c, ← flagOf d, ← flagOf e, ← flagOf f, ← flagOf g,
      ← flagOf h, ← flagOf i])
  | _ => none

/-- A number clamped to a range (chapter 10, section 10.2). -/
def clamp (lo hi n : Nat) : Nat := max lo (min hi n)

/-- An entry of LOAD_STEPS as it is stored, and whether a timing value was clamped (R141). -/
def stepOf (k p₁ p₂ t₁ t₂ x l n : Byte) : Option (StepEntry × Bool) := do
  let kind ← stepKindOf k
  let last ← flagOf l
  let notify ← flagOf n
  let given := num16 t₁ t₂
  let timeout := if given = 0 then 0 else clamp 10 7200 given
  let hold := clamp 1 3600 (num16 p₁ p₂)
  let parameter := if kind = .hold then hold else 0
  some ({ kind, parameter, timeout, next := x.toFin, last, notify },
    timeout != given || (kind == .hold && hold != num16 p₁ p₂))

def parseStepEntries : List Byte → Option (List (StepEntry × Bool))
  | [] => some []
  | k :: p :: q :: t :: u :: x :: l :: n :: rest => do
    some ((← stepOf k p q t u x l n) :: (← parseStepEntries rest))
  | _ => none

/-- LOAD_STEPS: the first index, the entries, and whether a value was clamped (R141). -/
def parseSteps : List Byte → Option (Nat × List StepEntry × Bool)
  | i :: n :: rest => do
    let es ← parseStepEntries rest
    if es.length = n.toNat ∧ 1 ≤ n.toNat ∧ n.toNat ≤ 16 ∧ i.toNat + n.toNat ≤ 256 then
      some (i.toNat, es.map Prod.fst, es.any Prod.snd)
    else none
  | _ => none

/-- The configuration of a trip code (R105). -/
structure TripConfig where
  configured : Bool
  start      : EntryNo
  areas      : BitVec 32
  holdTime   : Nat
  clamped    : Bool
  deriving DecidableEq, Repr

/-- LOAD_TRIP_CODE (R105). -/
def parseTripCode : List Byte → Option (TripNo × TripConfig)
  | [c, k, a, b, p, q, r, t, h, i] => do
    let hold := num16 h i
    let configured ← flagOf k
    let start ← below 512 (num16 a b)
    let areas := BitVec.ofNat 32 (num32 p q r t)
    some (← codeOf c, { configured, start, areas, holdTime := min hold 1440, clamped := 1440 < hold })
  | _ => none

/-- The entries of LOAD_TRIP_ENTRIES, each with whether its WAIT time was clamped: an EMPTY entry is its kind alone, a
GROUP and a WAIT entry carry LAST, NOTIFY and the fields of their kind (R106). The first argument bounds the entries. -/
def parseTripList : Nat → List Byte → Option (List (TripEntry × Bool))
  | _, [] => some []
  | 0, _ => none
  | n + 1, k :: rest =>
    if k = 0 then do some ((.empty, false) :: (← parseTripList n rest))
    else if k = 1 then
      match rest with
      | l :: y :: a :: b :: p :: q :: r :: t :: v :: x :: rest => do
        let base ← pointOf a b
        let spare ← within 1 3 v.toNat
        let activeToo ← flagOf x
        let g : Group := { base, selection := BitVec.ofNat 32 (num32 p q r t), spare, activeToo }
        some ((.group g (← flagOf l) (← flagOf y), false) :: (← parseTripList n rest))
      | _ => none
    else if k = 2 then
      match rest with
      | l :: y :: a :: b :: rest => do
        let w := clamp 1 600 (num16 a b)
        some ((.wait w (← flagOf l) (← flagOf y), w != num16 a b) :: (← parseTripList n rest))
      | _ => none
    else none

/-- LOAD_TRIP_ENTRIES: the first index, the entries, and whether a value was clamped (R106). -/
def parseTripEntries : List Byte → Option (Nat × List TripEntry × Bool)
  | a :: b :: n :: rest => do
    let es ← parseTripList 20 rest
    if es.length = n.toNat ∧ 1 ≤ n.toNat ∧ n.toNat ≤ 20 ∧ num16 a b + n.toNat ≤ 512 then
      some (num16 a b, es.map Prod.fst, es.any Prod.snd)
    else none
  | _ => none

/-- LOAD_ORDER (R123). -/
def parseOrder : List Byte → Option (OrderNo × Order)
  | [i, d, a, p, q, r, t, v, m, e] => do
    let defined ← flagOf d
    let area ← areaOf a
    let enabled ← flagOf e
    let ref := num32 p q r t
    some (← below 64 i.toNat, { defined, area, ref, rotationValue := v, rotationMask := m, enabled })
  | _ => none

/-- SET_POINT(point, area, priority) (R20). -/
def parseSetPoint : List Byte → Option (PointNo × AreaNo × Priority)
  | [a, b, x, p] => do some (← pointOf a b, ← areaOf x, ← priorityOf p)
  | _ => none

/-- A point number: RAISE, CLEAR, QUERY_POINT. -/
def parsePoint : List Byte → Option PointNo
  | [a, b] => pointOf a b
  | _ => none

/-- An area code: SUSPEND_AREA, RESUME_AREA, ABORT_AREA, CLEAR_ABORT. -/
def parseAreaOnly : List Byte → Option AreaNo
  | [a] => areaOf a
  | _ => none

/-- An area code or 0xFF: QUERY_HANDOVER (R157). -/
def parseAreaOrAll : List Byte → Option (Option AreaNo)
  | [a] => optionOf areaOf a
  | _ => none

/-- LIST_STANDING(area selector, start point) (R22). -/
def parseStanding : List Byte → Option (Option AreaNo × PointNo)
  | [x, a, b] => do some (← optionOf areaOf x, ← pointOf a b)
  | _ => none

/-- A console number or 0xFF: QUERY_CONSOLE (R48). -/
def parseConsoleOrRoom : List Byte → Option (Option ConsoleNo)
  | [c] => optionOf consoleOf c
  | _ => none

/-- QUERY_OPERATOR(operator) (R48). -/
def parseOperatorNumber : List Byte → Option Nat
  | [a, b] => operatorOf a b
  | _ => none

/-- LIST_SHELVES(area selector, start position) (R88). -/
def parseShelves : List Byte → Option (Option AreaNo × Nat)
  | [x, p] => do some (← optionOf areaOf x, ← within 0 127 p.toNat)
  | _ => none

/-- QUERY_METERS(first area, count) (R99). -/
def parseMeters : List Byte → Option (Nat × Nat)
  | [a, n] =>
    if 1 ≤ n.toNat ∧ n.toNat ≤ 16 ∧ a.toNat + n.toNat ≤ 32 then some (a.toNat, n.toNat) else none
  | _ => none

/-- QUERY_TRIP(code): 0 is the unit as a whole (R107). -/
def parseTripQuery : List Byte → Option (Option TripNo)
  | [c] => if c = 0 then some none else (codeOf c).map some
  | _ => none

/-- READ_SHEET(area, frame, start position); the frame is POSTED when true (R136). -/
def parseSheet : List Byte → Option (AreaNo × Bool × Nat)
  | [a, f, p] => do some (← areaOf a, ← flagOf f, ← within 0 31 p.toNat)
  | _ => none

/-- BEGIN_HANDOVER(incoming crew) (R143). -/
def parseCrew : List Byte → Option Crew
  | [k] => crewOf k
  | _ => none

/-! Console actions: the acting console is the first byte (R166, R180). -/

/-- SIGN_ON(console, operator) (R31). -/
def parseSignOn : List Byte → Option (ConsoleNo × Nat)
  | [c, a, b] => do some (← consoleOf c, ← operatorOf a b)
  | _ => none

/-- SIGN_OFF: the acting console, or none for the host's form, and the target (R33). In the console form the target
names the acting console. -/
def parseSignOff : List Byte → Option (Option ConsoleNo × ConsoleNo)
  | [c, t] => do
    let acting ← optionOf consoleOf c
    let target ← consoleOf t
    if acting = none ∨ acting = some target then some (acting, target) else none
  | _ => none

/-- SILENCE(room flag) (R57). -/
def parseSilence : List Byte → Option (ConsoleNo × Bool)
  | [c, r] => do some (← consoleOf c, ← flagOf r)
  | _ => none

/-- An acting console and a point: ACK, UNSHELVE, TAKE_OUT, RETURN. -/
def parseConsolePoint : List Byte → Option (ConsoleNo × PointNo)
  | [c, a, b] => do some (← consoleOf c, ← pointOf a b)
  | _ => none

/-- ACK_HEAD with its expected point or none (R73). -/
def parseAckHead : List Byte → Option (ConsoleNo × Option PointNo)
  | [c, a, b] => do
    let console ← consoleOf c
    if num16 a b = 0xFFFF then some (console, none) else some (console, some (← pointOf a b))
  | _ => none

/-- ACK_AREA(area, limit): the limit is 2 to 4 (R74). -/
def parseAckArea : List Byte → Option (ConsoleNo × AreaNo × Nat)
  | [c, a, l] => do some (← consoleOf c, ← areaOf a, ← within 2 4 l.toNat)
  | _ => none

/-- The kind and value of a SHELVE: minutes 1 to 720, or shift changes 1 to 3 (R80). -/
inductive ShelveFor
  | minutes (n : Nat)
  | shifts (n : Nat)
  deriving DecidableEq, Repr

/-- SHELVE(point, kind, value) (R80). -/
def parseShelve : List Byte → Option (ConsoleNo × PointNo × ShelveFor)
  | [c, a, b, k, v, w] => do
    let console ← consoleOf c
    let point ← pointOf a b
    if k = 0 then some (console, point, .minutes (← within 1 720 (num16 v w)))
    else if k = 1 then some (console, point, .shifts (← within 1 3 (num16 v w)))
    else none
  | _ => none

/-- RELEASE_TRIP(code), with the acting console or none for the host's release (R116). -/
def parseRelease : List Byte → Option (Option ConsoleNo × TripNo)
  | [c, k] => do some (← optionOf consoleOf c, ← codeOf k)
  | _ => none

/-- An acting console and an area: LOCK_DRAFT, UNLOCK_DRAFT, POST, CONFIRM_STEP, RESTART_AREA. -/
def parseConsoleArea : List Byte → Option (ConsoleNo × AreaNo)
  | [c, a] => do some (← consoleOf c, ← areaOf a)
  | _ => none

/-- ADD_ITEM(area, kind, reference): the reference takes the 4 bytes of its widest range (R126, R180). -/
def parseAddItem : List Byte → Option (ConsoleNo × AreaNo × ItemKind)
  | [c, a, k, p, q, r, t] => do
    let console ← consoleOf c
    let area ← areaOf a
    let n := num32 p q r t
    if k = 0 then some (console, area, .note n)
    else if k = 1 then some (console, area, .point (← below 2048 n))
    else if k = 2 then some (console, area, .equipment n)
    else none
  | _ => none

/-- An acting console, an area and a position up to `hi`: REMOVE_ITEM (15), REVIEW_ITEM (31). -/
def parsePosition (hi : Nat) : List Byte → Option (ConsoleNo × AreaNo × Nat)
  | [c, a, p] => do some (← consoleOf c, ← areaOf a, ← within 0 hi p.toNat)
  | _ => none

end Sys2Proof.Machine
end

