-- ==== Sys2Proof/Machine/Handler.lean ====
section
/-! DEFINITION. The request handler: taking a received frame in its turn (R163), the checks of R164 in their order, the
activity of the acting console (R35, R37), and the reply (R165). -/

namespace Sys2Proof.Machine

/-- The outcome of every meaning: the part never stops. -/
abbrev Result := Host.Outcome State Fault Refusal

/-! ### Replies (R165) -/

/-- What a request comes to: a refusal (or ALREADY) with its data, which changes no state, or a next state with the data
of its DONE reply. -/
abbrev Answer := Except (Status × List Byte) (State × List Byte)

/-- Refused, or answered ALREADY, with the status alone. -/
def refuse (x : Status) : Answer := .error (x, [])

/-- Taken: the state after, and the reply's data. -/
def taken (s : State) (data : List Byte := []) : Answer := .ok (s, data)

/-- A reply's kind is the request's kind with its top bit set (R165). -/
def replyKind (kind : Byte) : Byte := kind ||| 0x80

/-- The reply frame to a request of a kind and tag. -/
def replyFrame (kind tag : Byte) (x : Status) (data : List Byte) : Frame :=
  { kind := replyKind kind, tag, payload := byte x.code :: data }

/-- A frame is sent on the transmit line. -/
def State.send (f : Frame) (s : State) : State := { s with link := { s.link with sent := s.link.sent ++ [f] } }

/-- The reply to a request: the owning block's changes are whole before it (R164). -/
def State.answer (kind tag : Byte) (r : Answer) (s : State) : State :=
  match r with
  | .error (x, data) => s.send (replyFrame kind tag x data)
  | .ok (s', data) => s'.send (replyFrame kind tag .done data)

/-! ### Taking a frame (R163) -/

/-- The handler takes frame `f`: the first received item when it is `f`, and it leaves the receive buffer. With nothing
received, the command stands for the arrival of the whole frame and its taking; with another item first, it is not
this frame's turn (DESIGN CHOICE, log entry 1). -/
def State.take (f : Frame) (s : State) : Option State :=
  match s.link.order with
  | [] => some s
  | .frame g :: rest => if g = f then some { s with link := { s.link with order := rest } } else none
  | .error _ :: _ => none

/-- The operating state a request is taken in (R172). -/
inductive TakenIn | config | run | both
  deriving DecidableEq, Repr

/-- Step 4 of R164: the refusal in an operating state. -/
def TakenIn.refusal : TakenIn → Mode → Option Status
  | .config, .run => some .configOnly
  | .run, .config => some .runOnly
  | .config, .config | .run, .run | .both, .config | .both, .run => none

/-- Steps 2 to 5 of R164: the payload is read, the operating state is checked, and the owner acts. -/
def checkRequest (parsed : Option α) (m : TakenIn) (act : State → α → Answer) (s : State) : Answer :=
  match parsed with
  | none => refuse .badField
  | some x =>
    match m.refusal s.mode with
    | some st => refuse st
    | none => act s x

/-- A request with no acting console (R166). -/
def hostRequest (kind tag : Byte) (payload : List Byte) (parse : List Byte → Option α) (m : TakenIn)
    (act : State → α → Answer) (s : State) : Result :=
  match s.take { kind, tag, payload } with
  | none => .next s
  | some s => .next (s.answer kind tag (checkRequest (parse payload) m act s))

/-! ### Activity (R35, R37) -/

/-- The presence deadline that activity sets; none while the timeout is off (R35). -/
def State.presenceDeadline (s : State) : Option Deadline :=
  if s.settings.presenceTimeout = 0 then none else some (s.deadlineIn s.settings.presenceTimeout)

/-- Console `c` becomes SEATED with operator `n`, its presence timer restarted. -/
def State.seat (c : ConsoleNo) (n : Nat) (s : State) : State :=
  s.modConsole c fun r => { r with seat := .seated n s.presenceDeadline }

/-- The revival of the ABSENT console `c` (R37): its notices, in the order of R36, precede the request's own
(DESIGN CHOICE, log entries 12 and 13). -/
def State.revive (c : ConsoleNo) (n : Nat) (s : State) : State :=
  let s := (s.seat c n).notify (.consolePresent c)
  (Work.seatsChanged (s.routes c) { s, cover := true }).finish

/-- Activity at console `c` (R35). -/
def State.activity (c : ConsoleNo) (s : State) : State :=
  match (s.console c).seat with
  | .vacant => s
  | .seated n _ => s.seat c n
  | .absent n => s.revive c n

/-- A request whose payload is long enough to name a console 0 to 7 is activity there, whatever becomes of it (R164). -/
def State.noteActivity (payload : List Byte) (s : State) : State :=
  match payload.head?.bind consoleOf with
  | some c => s.activity c
  | none => s

/-- A request with an acting console: its activity, then the checks of R164. -/
def consoleRequest (kind tag : Byte) (payload : List Byte) (parse : List Byte → Option α)
    (act : State → α → Answer) (s : State) : Result :=
  match s.take { kind, tag, payload } with
  | none => .next s
  | some s => .next ((s.noteActivity payload).answer kind tag (checkRequest (parse payload) .run act (s.noteActivity payload)))

/-! ### The permission check (R40 to R42) -/

/-- The role permits the class (R28). -/
def State.permits (s : State) (r : Role) (k : ActionClass) : Bool := (s.roles[r.index])[k.index]

/-- Steps 1 to 3: the acting console is configured, an operator is signed on there, and the role permits the class. -/
def State.actor (s : State) (c : ConsoleNo) (k : ActionClass) : Except Status Operator :=
  if !(s.console c).config.configured then .error .noSuch
  else match (s.console c).seat.operator?.bind s.operator? with
    | none => .error .notSeated
    | some o => if s.permits o.role k then .ok o else .error .notPermitted

/-- Steps 4 to 7 for a target of area `a`: whether it exists, whether it is routed where step 5 applies, and the duty
test that R42 gives the action. -/
def targetTest (o : Operator) (a : AreaNo) (exist routed duty : Bool) : Except Status Operator :=
  if !exist then .error .noSuch
  else if !routed then .error .notRouted
  else if !o.qualified a then .error .notQualified
  else if !duty then .error .notOnDuty
  else .ok o

/-- Steps 1 to 7 for a point target (classes ACK, SHELVE and SERVICE); `ackSense` chooses the duty test (R42). -/
def State.permitPoint (s : State) (c : ConsoleNo) (k : ActionClass) (n : PointNo) (ackSense : Bool) :
    Except Status Operator :=
  match s.actor c k with
  | .error e => .error e
  | .ok o =>
    let p := s.point n
    targetTest o p.area (s.exists? p) (s.routes c p.area)
      (if ackSense then s.dutyAck o.crew p.area else s.dutyArea o.crew p.area)

/-- Steps 1 to 7 for an area target; step 5 applies where `routing` (R41), and `ackSense` chooses the duty test. -/
def State.permitArea (s : State) (c : ConsoleNo) (k : ActionClass) (a : AreaNo) (routing ackSense : Bool) :
    Except Status Operator :=
  match s.actor c k with
  | .error e => .error e
  | .ok o =>
    targetTest o a (s.area a).config.configured (!routing || s.routes c a)
      (if ackSense then s.dutyAck o.crew a else s.dutyArea o.crew a)

/-- Steps 1 to 3 and 7 of the SILENCE class (R41). -/
def State.permitSilence (s : State) (c : ConsoleNo) : Except Status Operator :=
  match s.actor c .silence with
  | .error e => .error e
  | .ok o => if s.dutySilence o.crew then .ok o else .error .notOnDuty

/-- The permission check of RELEASE_TRIP from a console (R41): qualified for an area of the code's set, and of the duty
crew of an area of the set for which the operator is qualified. -/
def State.permitRelease (s : State) (c : ConsoleNo) (t : TripNo) : Except Status Operator :=
  match s.actor c .release with
  | .error e => .error e
  | .ok o =>
    let mine := allAreas.filter fun a => inSet (s.code t).areas a && o.qualified a
    if mine.isEmpty then .error .notQualified
    else if mine.any fun a => s.dutyArea o.crew a then .ok o else .error .notOnDuty

/-- After the permission check, the action acts with the operator, or the check's refusal is the reply. -/
def withOperator (r : Except Status Operator) (act : Operator → Answer) : Answer :=
  match r with
  | .error e => refuse e
  | .ok o => act o

end Sys2Proof.Machine
end

