-- ==== Sys2Proof/Machine/Consoles.lean ====
section
/-! DEFINITION. Operators, seating and presence (chapter 2): the loads of the roster, the role table and the consoles,
SIGN_ON and SIGN_OFF, the presence deadline, and the queries of R48. -/

namespace Sys2Proof.Machine

/-! ### Loads -/

/-- A record is added, or replaces the one with its number (R26; DESIGN CHOICE, log entry 18). -/
def State.storeOperator (o : Operator) (s : State) : State :=
  match s.operator? o.number with
  | some _ => s.modOperator o.number fun _ => o
  | none => { s with roster := s.roster ++ [o] }

/-- The operator with the number is seated at a console. -/
def State.isSeated (s : State) (n : Nat) : Bool := (s.operator? n).any (·.seat.isSome)

/-- LOAD_OPERATOR and its removing form (R26, R27). -/
def actLoadOperator (s : State) : OperatorLoad → Answer
  | .store o =>
    if s.mode = .run ∧ s.isSeated o.number then refuse .wrongState
    else if (s.operator? o.number).isNone ∧ Config.rosterSize ≤ s.roster.length then refuse .limit
    else taken (s.storeOperator o)
  | .remove n =>
    if (s.operator? n).isNone then refuse .noSuch
    else if s.mode = .run ∧ s.isSeated n then refuse .wrongState
    else taken { s with roster := s.roster.filter (·.number != n) }

/-- LOAD_OPERATOR, adding or replacing (R26). -/
def execLoadOperator (tag : Byte) (payload : List Byte) (s : State) : Result :=
  hostRequest 0x13 tag payload parseOperator .both actLoadOperator s

/-- LOAD_OPERATOR with the remove flag set (R27). -/
def execLoadOperatorRemove (tag : Byte) (payload : List Byte) (s : State) : Result :=
  hostRequest 0x13 tag payload parseOperator .both actLoadOperator s

/-- LOAD_ROLE replaces one row of the table (R28). -/
def execLoadRole (tag : Byte) (payload : List Byte) (s : State) : Result :=
  hostRequest 0x14 tag payload parseRole .config
    (fun s x => taken { s with roles := s.roles.set x.1.index x.2 }) s

/-- LOAD_CONSOLE sets the four configuration fields of a console (R29). -/
def execLoadConsole (tag : Byte) (payload : List Byte) (s : State) : Result :=
  hostRequest 0x12 tag payload parseConsole .config
    (fun s x => taken (s.modConsole x.1 fun r => { r with config := x.2 })) s

/-! ### Seating -/

/-- A SIGN_ON that is taken (R32; DESIGN CHOICE, log entry 13). -/
def State.signOn (c : ConsoleNo) (n : Nat) (s : State) : State :=
  let t := (s.seat c n).modOperator n fun o => { o with seat := some c }
  (Work.seatsChanged (t.routes c) { s := t, cover := true }).finish

/-- An operator may sign on: a SUPERVISOR, or of the mill duty crew, or of the incoming crew while OPEN (R31). -/
def State.maySignOn (s : State) (o : Operator) : Bool := o.role == .supervisor || s.dutySilence o.crew

/-- SIGN_ON (R31). -/
def actSignOn (s : State) (x : ConsoleNo × Nat) : Answer :=
  if !(s.console x.1).config.configured then refuse .noSuch
  else if (s.console x.1).seat ≠ .vacant then refuse .wrongState
  else
    match s.operator? x.2 with
    | none => refuse .noSuch
    | some o =>
      if o.seat.isSome then refuse .seatedElsewhere
      else if !s.maySignOn o then refuse .notOnDuty
      else taken (s.signOn x.1 x.2)

def execSignOn (tag : Byte) (payload : List Byte) (s : State) : Result :=
  consoleRequest 0x40 tag payload parseSignOn actSignOn s

/-- Every draft lock held by console `c` is released; a committed draft is not locked (R34, R125). -/
def State.releaseLocks (c : ConsoleNo) (s : State) : State :=
  { s with areas := s.areas.map fun r =>
      if r.draft.lock = some c then { r with draft := { r.draft with lock := none } } else r }

/-- The console record becomes VACANT with its marks and re-sound deadline reset; its keys are left (R34). -/
def Console.vacate (r : Console) : Console :=
  { r with seat := .vacant, generalMark := 0, p1Mark := 0, resound := none }

/-- The operator with the number, where there is one, is seated nowhere. -/
def State.unseat (n : Option Nat) (s : State) : State :=
  match n with
  | some n => s.modOperator n fun o => { o with seat := none }
  | none => s

/-- A SIGN_OFF that is taken (R34; DESIGN CHOICE, log entry 13). -/
def State.signOff (c : ConsoleNo) (s : State) : State :=
  let t := ((s.unseat (s.console c).seat.operator?).modConsole c Console.vacate).releaseLocks c
  (Work.seatsChanged (fun _ => true) { s := t, cover := true }).finish

/-- SIGN_OFF, in the console's form and the host's (R33). -/
def actSignOff (s : State) (x : Option ConsoleNo × ConsoleNo) : Answer :=
  if !(s.console x.2).config.configured then refuse .noSuch
  else if (s.console x.2).seat = .vacant then refuse .wrongState
  else taken (s.signOff x.2)

def execSignOff (tag : Byte) (payload : List Byte) (s : State) : Result :=
  consoleRequest 0x41 tag payload parseSignOff actSignOff s

/-- PRESENCE_DEADLINE (R36): the SEATED console whose deadline is reached becomes ABSENT. -/
def execPresenceDeadline (c : ConsoleNo) (s : State) : Result :=
  match (s.console c).seat with
  | .seated n (some d) =>
    if s.due d then
      let t := (s.modConsole c fun r => { r with seat := .absent n }).notify (.consoleAbsent c)
      .next (Work.finish { s := t, cover := true })
    else .next s
  | .seated _ none | .vacant | .absent _ => .next s

/-! ### Queries (R48) -/

/-- The code of a console's state in the order of R30. -/
def Seat.code : Seat → Nat
  | .vacant => 0 | .seated _ _ => 1 | .absent _ => 2

/-- The presence deadline, present in SEATED (R30). -/
def Seat.deadline? : Seat → Option Deadline
  | .seated _ d => d
  | .vacant | .absent _ => none

/-- The code of a horn's cadence: off, then P1 to P4. -/
def Horn.code : Horn → Nat
  | .off => 0
  | .cadence p => p.num

/-- The set of configured areas that are uncovered. -/
def State.uncovered (s : State) : BitVec 32 :=
  areaSet fun a => (s.area a).config.configured && !(s.area a).covered

/-- QUERY_CONSOLE (R48). -/
def actQueryConsole (s : State) : Option ConsoleNo → Answer
  | some c =>
    let r := s.console c
    taken s ([flagByte r.config.configured, byte r.config.routing.value.toNat, byte r.config.routing.mask.toNat,
      orNone Fin.val r.config.fallback, byte r.seat.code]
      ++ present 2 be16 r.seat.operator? ++ present 4 (fun d => be32 (s.remaining d)) r.seat.deadline?
      ++ setBytes (areaSet (s.routes c)) ++ be48 r.generalMark ++ be48 r.p1Mark)
  | none => taken s (be48 s.room.mark ++ byte s.room.horn.code :: setBytes s.uncovered)

def execQueryConsole (tag : Byte) (payload : List Byte) (s : State) : Result :=
  hostRequest 0x2A tag payload parseConsoleOrRoom .both actQueryConsole s

/-- The code of a role (R180). -/
def Role.code (r : Role) : Nat := r.index.val

/-- An operator record whole, in the order of R25's table. -/
def Operator.bytes (o : Operator) : List Byte :=
  be16 o.number ++ [byte o.crew.code, byte o.role.code, byte o.quals.length]
  ++ o.quals.flatMap (fun q => [byte q.value.toNat, byte q.mask.toNat]) ++ [orNone Fin.val o.seat]

/-- QUERY_OPERATOR (R48). -/
def execQueryOperator (tag : Byte) (payload : List Byte) (s : State) : Result :=
  hostRequest 0x2B tag payload parseOperatorNumber .both
    (fun s n => match s.operator? n with | some o => taken s o.bytes | none => refuse .noSuch) s

end Sys2Proof.Machine
end

