-- ==== Sys2Proof/Machine/Acknowledge.lean ====
section
/-! DEFINITION. Acknowledgement (chapter 4), silence, the P1 re-sound timer and the console keys (chapter 3). -/

namespace Sys2Proof.Machine

/-! ### Acknowledging a point -/

/-- The annunciation state after an acknowledgement (R71). -/
def Annunciation.acknowledged : Annunciation → Annunciation
  | .new => .acked
  | .faded => .normal
  | .acked => .acked
  | .normal => .normal

/-- What an acknowledgement by operator `o` does to a point's record (R71, R11, R12). -/
def Point.acknowledge (o now : Nat) (p : Point) : Point :=
  { p with ann := p.ann.acknowledged, acked := some ⟨o, now⟩, postTrip := false }

/-- Point `n` is acknowledged by operator `o`; the annunciator and the handover unit have yet to be told. -/
def State.acknowledge (n : PointNo) (o : Nat) (s : State) : State :=
  s.setPoint n ((s.point n).acknowledge o s.now)

/-- The whole event of one acknowledgement (R71), with the owner's notices that stand after its own. -/
def State.ackEvent (n : PointNo) (o : Nat) (after : List NoticeKind) (s : State) : State :=
  (Work.pointChanged (s.point n) { s := s.acknowledge n o }).finish after

/-- The reply data of ACK and ACK_HEAD: the point and its state after (R72, R73). -/
def ackData (n : PointNo) (p : Point) : List Byte := be16 n.val ++ [byte p.ann.acknowledged.code]

/-- ACK (R72). -/
def actAck (s : State) (x : ConsoleNo × PointNo) : Answer :=
  withOperator (s.permitPoint x.1 .ack x.2 true) fun o =>
    let p := s.point x.2
    if p.hidden then refuse .wrongState
    else if p.ann = .acked ∨ p.ann = .normal then refuse .already
    else taken (s.ackEvent x.2 o.number [] ) (ackData x.2 p)

def execAck (tag : Byte) (payload : List Byte) (s : State) : Result :=
  consoleRequest 0x43 tag payload parseConsolePoint actAck s

/-- Steps 4 to 7 for a banner `n` (R41). -/
def State.permitBanner (s : State) (c : ConsoleNo) (n : PointNo) (o : Operator) : Except Status Operator :=
  let p := s.point n
  targetTest o p.area (s.exists? p) (s.routes c p.area) (s.dutyAck o.crew p.area)

/-- ACK_HEAD (R73). -/
def actAckHead (s : State) (x : ConsoleNo × Option PointNo) : Answer :=
  withOperator (s.actor x.1 .ack) fun o =>
    match s.bannerOf x.1 with
    | none => refuse (if x.2.isNone then .wrongState else .headMoved)
    | some n =>
      withOperator (s.permitBanner x.1 n o) fun o =>
        if x.2.isSome ∧ x.2 ≠ some n then refuse .headMoved
        else taken (s.ackEvent n o.number []) (ackData n (s.point n))

def execAckHead (tag : Byte) (payload : List Byte) (s : State) : Result :=
  consoleRequest 0x44 tag payload parseAckHead actAckHead s

/-- The points an ACK_AREA selects, ascending (R74). -/
def State.ackSelection (s : State) (a : AreaNo) (limit : Nat) : List PointNo :=
  (s.numbered.filter fun x => s.exists? x.2 && x.2.area == a && !x.2.hidden
    && (x.2.ann == .new || x.2.ann == .faded) && limit ≤ x.2.priority.num).map Prod.fst

/-- ACK_AREA (R74). No selected point is of priority 1, so the handover unit has nothing to re-examine. -/
def actAckArea (s : State) (x : ConsoleNo × AreaNo × Nat) : Answer :=
  withOperator (s.permitArea x.1 .ack x.2.1 true true) fun o =>
    let ns := s.ackSelection x.2.1 x.2.2
    if ns.isEmpty then taken s (be16 0)
    else taken (Work.finish { s := ns.foldl (fun s n => s.acknowledge n o.number) s }) (be16 ns.length)

def execAckArea (tag : Byte) (payload : List Byte) (s : State) : Result :=
  consoleRequest 0x45 tag payload parseAckArea actAckArea s

/-! ### Silence -/

/-- Some point is unhidden, NEW, of priority 1 and routed to console `c` (R59). -/
def State.p1Standing (s : State) (c : ConsoleNo) : Bool :=
  s.inView.any fun x => x.2.sounding && x.2.priority == .p1 && s.routes c x.2.area

/-- The console record after a silence (R59 steps 1 and 2). -/
def Console.silenced (counter : Nat) (resound : Option Deadline) (r : Console) : Console :=
  { r with generalMark := counter, p1Mark := counter, resound := resound }

/-- The P1 re-sound deadline that a silence leaves (R59 step 2). -/
def State.resoundAfter (s : State) (c : ConsoleNo) : Option Deadline :=
  if s.p1Standing c then some (s.deadlineIn s.settings.p1Resound) else none

/-- A silence taken at console `c` (R59). -/
def State.silence (c : ConsoleNo) (source : SilenceSource) (s : State) : State :=
  let t := s.modConsole c (Console.silenced s.raiseCounter (s.resoundAfter c))
  let t := if source = .room then { t with room := { t.room with mark := s.raiseCounter } } else t
  t.driveOutputs.notify (.silenced c source)

/-- SILENCE (R57). -/
def actSilence (s : State) (x : ConsoleNo × Bool) : Answer :=
  withOperator (s.permitSilence x.1) fun _ => taken (s.silence x.1 (if x.2 then .room else .request))

def execSilence (tag : Byte) (payload : List Byte) (s : State) : Result :=
  consoleRequest 0x42 tag payload parseSilence actSilence s

/-- P1_RESOUND_DEADLINE (R61). -/
def execP1ResoundDeadline (c : ConsoleNo) (s : State) : Result :=
  match (s.console c).resound with
  | some d =>
    if s.due d then .next (s.modConsole c fun r => { r with p1Mark := 0, resound := none }).driveOutputs else .next s
  | none => .next s

/-! ### Console keys (R63 to R69) -/

/-- The record of a key. -/
def Console.key (r : Console) : KeyName → Key
  | .ack => r.ackKey
  | .silence => r.silenceKey

/-- Console `c`'s record with a key's record replaced. -/
def State.setKey (c : ConsoleNo) (k : KeyName) (x : Key) (s : State) : State :=
  s.modConsole c fun r =>
    match k with
    | .ack => { r with ackKey := x }
    | .silence => { r with silenceKey := x }

/-- The qualifier when its contact closes (R64 to R66). -/
def KeyState.closes : KeyState → KeyState
  | .idle => .pressing
  | .releasing => .held
  | .stuck _ => .stuck false
  | .pressing => .pressing
  | .held => .held

/-- The qualifier when its contact opens (R64 to R66). -/
def KeyState.opens : KeyState → KeyState
  | .pressing => .idle
  | .held => .releasing
  | .stuck _ => .stuck true
  | .idle => .idle
  | .releasing => .releasing

/-- KEY_CONTACT_CHANGE: the contact takes a level; in RUN the qualifier moves (R64 to R66), in CONFIG it is held (R69). -/
def execKeyContactChange (c : ConsoleNo) (k : KeyName) (closed : Bool) (s : State) : Result :=
  let x := (s.console c).key k
  if x.closed = closed then .next s
  else if s.mode = .run then
    .next (s.setKey c k { closed, state := if closed then x.state.closes else x.state.opens })
  else .next (s.setKey c k { x with closed })

/-- A refused press (R43, R67). -/
def State.refusePress (c : ConsoleNo) (k : KeyName) (x : Status) (s : State) : State := s.notify (.keyRefused c k x)

/-- A qualified press of the acknowledge key (R75). -/
def State.ackPress (c : ConsoleNo) (s : State) : State :=
  match s.actor c .ack with
  | .error e => s.refusePress c .ack e
  | .ok o =>
    match s.bannerOf c with
    | none => s.refusePress c .ack .wrongState
    | some n =>
      match s.permitBanner c n o with
      | .error e => s.refusePress c .ack e
      | .ok o => s.ackEvent n o.number [.keyAck c n o.number]

/-- A qualified press of the silence key (R58). -/
def State.silencePress (c : ConsoleNo) (s : State) : State :=
  match s.permitSilence c with
  | .error e => s.refusePress c .silence e
  | .ok _ => s.silence c .key

/-- The action of a key that qualifies (R67): activity, then the checked action. -/
def State.keyAction (c : ConsoleNo) (k : KeyName) (s : State) : State :=
  match k with
  | .ack => (s.activity c).ackPress c
  | .silence => (s.activity c).silencePress c

/-- KEY_QUALIFY_TIMER_EXPIRY (R64): the timer runs in PRESSING. -/
def execKeyQualifyTimerExpiry (c : ConsoleNo) (k : KeyName) (s : State) : Result :=
  let x := (s.console c).key k
  if s.mode = .run ∧ x.state = .pressing then
    .next ((s.setKey c k { x with state := .held }).keyAction c k)
  else .next s

/-- KEY_RELEASE_TIMER_EXPIRY (R65, R66): the timer runs in RELEASING, and in STUCK with the contact open. -/
def execKeyReleaseTimerExpiry (c : ConsoleNo) (k : KeyName) (s : State) : Result :=
  let x := (s.console c).key k
  if x.state = .releasing ∨ x.state = .stuck true then .next (s.setKey c k { x with state := .idle }) else .next s

/-- STUCK_TIMER_EXPIRY (R66): the timer runs in HELD. -/
def execStuckTimerExpiry (c : ConsoleNo) (k : KeyName) (s : State) : Result :=
  let x := (s.console c).key k
  if x.state = .held then .next ((s.setKey c k { x with state := .stuck false }).notify (.keyStuck c k)) else .next s

end Sys2Proof.Machine
end

