-- ==== Sys2Proof/Machine/Configuration.lean ====
section
/-! DEFINITION. Configuration, start and restart (chapter 10): the resets, START's validation, SET_TIMING, SET_SHIFT,
LOAD_AREA, the mill clock, and IDENTIFY. -/

namespace Sys2Proof.Machine

/-! ### Hard reset (R177) -/

/-- A key's contact as it stands, its qualifier in IDLE with its timers cancelled (R49, R69). -/
def Key.rest (x : Key) : Key := { x with state := .idle }

/-- A console at its hard-reset values, its two contacts as they stand. -/
def Console.hardReset (r : Console) : Console :=
  { Console.reset with ackKey := r.ackKey.rest, silenceKey := r.silenceKey.rest }

/-- Every block at its hard-reset values, with the line speed read from the BAUDSEL strap. The levels of the other input
pins stand as they do (DESIGN CHOICE, log entry 5), and so do the commands that wait, which are the model's own. -/
def State.hardReset (strapLow : Bool) (s : State) : State :=
  { State.reset with
    consoles := s.consoles.map Console.hardReset
    trip := { TripUnit.reset with lines := s.trip.lines }
    link := { Link.reset with slow := strapLow }
    pending := s.pending }

/-- HARD_RESET: the reset input is asserted and released, or power comes up (R177, R159). -/
def execHardReset (strapLow : Bool) (s : State) : Result := .next (s.hardReset strapLow)

/-! ### RESTART (R177) -/

/-- R24. -/
def Point.restart (p : Point) : Point :=
  { Point.reset with configured := p.configured, area := p.area, priority := p.priority }

/-- R49, R70. -/
def Console.restart (r : Console) : Console := { r.hardReset with config := r.config }

/-- R44, R89, R100, R137, R158. -/
def Area.restart (duty : Crew) (r : Area) : Area := { Area.reset with config := r.config, duty }

/-- R119. -/
def TripCode.restart (r : TripCode) : TripCode :=
  { TripCode.reset with configured := r.configured, start := r.start, areas := r.areas, holdTime := r.holdTime }

/-- R119. -/
def TripUnit.restart (t : TripUnit) : TripUnit :=
  { TripUnit.reset with lines := t.lines, codes := t.codes.map TripCode.restart, store := t.store }

/-- The dynamic state of every block at its RESTART values, in CONFIG (R177). The clock, the settings, every table, the
receiver, the receive buffer and the error list are kept. -/
def State.restart (s : State) : State :=
  State.deriveAttention
    { s with
      mode := .config
      points := s.points.map Point.restart
      raiseCounter := 0
      roster := s.roster.map fun o => { o with seat := none }
      consoles := s.consoles.map Console.restart
      room := Room.reset
      areas := s.areas.map (Area.restart s.mill.duty)
      shelves := []
      trip := s.trip.restart
      pool := Vector.replicate 1024 none
      freeCount := 1024
      mill := { s.mill with incoming := none, outstanding := 0 }
      queue := { s.queue with records := [], overflow := false } }

/-- RESTART (R177). -/
def execRestart (tag : Byte) (payload : List Byte) (s : State) : Result :=
  hostRequest 0x04 tag payload parseNone .both (fun s _ => taken s.restart) s

/-! ### START (R176) -/

/-- The step list from index `i` reaches an entry flagged LAST within the number of entries given, visiting none of
them twice and none of those already seen (R176, check 1). -/
def State.reachesLast (s : State) : Nat → List StepNo → StepNo → Bool
  | 0, _, _ => false
  | n + 1, seen, i =>
    !seen.contains i && ((s.stepEntry i).last || State.reachesLast s n (i :: seen) (s.stepEntry i).next)

/-- The configured area passes check 1 of R176. -/
def State.areaValid (s : State) (a : AreaNo) : Bool :=
  let c := (s.area a).config
  s.reachesLast Config.stepListSize [] c.start && c.floodOff + 256 ≤ c.floodOn

/-- The configured console passes check 2 of R176. -/
def State.consoleValid (s : State) (c : ConsoleNo) : Bool :=
  match (s.console c).config.fallback with
  | none => true
  | some d => d != c && (s.console d).config.configured

/-- The areas of the defined standing orders, in ascending order number. -/
def State.orderAreas (s : State) : List AreaNo := (s.orders.toList.filter (·.defined)).map (·.area)

/-- The first configured area that fails check 1. -/
def State.badArea (s : State) : Option AreaNo :=
  allAreas.find? fun a => (s.area a).config.configured && !s.areaValid a

/-- The first configured console that fails check 2. -/
def State.badConsole (s : State) : Option ConsoleNo :=
  allConsoles.find? fun c => (s.console c).config.configured && !s.consoleValid c

/-- The first standing order's area that fails check 3. -/
def State.badOrder (s : State) : Option AreaNo := s.orderAreas.find? fun a => !(s.area a).config.configured

/-- The offender that START finds, as the two bytes of R179: 0 for an area or 1 for a console, and its number. -/
def State.offender (s : State) : Option (List Byte) :=
  match s.badArea with
  | some a => some [0, byte a.val]
  | none =>
    match s.badConsole with
    | some c => some [1, byte c.val]
    | none => s.badOrder.map fun a => [0, byte a.val]

/-- A key's qualifier on entry to RUN: a contact that is closed then is taken as a closure (R69). -/
def Key.enterRun (x : Key) : Key := { x with state := if x.closed then .pressing else .idle }

/-- A console on entry to RUN (R176). -/
def Console.enterRun (r : Console) : Console :=
  { r with seat := .vacant, head := none, ackKey := r.ackKey.enterRun, silenceKey := r.silenceKey.enterRun }

/-- An area on entry to RUN (R176). -/
def Area.enterRun (r : Area) : Area := { r with meter := 0, flooded := false, covered := false, handover := .steady }

/-- The part enters RUN (R176); the trip qualifier begins in SETTLING, its release timer started where the lines show 0
(R102). -/
def State.enterRun (s : State) : State :=
  { s with
    mode := .run
    consoles := s.consoles.map Console.enterRun
    areas := s.areas.map Area.enterRun
    trip := { s.trip with qualifier := .settling (s.trip.lines = 0) } }

/-- START (R176). -/
def actStart (s : State) (_ : Unit) : Answer :=
  match s.offender with
  | some data => .error (.badConfig, data)
  | none => taken s.enterRun

def execStart (tag : Byte) (payload : List Byte) (s : State) : Result :=
  hostRequest 0x03 tag payload parseNone .config actStart s

/-! ### Settings (R173, R174) -/

/-- The value of a setting that SET_TIMING stores for a carried value (R174). -/
def Setting.clamped : Setting → Nat → Nat
  | .presenceTimeout, n => if n = 0 then 0 else clamp 60 7200 n
  | .p1Resound, n => clamp 30 600 n
  | .keyQualify, n | .keyRelease, n | .tripQualify, n => clamp 20 500 n
  | .tripRelease, n => clamp 100 2000 n
  | .trigger, n => clamp 1 64 n

/-- One setting takes a value. -/
def Settings.store (x : Setting) (n : Nat) (c : Settings) : Settings :=
  match x with
  | .presenceTimeout => { c with presenceTimeout := n }
  | .p1Resound => { c with p1Resound := n }
  | .keyQualify => { c with keyQualify := n }
  | .keyRelease => { c with keyRelease := n }
  | .tripQualify => { c with tripQualify := n }
  | .tripRelease => { c with tripRelease := n }
  | .trigger => { c with trigger := n }

/-- A setting stored, with the attention output re-derived on a change of the trigger level (R174). -/
def State.storeSetting (x : Setting) (n : Nat) (s : State) : State :=
  let t := { s with settings := s.settings.store x n }
  if x = .trigger then t.deriveAttention else t

/-- SET_TIMING (R174). -/
def actSetTiming (s : State) (x : Setting × Nat) : Answer :=
  let n := x.1.clamped x.2
  taken (s.storeSetting x.1 n) [flagByte (n != x.2)]

def execSetTiming (tag : Byte) (payload : List Byte) (s : State) : Result :=
  hostRequest 0x05 tag payload parseTiming .config actSetTiming s

/-- SET_SHIFT (R174). -/
def actSetShift (s : State) (x : Nat × Crew) : Answer :=
  taken { s with
    mill := { s.mill with shift := x.1, duty := x.2 }
    areas := s.areas.map fun r => { r with duty := x.2 } }

def execSetShift (tag : Byte) (payload : List Byte) (s : State) : Result :=
  hostRequest 0x06 tag payload parseShift .config actSetShift s

/-- LOAD_AREA (R173). -/
def actLoadArea (s : State) (x : AreaNo × AreaConfig) : Answer :=
  taken (s.modArea x.1 fun r => { r with config := x.2 })

def execLoadArea (tag : Byte) (payload : List Byte) (s : State) : Result :=
  hostRequest 0x11 tag payload parseArea .config actLoadArea s

/-! ### The mill clock (R175) -/

/-- CLOCK_SECOND: a second of the timebase passes; the count holds at its maximum. -/
def execClockSecond (s : State) : Result :=
  .next { s with clock := ⟨clampTime (s.clock.count + 1), s.clock.timebase + 1⟩ }

/-- The deadline of a seated console, changed by `f`. -/
def Seat.mapDeadline (f : Deadline → Deadline) : Seat → Seat
  | .seated n d => .seated n (d.map f)
  | .vacant => .vacant
  | .absent n => .absent n

/-- The expiry time of a MINUTES shelf, changed by `f`. -/
def ShelfEnd.mapDeadline (f : Deadline → Deadline) : ShelfEnd → ShelfEnd
  | .minutes d => .minutes (f d)
  | .shifts n => .shifts n

/-- The deadlines of a trip code, changed by `f`. -/
def TripState.mapDeadline (f : Deadline → Deadline) : TripState → TripState
  | .idle => .idle
  | .running e d => .running e (d.map f)
  | .holding d => .holding (d.map f)

/-- The deadlines of a RUNNING area, changed by `f`; saved times are no deadlines. -/
def Handover.mapDeadline (f : Deadline → Deadline) : Handover → Handover
  | .running p d e => .running p (d.map f) (e.map f)
  | .steady => .steady
  | .suspended p d e r => .suspended p d e r
  | .halted p => .halted p
  | .done p => .done p

/-- Every deadline that is set, changed by `f`. -/
def State.mapDeadlines (f : Deadline → Deadline) (s : State) : State :=
  { s with
    consoles := s.consoles.map fun r => { r with seat := r.seat.mapDeadline f, resound := r.resound.map f }
    shelves := s.shelves.map fun r => { r with ending := r.ending.mapDeadline f }
    trip := { s.trip with codes := s.trip.codes.map fun r => { r with state := r.state.mapDeadline f } }
    areas := s.areas.map fun r => { r with handover := r.handover.mapDeadline f } }

/-- The count set to `n`, with every deadline moved by the same amount. -/
def State.setClock (n : Nat) (s : State) : State :=
  { s.mapDeadlines (Deadline.move s.now n s.clock.timebase) with clock := { s.clock with count := n } }

/-- SET_CLOCK (R175). -/
def actSetClock (s : State) (n : Nat) : Answer := taken (s.setClock n) (be32 s.now)

def execSetClock (tag : Byte) (payload : List Byte) (s : State) : Result :=
  hostRequest 0x02 tag payload parseTime .both actSetClock s

/-! ### IDENTIFY (R178) -/

def Mode.code : Mode → Nat
  | .config => 0 | .run => 1

/-- The capacities, each in the width of its own value (R180; DEDUCED, log entry 9). -/
def capacityBytes : List Byte :=
  be16 2048 ++ [128, 8, 32, 128, 15] ++ be16 512 ++ be16 1024 ++ [64] ++ be16 256 ++ [64]

def State.identity (s : State) : List Byte :=
  be16 Config.partNumber ++ [byte (Config.siliconRevision.val + 1), byte s.mode.code, flagByte s.link.slow]
  ++ be32 s.now ++ capacityBytes

def execIdentify (tag : Byte) (payload : List Byte) (s : State) : Result :=
  hostRequest 0x01 tag payload parseNone .both (fun s _ => taken s s.identity) s

end Sys2Proof.Machine
end

