-- ==== Sys2Proof/Machine/Handovers.lean ====
section
/-! DEFINITION. The handover procedure's commands (chapter 8): step loads, beginning and cancelling, suspension,
confirmation, abort and restart, the deadlines, and QUERY_HANDOVER. -/

namespace Sys2Proof.Machine

/-- Entries stored in the step store from an index on. -/
def storeSteps (first : Nat) : List StepEntry → Vector StepEntry 256 → Vector StepEntry 256
  | [], v => v
  | e :: es, v => storeSteps (first + 1) es (v.setIfInBounds first e)

/-- LOAD_STEPS (R141). -/
def execLoadSteps (tag : Byte) (payload : List Byte) (s : State) : Result :=
  hostRequest 0x15 tag payload parseSteps .config
    (fun s x => taken { s with steps := storeSteps x.1 x.2.1 s.steps } [flagByte x.2.2]) s

/-- The configured areas, ascending. -/
def State.configuredAreas (s : State) : List AreaNo := allAreas.filter fun a => (s.area a).config.configured

/-! ### Beginning and cancelling -/

/-- The mill handover record when it opens (R143 step 1). -/
def State.openMill (k : Crew) (s : State) : State :=
  { s with mill := { s.mill with incoming := some k, outstanding := s.configuredAreas.length } }

/-- A BEGIN_HANDOVER that is taken (R143). With no area configured the shift change follows at once. -/
def State.beginHandover (k : Crew) (s : State) : State :=
  let w : Work := { s := s.openMill k, cover := true, shift := s.configuredAreas.isEmpty, sheets := true }
  (s.configuredAreas.foldl (fun w a => w.begin a) w).finish

/-- BEGIN_HANDOVER (R143). -/
def actBeginHandover (s : State) (k : Crew) : Answer :=
  if s.mill.isOpen then refuse .wrongState
  else if k = s.mill.duty then refuse .badField
  else
    let t := s.beginHandover k
    taken t [byte t.mill.outstanding]

def execBeginHandover (tag : Byte) (payload : List Byte) (s : State) : Result :=
  hostRequest 0x61 tag payload parseCrew .run actBeginHandover s

/-- The mill handover closed with every area STEADY (R155). -/
def State.closeHandover (s : State) : State :=
  { s with
    mill := { s.mill with incoming := none, outstanding := 0 }
    areas := s.areas.map fun r => { r with handover := .steady } }

/-- CANCEL_HANDOVER (R155). -/
def actCancelHandover (s : State) (_ : Unit) : Answer :=
  if !s.mill.isOpen then refuse .wrongState
  else if s.configuredAreas.any fun a => (s.area a).handover.isDone then refuse .wrongState
  else taken (Work.finish { s := s.closeHandover, cover := true, sheets := true })

def execCancelHandover (tag : Byte) (payload : List Byte) (s : State) : Result :=
  hostRequest 0x62 tag payload parseNone .run actCancelHandover s

/-! ### SUSPEND_AREA and RESUME_AREA (R148) -/

/-- The REQUEST reason of area `a` becomes `b`, with what R149 makes of the change. -/
def State.request (a : AreaNo) (b : Bool) (s : State) : State :=
  (Work.setReasons a (s.reasonsNow a b) { s }).finish

/-- The reply's data: the area's handover state at the end of the event. -/
def State.handoverByte (s : State) (a : AreaNo) : List Byte := [byte (s.area a).handover.code]

def actSuspendArea (s : State) (a : AreaNo) : Answer :=
  let r := s.area a
  if !r.config.configured then refuse .noSuch
  else if !r.handover.inProgress then refuse .wrongState
  else if r.handover.requested then refuse .already
  else
    let t := s.request a true
    taken t (t.handoverByte a)

def execSuspendArea (tag : Byte) (payload : List Byte) (s : State) : Result :=
  hostRequest 0x63 tag payload parseAreaOnly .run actSuspendArea s

def actResumeArea (s : State) (a : AreaNo) : Answer :=
  let r := s.area a
  if !r.config.configured then refuse .noSuch
  else if !r.handover.inProgress then refuse .wrongState
  else if !r.handover.requested then refuse .already
  else
    let t := s.request a false
    taken t (t.handoverByte a)

def execResumeArea (tag : Byte) (payload : List Byte) (s : State) : Result :=
  hostRequest 0x64 tag payload parseAreaOnly .run actResumeArea s

/-! ### Confirmation (R150) -/

/-- The duty test of CONFIRM_STEP is the ACK sense while the current step is CONFIRM_IN (R42). -/
def State.confirmSense (s : State) (a : AreaNo) : Bool := s.stepKind? a == some .confirmIn

/-- The state check of CONFIRM_STEP for an operator's crew (R150). -/
def State.mayConfirm (s : State) (a : AreaNo) (k : Crew) : Bool :=
  (s.area a).handover.isRunning &&
    ((s.stepKind? a == some .confirmOut && k == (s.area a).duty)
      || (s.stepKind? a == some .confirmIn && s.mill.incoming == some k))

/-- The ordinal of the area's current step, 0 where there is none. -/
def State.ordinal (s : State) (a : AreaNo) : Nat := ((s.area a).handover.position?.map (·.ordinal)).getD 0

/-- CONFIRM_STEP (R150). At a CONFIRM_IN step of a HALTED area the incoming crew is refused at step 7, with NOT_ON_DUTY
(R42), where R145 says WRONG_STATE (DESIGN CHOICE, log entry 23). -/
def actConfirmStep (s : State) (x : ConsoleNo × AreaNo) : Answer :=
  withOperator (s.permitArea x.1 .confirm x.2 false (s.confirmSense x.2)) fun o =>
    if !s.mayConfirm x.2 o.crew then refuse .wrongState
    else
      let t := (Work.completeStep x.2 { s, sheets := true }).finish
      taken t (byte (s.ordinal x.2) :: t.handoverByte x.2)

def execConfirmStep (tag : Byte) (payload : List Byte) (s : State) : Result :=
  consoleRequest 0x51 tag payload parseConsoleArea actConfirmStep s

/-- HANDOVER_HOLD_DEADLINE (R142): a RUNNING area's HOLD step completes. -/
def execHandoverHoldDeadline (a : AreaNo) (s : State) : Result :=
  match (s.area a).handover with
  | .running _ _ (some d) =>
    if s.due d then .next (Work.completeStep a { s, sheets := true }).finish else .next s
  | .running _ _ none | .steady | .suspended _ _ _ _ | .halted _ | .done _ => .next s

/-! ### Timeout, abort and restart -/

/-- STEP_TIMEOUT (R151): a RUNNING area's step deadline is reached. -/
def execStepTimeout (a : AreaNo) (s : State) : Result :=
  match (s.area a).handover with
  | .running _ (some d) _ =>
    if s.due d then .next (Work.halt a .stepTimeout { s }).finish else .next s
  | .running _ none _ | .steady | .suspended _ _ _ _ | .halted _ | .done _ => .next s

/-- ABORT_AREA (R152). -/
def actAbortArea (s : State) (a : AreaNo) : Answer :=
  let r := s.area a
  if !r.config.configured then refuse .noSuch
  else if r.handover.isHalted then refuse .already
  else if !r.handover.inProgress then refuse .wrongState
  else taken (Work.halt a .hostAbort { s }).finish

def execAbortArea (tag : Byte) (payload : List Byte) (s : State) : Result :=
  hostRequest 0x65 tag payload parseAreaOnly .run actAbortArea s

/-- CLEAR_ABORT (R151). -/
def actClearAbort (s : State) (a : AreaNo) : Answer :=
  if (s.area a).abort.isNone then refuse .already
  else taken (s.modArea a fun r => { r with abort := none })

def execClearAbort (tag : Byte) (payload : List Byte) (s : State) : Result :=
  hostRequest 0x66 tag payload parseAreaOnly .both actClearAbort s

/-- RESTART_AREA (R153). -/
def actRestartArea (s : State) (x : ConsoleNo × AreaNo) : Answer :=
  withOperator (s.permitArea x.1 .restart x.2 false false) fun _ =>
    if !(s.area x.2).handover.isHalted then refuse .wrongState
    else
      let t := (Work.begin x.2 { s }).finish
      taken t (t.handoverByte x.2)

def execRestartArea (tag : Byte) (payload : List Byte) (s : State) : Result :=
  consoleRequest 0x52 tag payload parseConsoleArea actRestartArea s

/-! ### QUERY_HANDOVER (R157) -/

/-- The mill handover record whole, in the order of R138's table. -/
def Mill.bytes (m : Mill) : List Byte :=
  be16 m.shift ++ [byte m.duty.code, flagByte m.isOpen, orNone Crew.code m.incoming, byte m.outstanding]

/-- The seconds to the step deadline, or the saved step time. -/
def State.stepLeft (s : State) : Handover → Option Nat
  | .running _ d _ => d.map s.remaining
  | .suspended _ n _ _ => n
  | .steady | .halted _ | .done _ => none

/-- The seconds to the hold deadline, or the saved hold time. -/
def State.holdLeft (s : State) : Handover → Option Nat
  | .running _ _ d => d.map s.remaining
  | .suspended _ _ n _ => n
  | .steady | .halted _ | .done _ => none

/-- The suspension set (R139). -/
def Handover.reasons : Handover → Reasons
  | .suspended _ _ _ r => r
  | .steady | .running _ _ _ | .halted _ | .done _ => Reasons.none

/-- An abort record (R157). The first reason is sent as R181's table numbers the parameter of HANDOVER_ABORTED, 1 STEP_TIMEOUT
and 2 HOST_ABORT, where R180 by itself would number the names from 0 (DEDUCED, log entry 9). -/
def Abort.bytes (x : Abort) : List Byte :=
  [byte x.reason.code, byte x.ordinal] ++ be32 x.time ++ [flagByte x.further]

/-- An area's handover record (R157). The suspension set is sent as the sum of R181 in one byte (DEDUCED, log entry 9). -/
def State.handoverBytes (s : State) (a : AreaNo) : List Byte :=
  let r := s.area a
  let p := r.handover.position?
  [flagByte r.config.configured, byte r.config.start.val, byte r.duty.code, byte r.handover.code]
  ++ present 1 (fun (x : Position) => [byte x.index.val]) p ++ present 1 (fun (x : Position) => [byte x.ordinal]) p
  ++ present 1 (fun (x : Position) => [byte (s.stepEntry x.index).kind.code]) p
  ++ present 4 be32 (s.stepLeft r.handover) ++ present 4 be32 (s.holdLeft r.handover)
  ++ [byte r.handover.reasons.code] ++ present 7 Abort.bytes r.abort

def actQueryHandover (s : State) : Option AreaNo → Answer
  | none => taken s s.mill.bytes
  | some a => taken s (s.handoverBytes a)

def execQueryHandover (tag : Byte) (payload : List Byte) (s : State) : Result :=
  hostRequest 0x30 tag payload parseAreaOrAll .both actQueryHandover s

end Sys2Proof.Machine
end

