-- ==== Sys2Proof/Machine/Line.lean ====
section
/-! DEFINITION. The supervisory link (chapter 9): the receiver and its buffer, the answers to discarded frames and unknown
kinds, and FETCH_NOTICES. -/

namespace Sys2Proof.Machine

/-! ### The receiver (R161, R162) -/

/-- The bytes of a whole frame in the receive buffer: start, length, kind, tag, payload and check (R160). -/
def Received.size : Received → Nat
  | .frame f => f.payload.length + 6
  | .error _ => 0

/-- The bytes of the frame being received, from its start byte (R162). -/
def Receiver.size : Receiver → Nat
  | .hunting => 0
  | .length => 1
  | .body _ bytes => bytes.length + 2

/-- The bytes that the receive buffer holds (R162). -/
def Link.held (l : Link) : Nat := (l.order.map Received.size).sum + l.receiver.size

/-- The receive buffer is full. -/
def Link.isFull (l : Link) : Bool := Config.bufferSize ≤ l.held

/-- How many errors wait to be answered (R163). -/
def Link.errors (l : Link) : Nat :=
  l.order.countP fun x => match x with | .error _ => true | .frame _ => false

/-- The frame being received is discarded with an error, which is dropped when the error list holds 16 (R163). -/
def Link.discard (e : LinkError) (l : Link) : Link :=
  { l with
    receiver := .hunting
    order := if l.errors < Config.errorListSize then l.order ++ [.error e] else l.order }

/-- The kind, tag and payload of a whole frame's bytes, where its check is right: `bytes` are those after the length
byte, `len` of them before the two check bytes (R160, R161). -/
def wholeFrame (len : Nat) (bytes : List Byte) : Option Frame :=
  let content := bytes.take len
  let check := crc (byte len :: content)
  if bytes.drop len = [(check >>> 8).setWidth 8, check.setWidth 8] then
    match content with
    | kind :: tag :: payload => some { kind, tag, payload }
    | _ => none
  else none

/-- The last check byte has arrived (R161). -/
def Link.complete (len : Nat) (bytes : List Byte) (l : Link) : Link :=
  match wholeFrame len bytes with
  | some f => { l with receiver := .hunting, order := l.order ++ [.frame f] }
  | none => l.discard .check

/-- A character arrives (R161, R162). -/
def Link.character (b : Byte) (l : Link) : Link :=
  match l.receiver with
  | .hunting =>
    if b ≠ 0xC3 then l else if l.isFull then l.discard .overrun else { l with receiver := .length }
  | .length =>
    if l.isFull then l.discard .overrun
    else if 2 ≤ b.toNat ∧ b.toNat ≤ 250 then { l with receiver := .body b.toNat [] }
    else l.discard .length
  | .body len bytes =>
    if l.isFull then l.discard .overrun
    else if bytes.length + 1 < len + 2 then { l with receiver := .body len (bytes ++ [b]) }
    else l.complete len (bytes ++ [b])

/-- RECEIVE_CHARACTER (R161). -/
def execReceiveCharacter (b : Byte) (s : State) : Result := .next { s with link := s.link.character b }

/-- GAP_TIMER_EXPIRY (R161): the timer runs in LENGTH and BODY. -/
def execGapTimerExpiry (s : State) : Result :=
  match s.link.receiver with
  | .hunting => .next s
  | .length | .body _ _ => .next { s with link := s.link.discard .gap }

/-! ### Replies to what is no request -/

/-- The LINK_ERROR reply (R165). -/
def linkErrorFrame (e : LinkError) : Frame := { kind := 0xFF, tag := 0, payload := [byte e.code] }

/-- LINK_ERROR (R163, R165): the handler takes an error whose turn it is. -/
def execLinkError (s : State) : Result :=
  match s.link.order with
  | .error e :: rest => .next (State.send (linkErrorFrame e) { s with link := { s.link with order := rest } })
  | .frame _ :: _ | [] => .next s

/-- BAD_KIND (R164 step 1): the handler takes a frame whose kind names no request. -/
def execBadKind (kind tag : Byte) (payload : List Byte) (s : State) : Result :=
  if isRequestKind kind then .next s
  else
    match s.take { kind, tag, payload } with
    | none => .next s
    | some s => .next (s.send (replyFrame kind tag .badKind []))

/-! ### FETCH_NOTICES (R169) -/

/-- The queue after a fetch of up to `n` notices. -/
def State.fetch (n : Nat) (s : State) : State :=
  State.deriveAttention { s with queue := { s.queue with records := s.queue.records.drop n, overflow := false } }

/-- The data of a fetch (R169, R181). -/
def NoticeQueue.fetched (n : Nat) (q : NoticeQueue) : List Byte :=
  [byte (q.records.take n).length, flagByte q.overflow, byte (q.records.drop n).length]
  ++ (q.records.take n).flatMap Notice.bytes

def actFetchNotices (s : State) (n : Nat) : Answer := taken (s.fetch n) (s.queue.fetched n)

def execFetchNotices (tag : Byte) (payload : List Byte) (s : State) : Result :=
  hostRequest 0x07 tag payload parseMax .both actFetchNotices s

end Sys2Proof.Machine
end

