-- ==== Sys2Proof/Machine/Points.lean ====
section
/-! DEFINITION. The point table (chapter 1) and the rate meter (chapter 5): loading and setting points, raises and clears,
out of service, point queries, meter queries and decay. -/

namespace Sys2Proof.Machine

/-! ### The rate meter -/

/-- Area `a`'s meter takes the value `l`, and the flood test of R96 is made. -/
def State.setMeter (a : AreaNo) (l : Nat) (s : State) : State :=
  let r := s.area a
  if r.config.floodOn ≤ l && !r.flooded then
    (s.modArea a fun x => { x with meter := l, flooded := true }).notify (.floodOn a)
  else if l ≤ r.config.floodOff && r.flooded then
    (s.modArea a fun x => { x with meter := l, flooded := false }).notify (.floodOff a)
  else s.modArea a fun x => { x with meter := l }

/-- One annunciated raise (R92). -/
def raisedMeter (l : Nat) : Nat := min 65535 (l + 256)

/-- The decrement of a decay step (R94). -/
def decrement (l k : Nat) : Nat := max 1 (l * k / 1024)

/-- DECAY_STEP (R94): one second's decay of an area whose meter is above 0, in RUN (DESIGN CHOICE, log entry 16). -/
def execDecayStep (a : AreaNo) (s : State) : Result :=
  let r := s.area a
  if s.mode = .run ∧ r.config.configured ∧ 0 < r.meter then
    let t := s.setMeter a (r.meter - decrement r.meter r.config.decay)
    if (t.area a).flooded = r.flooded then .next t
    else .next (Work.reconsider a (fun _ => false) { s := t }).finish
  else .next s

/-- An area's entry in the QUERY_METERS reply (R99). -/
def Area.meterBytes (a : AreaNo) (r : Area) : List Byte :=
  [byte a.val, flagByte r.config.configured] ++ be16 r.meter ++ [flagByte r.flooded, byte r.config.decay]
  ++ be16 r.config.floodOn ++ be16 r.config.floodOff

/-- QUERY_METERS (R99). -/
def actQueryMeters (s : State) (x : Nat × Nat) : Answer :=
  taken s ((allAreas.filter fun a => x.1 ≤ a.val && a.val < x.1 + x.2).flatMap fun a => (s.area a).meterBytes a)

def execQueryMeters (tag : Byte) (payload : List Byte) (s : State) : Result :=
  hostRequest 0x2D tag payload parseMeters .both actQueryMeters s

/-! ### Configuration of points -/

/-- The entries of a LOAD_POINTS stored from point `first` on (R2). -/
def State.storePoints (first : Nat) : List PointEntry → State → State
  | [], s => s
  | e :: es, s =>
    State.storePoints (first + 1) es <|
      match below 2048 first with
      | some n =>
        s.setPoint n { s.point n with configured := e.configured, area := e.area, priority := e.priority }
      | none => s

/-- LOAD_POINTS (R2). -/
def execLoadPoints (tag : Byte) (payload : List Byte) (s : State) : Result :=
  hostRequest 0x10 tag payload parsePoints .config (fun s x => taken (s.storePoints x.1 x.2)) s

/-- SET_POINT (R20). -/
def actSetPoint (s : State) (x : PointNo × AreaNo × Priority) : Answer :=
  let p := s.point x.1
  if !p.configured then refuse .noSuch
  else if s.mode = .run ∧ !p.outOfService then refuse .wrongState
  else if s.mode = .run ∧ !(s.area x.2.1).config.configured then refuse .noSuch
  else taken (s.setPoint x.1 { p with area := x.2.1, priority := x.2.2 })

def execSetPoint (tag : Byte) (payload : List Byte) (s : State) : Result :=
  hostRequest 0x19 tag payload parseSetPoint .both actSetPoint s

/-! ### Raise and clear -/

/-- What every taken raise records (R5, R6, R10). -/
def Point.raised (now : Nat) (p : Point) : Point :=
  { p with condition := .active, raisedAt := some now, occurrences := min 255 (p.occurrences + 1) }

/-- An unhidden CLEAR point is raised (R5, R7): it becomes NEW, its area's meter counts it, and its neighbours are told. -/
def State.raiseInView (n : PointNo) (s : State) : State :=
  let p := s.point n
  let t := s.becomeNew n false (p.raised s.now)
  let u := t.setMeter p.area (raisedMeter (t.area p.area).meter)
  let w : Work := { s := u }
  if p.priority = .p1 ∨ (u.area p.area).flooded ≠ (t.area p.area).flooded then
    (w.reconsider p.area fun k => p.priority == .p1 && k == .clearP1).finish
  else w.finish

/-- RAISE (R5 to R8). -/
def actRaise (s : State) (n : PointNo) : Answer :=
  let p := s.point n
  if !s.exists? p then refuse .noSuch
  else if p.condition = .active then refuse .already
  else if p.hidden then taken (s.setPoint n (p.raised s.now))
  else taken (s.raiseInView n)

def execRaise (tag : Byte) (payload : List Byte) (s : State) : Result :=
  hostRequest 0x20 tag payload parsePoint .run actRaise s

/-- The annunciation state after a clear (R9). -/
def Annunciation.cleared : Annunciation → Annunciation
  | .new => .faded
  | .acked | .normal => .normal
  | .faded => .faded

/-- What a clear does to a point's record (R9, R12). -/
def Point.cleared (p : Point) : Point := { p with condition := .clear, ann := p.ann.cleared, postTrip := false }

/-- CLEAR (R9). -/
def actClear (s : State) (n : PointNo) : Answer :=
  let p := s.point n
  if !s.exists? p then refuse .noSuch
  else if p.condition = .clear then refuse .already
  else if p.hidden then taken (s.setPoint n { p with condition := .clear })
  else
    let w : Work := { s := s.setPoint n p.cleared }
    taken (if p.ann = .new then w.pointChanged p else w).finish

def execClear (tag : Byte) (payload : List Byte) (s : State) : Result :=
  hostRequest 0x21 tag payload parsePoint .run actClear s

/-! ### Out of service -/

/-- The points-suppressed count of every code of a list decreases by one (R18). -/
def State.uncountSuppressed (cs : List TripNo) (s : State) : State :=
  cs.foldl (fun s c => s.modCode c fun r => { r with suppressed := r.suppressed - 1 }) s

/-- The shelf record of a point, where it has one, leaves the list (R18). -/
def State.dropShelfOf (n : PointNo) (s : State) : State :=
  match s.shelfOf? n with
  | some r => s.dropShelf r
  | none => s

/-- A point is taken out of service (R18). -/
def State.takeOut (n : PointNo) (s : State) : State :=
  let p := s.point n
  let t := ((s.dropShelfOf n).uncountSuppressed p.suppression).addReason n fun q =>
    { q with shelved := false, suppression := [], outOfService := true }
  (Work.pointChanged p { s := t, sheets := (s.shelfOf? n).isSome }).finish

/-- TAKE_OUT (R17). -/
def actTakeOut (s : State) (x : ConsoleNo × PointNo) : Answer :=
  withOperator (s.permitPoint x.1 .service x.2 false) fun _ =>
    if s.tripCovers (s.point x.2).area then refuse .busy
    else if (s.point x.2).outOfService then refuse .already
    else taken (s.takeOut x.2)

def execTakeOut (tag : Byte) (payload : List Byte) (s : State) : Result :=
  consoleRequest 0x48 tag payload parseConsolePoint actTakeOut s

/-- A point returns to service (R19, R15). -/
def State.putBack (n : PointNo) (s : State) : State :=
  let t := s.removeReason n (fun q => { q with outOfService := false }) false
  (Work.pointChanged (s.point n) { s := t }).finish

/-- RETURN (R19). -/
def actReturn (s : State) (x : ConsoleNo × PointNo) : Answer :=
  withOperator (s.permitPoint x.1 .service x.2 false) fun _ =>
    if s.tripCovers (s.point x.2).area then refuse .busy
    else if !(s.point x.2).outOfService then refuse .already
    else taken (s.putBack x.2)

def execReturn (tag : Byte) (payload : List Byte) (s : State) : Result :=
  consoleRequest 0x49 tag payload parseConsolePoint actReturn s

/-! ### Queries -/

/-- QUERY_POINT (R21). -/
def execQueryPoint (tag : Byte) (payload : List Byte) (s : State) : Result :=
  hostRequest 0x28 tag payload parsePoint .both (fun s n => taken s ((s.point n).bytes n s.raiseCounter)) s

/-- A standing point (R22). -/
def Point.standing (p : Point) : Bool := p.configured && (p.condition == .active || p.ann == .faded)

/-- The standing points of a selection from a start point on, ascending (R22). -/
def State.standing (s : State) (sel : Option AreaNo) (first : PointNo) : List (PointNo × Point) :=
  s.numbered.filter fun x => first ≤ x.1 && x.2.standing && (sel.isNone || sel == some x.2.area)

/-- The continuation of a reply (R22): "complete" where the search has passed point 2047, as it has where the reply is not
full at 40 entries or its last point is 2047, and else the number after the last point. R22 does not say whether the search
behind a full reply has passed point 2047 where no standing point follows its last point: there the model gives the number
(DESIGN CHOICE, log entry 25). -/
def standingContinuation (listed : List (PointNo × Point)) : Nat :=
  match listed.getLast? with
  | some x => if listed.length < 40 ∨ x.1.val = 2047 then 0xFFFF else x.1.val + 1
  | none => 0xFFFF

/-- LIST_STANDING (R22, R182). -/
def actListStanding (s : State) (x : Option AreaNo × PointNo) : Answer :=
  let listed := (s.standing x.1 x.2).take 40
  taken s (byte listed.length :: listed.flatMap (fun y => y.2.standingBytes y.1)
    ++ be16 (standingContinuation listed))

def execListStanding (tag : Byte) (payload : List Byte) (s : State) : Result :=
  hostRequest 0x29 tag payload parseStanding .both actListStanding s

end Sys2Proof.Machine
end

