-- ==== Sys2Proof/Machine/Sheets.lean ====
section
/-! DEFINITION. Handover sheets (chapter 7): standing orders, the draft's lock and items, commit, review, and READ_SHEET. -/

namespace Sys2Proof.Machine

/-- Area `a`'s draft changed by `f`. -/
def State.modDraft (a : AreaNo) (f : Draft → Draft) (s : State) : State :=
  s.modArea a fun r => { r with draft := f r.draft }

/-! ### Standing orders -/

/-- How many defined orders an area holds beside order `n` (R123). -/
def State.otherOrders (s : State) (n : OrderNo) (a : AreaNo) : Nat :=
  ((List.finRange 64).zip s.orders.toList).countP fun x => x.1 != n && x.2.defined && x.2.area == a

/-- LOAD_ORDER (R123). -/
def actLoadOrder (s : State) (x : OrderNo × Order) : Answer :=
  if x.2.defined ∧ Config.ordersPerArea ≤ s.otherOrders x.1 x.2.area then refuse .limit
  else taken { s with orders := s.orders.set x.1 x.2 }

def execLoadOrder (tag : Byte) (payload : List Byte) (s : State) : Result :=
  hostRequest 0x18 tag payload parseOrder .config actLoadOrder s

/-! ### The lock (R124, R125) -/

/-- The draft's lock is held by the console. -/
def State.holdsLock (s : State) (c : ConsoleNo) (a : AreaNo) : Bool := (s.area a).draft.lock == some c

/-- The draft locked by console `c`, a commit withdrawn (R124). -/
def Draft.lockFor (c : ConsoleNo) (d : Draft) : Draft :=
  if d.commit.isSome then { d with lock := some c, commit := none, poolShort := false } else { d with lock := some c }

/-- LOCK_DRAFT (R124). -/
def actLockDraft (s : State) (x : ConsoleNo × AreaNo) : Answer :=
  withOperator (s.permitArea x.1 .edit x.2 false false) fun _ =>
    let d := (s.area x.2).draft
    if d.lock.isSome ∧ d.lock ≠ some x.1 then refuse .locked
    else if d.lock = some x.1 then refuse .already
    else taken (s.modDraft x.2 (Draft.lockFor x.1)) [flagByte d.commit.isSome]

def execLockDraft (tag : Byte) (payload : List Byte) (s : State) : Result :=
  consoleRequest 0x4B tag payload parseConsoleArea actLockDraft s

/-- UNLOCK_DRAFT (R125). -/
def actUnlockDraft (s : State) (x : ConsoleNo × AreaNo) : Answer :=
  withOperator (s.permitArea x.1 .edit x.2 false false) fun _ =>
    let d := (s.area x.2).draft
    if d.lock.isSome ∧ d.lock ≠ some x.1 then refuse .locked
    else if d.lock = none then refuse .already
    else taken (s.modDraft x.2 fun d => { d with lock := none })

def execUnlockDraft (tag : Byte) (payload : List Byte) (s : State) : Result :=
  consoleRequest 0x4C tag payload parseConsoleArea actUnlockDraft s

/-! ### Items (R126, R127) -/

/-- A POINT item names a configured point of the area (R126). -/
def State.itemFits (s : State) (a : AreaNo) : ItemKind → Bool
  | .point n => (s.point n).configured && (s.point n).area == a
  | .note _ | .equipment _ | .order _ _ | .shelf _ _ => true

/-- An operator item in slot `i` at the end of area `a`'s draft (R126). -/
def State.addItem (a : AreaNo) (i : SlotNo) (k : ItemKind) (o : Nat) (s : State) : State :=
  (s.placeItem i { kind := k, author := some o, created := s.now, reviewed := none }).modDraft a fun d =>
    { d with items := d.items ++ [i] }

/-- ADD_ITEM (R126). -/
def actAddItem (s : State) (x : ConsoleNo × AreaNo × ItemKind) : Answer :=
  withOperator (s.permitArea x.1 .edit x.2.1 false false) fun o =>
    let d := (s.area x.2.1).draft
    if !s.holdsLock x.1 x.2.1 then refuse .locked
    else if !s.itemFits x.2.1 x.2.2 then refuse .badField
    else if Config.draftItems ≤ d.items.length then refuse .limit
    else
      match s.lowestFree with
      | none => refuse .poolEmpty
      | some i =>
        taken (Work.finish { s := s.addItem x.2.1 i x.2.2 o.number, sheets := true })
          (byte d.items.length :: be16 i.val)

def execAddItem (tag : Byte) (payload : List Byte) (s : State) : Result :=
  consoleRequest 0x4D tag payload parseAddItem actAddItem s

/-- REMOVE_ITEM (R127). -/
def actRemoveItem (s : State) (x : ConsoleNo × AreaNo × Nat) : Answer :=
  withOperator (s.permitArea x.1 .edit x.2.1 false false) fun _ =>
    let d := (s.area x.2.1).draft
    if !s.holdsLock x.1 x.2.1 then refuse .locked
    else
      match d.items[x.2.2]? with
      | none => refuse .wrongState
      | some i =>
        let t := (s.modDraft x.2.1 fun d => { d with items := d.items.eraseIdx x.2.2 }).freeSlot i
        taken (Work.finish { s := t, sheets := true })

def execRemoveItem (tag : Byte) (payload : List Byte) (s : State) : Result :=
  consoleRequest 0x4E tag payload (parsePosition 15) actRemoveItem s

/-! ### Commit (R128) -/

/-- The draft committed for a crew (R128). -/
def Draft.commitFor (k : Crew) (d : Draft) : Draft := { d with lock := none, commit := some k, poolShort := false }

/-- POST (R128); the flag is 0 for "posted" and 1 for "waiting" (DEDUCED, log entry 9). -/
def actPost (s : State) (x : ConsoleNo × AreaNo) : Answer :=
  withOperator (s.permitArea x.1 .edit x.2 false false) fun o =>
    if !s.holdsLock x.1 x.2 then refuse .locked
    else
      let t := Work.finish { s := s.modDraft x.2 (Draft.commitFor o.crew), sheets := true }
      taken t [flagByte (t.area x.2).draft.commit.isSome]

def execPost (tag : Byte) (payload : List Byte) (s : State) : Result :=
  consoleRequest 0x4F tag payload parseConsoleArea actPost s

/-! ### Review (R135) -/

/-- How many items of a list of slots have no reviewer. -/
def State.unreviewed (s : State) (is : List SlotNo) : Nat := is.countP fun i => !s.reviewed i

/-- The item in slot `i` is reviewed by operator `o` (R135). -/
def State.review (i : SlotNo) (o : Nat) (s : State) : State :=
  s.modItem i fun x => { x with reviewed := some ⟨o, s.now⟩ }

/-- The reply data of REVIEW_ITEM, taken at the moment of the review (R135). -/
def reviewData (x : Item) (shift unreviewed : Nat) : List Byte :=
  byte x.kind.code :: x.kind.reference ++ be16 shift ++ [byte unreviewed]

/-- REVIEW_ITEM (R135). -/
def actReviewItem (s : State) (x : ConsoleNo × AreaNo × Nat) : Answer :=
  withOperator (s.permitArea x.1 .review x.2.1 false true) fun o =>
    let r := (s.area x.2.1).posted
    match r.items[x.2.2]? with
    | none => refuse .wrongState
    | some i =>
      match s.item i with
      | none => refuse .wrongState
      | some item =>
        if r.posting.map (·.crew) = some o.crew then refuse .sameCrew
        else if item.reviewed.isSome then refuse .already
        else
          let t := s.review i o.number
          let w : Work := { s := t, sheets := true }
          taken (w.examine x.2.1 (· == .review)).finish
            (reviewData item ((r.posting.map (·.shift)).getD 0) (t.unreviewed r.items))

def execReviewItem (tag : Byte) (payload : List Byte) (s : State) : Result :=
  consoleRequest 0x50 tag payload (parsePosition 31) actReviewItem s

/-! ### READ_SHEET (R136, R182) -/

/-- The first five fields of the header. -/
def State.sheetHeader (s : State) (r : Area) (posted : Bool) (count : Nat) : List Byte :=
  [flagByte r.config.configured, byte r.config.posting.code, flagByte posted] ++ be16 s.freeCount ++ [byte count]

/-- The draft's own header fields. -/
def Draft.bytes (d : Draft) : List Byte :=
  [orNone Fin.val d.lock, flagByte d.commit.isSome, orNone Crew.code d.commit, flagByte d.poolShort]

/-- A slot of a frame holds a captured item. -/
def State.isCaptured (s : State) (i : SlotNo) : Bool := (s.item i).any Item.captured

/-- The posted frame's own header fields. -/
def State.postedBytes (s : State) (p : Posted) : List Byte :=
  let captured := p.items.countP s.isCaptured
  [byte (p.items.length - captured), byte captured]
  ++ present 7 (fun (x : Posting) => be16 x.shift ++ byte x.crew.code :: be32 x.time) p.posting
  ++ present 30 (fun (x : Posting) => x.summary.bytes) p.posting
  ++ [byte (s.unreviewed p.items)]

/-- The items listed from a start position, with their positions. -/
def listedItems (items : List SlotNo) (first : Nat) : List (SlotNo × Nat) :=
  (items.zipIdx.filter fun x => first ≤ x.2).take 7

/-- The continuation: the position after the last item listed, unless the list has been passed to its end. -/
def sheetContinuation (items : List SlotNo) (first : Nat) : Nat :=
  if items.length ≤ first + 7 then 0xFF else first + 7

/-- The item record of a slot at a position. -/
def State.itemBytes (s : State) (x : SlotNo × Nat) : List Byte :=
  match s.item x.1 with
  | some item => item.bytes x.2 x.1
  | none => []

/-- READ_SHEET (R136). -/
def actReadSheet (s : State) (x : AreaNo × Bool × Nat) : Answer :=
  let r := s.area x.1
  let items := if x.2.1 then r.posted.items else r.draft.items
  let own := if x.2.1 then s.postedBytes r.posted else r.draft.bytes
  let listed := listedItems items x.2.2
  taken s (s.sheetHeader r x.2.1 items.length ++ own ++ byte listed.length :: listed.flatMap s.itemBytes
    ++ [byte (sheetContinuation items x.2.2)])

def execReadSheet (tag : Byte) (payload : List Byte) (s : State) : Result :=
  hostRequest 0x2F tag payload parseSheet .both actReadSheet s

end Sys2Proof.Machine
end

