-- ==== Sys2Proof/Machine/Shelving.lean ====
section
/-! DEFINITION. The shelf list (chapter 4, sections 4.3 to 4.6). -/

namespace Sys2Proof.Machine

/-- What ends a new shelf (R82). -/
def State.shelfEnd (s : State) : ShelveFor → ShelfEnd
  | .minutes n => .minutes (s.deadlineIn (60 * n))
  | .shifts n => .shifts n

/-- The reply data of SHELVE: the expiry time, or the remaining shift changes, in 4 bytes (R82, R180; DEDUCED, log entry 9). -/
def ShelfEnd.bytes : ShelfEnd → List Byte
  | .minutes d => be32 d.time
  | .shifts n => be32 n

/-- The shelf list and the point after a SHELVE (R82 steps 1 to 4). -/
def State.addShelf (r : Shelf) (s : State) : State :=
  (State.modArea r.area (fun x => { x with shelvedCount := x.shelvedCount + 1 })
    { s with shelves := s.shelves ++ [r] }).addReason r.point fun p => { p with shelved := true }

/-- The record a SHELVE makes (R82). -/
def State.newShelf (s : State) (c : ConsoleNo) (n : PointNo) (o : Nat) (x : ShelveFor) : Shelf :=
  { point := n, area := (s.point n).area, operator := o, console := c, start := s.now, ending := s.shelfEnd x }

/-- SHELVE (R80 to R82). -/
def actShelve (s : State) (x : ConsoleNo × PointNo × ShelveFor) : Answer :=
  withOperator (s.permitPoint x.1 .shelve x.2.1 false) fun o =>
    let p := s.point x.2.1
    if p.priority = .p1 then refuse .notPermitted
    else if s.tripCovers p.area then refuse .busy
    else if p.outOfService then refuse .wrongState
    else if p.shelved then refuse .already
    else if Config.shelvesPerArea ≤ (s.area p.area).shelvedCount then refuse .limit
    else if Config.shelfListSize ≤ s.shelves.length then refuse .limit
    else
      let r := s.newShelf x.1 x.2.1 o.number x.2.2
      taken (Work.finish { s := s.addShelf r, sheets := true }) r.ending.bytes

def execShelve (tag : Byte) (payload : List Byte) (s : State) : Result :=
  consoleRequest 0x46 tag payload parseShelve actShelve s

/-- The event of the end of shelf `r`, the shelf list's own changes having made `t` of `s`: the neighbours are told of the
point (R16) and the sheet store of the shelves (R83, R84). -/
def State.shelfEnded (s : State) (r : Shelf) (t : State) : State :=
  (Work.pointChanged (s.point r.point) { s := t, sheets := true }).finish

/-- UNSHELVE (R83). -/
def actUnshelve (s : State) (x : ConsoleNo × PointNo) : Answer :=
  withOperator (s.permitPoint x.1 .shelve x.2 false) fun _ =>
    if s.tripCovers (s.point x.2).area then refuse .busy
    else
      match s.shelfOf? x.2 with
      | none => refuse .wrongState
      | some r => taken (s.shelfEnded r (s.endShelf r))

def execUnshelve (tag : Byte) (payload : List Byte) (s : State) : Result :=
  consoleRequest 0x47 tag payload parseConsolePoint actUnshelve s

/-- The expiry time of a MINUTES shelf (R79). -/
def Shelf.expiry? (r : Shelf) : Option Deadline :=
  match r.ending with
  | .minutes d => some d
  | .shifts _ => none

/-- SHELF_EXPIRED (R84): the point's MINUTES shelf reaches its expiry time. -/
def execShelfExpired (n : PointNo) (s : State) : Result :=
  match s.shelfOf? n with
  | some r =>
    if (r.expiry?.map s.due).getD false then
      .next (s.shelfEnded r ((s.endShelf r).notify (.shelfExpired n)))
    else .next s
  | none => .next s

/-! ### Reading the shelf list (R88) -/

/-- The records of a selection with their positions, in the list's order. -/
def State.shelfSelection (s : State) (sel : Option AreaNo) : List (Shelf × Nat) :=
  s.shelves.zipIdx.filter fun x => sel.isNone || sel == some x.1.area

/-- The continuation of LIST_SHELVES: the position after the last record of a full reply, unless the search has passed
the end of the list. A full reply is of every area's records, as an area has at most 8 of the 15 (R79), so its last record is
the list's last or another record follows it. -/
def shelfContinuation (total : Nat) (listed : List (Shelf × Nat)) : Nat :=
  match listed.getLast? with
  | some x => if listed.length < 15 ∨ total ≤ x.2 + 1 then 0xFF else x.2 + 1
  | none => 0xFF

/-- LIST_SHELVES (R88, R182). -/
def actListShelves (s : State) (x : Option AreaNo × Nat) : Answer :=
  let sel := s.shelfSelection x.1
  let listed := (sel.filter fun y => x.2 ≤ y.2).take 15
  taken s ([byte sel.length, byte s.shelves.length, byte listed.length]
    ++ listed.flatMap (fun y => y.1.bytes y.2) ++ [byte (shelfContinuation s.shelves.length listed)])

def execListShelves (tag : Byte) (payload : List Byte) (s : State) : Result :=
  hostRequest 0x2C tag payload parseShelves .both actListShelves s

end Sys2Proof.Machine
end

