-- ==== Sys2Proof/Machine/Trip.lean ====
section
/-! DEFINITION. The trip unit (chapter 6): line qualification, trip loads, the taking of a code, the run of its list,
holds, faults and release. -/

namespace Sys2Proof.Machine

/-- The trip unit's record changed by `f`. -/
def State.modTrip (f : TripUnit → TripUnit) (s : State) : State := { s with trip := f s.trip }

/-! ### Loads (R105, R106) -/

/-- LOAD_TRIP_CODE (R105): refused with BUSY in RUN while a code is RUNNING or HOLDING. -/
def actLoadTripCode (s : State) (x : TripNo × TripConfig) : Answer :=
  if s.mode = .run ∧ !s.tripsIdle then refuse .busy
  else
    taken (s.modCode x.1 fun r =>
      { r with configured := x.2.configured, start := x.2.start, areas := x.2.areas, holdTime := x.2.holdTime })
      [flagByte x.2.clamped]

def execLoadTripCode (tag : Byte) (payload : List Byte) (s : State) : Result :=
  hostRequest 0x16 tag payload parseTripCode .both actLoadTripCode s

/-- Entries stored in the trip list store from an index on. -/
def storeTripEntries (first : Nat) : List TripEntry → Vector TripEntry 512 → Vector TripEntry 512
  | [], v => v
  | e :: es, v => storeTripEntries (first + 1) es (v.setIfInBounds first e)

/-- LOAD_TRIP_ENTRIES (R106): refused with BUSY in RUN while a code is RUNNING or HOLDING. -/
def actLoadTripEntries (s : State) (x : Nat × List TripEntry × Bool) : Answer :=
  if s.mode = .run ∧ !s.tripsIdle then refuse .busy
  else taken (s.modTrip fun t => { t with store := storeTripEntries x.1 x.2.1 t.store }) [flagByte x.2.2]

def execLoadTripEntries (tag : Byte) (payload : List Byte) (s : State) : Result :=
  hostRequest 0x17 tag payload parseTripEntries .both actLoadTripEntries s

/-! ### The run (R110 to R114) -/

/-- What a member of a GROUP entry comes to (R110's tests, the first that applies). -/
inductive MemberOutcome | fault | skipped | spared | joins
  deriving DecidableEq, Repr

/-- The tests of R110 on an existing point number. -/
def State.memberOutcome (s : State) (c : TripNo) (g : Group) (n : PointNo) : MemberOutcome :=
  let p := s.point n
  if !s.exists? p || p.outOfService then .skipped
  else if !inSet (s.code c).areas p.area then .fault
  else if p.priority.num ≤ g.spare then .spared
  else if !g.activeToo && p.condition == .active && !p.hidden then .skipped
  else .joins

/-- Code `c` joins the suppression set of point `n`; a code that is a member already is not added or counted again. -/
def State.suppress (c : TripNo) (n : PointNo) (s : State) : State :=
  if (s.point n).suppression.contains c then s
  else (s.modCode c fun r => { r with suppressed := r.suppressed + 1 }).addReason n fun p =>
    { p with suppression := insertCode c p.suppression }

/-- The selected members of a GROUP in ascending order, until a faulty one; true when there was a fault (R110, R114). -/
def State.runMembers (c : TripNo) (g : Group) : List (Fin 32) → State → State × Bool
  | [], s => (s, false)
  | i :: is, s =>
    if g.selection.getLsbD i.val then
      match below 2048 (g.base.val + i.val) with
      | none => (s, true)
      | some n =>
        match s.memberOutcome c g n with
        | .fault => (s, true)
        | .joins => runMembers c g is (s.suppress c n)
        | .skipped | .spared => runMembers c g is s
    else runMembers c g is s

/-- A GROUP entry run (R110). -/
def State.runGroup (c : TripNo) (g : Group) (s : State) : State × Bool := s.runMembers c g (List.finRange 32)

/-- The hold deadline of a code that enters HOLDING (R113). -/
def State.holdDeadline (s : State) (r : TripCode) : Option Deadline :=
  if r.holdTime = 0 then none else some (s.deadlineIn (60 * r.holdTime))

/-- Code `c` moves to HOLDING (R113, R114). -/
def State.holdCode (c : TripNo) (faulted : Bool) (s : State) : State :=
  s.modCode c fun r => { r with state := .holding (s.holdDeadline r), faulted := r.faulted || faulted }

/-- A run completes its LAST entry (R113). -/
def State.tripDone (c : TripNo) (s : State) : State := (s.holdCode c false).notify (.tripDone c)

/-- A pending code is dropped by a fault (R114 step 4). -/
def State.dropPending (s : State) : State :=
  match s.trip.pending with
  | some d => (s.modTrip fun t => { t with pending := none }).notify (.tripDropped d .faultLatched)
  | none => s

/-- A fault at entry `i` stops the run (R114). -/
def State.tripFault (c : TripNo) (i : EntryNo) (s : State) : State :=
  ((((s.holdCode c true).modTrip fun t => { t with latch := true }).notify (.tripFault c i))).dropPending

/-- TRIP_STEP, where the entry is flagged NOTIFY. -/
def State.tripStep (c : TripNo) (i : EntryNo) (notify : Bool) (s : State) : State :=
  if notify then s.notify (.tripStep c i) else s

/-- The processing of a run from entry `i` (R110). The first argument is 512 less `i`: where it is 0, the run has passed
beyond the store, a fault reported at entry 511. A complete GROUP at entry 511 that is flagged NOTIFY and not LAST has given
its TRIP_STEP before that fault: R110 queues it when the entry is complete, while R114 step 2 gives none for the entry of a
fault (DESIGN CHOICE, log entry 26). -/
def State.runFrom (c : TripNo) : Nat → Nat → State → State
  | 0, _, s => s.tripFault c 511
  | n + 1, i, s =>
    match below 512 i with
    | none => s.tripFault c 511
    | some k =>
      match s.tripEntry k with
      | .empty => s.tripFault c k
      | .wait seconds _ y =>
        (s.tripStep c k y).modCode c fun r => { r with state := .running k (some (s.deadlineIn seconds)) }
      | .group g last y =>
        let (t, faulty) := s.runGroup c g
        if faulty then t.tripFault c k
        else if last then (t.tripStep c k y).tripDone c
        else runFrom c n (i + 1) (t.tripStep c k y)

/-- Code `c` starts a run (R109), and its list is processed. -/
def State.startRun (c : TripNo) (s : State) : State :=
  let t := s.modCode c fun r =>
    { r with state := .running r.start none, takenAt := some s.now, faulted := false,
             suppressed := if r.state.isIdle then 0 else r.suppressed }
  let i := (s.code c).start.val
  (t.notify (.tripTaken c)).runFrom c (512 - i) i

/-- When no code is RUNNING, the pending code is taken (R108 case 6, R113, R117). -/
def State.takePending (s : State) : State :=
  match s.runningCode, s.trip.pending with
  | none, some d => (s.modTrip fun t => { t with pending := none }).startRun d
  | _, _ => s

/-- The trip unit takes a delivered code (R108). -/
def State.deliver (c : TripNo) (s : State) : State :=
  if s.trip.latch then s.notify (.tripDropped c .faultLatched)
  else if !(s.code c).configured then s.notify (.tripDropped c .undefined)
  else
    match s.runningCode with
    | none => (s.startRun c).takePending
    | some r =>
      if r = c then s
      else if s.trip.pending.isNone then s.modTrip fun t => { t with pending := some c }
      else s.notify (.tripDropped c .pendingFull)

/-- The end of an event of the trip unit: banners, then the TRIP reasons in ascending area code (R110, R113). -/
def State.tripEvent (s : State) : State := (Work.tripsChanged { s }).finish

/-- WAIT_DEADLINE (R111): a running code's wait deadline is reached. -/
def execWaitDeadline (c : TripNo) (s : State) : Result :=
  match (s.code c).state with
  | .running k (some d) =>
    if s.due d then
      let t := s.modCode c fun r => { r with state := .running k none }
      let u :=
        match s.tripEntry k with
        | .wait _ true _ => t.tripDone c
        | .wait _ false _ | .group _ _ _ | .empty => t.runFrom c (512 - (k.val + 1)) (k.val + 1)
      .next u.takePending.tripEvent
    else .next s
  | .running _ none | .idle | .holding _ => .next s

/-! ### Release (R116 to R118) -/

/-- Code `c` leaves the suppression set of point `n`, where it is a member; true when the point became NEW (R117 step 2). -/
def State.unsuppress (c : TripNo) (n : PointNo) (s : State) : State × Bool :=
  let p := s.point n
  if p.suppression.contains c then
    let f : Point → Point := fun q => { q with suppression := q.suppression.filter (· != c) }
    (s.removeReason n f true, !(f p).hidden && p.condition == .active)
  else (s, false)

/-- Code `c` leaves every suppression set, in ascending point number, with the number of points that became NEW. -/
def State.unsuppressAll (c : TripNo) (s : State) : State × Nat :=
  (List.finRange 2048).foldl (fun x n => let y := x.1.unsuppress c n; (y.1, x.2 + if y.2 then 1 else 0)) (s, 0)

/-- The record of a released code (R117 steps 1 and 3). -/
def TripCode.released (r : TripCode) : TripCode := { r with state := .idle, suppressed := 0, faulted := false }

/-- A release of code `c` (R117), with the number of points that became NEW. -/
def State.release (c : TripNo) (source : ReleaseSource) (s : State) : State × Nat :=
  let (t, new) := s.unsuppressAll c
  ((((t.modCode c TripCode.released).notify (.tripReleased c source)).takePending).tripEvent, new)

/-- RELEASE_TRIP (R116), with the counts of points released and become NEW. -/
def releaseAnswer (s : State) (c : TripNo) (source : ReleaseSource) : Answer :=
  if (s.code c).state = .idle then refuse .already
  else
    let (t, new) := s.release c source
    taken t (be16 (s.code c).suppressed ++ be16 new)

def actReleaseTrip (s : State) (x : Option ConsoleNo × TripNo) : Answer :=
  match x.1 with
  | none => releaseAnswer s x.2 .host
  | some c => withOperator (s.permitRelease c x.2) fun _ => releaseAnswer s x.2 (.console c)

def execReleaseTrip (tag : Byte) (payload : List Byte) (s : State) : Result :=
  consoleRequest 0x4A tag payload parseRelease actReleaseTrip s

/-- TRIP_HOLD_DEADLINE (R118): a HOLDING code's hold deadline is reached. -/
def execTripHoldDeadline (c : TripNo) (s : State) : Result :=
  match (s.code c).state with
  | .holding (some d) => if s.due d then .next (s.release c .expiry).1 else .next s
  | .holding none | .idle | .running _ _ => .next s

/-- CLEAR_TRIP_FAULT (R115). -/
def execClearTripFault (tag : Byte) (payload : List Byte) (s : State) : Result :=
  hostRequest 0x60 tag payload parseNone .both
    (fun s _ => if s.trip.latch then taken (s.modTrip fun t => { t with latch := false }) else refuse .already) s

/-! ### The trip request lines (R101, R102) -/

/-- The code that the lines show, if not 0. -/
def shownCode (lines : Fin 16) : Option TripNo := if lines = 0 then none else below 15 (lines.val - 1)

/-- The qualifier when the code on the lines changes (R101). -/
def TripQualifier.change (shown : Option TripNo) : TripQualifier → TripQualifier
  | .settling _ => .settling shown.isNone
  | .ready =>
    match shown with
    | some c => .qualifying c
    | none => .ready
  | .qualifying _ =>
    match shown with
    | some c => .qualifying c
    | none => .ready

/-- TRIP_LINES_CHANGE (R101): in CONFIG the change is not taken by the qualifier (R102). -/
def execTripLinesChange (lines : Fin 16) (s : State) : Result :=
  if s.trip.lines = lines then .next s
  else
    .next (s.modTrip fun t =>
      { t with lines, qualifier := if s.mode = .run then t.qualifier.change (shownCode lines) else t.qualifier })

/-- TRIP_QUALIFY_TIMER_EXPIRY (R101): the timer runs in QUALIFYING. -/
def execTripQualifyTimerExpiry (s : State) : Result :=
  match s.trip.qualifier with
  | .qualifying c => .next ((s.modTrip fun t => { t with qualifier := .settling false }).deliver c).tripEvent
  | .settling _ | .ready => .next s

/-- TRIP_RELEASE_TIMER_EXPIRY (R101): the timer runs in SETTLING after the lines have changed to 0. -/
def execTripReleaseTimerExpiry (s : State) : Result :=
  match s.trip.qualifier with
  | .settling true => .next (s.modTrip fun t => { t with qualifier := .ready })
  | .settling false | .ready | .qualifying _ => .next s

/-! ### QUERY_TRIP (R107) -/

/-- The code of a trip code's state in the order of R103. -/
def TripState.code : TripState → Nat
  | .idle => 0 | .running _ _ => 1 | .holding _ => 2

def TripState.entry? : TripState → Option EntryNo
  | .running e _ => some e
  | .idle | .holding _ => none

def TripState.wait? : TripState → Option Deadline
  | .running _ d => d
  | .idle | .holding _ => none

def TripState.hold? : TripState → Option Deadline
  | .holding d => d
  | .idle | .running _ _ => none

/-- A trip code record whole, in the order of R103's table, its deadlines as seconds remaining. -/
def State.tripBytes (s : State) (r : TripCode) : List Byte :=
  let left (d : Deadline) : List Byte := be32 (s.remaining d)
  flagByte r.configured :: be16 r.start.val ++ setBytes r.areas ++ be16 r.holdTime ++ [byte r.state.code]
  ++ present 2 (fun e => be16 e.val) r.state.entry? ++ present 4 left r.state.wait? ++ present 4 left r.state.hold?
  ++ present 4 be32 r.takenAt ++ be16 r.suppressed ++ [flagByte r.faulted]

/-- The code of the qualifier's state in the order of R101. -/
def TripQualifier.code : TripQualifier → Nat
  | .settling _ => 0 | .ready => 1 | .qualifying _ => 2

/-- The code in QUALIFYING. -/
def TripQualifier.qualifying? : TripQualifier → Option TripNo
  | .qualifying c => some c
  | .settling _ | .ready => none

/-- The trip unit as a whole (R107). -/
def State.tripUnitBytes (s : State) : List Byte :=
  [byte s.trip.lines.val, byte s.trip.qualifier.code, orNone tripCodeOf s.trip.qualifier.qualifying?,
   flagByte s.trip.latch, orNone tripCodeOf s.runningCode, orNone tripCodeOf s.trip.pending]
  ++ be16 s.settings.tripQualify ++ be16 s.settings.tripRelease

def actQueryTrip (s : State) : Option TripNo → Answer
  | some c => taken s (s.tripBytes (s.code c))
  | none => taken s s.tripUnitBytes

def execQueryTrip (tag : Byte) (payload : List Byte) (s : State) : Result :=
  hostRequest 0x2E tag payload parseTripQuery .both actQueryTrip s

end Sys2Proof.Machine
end

