-- ==== Sys2Proof/Machine/Dispatch.lean ====
section
/-! DEFINITION. The dispatch of the commands: one arm per row of spec/opcode_table.json. -/

namespace Sys2Proof.Machine

def exec (i : Instr) (s : State) : Host.Outcome State Fault Refusal :=
  match i with
  | .hardReset strapLow => Sys2Proof.Machine.execHardReset strapLow s
  | .receiveCharacter b => Sys2Proof.Machine.execReceiveCharacter b s
  | .gapTimerExpiry => Sys2Proof.Machine.execGapTimerExpiry s
  | .linkError => Sys2Proof.Machine.execLinkError s
  | .identify tag payload => Sys2Proof.Machine.execIdentify tag payload s
  | .setClock tag payload => Sys2Proof.Machine.execSetClock tag payload s
  | .start tag payload => Sys2Proof.Machine.execStart tag payload s
  | .restart tag payload => Sys2Proof.Machine.execRestart tag payload s
  | .setTiming tag payload => Sys2Proof.Machine.execSetTiming tag payload s
  | .setShift tag payload => Sys2Proof.Machine.execSetShift tag payload s
  | .fetchNotices tag payload => Sys2Proof.Machine.execFetchNotices tag payload s
  | .loadPoints tag payload => Sys2Proof.Machine.execLoadPoints tag payload s
  | .loadArea tag payload => Sys2Proof.Machine.execLoadArea tag payload s
  | .loadConsole tag payload => Sys2Proof.Machine.execLoadConsole tag payload s
  | .loadOperator tag payload => Sys2Proof.Machine.execLoadOperator tag payload s
  | .loadOperatorRemove tag payload => Sys2Proof.Machine.execLoadOperatorRemove tag payload s
  | .loadRole tag payload => Sys2Proof.Machine.execLoadRole tag payload s
  | .loadSteps tag payload => Sys2Proof.Machine.execLoadSteps tag payload s
  | .loadTripCode tag payload => Sys2Proof.Machine.execLoadTripCode tag payload s
  | .loadTripEntries tag payload => Sys2Proof.Machine.execLoadTripEntries tag payload s
  | .loadOrder tag payload => Sys2Proof.Machine.execLoadOrder tag payload s
  | .setPoint tag payload => Sys2Proof.Machine.execSetPoint tag payload s
  | .raise tag payload => Sys2Proof.Machine.execRaise tag payload s
  | .clear tag payload => Sys2Proof.Machine.execClear tag payload s
  | .queryPoint tag payload => Sys2Proof.Machine.execQueryPoint tag payload s
  | .listStanding tag payload => Sys2Proof.Machine.execListStanding tag payload s
  | .queryConsole tag payload => Sys2Proof.Machine.execQueryConsole tag payload s
  | .queryOperator tag payload => Sys2Proof.Machine.execQueryOperator tag payload s
  | .listShelves tag payload => Sys2Proof.Machine.execListShelves tag payload s
  | .queryMeters tag payload => Sys2Proof.Machine.execQueryMeters tag payload s
  | .queryTrip tag payload => Sys2Proof.Machine.execQueryTrip tag payload s
  | .readSheet tag payload => Sys2Proof.Machine.execReadSheet tag payload s
  | .queryHandover tag payload => Sys2Proof.Machine.execQueryHandover tag payload s
  | .signOn tag payload => Sys2Proof.Machine.execSignOn tag payload s
  | .signOff tag payload => Sys2Proof.Machine.execSignOff tag payload s
  | .silence tag payload => Sys2Proof.Machine.execSilence tag payload s
  | .ack tag payload => Sys2Proof.Machine.execAck tag payload s
  | .ackHead tag payload => Sys2Proof.Machine.execAckHead tag payload s
  | .ackArea tag payload => Sys2Proof.Machine.execAckArea tag payload s
  | .shelve tag payload => Sys2Proof.Machine.execShelve tag payload s
  | .unshelve tag payload => Sys2Proof.Machine.execUnshelve tag payload s
  | .takeOut tag payload => Sys2Proof.Machine.execTakeOut tag payload s
  | .returnPoint tag payload => Sys2Proof.Machine.execReturn tag payload s
  | .releaseTrip tag payload => Sys2Proof.Machine.execReleaseTrip tag payload s
  | .lockDraft tag payload => Sys2Proof.Machine.execLockDraft tag payload s
  | .unlockDraft tag payload => Sys2Proof.Machine.execUnlockDraft tag payload s
  | .addItem tag payload => Sys2Proof.Machine.execAddItem tag payload s
  | .removeItem tag payload => Sys2Proof.Machine.execRemoveItem tag payload s
  | .post tag payload => Sys2Proof.Machine.execPost tag payload s
  | .reviewItem tag payload => Sys2Proof.Machine.execReviewItem tag payload s
  | .confirmStep tag payload => Sys2Proof.Machine.execConfirmStep tag payload s
  | .restartArea tag payload => Sys2Proof.Machine.execRestartArea tag payload s
  | .clearTripFault tag payload => Sys2Proof.Machine.execClearTripFault tag payload s
  | .beginHandover tag payload => Sys2Proof.Machine.execBeginHandover tag payload s
  | .cancelHandover tag payload => Sys2Proof.Machine.execCancelHandover tag payload s
  | .suspendArea tag payload => Sys2Proof.Machine.execSuspendArea tag payload s
  | .resumeArea tag payload => Sys2Proof.Machine.execResumeArea tag payload s
  | .abortArea tag payload => Sys2Proof.Machine.execAbortArea tag payload s
  | .clearAbort tag payload => Sys2Proof.Machine.execClearAbort tag payload s
  | .keyContactChange console key closed => Sys2Proof.Machine.execKeyContactChange console key closed s
  | .keyQualifyTimerExpiry console key => Sys2Proof.Machine.execKeyQualifyTimerExpiry console key s
  | .keyReleaseTimerExpiry console key => Sys2Proof.Machine.execKeyReleaseTimerExpiry console key s
  | .stuckTimerExpiry console key => Sys2Proof.Machine.execStuckTimerExpiry console key s
  | .presenceDeadline console => Sys2Proof.Machine.execPresenceDeadline console s
  | .p1ResoundDeadline console => Sys2Proof.Machine.execP1ResoundDeadline console s
  | .shelfExpired point => Sys2Proof.Machine.execShelfExpired point s
  | .clockSecond => Sys2Proof.Machine.execClockSecond s
  | .decayStep area => Sys2Proof.Machine.execDecayStep area s
  | .tripLinesChange lines => Sys2Proof.Machine.execTripLinesChange lines s
  | .tripQualifyTimerExpiry => Sys2Proof.Machine.execTripQualifyTimerExpiry s
  | .tripReleaseTimerExpiry => Sys2Proof.Machine.execTripReleaseTimerExpiry s
  | .waitDeadline code => Sys2Proof.Machine.execWaitDeadline code s
  | .tripHoldDeadline code => Sys2Proof.Machine.execTripHoldDeadline code s
  | .stepTimeout area => Sys2Proof.Machine.execStepTimeout area s
  | .handoverHoldDeadline area => Sys2Proof.Machine.execHandoverHoldDeadline area s
  | .badKind kind tag payload => Sys2Proof.Machine.execBadKind kind tag payload s

end Sys2Proof.Machine
end

