-- ==== Sys2Proof/Safety.lean ====
section
/-! DEFINITION. What counts as a safe run: the rules of the spec that hold of the part at every moment, as predicates of a
state, and what the neighbours' share of an event may change. -/

namespace Sys2Proof.Machine

/-! ### The notice queue (R167, R168, R170) -/

/-- The queue holds at most 64 records and at most one BANNER record per console, and the attention output is driven
exactly while R170 says. -/
structure State.QueueSound (s : State) : Prop where
  size      : s.queue.records.length ≤ Config.queueSize
  banners   : ∀ c, s.queue.records.countP (·.isBannerOf c) ≤ 1
  attention : s.queue.attention = attentionFor s.settings.trigger s.queue.records

/-! ### The trip unit (R103, R106, R108) -/

/-- At most one trip code is RUNNING, and while the fault latch is set none is and the pending slot is empty. A code's
points-suppressed count is the number of points whose suppression set holds it, and no point's set holds an IDLE code. A
set holds its codes in ascending order, each once (R21), and the spare level of every GROUP entry is at least 1. -/
structure State.TripsSound (s : State) : Prop where
  single  : ∀ c d, (s.code c).state.isRunning → (s.code d).state.isRunning → c = d
  latched : s.trip.latch → (∀ c, (s.code c).state.isRunning = false) ∧ s.trip.pending = none
  count   : ∀ c, (s.code c).suppressed = (List.finRange 2048).countP fun n => (s.point n).suppression.contains c
  idle    : ∀ c, (s.code c).state = .idle → ∀ n, c ∉ (s.point n).suppression
  ordered : ∀ n, (s.point n).suppression.Pairwise (· < ·)
  spare   : ∀ e g last notify, s.tripEntry e = .group g last notify → 1 ≤ g.spare

/-! ### The points (R3, R4, R11, R12, R13) -/

/-- Every point is in one of the combinations of R3's table. A priority-1 point and one that is out of service are neither
shelved nor suppressed (R13, R18). A marked point is NEW (R12), a NEW one carries no acknowledgement and an ACKED one does
(R11). The numbers that points took are from 1 to the counter, and a point that came into view has one (R4). -/
structure State.PointsSound (s : State) : Prop where
  hidden    : ∀ n, (s.point n).hidden → (s.point n).ann = .normal
  active    : ∀ n, (s.point n).hidden = false → (s.point n).condition = .active →
    (s.point n).ann = .new ∨ (s.point n).ann = .acked
  clear     : ∀ n, (s.point n).condition = .clear → (s.point n).ann = .normal ∨ (s.point n).ann = .faded
  emergency : ∀ n, (s.point n).priority = .p1 → (s.point n).shelved = false ∧ (s.point n).suppression = []
  service   : ∀ n, (s.point n).outOfService → (s.point n).shelved = false ∧ (s.point n).suppression = []
  marked    : ∀ n, (s.point n).postTrip → (s.point n).ann = .new
  unacked   : ∀ n, (s.point n).ann = .new → (s.point n).acked = none
  acked     : ∀ n, (s.point n).ann = .acked → (s.point n).acked ≠ none
  seen      : ∀ n, (s.point n).ann ≠ .normal → (s.point n).raiseSeq ≠ none
  number    : ∀ n x, (s.point n).raiseSeq = some x → 1 ≤ x ∧ x ≤ s.raiseCounter
  counter   : s.raiseCounter ≤ Config.maxSeq

/-! ### The item pool (R120) -/

/-- The slots on the two frames of area `a`. -/
def State.framed (s : State) (a : AreaNo) : List SlotNo := (s.area a).draft.items ++ (s.area a).posted.items

/-- The slots on all sheet frames of all areas. -/
def State.listed (s : State) : List SlotNo := allAreas.flatMap s.framed

/-- The free count and the listed slots make 1024, no slot is listed twice, and the listed slots are those that hold an
item. -/
structure State.PoolSound (s : State) : Prop where
  total : s.freeCount + s.listed.length = 1024
  once  : s.listed.Nodup
  held  : ∀ i, (s.item i).isSome ↔ i ∈ s.listed

/-! ### The shelf list (R79) -/

/-- Shelved points and shelf records match one to one, each area's shelved count is the number of its records, and the
bounds of R79 hold. -/
structure State.ShelvesSound (s : State) : Prop where
  once    : (s.shelves.map (·.point)).Nodup
  shelved : ∀ n, (s.point n).shelved ↔ n ∈ s.shelves.map (·.point)
  count   : ∀ a, (s.area a).shelvedCount = s.shelves.countP (·.area == a)
  perArea : ∀ a, (s.area a).shelvedCount ≤ Config.shelvesPerArea
  size    : s.shelves.length ≤ Config.shelfListSize

/-! ### The handovers (R139, R147, R149) -/

/-- A priority-1 point of area `a` is NEW and unhidden (R147). -/
def State.emergency (s : State) (a : AreaNo) : Prop :=
  ∃ n, (s.point n).area = a ∧ (s.point n).priority = .p1 ∧ (s.point n).hidden = false ∧ (s.point n).ann = .new

/-- A RUNNING trip code's area set includes area `a` (R147). -/
def State.tripped (s : State) (a : AreaNo) : Prop := ∃ c, (s.code c).state.isRunning ∧ inSet (s.code c).areas a

/-- The P1, FLOOD and TRIP reasons of area `a` are those of the set. -/
structure State.ReasonsOf (s : State) (a : AreaNo) (r : Reasons) : Prop where
  p1    : r.p1 ↔ s.emergency a
  flood : r.flood = (s.area a).flooded
  trip  : r.trip ↔ s.tripped a

/-- An area in progress is SUSPENDED exactly while a reason stands: a SUSPENDED area's set holds the reasons whose conditions
stand and is not empty, and of a RUNNING area no reason's condition stands. -/
structure State.HandoversSound (s : State) : Prop where
  running   : ∀ a p x y, (s.area a).handover = .running p x y → s.ReasonsOf a Reasons.none
  suspended : ∀ a p x y r, (s.area a).handover = .suspended p x y r → s.ReasonsOf a r ∧ r ≠ Reasons.none

/-- While the mill handover is CLOSED no area is outstanding and every area is STEADY. While it is OPEN, the areas
outstanding are the configured ones that are not DONE, and there is one (R138, R154). An unconfigured area is STEADY (R139).
An area's duty crew is the incoming crew exactly while the handover is OPEN and the area DONE, and else the mill duty crew
(R140). -/
structure State.DutiesSound (s : State) : Prop where
  closed : s.mill.incoming = none → s.mill.outstanding = 0 ∧ ∀ a, (s.area a).handover = .steady
  opened : s.mill.incoming ≠ none → 0 < s.mill.outstanding ∧ s.mill.outstanding =
    (List.finRange 32).countP fun a => (s.area a).config.configured && !(s.area a).handover.isDone
  steady : ∀ a, (s.area a).config.configured = false → (s.area a).handover = .steady
  done   : ∀ a p k, (s.area a).handover = .done p → s.mill.incoming = some k → (s.area a).duty = k
  duty   : ∀ a, (∀ p, (s.area a).handover ≠ .done p) → (s.area a).duty = s.mill.duty

/-! ### CONFIG (R172) -/

/-- The point is CLEAR, NORMAL and unhidden. -/
def Point.atRest (p : Point) : Bool := p.condition == .clear && p.ann == .normal && !p.hidden

/-- The console is VACANT with no re-sound deadline, its qualifiers are in IDLE and its outputs off. -/
def Console.atRest (r : Console) : Bool :=
  r.seat == .vacant && r.resound == none && r.ackKey.state == .idle && r.silenceKey.state == .idle
    && r.head == none && r.horn == .off && r.beacon == .off

/-- The area is STEADY and unflooded with its meter 0. -/
def Area.atRest (r : Area) : Bool := r.meter == 0 && !r.flooded && !r.covered && r.handover == .steady

/-- What stands while the part is in CONFIG: no deadline is set, the key qualifiers are in IDLE and the trip qualifier in
SETTLING with no timer, every output but attention is off, and no meter is above 0. -/
structure State.AtRest (s : State) : Prop where
  points    : ∀ n, (s.point n).atRest
  consoles  : ∀ c, (s.console c).atRest
  room      : s.room.horn = .off
  areas     : ∀ a, (s.area a).atRest
  shelves   : s.shelves = []
  codes     : ∀ c, (s.code c).state = .idle
  qualifier : s.trip.qualifier = .settling false
  mill      : s.mill.incoming = none

/-- CONFIG is at rest. -/
def State.ConfigSound (s : State) : Prop := s.mode = .config → s.AtRest

/-! ### The seats (R25, R30) -/

/-- No two records of the roster have one number. A console's seated operator and the operator's seated console name each
other, an unconfigured console is VACANT, and a SEATED console has a presence deadline unless the timeout is 0. -/
structure State.SeatsSound (s : State) : Prop where
  once       : (s.roster.map (·.number)).Nodup
  console    : ∀ c n, (s.console c).seat.operator? = some n → ∃ o, s.operator? n = some o ∧ o.seat = some c
  operator   : ∀ o ∈ s.roster, ∀ c, o.seat = some c → (s.console c).seat.operator? = some o.number
  configured : ∀ c, (s.console c).config.configured = false → (s.console c).seat = .vacant
  deadline   : ∀ c n d, (s.console c).seat = .seated n d → (d = none ↔ s.settings.presenceTimeout = 0)

/-! ### What the records give, as the rules spell it (R38, R42, R44, R46, R50, R54, R55, R62) -/

/-- The value and mask match the area code (00_scope 0.6). -/
def Pair.covers (q : Pair) (a : AreaNo) : Prop := BitVec.ofNat 5 a.val &&& q.mask = q.value &&& q.mask

/-- The area is in the effective routing of console `c` (R38). -/
def State.Routed (s : State) (c : ConsoleNo) (a : AreaNo) : Prop :=
  (s.console c).config.configured ∧
    ((s.console c).config.routing.covers a ∨
      ∃ d, (s.console d).config.configured ∧ (s.console d).config.fallback = some c ∧
        ((s.console d).seat = .vacant ∨ ∃ n, (s.console d).seat = .absent n) ∧ (s.console d).config.routing.covers a)

/-- The crew is on duty for the area in the ACK sense (R42). -/
def State.OnDuty (s : State) (k : Crew) (a : AreaNo) : Prop :=
  k = (s.area a).duty ∨ s.mill.incoming = some k ∧
    ((∃ p x y, (s.area a).handover = .running p x y) ∨ ∃ p x y r, (s.area a).handover = .suspended p x y r)

/-- Point `n` stands in the annunciation order of console `c` (R50). -/
def State.InOrder (s : State) (c : ConsoleNo) (n : PointNo) : Prop :=
  s.exists? (s.point n) ∧ (s.point n).hidden = false ∧ ((s.point n).ann = .new ∨ (s.point n).ann = .faded) ∧
    s.routes c (s.point n).area

/-- The five keys of R50, the lower first. -/
def State.rankKeys (s : State) (n : PointNo) : List Nat :=
  let p := s.point n
  [if p.ann = .faded then 1 else 0, p.priority.num, if p.postTrip then 1 else 0, p.raiseSeq.getD 0, n.val]

/-- The banner of console `c` is the first point of its order, or none where the order is empty (R51). -/
def State.BannerIs (s : State) (c : ConsoleNo) : Option PointNo → Prop
  | none => ∀ n, ¬ s.InOrder c n
  | some n => s.InOrder c n ∧ ∀ m, s.InOrder c m → m ≠ n → s.rankKeys n < s.rankKeys m

/-- Point `n` is eligible for the horn of console `c` (R54). -/
def State.SoundsAt (s : State) (c : ConsoleNo) (n : PointNo) : Prop :=
  let p := s.point n
  p.hidden = false ∧ p.ann = .new ∧ s.routes c p.area ∧ p.postTrip = false ∧
    ¬ (3 ≤ p.priority.num ∧ (s.area p.area).flooded) ∧
    ∃ x, p.raiseSeq = some x ∧ ((s.console c).generalMark < x ∨ p.priority = .p1 ∧ (s.console c).p1Mark < x)

/-- Point `n` is eligible for the room horn (R46). -/
def State.SoundsInRoom (s : State) (n : PointNo) : Prop :=
  let p := s.point n
  p.hidden = false ∧ p.ann = .new ∧ p.postTrip = false ∧ (s.area p.area).covered = false ∧
    ∃ x, p.raiseSeq = some x ∧ s.room.mark < x

/-- A horn sounds at the cadence of the best priority among the eligible points, and is off where there is none (R46, R55). -/
def State.CadenceIs (s : State) (eligible : PointNo → Prop) : Horn → Prop
  | .off => ∀ n, ¬ eligible n
  | .cadence q => (∃ n, eligible n ∧ (s.point n).priority = q) ∧ ∀ n, eligible n → q.num ≤ (s.point n).priority.num

/-- The horn of console `c` (R55). -/
def State.HornIs (s : State) (c : ConsoleNo) (h : Horn) : Prop :=
  if s.mode = .run ∧ (s.console c).config.configured ∧ (s.console c).seat ≠ .vacant then s.CadenceIs (s.SoundsAt c) h
  else h = .off

/-- The beacon of console `c` (R62). -/
def State.BeaconIs (s : State) (c : ConsoleNo) (b : Beacon) : Prop :=
  let routed (n : PointNo) : Prop := (s.point n).hidden = false ∧ s.routes c (s.point n).area
  let new : Prop := ∃ n, routed n ∧ (s.point n).ann = .new
  let standing : Prop := ∃ n, routed n ∧ ((s.point n).ann = .acked ∨ (s.point n).ann = .faded)
  if s.mode = .run ∧ (s.console c).config.configured then
    match b with
    | .flashing => new
    | .steady => ¬ new ∧ standing
    | .off => ¬ new ∧ ¬ standing
  else b = .off

/-- The room horn (R46), off in CONFIG. -/
def State.RoomHornIs (s : State) (h : Horn) : Prop :=
  if s.mode = .run then s.CadenceIs s.SoundsInRoom h else h = .off

/-- The area is covered (R44). -/
def State.Covered (s : State) (a : AreaNo) : Prop :=
  ∃ c n d o, (s.console c).seat = .seated n d ∧ s.operator? n = some o ∧ s.routes c a ∧ o.qualified a ∧ s.OnDuty o.crew a

/-- What the queue becomes as a notice is handed to it (R167, R168). A BANNER notice of a console that has a record there takes
its place, that the console stands being log entry 24; any other notice is appended while there are fewer than 64 records, the
attention output following (R170), and is else lost, the overflow flag set. -/
def State.queueWith (s : State) (k : NoticeKind) : NoticeQueue :=
  let q := s.queue
  let mine (n : Notice) : Bool := match k, n.kind with
    | .banner c _, .banner d _ => c = d
    | _, _ => false
  let new : Notice := ⟨k, s.clock.count⟩
  if q.records.any mine then { q with records := q.records.map fun n => if mine n then new else n }
  else if q.records.length < 64 then
    { records := q.records ++ [new], overflow := q.overflow
      attention := s.settings.trigger ≤ q.records.length + 1 ∨ ∃ n ∈ q.records ++ [new], n.kind.urgent }
  else { q with overflow := true }

/-- What the statements name of the part's derived state is what the rules give: hidden and existing points (R13, R1), the
effective routing (R38), qualification (R25), duty (R42), coverage (R44), banners (R50, R51), horns (R46, R54, R55), beacons
(R62), a standing emergency alarm at a console (R59), running trips and suspension reasons (R147), deadlines (R175), the notice queue's taking of a notice (R167, R168, R170), and a code added to a suppression
set (R13, R21). -/
structure State.DerivesAsRuled (s : State) : Prop where
  hidden    : ∀ p : Point, p.hidden ↔ p.shelved ∨ p.outOfService ∨ p.suppression ≠ []
  exist     : ∀ p, s.exists? p ↔ p.configured ∧ (s.area p.area).config.configured
  routed    : ∀ c a, s.routes c a ↔ s.Routed c a
  qualified : ∀ (o : Operator) a, o.qualified a ↔ ∃ q ∈ o.quals, q.covers a
  onDuty    : ∀ k a, s.dutyAck k a ↔ s.OnDuty k a
  covered   : ∀ a, (s.area a).config.configured → (s.coveredNow a ↔ s.Covered a)
  banner    : ∀ c, s.BannerIs c (s.bannerOf c)
  horn      : ∀ c, s.HornIs c (s.hornOf c)
  beacon    : ∀ c, s.BeaconIs c (s.beaconOf c)
  room      : s.RoomHornIs s.roomHornOf
  standing  : ∀ c, s.p1Standing c ↔ ∃ n, (s.point n).hidden = false ∧ (s.point n).ann = .new ∧
    (s.point n).priority = .p1 ∧ s.routes c (s.point n).area
  trips     : ∀ a, s.tripCovers a ↔ s.tripped a
  reasons   : ∀ a request, s.ReasonsOf a (s.reasonsNow a request) ∧ (s.reasonsNow a request).request = request
  deadline  : ∀ n, s.deadlineIn n = ⟨min (s.clock.count + n) 4294967295, s.clock.timebase + 1⟩
  notice    : ∀ k, s.notify k = { s with queue := s.queueWith k }
  urgent    : ∀ k : NoticeKind, k.urgent ↔ (∃ c e, k = .tripFault c e) ∨ (∃ a, k = .areaUncovered a) ∨ ∃ c x, k = .keyStuck c x
  code      : ∀ (c : TripNo) (l : List TripNo), l.Pairwise (· < ·) →
    insertCode c l = if c ∈ l then l else l.filter (· < c) ++ c :: l.filter (c < ·)

/-- What the permission check admits (R40 to R42): steps 1 to 3, then the target, the routing, the qualification and the duty
of each class. -/
structure State.PermitsAsRuled (s : State) : Prop where
  actor   : ∀ c k o, s.actor c k = .ok o ↔ (s.console c).config.configured ∧
    (∃ n, (s.console c).seat.operator? = some n ∧ s.operator? n = some o) ∧ (s.roles[o.role.index])[k.index]
  point   : ∀ c k n sense o, s.permitPoint c k n sense = .ok o ↔ s.actor c k = .ok o ∧ s.exists? (s.point n) ∧
    s.routes c (s.point n).area ∧ o.qualified (s.point n).area ∧
    if sense then s.OnDuty o.crew (s.point n).area else o.crew = (s.area (s.point n).area).duty
  banner  : ∀ c n o, s.permitBanner c n o = .ok o ↔ s.exists? (s.point n) ∧ s.routes c (s.point n).area ∧
    o.qualified (s.point n).area ∧ s.OnDuty o.crew (s.point n).area
  area    : ∀ c k a routing sense o, s.permitArea c k a routing sense = .ok o ↔ s.actor c k = .ok o ∧
    (s.area a).config.configured ∧ (routing → s.routes c a) ∧ o.qualified a ∧
    if sense then s.OnDuty o.crew a else o.crew = (s.area a).duty
  silence : ∀ c o, s.permitSilence c = .ok o ↔ s.actor c .silence = .ok o ∧
    (o.crew = s.mill.duty ∨ s.mill.incoming = some o.crew)
  release : ∀ c k o, s.permitRelease c k = .ok o ↔ s.actor c .release = .ok o ∧
    ∃ a, inSet (s.code k).areas a ∧ o.qualified a ∧ o.crew = (s.area a).duty

/-! ### The outputs and the coverage (R44, R46, R51, R55, R62) -/

/-- The banner, the horn and the beacon of every console and the room horn are what the rules give, and in RUN so is the
covered flag of every configured area. -/
structure State.OutputsSound (s : State) : Prop where
  heads   : ∀ c, s.BannerIs c (s.console c).head
  horns   : ∀ c, s.HornIs c (s.console c).horn
  beacons : ∀ c, s.BeaconIs c (s.console c).beacon
  room    : s.RoomHornIs s.room.horn
  covered : s.mode = .run → ∀ a, (s.area a).config.configured → ((s.area a).covered ↔ s.Covered a)

/-! ### The steps of the handovers (R138, R141, R142) -/

/-- The condition of a condition step of area `a` holds (R142). A step of another kind completes on no condition. -/
def State.StepHolds (s : State) (a : AreaNo) : StepKind → Prop
  | .seatIn => ∃ c n d o, (s.console c).seat = .seated n d ∧ s.operator? n = some o ∧ s.mill.incoming = some o.crew ∧
      o.qualified a ∧ s.routes c a
  | .sheetPosted => ∃ g, (s.area a).posted.posting = some g ∧
      g.shift = if s.mill.shift = 65535 then 0 else s.mill.shift + 1
  | .review => ∀ i ∈ (s.area a).posted.items, ∀ x, s.item i = some x → x.reviewed ≠ none
  | .clearP1 => ∀ n, (s.point n).area = a → (s.point n).priority = .p1 → (s.point n).hidden = false →
      (s.point n).ann ≠ .new ∧ (s.point n).ann ≠ .faded
  | .confirmOut | .confirmIn | .hold => False

/-- The list from step `i` on comes to its LAST entry within 32 entries (R141). -/
def State.listEnds (s : State) (i : StepNo) : Prop :=
  ∃ m < 32, (s.stepEntry ((fun j => (s.stepEntry j).next)^[m] i)).last

/-- In RUN every configured area's list ends, and the list of an area in progress ends from its current step on. No RUNNING
area waits at a SHEET_POSTED, REVIEW or CLEAR_P1 step whose condition holds. -/
structure State.StepsSound (s : State) : Prop where
  start   : s.mode = .run → ∀ a, (s.area a).config.configured → s.listEnds (s.area a).config.start
  current : ∀ a p, (s.area a).handover.inProgress → (s.area a).handover.position? = some p → s.listEnds p.index
  waits   : ∀ a p x y, (s.area a).handover = .running p x y → (s.stepEntry p.index).kind ≠ .seatIn →
    ¬ s.StepHolds a (s.stepEntry p.index).kind

/-- No RUNNING area waits at a SEAT_IN step whose condition holds. -/
def State.SeatStepsSound (s : State) : Prop :=
  ∀ a p x y, (s.area a).handover = .running p x y → (s.stepEntry p.index).kind = .seatIn → ¬ s.StepHolds a .seatIn

/-! ### The exchange conditions (R123, R129) -/

/-- The shift that a sheet is posted for: the one after the mill shift number, 0 after 65535 (R123). -/
def State.shiftAfter (s : State) : Nat := if s.mill.shift = 65535 then 0 else s.mill.shift + 1

/-- Standing order `i` is due for area `a` at an exchange (R123). -/
def State.takesOrder (s : State) (a : AreaNo) (i : OrderNo) : Bool :=
  let o := s.orders[i]
  o.defined && o.enabled && o.area == a && (BitVec.ofNat 8 s.shiftAfter &&& o.rotationMask) == (o.rotationValue &&& o.rotationMask)

/-- Conditions 1 to 3 of R129: the draft is committed, the area is not at a REVIEW step in progress, and the posted frame may be
replaced. -/
structure State.MayExchange (s : State) (a : AreaNo) : Prop where
  committed : (s.area a).draft.commit ≠ none
  review    : ∀ p, (∃ x y, (s.area a).handover = .running p x y) ∨ (∃ x y r, (s.area a).handover = .suspended p x y r) →
    (s.stepEntry p.index).kind ≠ .review
  replace   : (s.area a).config.posting = .latest ∨ (s.area a).posted.items = [] ∨
    (∀ i ∈ (s.area a).posted.items, ∀ x, s.item i = some x → x.reviewed ≠ none) ∨
    ∃ g, (s.area a).posted.posting = some g ∧ (s.area a).draft.commit = some g.crew

/-- Condition 4 of R129: the free slots are at least the shelves of the area and the orders due. -/
def State.PoolHolds (s : State) (a : AreaNo) : Prop :=
  (s.area a).shelvedCount + (List.finRange 64).countP (s.takesOrder a) ≤ s.freeCount

/-- In CONFIG no draft waits committed (R137). In RUN a committed draft of a configured area waits only while one of the conditions
of R129 fails, and where that is the pool alone its shortage has been reported (R130, R131). -/
structure State.SheetsSound (s : State) : Prop where
  config : s.mode = .config → ∀ a, (s.area a).draft.commit = none
  waits  : ∀ a, (s.area a).config.configured → s.MayExchange a → ¬ s.PoolHolds a ∧ (s.area a).draft.poolShort

/-- The counts of the posting summary of area `a` (R134). -/
def State.summaryRuled (s : State) (a : AreaNo) : Summary :=
  let count (f : Point → Bool) : Nat :=
    (List.finRange 2048).countP fun n => s.exists? (s.point n) && (s.point n).area == a && f (s.point n)
  let inState (x : Annunciation) : Vector Nat 4 :=
    #v[Priority.p1, .p2, .p3, .p4].map fun q => count fun p => !p.hidden && p.ann == x && p.priority == q
  { new := inState .new, acked := inState .acked, faded := inState .faded, shelved := count (·.shelved)
    outOfService := count (·.outOfService), suppressed := count fun p => p.suppression != [] }

/-! ### Silence (R59) -/

/-- What a silence taken at console `c` leaves in `t` (R59): the marks and the re-sound deadline of the console, with the source
ROOM the room mark, and SILENCED. Horns, beacons and the room horn follow, and all else stays. -/
structure State.SilencedTo (s : State) (c : ConsoleNo) (source : SilenceSource) (t : State) : Prop where
  own    : t.console c = { s.console c with
    generalMark := s.raiseCounter, p1Mark := s.raiseCounter
    resound := if s.p1Standing c then some (s.deadlineIn s.settings.p1Resound) else none
    horn := t.hornOf c, beacon := t.beaconOf c }
  others : ∀ b, b ≠ c → t.console b = { s.console b with horn := t.hornOf b, beacon := t.beaconOf b }
  room   : t.room = { mark := if source = .room then s.raiseCounter else s.room.mark, horn := t.roomHornOf }
  rest   : t = { s with
    consoles := t.consoles, room := t.room, queue := (s.notify (.silenced c source)).queue }

/-! ### Requests -/

/-- The state in which the request `f` of console `c` is checked: the frame is taken (R163), and the activity of its acting
console is noted (R35, R164). -/
def State.takesAt (c : ConsoleNo) (f : Frame) (s : State) : Option State := (s.take f).map (·.activity c)

/-- `s` once its DONE reply has been sent (R165). -/
def State.replyDone (kind tag : Byte) (data : List Byte) (s : State) : State := s.send (replyFrame kind tag .done data)

/-- The rows that R172 takes in CONFIG alone, with the payloads that pass steps 2 and 3 of R164. -/
def configRows : List (Byte × (List Byte → Bool)) :=
  [(0x10, fun p => (parsePoints p).isSome), (0x11, fun p => (parseArea p).isSome),
   (0x12, fun p => (parseConsole p).isSome), (0x14, fun p => (parseRole p).isSome),
   (0x15, fun p => (parseSteps p).isSome), (0x18, fun p => (parseOrder p).isSome),
   (0x05, fun p => (parseTiming p).isSome), (0x06, fun p => (parseShift p).isSome),
   (0x03, fun p => (parseNone p).isSome)]

/-- The rows that R172 takes in RUN alone, with the payloads that pass steps 2 and 3 of R164. -/
def runRows : List (Byte × (List Byte → Bool)) :=
  [(0x20, fun p => (parsePoint p).isSome), (0x21, fun p => (parsePoint p).isSome),
   (0x40, fun p => (parseSignOn p).isSome), (0x41, fun p => (parseSignOff p).isSome),
   (0x42, fun p => (parseSilence p).isSome), (0x43, fun p => (parseConsolePoint p).isSome),
   (0x44, fun p => (parseAckHead p).isSome), (0x45, fun p => (parseAckArea p).isSome),
   (0x46, fun p => (parseShelve p).isSome), (0x47, fun p => (parseConsolePoint p).isSome),
   (0x48, fun p => (parseConsolePoint p).isSome), (0x49, fun p => (parseConsolePoint p).isSome),
   (0x4A, fun p => (parseRelease p).isSome), (0x4B, fun p => (parseConsoleArea p).isSome),
   (0x4C, fun p => (parseConsoleArea p).isSome), (0x4D, fun p => (parseAddItem p).isSome),
   (0x4E, fun p => (parsePosition 15 p).isSome), (0x4F, fun p => (parseConsoleArea p).isSome),
   (0x50, fun p => (parsePosition 31 p).isSome), (0x51, fun p => (parseConsoleArea p).isSome),
   (0x52, fun p => (parseConsoleArea p).isSome), (0x61, fun p => (parseCrew p).isSome),
   (0x62, fun p => (parseNone p).isSome), (0x63, fun p => (parseAreaOnly p).isSome),
   (0x64, fun p => (parseAreaOnly p).isSome), (0x65, fun p => (parseAreaOnly p).isSome)]

/-- The flood flag after the flood test of R96 on a level. -/
def AreaConfig.floodTest (c : AreaConfig) (flooded : Bool) (level : Nat) : Bool :=
  if flooded then !(level ≤ c.floodOff) else c.floodOn ≤ level

/-- `s` with area `a`'s meter at a level and the flood test made, a change of the flag giving its notice (R96). -/
def State.metered (s : State) (a : AreaNo) (level : Nat) : State :=
  let r := s.area a
  let f := r.config.floodTest r.flooded level
  let t := s.modArea a fun x => { x with meter := level, flooded := f }
  if f = r.flooded then t else if f then t.notify (.floodOn a) else t.notify (.floodOff a)

/-- `s` once the shelf record `r` of point `n` has ended: the record leaves the list, its area counts one shelf less, and the
shelved reason leaves the point, which becomes NEW where it is ACTIVE and no other reason hides it (R79, R15). -/
def State.unshelved (n : PointNo) (r : Shelf) (s : State) : State :=
  let p := { s.point n with shelved := false }
  let t := { s with shelves := s.shelves.filter fun x => x ≠ r }.modArea r.area fun x =>
    { x with shelvedCount := x.shelvedCount - 1 }
  if (s.point n).hidden ∧ p.hidden = false ∧ p.condition = .active then
    { t with raiseCounter := min (s.raiseCounter + 1) Config.maxSeq }.setPoint n
      { p with
        ann := .new, raiseSeq := some (min (s.raiseCounter + 1) Config.maxSeq), acked := none, postTrip := false }
  else t.setPoint n p

/-! ### The trip unit's entries, releases and the handover's steps, as the statements spell them -/

/-- An entry of LOAD_TRIP_ENTRIES as its payload carries it (R106, R180; DEDUCED, log entry 9). -/
def TripEntry.wire : TripEntry → List Byte
  | .empty => [0]
  | .group g last notify =>
    [1, flagByte last, flagByte notify] ++ be16 g.base.val ++ be32 g.selection.toNat ++ [byte g.spare, flagByte g.activeToo]
  | .wait seconds last notify => [2, flagByte last, flagByte notify] ++ be16 seconds

/-- A carried entry that R106 takes. -/
def TripEntry.inRange : TripEntry → Bool
  | .empty => true
  | .group g _ _ => 1 ≤ g.spare && g.spare ≤ 3
  | .wait seconds _ _ => seconds ≤ 65535

/-- A carried entry as it is stored: a WAIT time clamped to 1 to 600 s (R106). -/
def TripEntry.stored : TripEntry → TripEntry
  | .wait seconds last notify => .wait (max 1 (min 600 seconds)) last notify
  | e => e

/-- A carried step as it is stored: a timeout of 0 or clamped to 10 to 7200 s, the parameter of a HOLD step clamped to 1 to
3600 s and another kind's 0 (R141). -/
def StepEntry.stored (e : StepEntry) : StepEntry :=
  { e with
    parameter := if e.kind = .hold then max 1 (min 3600 e.parameter) else 0
    timeout := if e.timeout = 0 then 0 else max 10 (min 7200 e.timeout) }

/-- A step of LOAD_STEPS as its payload carries it (R141, R180). -/
def StepEntry.wire (e : StepEntry) : List Byte :=
  byte e.kind.code :: be16 e.parameter ++ be16 e.timeout ++ [byte e.next.val, flagByte e.last, flagByte e.notify]

/-- The hold deadline that code `c` gets when it enters HOLDING now (R113). -/
def State.holdUntil (s : State) (c : TripNo) : Option Deadline :=
  if (s.code c).holdTime = 0 then none else some (s.deadlineIn (60 * (s.code c).holdTime))

/-- `s` once a fault at entry `e` has stopped the run of code `c` (R114): the code holds, faulted, the latch is set, TRIP_FAULT
is queued, and a pending code is dropped with its notice. -/
def State.faultedAt (c : TripNo) (e : EntryNo) (s : State) : State :=
  let t := ((s.modCode c fun r => { r with state := .holding (s.holdUntil c), faulted := true }).modTrip fun x =>
    { x with latch := true }).notify (.tripFault c e)
  match s.trip.pending with
  | some b => (t.modTrip fun x => { x with pending := none }).notify (.tripDropped b .faultLatched)
  | none => t

/-- `s` once entry `e` is complete or reached: TRIP_STEP where the entry is flagged NOTIFY (R110). -/
def State.steppedAt (c : TripNo) (e : EntryNo) (notify : Bool) (s : State) : State :=
  if notify then s.notify (.tripStep c e) else s

/-! ### Reported records, as R182 lays them out -/

/-- A selector's byte: the number, or 0xFF for all (R180). -/
def selector (x : Option AreaNo) : Byte :=
  match x with
  | some a => byte a.val
  | none => 0xFF

/-- Four indication bits, bit 0 first. -/
def bits (a b c d : Bool) : Byte :=
  (if a then 1 else 0) ||| (if b then 2 else 0) ||| (if c then 4 else 0) ||| (if d then 8 else 0)

/-- A point's condition and annunciation state (R182). -/
def Point.states (p : Point) : List Byte :=
  [(match p.condition with | .clear => 0 | .active => 1),
   (match p.ann with | .normal => 0 | .new => 1 | .acked => 2 | .faded => 3)]

/-- A deadline's seconds remaining, under a presence byte (R180). -/
def State.left (s : State) : Option Deadline → List Byte
  | some d => 1 :: be32 (d.time - s.clock.count)
  | none => [0, 0, 0, 0, 0]

/-- An item's kind and its reference in 8 bytes (R182). -/
def ItemKind.wire : ItemKind → Byte × List Byte
  | .note n => (0, be32 n ++ [0, 0, 0, 0])
  | .point n => (1, be16 n.val ++ [0, 0, 0, 0, 0, 0])
  | .equipment n => (2, be32 n ++ [0, 0, 0, 0])
  | .order m n => (3, byte m.val :: be32 n ++ [0, 0, 0])
  | .shelf n (.minutes e) => (4, be16 n.val ++ 0 :: be32 e ++ [0])
  | .shelf n (.shifts m) => (4, be16 n.val ++ 1 :: be32 m ++ [0])

/-- The item record of R182. -/
def Item.wire (position : Nat) (slot : SlotNo) (x : Item) : List Byte :=
  byte position :: be16 slot.val ++ [x.kind.wire.1, if 3 ≤ x.kind.wire.1.toNat then 1 else 0] ++ x.kind.wire.2
  ++ (match x.author with | some n => 1 :: be16 n | none => [0, 0, 0]) ++ be32 x.created
  ++ (match x.reviewed with | some r => 1 :: be16 r.operator ++ be32 r.time | none => List.replicate 7 0)

/-- The fifteen counts of a posting summary (R182). -/
def Summary.wire (x : Summary) : List Byte :=
  (x.new.toList ++ x.acked.toList ++ x.faded.toList ++ [x.shelved, x.outOfService, x.suppressed]).flatMap be16

/-- The processing of code `c`'s run from index `i` on takes the part from one state to another (R110): it ends at an EMPTY
entry or past the store with a fault (R114), at a WAIT entry with its deadline (R111), in a GROUP entry at a faulty member,
or behind a GROUP entry flagged LAST in HOLDING (R113); another GROUP entry is followed by the next index. That such an entry
at 511 has given its TRIP_STEP before the fault past the store is the model's choice (log entry 26). -/
inductive State.RunsTo (c : TripNo) : Nat → State → State → Prop
  | beyond (s : State) : RunsTo c 512 s (s.faultedAt c 511)
  | empty (e : EntryNo) (s : State) (h : s.tripEntry e = .empty) : RunsTo c e.val s (s.faultedAt c e)
  | wait (e : EntryNo) (seconds : Nat) (last notify : Bool) (s : State) (h : s.tripEntry e = .wait seconds last notify) :
      RunsTo c e.val s ((s.steppedAt c e notify).modCode c fun r =>
        { r with state := .running e (some (s.deadlineIn seconds)) })
  | fault (e : EntryNo) (g : Group) (last notify : Bool) (s t : State) (h : s.tripEntry e = .group g last notify)
      (run : s.runGroup c g = (t, true)) : RunsTo c e.val s (t.faultedAt c e)
  | last (e : EntryNo) (g : Group) (notify : Bool) (s t : State) (h : s.tripEntry e = .group g true notify)
      (run : s.runGroup c g = (t, false)) : RunsTo c e.val s
        (((t.steppedAt c e notify).modCode c fun r => { r with state := .holding (s.holdUntil c) }).notify (.tripDone c))
  | next (e : EntryNo) (g : Group) (notify : Bool) (s t u : State) (h : s.tripEntry e = .group g false notify)
      (run : s.runGroup c g = (t, false)) (more : RunsTo c (e.val + 1) (t.steppedAt c e notify) u) : RunsTo c e.val s u

/-- `s` once code `c` has started a run, its list not yet processed (R109). -/
def State.startedRun (c : TripNo) (s : State) : State :=
  (s.modCode c fun r => { r with
    state := .running r.start none, takenAt := some s.now, faulted := false
    suppressed := if r.state = .idle then 0 else r.suppressed }).notify (.tripTaken c)

/-- What the pending slot leaves once no more of the event's own changes are due (R108, R113, R117): nothing changes where the
slot is empty or a code is RUNNING; else the slot is emptied and its code runs, its list processed from its start entry. -/
inductive State.PendingTaken : State → State → Prop
  | empty (s : State) (h : s.trip.pending = none) : PendingTaken s s
  | waits (s : State) (c : TripNo) (h : (s.code c).state.isRunning) : PendingTaken s s
  | runs (s t : State) (d : TripNo) (h : s.trip.pending = some d) (idle : ∀ c, (s.code c).state.isRunning = false)
      (run : State.RunsTo d (s.code d).start.val
        (State.startedRun d { s with trip := { s.trip with pending := none } }) t) : PendingTaken s t

/-- The release of code `c` leaves point `n` with no hiding reason and an ACTIVE condition, so it becomes NEW (R117). -/
def State.comesBack (s : State) (c : TripNo) (n : PointNo) : Bool :=
  let p := s.point n
  p.suppression.contains c && !p.shelved && !p.outOfService && p.suppression.all (· == c) && p.condition == .active

/-- No draft waits committed. -/
def State.noCommits (s : State) : Prop := ∀ a, (s.area a).draft.commit = none

/-- The handover record of an area that enters the step at `p` in `s`, RUNNING where no suspension reason stands
(R144). -/
def State.entered (s : State) (p : Position) (r : Reasons) : Handover :=
  let e := s.stepEntry p.index
  let step := if e.timeout = 0 then none else some e.timeout
  let hold := if e.kind = .hold then some e.parameter else none
  if r.p1 || r.flood || r.trip || r.request then .suspended p step hold r
  else .running p (step.map s.deadlineIn) (hold.map s.deadlineIn)

/-- The RUNNING area `a` that enters the step at a position in `s` passes at once through `n` condition steps whose
conditions hold, and comes to rest with a handover record: RUNNING at a step that waits, or DONE behind a LAST step
(R144, R145, R146). -/
inductive State.EntersTo (s : State) (a : AreaNo) : Nat → Position → Handover → Prop
  | rests (p : Position) (h : ¬ s.StepHolds a (s.stepEntry p.index).kind) :
      EntersTo s a 0 p (s.entered p ⟨false, false, false, false⟩)
  | done (p : Position) (h : s.StepHolds a (s.stepEntry p.index).kind) (last : (s.stepEntry p.index).last) :
      EntersTo s a 1 p (.done p)
  | passes (n : Nat) (p : Position) (x : Handover) (h : s.StepHolds a (s.stepEntry p.index).kind)
      (last : (s.stepEntry p.index).last = false)
      (more : EntersTo s a n ⟨(s.stepEntry p.index).next, p.ordinal + 1⟩ x) : EntersTo s a (n + 1) p x

/-- Area `a` that begins its step list in `s` comes to rest with the handover record `h`: SUSPENDED at its first step where a
reason stands, and else where the entry of that step leads (R143, R153), a list being of at most 32 steps (R141). -/
structure State.BeginsTo (s : State) (a : AreaNo) (h : Handover) : Prop where
  runs : s.reasonsNow a false = ⟨false, false, false, false⟩ → ∃ n ≤ 32, s.EntersTo a n ⟨(s.area a).config.start, 1⟩ h
  held : s.reasonsNow a false ≠ ⟨false, false, false, false⟩ →
    h = s.entered ⟨(s.area a).config.start, 1⟩ (s.reasonsNow a false)

/-- What an event in `s` that brings area `a` to rest with the handover record `h` leaves in `t`. Short of DONE, the other
areas and the mill stand. A DONE area is under the incoming crew, its draft unlocked, and one area less is outstanding (R146).
When it was the last one outstanding, the shift has changed (R154). -/
structure State.ComesTo (s t : State) (a : AreaNo) (h : Handover) : Prop where
  rests : (∀ q, h ≠ .done q) → s.noCommits →
    t.mill = s.mill ∧ ∀ b, (t.area b).handover = if b = a then h else (s.area b).handover
  done  : ∀ q, h = .done q → 1 < s.mill.outstanding → s.noCommits →
    t.mill = { s.mill with outstanding := s.mill.outstanding - 1 } ∧ (t.area a).handover = h ∧
    (t.area a).duty = s.mill.incoming.getD s.mill.duty ∧ (t.area a).draft.lock = none ∧
    ∀ b, b ≠ a → (t.area b).handover = (s.area b).handover ∧ (t.area b).duty = (s.area b).duty
  shift : ∀ q k, h = .done q → s.mill.outstanding = 1 → s.mill.incoming = some k →
    t.mill = { shift := if s.mill.shift = 65535 then 0 else s.mill.shift + 1, duty := k, incoming := none,
               outstanding := 0 } ∧
    ∀ b, (t.area b).handover = .steady ∧ (t.area b).duty = k

/-! ### What the neighbours' share of an event changes -/

/-- The record ends at a shift change (R85). -/
def Shelf.byShifts (r : Shelf) : Bool :=
  match r.ending with
  | .minutes _ => false
  | .shifts _ => true

/-- What a merge leaves of a record in its place: all of it, but of a BANNER the console alone (R168). -/
def Notice.place (n : Notice) : Notice :=
  match n.kind with
  | .banner c _ => { kind := .banner c none, time := 0 }
  | _ => n

/-- What a shift change leaves of a shelf record that stays: all of it, but of a SHIFTS record not the count (R85). -/
def Shelf.kept (r : Shelf) : Shelf :=
  match r.ending with
  | .minutes _ => r
  | .shifts _ => { r with ending := .shifts 0 }

/-- What the end of an event may change, from the owner's changes in `s` to the whole event in `t`: the banners and
outputs, coverage, the areas' handovers, sheets and duty crews, the mill handover record, the pool, the shelves that end at
a shift change with their points, the numbers these take and their areas' counts, and the queue, to which notices are only
added, behind the records that stand in it. A draft's lock and commit are kept or taken away, and the crew that an area comes
under is the incoming crew. All else stays. -/
structure State.Frames (s t : State) : Prop where
  mode     : t.mode = s.mode
  clock    : t.clock = s.clock
  settings : t.settings = s.settings
  roster   : t.roster = s.roster
  roles    : t.roles = s.roles
  trip     : t.trip = s.trip
  orders   : t.orders = s.orders
  steps    : t.steps = s.steps
  link     : t.link = s.link
  pending  : t.pending = s.pending
  mark     : t.room.mark = s.room.mark
  console  : ∀ c, t.console c =
    { s.console c with
      head := (t.console c).head, horn := (t.console c).horn, beacon := (t.console c).beacon }
  config   : ∀ a, (t.area a).config = (s.area a).config
  meter    : ∀ a, (t.area a).meter = (s.area a).meter
  flooded  : ∀ a, (t.area a).flooded = (s.area a).flooded
  abort    : ∀ a, (t.area a).abort = (s.area a).abort
  lock     : ∀ a, (t.area a).draft.lock = none ∨ (t.area a).draft.lock = (s.area a).draft.lock
  commit   : ∀ a, (t.area a).draft.commit = none ∨ (t.area a).draft.commit = (s.area a).draft.commit
  shelves  : (t.shelves.map Shelf.kept).Sublist (s.shelves.map Shelf.kept)
  minutes  : t.shelves.filter (!·.byShifts) = s.shelves.filter (!·.byShifts)
  count    : ∀ a, (∀ r ∈ s.shelves, r.area = a → r.byShifts = false) →
    (t.area a).shelvedCount = (s.area a).shelvedCount
  point    : ∀ n, (∀ r ∈ s.shelves, r.point = n → r.byShifts = false) → t.point n = s.point n
  counter  : (∀ r ∈ s.shelves, r.byShifts = false) → t.raiseCounter = s.raiseCounter
  rises    : min s.raiseCounter Config.maxSeq ≤ t.raiseCounter
  crew     : t.mill.incoming.getD t.mill.duty = s.mill.incoming.getD s.mill.duty
  duty     : ∀ a, (t.area a).duty = (s.area a).duty ∨ (t.area a).duty = s.mill.incoming.getD s.mill.duty
  notices  : s.queue.records.map Notice.place <+: t.queue.records.map Notice.place
  overflow : s.queue.overflow → t.queue.overflow

/-! ### The notices of the neighbours (R45, R51, R85, R131, R132, R145, R146, R149, R151, R154, R156) -/

/-- Handing the notices `ks` to the queue of `s`, in their order, leaves the queue of `t` (R167, R168). -/
def State.Hands (s t : State) (ks : List NoticeKind) : Prop := t.queue = (s.notifyAll ks).queue

/-- The labels of the list lead from `x` to `y`, one by one. -/
def Follows {α β : Type} (R : α → β → α → Prop) : α → List β → α → Prop
  | x, [], y => x = y
  | x, b :: l, y => ∃ z, R x b z ∧ Follows R z l y

/-- A value that changes becomes what its notice says. -/
def Becomes {α : Type} (x b z : α) : Prop := b ≠ x ∧ z = b

/-- What a notice says of the covered flag of area `a` (R44). -/
def NoticeKind.coverage? (a : AreaNo) : NoticeKind → Option Bool
  | .areaCovered b => if b = a then some true else none
  | .areaUncovered b => if b = a then some false else none
  | _ => none

/-- What a notice says of the banner of console `c` (R51). -/
def NoticeKind.head? (c : ConsoleNo) : NoticeKind → Option (Option PointNo)
  | .banner d head => if d = c then some head else none
  | _ => none

/-- What a notice says of the sheets of area `a`: SHEET_POSTED (true) or POOL_SHORT (false) (R131, R132). -/
def NoticeKind.sheet? (a : AreaNo) : NoticeKind → Option Bool
  | .sheetPosted b => if b = a then some true else none
  | .poolShort b => if b = a then some false else none
  | _ => none

/-- The shift and the crew that SHIFT_CHANGED names (R154). -/
def NoticeKind.shift? : NoticeKind → Option (Nat × Crew)
  | .shiftChanged n k => some (n, k)
  | _ => none

/-- The area of a coverage notice. -/
def NoticeKind.coverageArea : NoticeKind → Option Nat
  | .areaCovered a | .areaUncovered a => some a.val
  | _ => none

/-- The console of a BANNER notice. -/
def NoticeKind.bannerConsole : NoticeKind → Option Nat
  | .banner c _ => some c.val
  | _ => none

/-- The area of a handover notice (R156). -/
def NoticeKind.handoverArea : NoticeKind → Option Nat
  | .stepDone a _ | .handoverSuspended a _ | .handoverResumed a | .handoverAborted a _ _ | .areaHandedOver a _ => some a.val
  | _ => none

/-- A notice that tells of the handover of area `a`: a handover notice of the area, or SHIFT_CHANGED. -/
def NoticeKind.tells (a : AreaNo) (k : NoticeKind) : Bool := k.handoverArea == some a.val || k.shift?.isSome

/-- The kinds that the neighbours give: coverage, BANNER, the handover notices, and those of the shift change and of the
sheet store's pass (R156). -/
def NoticeKind.ofNeighbour : NoticeKind → Bool
  | .banner _ _ | .areaCovered _ | .areaUncovered _ | .stepDone _ _ | .handoverSuspended _ _ | .handoverResumed _
  | .handoverAborted _ _ _ | .areaHandedOver _ _ | .shelfExpired _ | .shiftChanged _ _ | .sheetPosted _ | .poolShort _ => true
  | _ => false

/-- What a shift change leaves of a shelf record: a MINUTES record as it stands, a SHIFTS record with one shift change less,
and nothing of one that has none left (R85). -/
def Shelf.afterShift (r : Shelf) : Option Shelf :=
  match r.ending with
  | .minutes _ => some r
  | .shifts n => if n ≤ 1 then none else some { r with ending := .shifts (n - 1) }

/-- A shift change to shift `b.1` and crew `b.2`, of the shift number, the mill duty crew and the shelf list (R85, R154). -/
def ShiftStep (crew : Crew) (x : Nat × Crew × List Shelf) (b : Nat × Crew) (z : Nat × Crew × List Shelf) : Prop :=
  b = (if x.1 = 65535 then 0 else x.1 + 1, crew) ∧ z = (b.1, b.2, x.2.2.filterMap Shelf.afterShift)

/-- An exchange, or a shortage reported, of a draft's commit and its pool-short reported flag (R131, R132). -/
def SheetStep (x : Option Crew × Bool) (posted : Bool) (z : Option Crew × Bool) : Prop :=
  x.1 ≠ none ∧ if posted then z = (none, false) else x.2 = false ∧ z = (x.1, true)

/-- What the notices `ks` tell of an event from `s` to `t`. They are of the neighbours' kinds and make the queue of `t` out of
that of `s`. Each covered flag and each banner is as its last notice says, every notice of it is a change, and without one it
stands. Each SHIFT_CHANGED is the next shift, under the crew that hands over to itself, and a shelf record leaves the list
there alone, with SHELF_EXPIRED. A commit goes with SHEET_POSTED alone, and a pool-short reported flag comes with POOL_SHORT. -/
structure State.Tells (s t : State) (ks : List NoticeKind) : Prop where
  queue   : s.Hands t ks
  kinds   : ∀ k ∈ ks, k.ofNeighbour
  covered : ∀ a, if (s.area a).config.configured then
      Follows Becomes (s.area a).covered (ks.filterMap (·.coverage? a)) (t.area a).covered
    else ks.filterMap (·.coverage? a) = []
  heads   : ∀ c, Follows Becomes (s.console c).head (ks.filterMap (·.head? c)) (t.console c).head
  shifts  : Follows (ShiftStep (s.mill.incoming.getD s.mill.duty)) (s.mill.shift, s.mill.duty, s.shelves)
    (ks.filterMap (·.shift?)) (t.mill.shift, t.mill.duty, t.shelves)
  expired : ∀ n, ks.count (.shelfExpired n) + t.shelves.countP (·.point == n) = s.shelves.countP (·.point == n)
  sheets  : ∀ a, Follows SheetStep ((s.area a).draft.commit, (s.area a).draft.poolShort)
    (ks.filterMap (·.sheet? a)) ((t.area a).draft.commit, (t.area a).draft.poolShort)

/-- The notices of a list all have a key, and stand in its order. -/
def Keyed (key : NoticeKind → Option Nat) (R : Nat → Nat → Prop) (ks : List NoticeKind) : Prop :=
  (∀ k ∈ ks, (key k).isSome) ∧ ks.Pairwise fun x y => R ((key x).getD 0) ((key y).getD 0)

/-- The notices of a shift change: SHELF_EXPIRED for each record that ends, in shelving order, each followed by its BANNER
notices; then SHIFT_CHANGED (R85, R154, R156). Behind it stand the notices of coverage re-derived, of which R154 finds none. -/
def State.ShiftNotices (s : State) (ks : List NoticeKind) : Prop :=
  ∃ (ends : List (PointNo × List NoticeKind)) (n : Nat) (k : Crew) (coverage : List NoticeKind),
    ks = ends.flatMap (fun x => .shelfExpired x.1 :: x.2) ++ .shiftChanged n k :: coverage ∧
    (∀ x ∈ ends, Keyed NoticeKind.bannerConsole (· < ·) x.2) ∧ Keyed NoticeKind.coverageArea (· < ·) coverage ∧
    ends.map (·.1) = (s.shelves.filter fun r => r.afterShift.isNone).map (·.point)

/-- The order of R156: the coverage notices in ascending area code, the BANNER notices in ascending console number, the
handover notices grouped by area in ascending area code, the notices of the shift change, and those of the sheet store's pass,
of which the first is its own (R130) and there are none where no draft waits committed. -/
def State.NoticesOrdered (s : State) (ks : List NoticeKind) : Prop :=
  ∃ coverage banners handovers shift pass,
    ks = coverage ++ (banners ++ (handovers ++ (shift ++ pass))) ∧
    Keyed NoticeKind.coverageArea (· < ·) coverage ∧ Keyed NoticeKind.bannerConsole (· < ·) banners ∧
    Keyed NoticeKind.handoverArea (· ≤ ·) handovers ∧ (shift = [] ∨ s.ShiftNotices shift) ∧
    ∀ k, pass.head? = some k → (∃ a, k = .sheetPosted a ∨ k = .poolShort a) ∧ ¬ s.noCommits

/-- A step that completes on a condition (R142). -/
def StepKind.isCondition : StepKind → Bool
  | .seatIn | .sheetPosted | .review | .clearP1 => true
  | .confirmOut | .confirmIn | .hold => false

/-- What the completion of the current step, at `p`, of the RUNNING area `a` gives: STEP_DONE where the entry is flagged
NOTIFY, and the next step entered (R144, R145), or AREA_HANDED_OVER to the incoming crew and DONE behind a LAST entry
(R146). -/
def State.completion (s : State) (a : AreaNo) (p : Position) : List NoticeKind × Handover :=
  let e := s.stepEntry p.index
  let done := if e.notify then [NoticeKind.stepDone a p.ordinal] else []
  if e.last then (done ++ [.areaHandedOver a (s.mill.incoming.getD s.mill.duty)], .done p)
  else (done, s.entered ⟨e.next, p.ordinal + 1⟩ ⟨false, false, false, false⟩)

/-- The handover of area `a` passes through condition steps, each completion with its notices, and to STEADY at
SHIFT_CHANGED (R142, R145, R154). -/
inductive State.PassesSteps (s : State) (a : AreaNo) : Handover → List NoticeKind → Handover → Prop
  | rests (h : Handover) : PassesSteps s a h [] h
  | step (p : Position) (x y : Option Deadline) (ks : List NoticeKind) (h : Handover)
      (condition : (s.stepEntry p.index).kind.isCondition) (more : PassesSteps s a (s.completion a p).2 ks h) :
      PassesSteps s a (.running p x y) ((s.completion a p).1 ++ ks) h
  | shift (h : Handover) (n : Nat) (k : Crew) (ks : List NoticeKind) (h' : Handover)
      (more : PassesSteps s a .steady ks h') : PassesSteps s a h (.shiftChanged n k :: ks) h'

/-- The REQUEST reason stands in the set. -/
def Handover.asked : Handover → Bool
  | .suspended _ _ _ r => r.request
  | .steady | .running _ _ _ | .halted _ | .done _ => false

/-- What the reasons that stand in `s`, with REQUEST as given, make of the handover `h` of area `a` (R149): a RUNNING area with
a reason is SUSPENDED, its deadlines saved as seconds, with HANDOVER_SUSPENDED; a SUSPENDED one without is RUNNING, each saved
time a deadline, one of 0 reached in that moment, with HANDOVER_RESUMED; and one with a reason has its set, without a notice. -/
def State.turned (s : State) (a : AreaNo) (request : Bool) (h : Handover) : List NoticeKind × Handover :=
  let r := s.reasonsNow a request
  let left (d : Deadline) : Nat := d.time - s.clock.count
  let back (n : Nat) : Deadline :=
    ⟨min (s.clock.count + n) 4294967295, if n = 0 then s.clock.timebase else s.clock.timebase + 1⟩
  match h with
  | .running p x y =>
    if r = ⟨false, false, false, false⟩ then ([], h)
    else ([.handoverSuspended a r], .suspended p (x.map left) (y.map left) r)
  | .suspended p x y _ =>
    if r = ⟨false, false, false, false⟩ then ([.handoverResumed a], .running p (x.map back) (y.map back))
    else ([], .suspended p x y r)
  | .steady | .halted _ | .done _ => ([], h)

/-- What beginning the step list of area `a` gives: the first step entered under the reasons that stand, with
HANDOVER_SUSPENDED where one does (R143, R153). -/
def State.begun (s : State) (a : AreaNo) : List NoticeKind × Handover :=
  let r := s.reasonsNow a false
  (if r = ⟨false, false, false, false⟩ then [] else [.handoverSuspended a r], s.entered ⟨(s.area a).config.start, 1⟩ r)

/-- How an event takes the handover of area `a` from `h` to `h'`, with which notices and in which order (R156): first the
owner's own change, where it makes one, and else a suspension, a resumption or a change of the set where the reasons ask for
it; then the condition steps passed and the shift change. -/
def State.HandoverGoes (s : State) (own : Option (List NoticeKind × Handover)) (a : AreaNo) (h : Handover)
    (ks : List NoticeKind) (h' : Handover) : Prop :=
  match own with
  | some x => ∃ l, ks = x.1 ++ l ∧ s.PassesSteps a x.2 l h'
  | none => s.PassesSteps a h ks h' ∨ ∃ l, ks = (s.turned a h.asked h).1 ++ l ∧ s.PassesSteps a (s.turned a h.asked h).2 l h'

/-- What the neighbours' share of an event adds, from the owner's changes in `s` to the whole event in `t`: what it may change
(`State.Frames`), and the notices that it gives, exactly those of what it changes and in R156's order. `own` is the change
that the owner itself makes to an area's handover within that order, where it makes one. -/
structure State.Settles (s t : State) (own : AreaNo → Option (List NoticeKind × Handover) := fun _ => none) : Prop
    extends State.Frames s t where
  told : ∃ ks, s.Tells t ks ∧ s.NoticesOrdered ks ∧
    ∀ a, s.HandoverGoes (own a) a (s.area a).handover (ks.filter (·.tells a)) (t.area a).handover

/-! ### What every step tells -/

/-- The command changes the queue by its notices alone: it is none of HARD_RESET, RESTART, FETCH_NOTICES and SET_TIMING. -/
def OnlyNotifies (c : Instr) : Prop :=
  (∀ low, c ≠ .hardReset low) ∧
    ∀ tag p, c ≠ .restart tag p ∧ c ≠ .fetchNotices tag p ∧ c ≠ .setTiming tag p

/-- The notices `ks` of a step tell of every covered flag and banner that changes, and of no other (R44, R45, R51). -/
structure State.TellsOutputs (s t : State) (ks : List NoticeKind) : Prop where
  queue   : s.Hands t ks
  covered : ∀ a, if (s.area a).config.configured then
      Follows Becomes (s.area a).covered (ks.filterMap (·.coverage? a)) (t.area a).covered
    else ks.filterMap (·.coverage? a) = []
  heads   : ∀ c, Follows Becomes (s.console c).head (ks.filterMap (·.head? c)) (t.console c).head

/-- What AREA_HANDED_OVER says of area `a` (R146). -/
def NoticeKind.handedOver? (a : AreaNo) : NoticeKind → Option Crew
  | .areaHandedOver b k => if b = a then some k else none
  | _ => none

/-- The notices `ks` of a step tell of every area that becomes DONE and of the shift change, and of no other (R146, R154). -/
structure State.TellsDuties (s t : State) (ks : List NoticeKind) : Prop where
  queue : s.Hands t ks
  shift : ks.filterMap (·.shift?) = [] ∧ (s.mode = .run → t.mill.shift = s.mill.shift ∧ t.mill.duty = s.mill.duty) ∨
    ks.filterMap (·.shift?) = [(t.mill.shift, t.mill.duty)] ∧ s.mode = .run ∧ (∀ k, s.mill.incoming = some k → t.mill.duty = k) ∧
      t.mill = { shift := s.shiftAfter, duty := t.mill.duty, incoming := none, outstanding := 0 }
  areas : ∀ a, ks.filterMap (·.handedOver? a) =
    if (s.area a).config.configured ∧ (s.area a).handover.isDone = false ∧
        ((t.area a).handover.isDone ∨ ks.filterMap (·.shift?) ≠ [])
    then [(t.area a).duty] else []

/-- The notice says that area `a` is suspended, resumed or halted (R149, R151). -/
def NoticeKind.turns (a : AreaNo) : NoticeKind → Bool
  | .handoverSuspended b _ | .handoverResumed b | .handoverAborted b _ _ => b == a
  | _ => false

/-- The notices `ks` of a step tell of every area that is suspended, resumed or halted, once, and of no other (R149, R151,
R152). A resumed area may have passed on to DONE, or with a shift change to STEADY. -/
structure State.TellsReasons (s t : State) (ks : List NoticeKind) : Prop where
  queue     : s.Hands t ks
  once      : ∀ a, ks.countP (·.turns a) ≤ 1
  suspended : ∀ a r, .handoverSuspended a r ∈ ks ↔
    (∃ p x y, (t.area a).handover = .suspended p x y r) ∧ ∀ p x y q, (s.area a).handover ≠ .suspended p x y q
  resumed   : ∀ a, .handoverResumed a ∈ ks ↔ (∃ p x y r, (s.area a).handover = .suspended p x y r) ∧
    ((∃ p x y, (t.area a).handover = .running p x y) ∨ (∃ p, (t.area a).handover = .done p) ∨
      (t.area a).handover = .steady ∧ ∃ n k, .shiftChanged n k ∈ ks)
  aborted   : ∀ a n, (∃ why, .handoverAborted a why n ∈ ks) ↔
    ∃ p, (t.area a).handover = .halted p ∧ p.ordinal = n ∧ ∀ q, (s.area a).handover ≠ .halted q

/-! ### Steps that complete -/

/-- What the completion of area `a`'s step at `p` in `s` comes to in `t`: the LAST step makes the area DONE (R146), and another
one is followed by the step it names, which waits or is itself passed at once (R144, R145). -/
structure State.StepLeads (s t : State) (a : AreaNo) (p : Position) : Prop where
  next : ∀ n h, (s.stepEntry p.index).last = false → n < 32 →
    s.EntersTo a n ⟨(s.stepEntry p.index).next, p.ordinal + 1⟩ h → s.ComesTo t a h
  last : (s.stepEntry p.index).last → s.ComesTo t a (.done p)

/-- What the completion of the current step of the RUNNING area `a`, at `p` in `s`, leaves in `t`: the area comes to where the
step leads, and the end of the event may change what it always may, the completion with its notices leading among those of the
area. -/
structure State.StepCompletes (s t : State) (a : AreaNo) (p : Position) : Prop extends State.StepLeads s t a p where
  settles : s.Settles t fun b => if b = a then some (s.completion a p) else none

end Sys2Proof.Machine
end

