-- ==== Sys2Proof/Certificates/Slice0/Obligations.lean ====
section
/-! DEFINITION. The statements for the provers. A request's payload is written out in the encodings of R180, and its frame
is taken as `State.take` says (R163; log entry 1). A deadline is reached as log entry 4 says. Where a statement says
`d.Settles t`, `d` is the owner's own change, written out, and `State.Settles` says what the neighbours' share of the event
may add to it: what may change besides, the notices that are given, exactly those of what changes, and their order. -/

open Sys2Proof Sys2Proof.Machine

/-! ### The machine as a whole -/

/-- The model's queue: a step runs the command at its front with the rest waiting; on an empty queue the part idles
(log entry 2). -/
def Obligations.StepRunsFrontCommand : Prop :=
  (∀ (c : Instr) (rest : List Instr) (s : State), s.pending = c :: rest → step s = exec c { s with pending := rest })
  ∧ ∀ s : State, s.pending = [] → step s = .next s

/-- Every command completes in every state, and none touches the commands that wait. The spec gives the meaning of a
command in its turn; that one out of turn, an expiry or deadline that does not stand, or an ill-formed command has no effect,
and that the waiting commands stand across a HARD_RESET, are the model's choices (log entries 1, 3, 5 and 19). -/
def Obligations.EveryCommandCompletes : Prop :=
  ∀ (c : Instr) (s : State), ∃ t : State, exec c s = .next t ∧ t.pending = s.pending

/-- The operating state changes at START, RESTART and a hard reset alone, to RUN at START and to CONFIG at the others. -/
def Obligations.ModeChangesAtStartAndResets : Prop :=
  ∀ (c : Instr) (s t : State), exec c s = .next t → t.mode ≠ s.mode →
    (∃ tag, c = .start tag [] ∧ t.mode = .run) ∨ (∃ tag, c = .restart tag [] ∧ t.mode = .config)
    ∨ ∃ strap, c = .hardReset strap ∧ t.mode = .config

/-- The state after reset satisfies every invariant that is stated below of each step. -/
def Obligations.ResetIsSound : Prop :=
  State.reset.QueueSound ∧ State.reset.TripsSound ∧ State.reset.PoolSound ∧ State.reset.ShelvesSound
  ∧ State.reset.ConfigSound ∧ State.reset.SeatsSound ∧ State.reset.OutputsSound ∧ State.reset.HandoversSound
  ∧ State.reset.StepsSound ∧ State.reset.SeatStepsSound ∧ State.reset.PointsSound ∧ State.reset.DutiesSound
  ∧ State.reset.SheetsSound

/-- The notice queue's rules (R167, R168, R170) are kept by every step. -/
def Obligations.QueueRulesKept : Prop :=
  ∀ s t : State, s.QueueSound → step s = .next t → t.QueueSound

/-- The trip unit's rules are kept by every step: the single running code and the latch's rule (R108), the points-suppressed
count of every code (R103), the codes of a point's suppression set, which stand in ascending order, each once (R21), and the
spare level of every GROUP entry (R106). -/
def Obligations.TripRulesKept : Prop :=
  ∀ s t : State, s.TripsSound → step s = .next t → t.TripsSound

/-- The pool count and the single listing of R120 are kept by every step. So is what the sheet store's passes leave: a committed
draft of a configured area waits only while one of the conditions of R129 fails, and where that is the pool alone its shortage
has been reported, whichever command makes the conditions hold (R130, R131). -/
def Obligations.PoolRulesKept : Prop :=
  ∀ s t : State, step s = .next t → (s.PoolSound → t.PoolSound) ∧ (s.SheetsSound → t.SheetsSound)

/-- The matching of shelved points and shelf records with the bounds of R79, and the combinations of R3 with the rules of
R11 to R13 for every point and of R4 for the numbers, are kept by every step, from a state that is at rest if in CONFIG and
whose trip unit is sound. -/
def Obligations.PointAndShelfRulesKept : Prop :=
  ∀ s t : State, s.ConfigSound → s.TripsSound → s.ShelvesSound → s.PointsSound → step s = .next t →
    t.ShelvesSound ∧ t.PointsSound

/-- What R172 says of CONFIG is kept by every step. -/
def Obligations.ConfigStaysAtRest : Prop :=
  ∀ s t : State, s.ConfigSound → step s = .next t → t.ConfigSound

/-- Consoles and operators name each other through every step (R30), from a state that is at rest if in CONFIG. -/
def Obligations.SeatsNameEachOther : Prop :=
  ∀ s t : State, s.ConfigSound → s.SeatsSound → step s = .next t → t.SeatsSound

/-- The banners, horns, beacons and the room horn follow the state through every step, as R50, R51, R54, R55, R62 and R46
spell it, and in RUN so does the covered flag of every configured area (R44, R45), where consoles and operators name each
other (R30). Every command that changes the queue by notices alone gives AREA_COVERED, AREA_UNCOVERED and BANNER for exactly the
covered flags of configured areas and the banners that change, each notice a change and the last one as it then stands. -/
def Obligations.OutputsFollowState : Prop :=
  ∀ s t : State, s.ConfigSound → s.SeatsSound → s.OutputsSound → step s = .next t → t.OutputsSound ∧
    ∀ c rest, s.pending = c :: rest → OnlyNotifies c → ∃ ks, s.TellsOutputs t ks

/-- The terms by which the other statements name what the records give, and what the permission check admits, mean what the
rules say, in every state. That a deadline carries the second from which it can be reached is log entry 4. -/
def Obligations.DerivedTermsMeanTheirRules : Prop :=
  ∀ s : State, s.DerivesAsRuled ∧ s.PermitsAsRuled

/-- The duty crews follow the handover through every step (R138, R139, R140, R154): an area is under the incoming crew exactly
while the handover is OPEN and the area DONE, and else under the mill duty crew; the areas outstanding are the configured ones
that are not DONE, and while the handover is CLOSED there is none and every area is STEADY. Every command that changes the queue by notices alone gives AREA_HANDED_OVER for exactly the
areas that become DONE, with their crew (R146), and SHIFT_CHANGED for exactly the shift change, with the shift and the crew that
come in (R154). -/
def Obligations.DutiesFollowHandover : Prop :=
  ∀ s t : State, s.ConfigSound → s.DutiesSound → step s = .next t → t.DutiesSound ∧
    ∀ c rest, s.pending = c :: rest → OnlyNotifies c → ∃ ks, s.TellsDuties t ks

/-- An area in progress is SUSPENDED exactly while one of the reasons P1, FLOOD, TRIP and REQUEST stands, and its set holds
the first three exactly while their conditions stand (R139, R147, R149). So it is kept by every step, from a state that is at
rest if in CONFIG: whichever command changes a reason's condition, the area is suspended or resumed in the same step. Where the duty crews are sound as well, every command that changes the queue
by notices alone gives HANDOVER_SUSPENDED with the set, HANDOVER_RESUMED and HANDOVER_ABORTED with the step's ordinal for exactly
the areas that are suspended, resumed and halted (R149, R151, R152). -/
def Obligations.ReasonsSuspendAndResume : Prop :=
  ∀ s t : State, s.ConfigSound → s.HandoversSound → step s = .next t → t.HandoversSound ∧
    (s.DutiesSound → ∀ c rest, s.pending = c :: rest → OnlyNotifies c → ∃ ks, s.TellsReasons t ks)

/-- No RUNNING area waits at a SHEET_POSTED, REVIEW or CLEAR_P1 step whose condition holds: whichever command makes the
condition hold completes the step (R142, R145), and the lists of the areas end (R141). So it is kept by every step, where the
trip unit, the item pool, the seats and the duty crews are sound. Of SEAT_IN it holds through every command but a presence deadline, which R142 does not list
among the events that examine the step; which areas a SIGN_OFF examines is the model's choice (log entry 13). -/
def Obligations.ConditionStepsComplete : Prop :=
  ∀ s t : State, s.ConfigSound → s.TripsSound → s.PoolSound → s.SeatsSound → s.DutiesSound → s.StepsSound →
    step s = .next t →
    t.StepsSound ∧ ((∀ c rest, s.pending ≠ .presenceDeadline c :: rest) → s.SeatStepsSound → t.SeatStepsSound)

/-! ### The line -/

/-- A frame sent character by character to a receiver in HUNTING, with room for it in the buffer, is received whole and
joins the order; nothing else changes. -/
def Obligations.FrameArrivesWhole : Prop :=
  ∀ (f : Frame) (s : State), f.payload.length ≤ 248 → s.link.receiver = .hunting →
    s.link.held + (f.payload.length + 6) ≤ 256 → s.pending = f.wire.map Instr.receiveCharacter →
    Sys2Proof.core.run f.wire.length s
      = .next { s with link := { s.link with order := s.link.order ++ [.frame f] }, pending := [] }

/-- The receiver's states and characters, and the loss of a character that finds the buffer full (R161, R162). A
character changes nothing but the link. -/
def Obligations.ReceiverTakesCharacter : Prop :=
  ∀ (b : Byte) (s : State), ∃ l, exec (.receiveCharacter b) s = .next { s with link := l } ∧
    l.sent = s.link.sent ∧ l.slow = s.link.slow ∧
    (s.link.receiver = .hunting → b ≠ 0xC3 → l = s.link) ∧
    (s.link.held < 256 →
      (s.link.receiver = .hunting → b = 0xC3 → l.receiver = .length ∧ l.order = s.link.order) ∧
      (s.link.receiver = .length → 2 ≤ b.toNat ∧ b.toNat ≤ 250 →
        l.receiver = .body b.toNat [] ∧ l.order = s.link.order) ∧
      (s.link.receiver = .length → ¬ (2 ≤ b.toNat ∧ b.toNat ≤ 250) → l = s.link.discard .length) ∧
      ∀ len bytes, s.link.receiver = .body len bytes →
        (bytes.length + 1 < len + 2 → l.receiver = .body len (bytes ++ [b]) ∧ l.order = s.link.order) ∧
        (bytes.length + 1 = len + 2 → ∀ content check, bytes ++ [b] = content ++ check → content.length = len →
          (check = [((crc (byte len :: content)) >>> 8).setWidth 8, (crc (byte len :: content)).setWidth 8] →
            ∀ kind tag payload, content = kind :: tag :: payload →
              l.receiver = .hunting ∧ l.order = s.link.order ++ [.frame { kind, tag, payload }]) ∧
          (check ≠ [((crc (byte len :: content)) >>> 8).setWidth 8, (crc (byte len :: content)).setWidth 8] →
            l = s.link.discard .check))) ∧
    (256 ≤ s.link.held → (s.link.receiver = .hunting → b = 0xC3) → l = s.link.discard .overrun)

/-- A discarded frame's error joins the order while fewer than 16 wait; the gap timer's expiry discards with GAP; an error
at the head of the order is answered by one LINK_ERROR reply; and a frame of no request's kind by BAD_KIND. -/
def Obligations.LinkFaultsAnswered : Prop :=
  (∀ (e : LinkError) (l : Link), (l.discard e).receiver = .hunting ∧
    (l.errors < 16 → (l.discard e).order = l.order ++ [.error e]) ∧ (16 ≤ l.errors → (l.discard e).order = l.order)) ∧
  (∀ s : State, s.link.receiver ≠ .hunting → exec .gapTimerExpiry s = .next { s with link := s.link.discard .gap }) ∧
  (∀ (e : LinkError) (rest : List Received) (s : State), s.link.order = .error e :: rest →
    exec .linkError s = .next { s with link := { s.link with order := rest, sent := s.link.sent ++
      [{ kind := 0xFF, tag := 0, payload := [byte e.code] }] } }) ∧
  ∀ (kind tag : Byte) (payload : List Byte) (s u : State), isRequestKind kind = false →
    s.take { kind, tag, payload } = some u →
    exec (.badKind kind tag payload) s = .next (u.send { kind := kind ||| 0x80, tag, payload := [0x10] })

/-- A request is refused before its owner acts (R164). One whose payload is empty where its kind requires fields is refused
with BAD_FIELD, and names no console (step 2). In RUN the requests of CONFIG are refused with CONFIG_ONLY, and in CONFIG the
requests of RUN with RUN_ONLY (step 4, R172; every console is VACANT in CONFIG). Nothing changes. Whatever the request, and
whichever check refuses it, its own among them, a reply that is not DONE leaves the state that the frame's taking and the
activity of the console named in it leave (R35), and every request is answered by one reply, in its kind and tag (R165). -/
def Obligations.RequestsRefusedBeforeTheirOwner : Prop :=
  (∀ (kind tag : Byte) (p : List Byte) (s u : State), s.take { kind, tag, payload := p } = some u →
    let named : Option ConsoleNo :=
      if 0x40 ≤ kind.toNat ∧ kind.toNat ≤ 0x52 then allConsoles.find? fun c => p.head? = some (byte c.val) else none
    let v := match named with
      | some c => u.activity c
      | none => u
    ∃ (x : Byte) (data : List Byte) (t : State),
      exec (Instr.ofFrame kind tag p) s = .next (t.send { kind := kind ||| 0x80, tag, payload := x :: data }) ∧
      t.link.sent = u.link.sent ∧ (x ≠ 0 → t = v)) ∧
  (∀ (kind tag : Byte) (s u : State), isRequestKind kind → kind ∉ [0x01#8, 0x03#8, 0x04#8, 0x60#8, 0x62#8] →
    s.take { kind, tag, payload := [] } = some u →
    exec (Instr.ofFrame kind tag []) s = .next (u.send { kind := kind ||| 0x80, tag, payload := [0x11] })) ∧
  (∀ row ∈ configRows, ∀ (tag : Byte) (p : List Byte) (s u : State), row.2 p → s.mode = .run →
    s.take { kind := row.1, tag, payload := p } = some u →
    exec (Instr.ofFrame row.1 tag p) s = .next (u.send { kind := row.1 ||| 0x80, tag, payload := [0x13] })) ∧
  ∀ row ∈ runRows, ∀ (tag : Byte) (p : List Byte) (s u : State), row.2 p → s.mode = .config → s.ConfigSound →
    s.take { kind := row.1, tag, payload := p } = some u →
    exec (Instr.ofFrame row.1 tag p) s = .next (u.send { kind := row.1 ||| 0x80, tag, payload := [0x12] })

/-- A request that names a console is activity there, whatever becomes of it: the SEATED console stays SEATED with its
presence timer restarted, unless the request is a SIGN_OFF (R35, R164). Activity at an ABSENT console returns it to SEATED,
with CONSOLE_PRESENT before every notice it adds to the queue, where a BANNER merged into a record that stands there already
is not added (R37, R168). -/
def Obligations.ActivityKeepsConsoleSeated : Prop :=
  (∀ (kind tag : Byte) (c : ConsoleNo) (p : List Byte) (n : Nat) (d : Option Deadline) (s u t : State),
    0x40 ≤ kind.toNat → kind.toNat ≤ 0x52 → kind ≠ 0x41 → (s.console c).seat = .seated n d →
    s.take { kind, tag, payload := byte c.val :: p } = some u →
    exec (Instr.ofFrame kind tag (byte c.val :: p)) s = .next t →
    (t.console c).seat = .seated n (if s.settings.presenceTimeout = 0 then none
      else some (s.deadlineIn s.settings.presenceTimeout))) ∧
  ∀ (c : ConsoleNo) (n : Nat) (s : State), (s.console c).seat = .absent n →
    ((s.modConsole c fun r => { r with seat := .seated n s.presenceDeadline }).notify (.consolePresent c)).Settles
      (s.activity c) ∧
    ((s.activity c).console c).seat = .seated n s.presenceDeadline

/-! ### Alarm points and the rate meter (chapters 1 and 5) -/

/-- RAISE of an unhidden CLEAR point (R5): the point becomes NEW with a fresh number, and its area's meter counts it
(R92, R96), before the neighbours' share. Of a hidden CLEAR point (R6) the condition, the raised-at time and the occurrence
count alone change; an ACTIVE point is answered ALREADY, one that does not exist NO_SUCH, with no change (R8). -/
def Obligations.RaiseActsByView : Prop :=
  (∀ (tag : Byte) (n : PointNo) (s u : State), s.take { kind := 0x20, tag, payload := be16 n.val } = some u →
    u.mode = .run → u.exists? (u.point n) → (u.point n).hidden = false → (u.point n).condition = .clear →
    ∃ t : State, exec (.raise tag (be16 n.val)) s = .next (t.replyDone 0x20 tag []) ∧
      State.Settles
        (({ u with raiseCounter := min (u.raiseCounter + 1) Config.maxSeq }.setPoint n
          { u.point n with
            condition := .active, ann := .new, raiseSeq := some (min (u.raiseCounter + 1) Config.maxSeq),
            raisedAt := some u.now, occurrences := min 255 ((u.point n).occurrences + 1), acked := none,
            postTrip := false }).metered (u.point n).area (min 65535 ((u.area (u.point n).area).meter + 256))) t) ∧
  ∀ (tag : Byte) (n : PointNo) (s u : State), s.take { kind := 0x20, tag, payload := be16 n.val } = some u →
    u.mode = .run →
    (u.exists? (u.point n) → (u.point n).hidden → (u.point n).condition = .clear →
      exec (.raise tag (be16 n.val)) s = .next ((u.setPoint n
        { u.point n with
          condition := .active, raisedAt := some u.now, occurrences := min 255 ((u.point n).occurrences + 1) }).replyDone
        0x20 tag [])) ∧
    (u.exists? (u.point n) → (u.point n).condition = .active →
      exec (.raise tag (be16 n.val)) s = .next (u.send (replyFrame 0x20 tag .already []))) ∧
    (u.exists? (u.point n) = false →
      exec (.raise tag (be16 n.val)) s = .next (u.send (replyFrame 0x20 tag .noSuch [])))

/-- CLEAR (R9). Of an ACTIVE point, an unhidden one goes from NEW to FADED and from ACKED to NORMAL, its post-trip mark
cleared; of a hidden one the condition alone changes. A CLEAR point, a FADED one among them, is answered ALREADY and one that
does not exist NO_SUCH, with no change. -/
def Obligations.ClearFadesOrSettlesPoint : Prop :=
  ∀ (tag : Byte) (n : PointNo) (s u : State), s.take { kind := 0x21, tag, payload := be16 n.val } = some u →
    u.mode = .run →
    (u.exists? (u.point n) → (u.point n).condition = .active →
      ((u.point n).hidden → exec (.clear tag (be16 n.val)) s = .next
        ((u.setPoint n { u.point n with condition := .clear }).replyDone 0x21 tag [])) ∧
      ∀ after, ((u.point n).ann = .new ∧ after = .faded) ∨ ((u.point n).ann = .acked ∧ after = .normal) →
        (u.point n).hidden = false →
        ∃ t : State, exec (.clear tag (be16 n.val)) s = .next (t.replyDone 0x21 tag []) ∧
          State.Settles (u.setPoint n { u.point n with condition := .clear, ann := after, postTrip := false }) t) ∧
    (u.exists? (u.point n) → (u.point n).condition = .clear →
      exec (.clear tag (be16 n.val)) s = .next (u.send (replyFrame 0x21 tag .already []))) ∧
    (u.exists? (u.point n) = false →
      exec (.clear tag (be16 n.val)) s = .next (u.send (replyFrame 0x21 tag .noSuch [])))

/-- A decay step takes max 1 (floor (L k / 1024)) from the meter of a configured area in RUN whose meter L is above 0, and
makes the flood test (R94, R96). -/
def Obligations.DecayStepLowersMeter : Prop :=
  ∀ (a : AreaNo) (s : State), s.mode = .run → (s.area a).config.configured → 0 < (s.area a).meter →
    ∃ t : State, exec (.decayStep a) s = .next t ∧
      State.Settles (s.metered a ((s.area a).meter
        - max 1 ((s.area a).meter * (s.area a).config.decay / 1024))) t ∧
      (t.area a).meter = (s.area a).meter - max 1 ((s.area a).meter * (s.area a).config.decay / 1024)

/-- LOAD_POINTS stores the configuration fields of a run of points exactly as given (R2). SET_POINT replaces a configured
point's area and priority: in CONFIG always, in RUN for a point out of service and a configured new area, and else it is
refused as R20 orders; a field out of range is BAD_FIELD. Nothing else changes. -/
def Obligations.PointsAreConfigured : Prop :=
  (∀ (tag : Byte) (first : Nat) (es : List PointEntry) (s u : State), 1 ≤ es.length → es.length ≤ 80 →
    first + es.length ≤ 2048 →
    let p := be16 first ++ byte es.length ::
      es.flatMap fun e => [flagByte e.configured, byte e.area.val, byte e.priority.num]
    s.take { kind := 0x10, tag, payload := p } = some u → u.mode = .config →
    ∃ points : Vector Point 2048, exec (.loadPoints tag p) s = .next (State.replyDone 0x10 tag [] { u with points }) ∧
      ∀ n : PointNo, points[n] = match if first ≤ n.val then es[n.val - first]? else none with
        | some e => { u.point n with configured := e.configured, area := e.area, priority := e.priority }
        | none => u.point n) ∧
  (∀ (tag : Byte) (n : PointNo) (a : AreaNo) (q : Priority) (s u : State),
    let p := be16 n.val ++ [byte a.val, byte q.num]
    s.take { kind := 0x19, tag, payload := p } = some u →
    exec (.setPoint tag p) s = .next
      (if (u.point n).configured = false then u.send (replyFrame 0x19 tag .noSuch [])
       else if u.mode = .run ∧ (u.point n).outOfService = false then u.send (replyFrame 0x19 tag .wrongState [])
       else if u.mode = .run ∧ (u.area a).config.configured = false then u.send (replyFrame 0x19 tag .noSuch [])
       else (u.setPoint n { u.point n with area := a, priority := q }).replyDone 0x19 tag [])) ∧
  ∀ (tag x y a q : Byte) (s u : State), s.take { kind := 0x19, tag, payload := [x, y, a, q] } = some u →
    2047 < x.toNat * 256 + y.toNat ∨ 31 < a.toNat ∨ q = 0 ∨ 4 < q.toNat →
    exec (.setPoint tag [x, y, a, q]) s = .next (u.send (replyFrame 0x19 tag .badField []))

/-- TAKE_OUT (R18): the point is out of service and hidden, NORMAL and unmarked if it was not hidden before; a shelf of it
leaves the list, and every code that suppressed it counts one point less. RETURN (R19, R15): the out-of-service reason leaves
the point. An ACTIVE point that no reason hides becomes NEW, unmarked, with a fresh number; another one is left in its
state. -/
def Obligations.ServiceTakesPointOutAndBack : Prop :=
  ∀ (tag : Byte) (c : ConsoleNo) (n : PointNo) (o : Operator) (s u : State),
    let p := byte c.val :: be16 n.val
    u.mode = .run → u.permitPoint c .service n false = .ok o → u.tripCovers (u.point n).area = false →
    (s.takesAt c { kind := 0x48, tag, payload := p } = some u → (u.point n).outOfService = false →
      ∃ t : State, exec (.takeOut tag p) s = .next (t.replyDone 0x48 tag []) ∧
        let unshelved : State := match u.shelfOf? n with
          | some r => { u with shelves := u.shelves.filter fun x => x ≠ r }.modArea r.area fun x =>
              { x with shelvedCount := x.shelvedCount - 1 }
          | none => u
        let codes : Vector TripCode 15 := .ofFn fun k =>
          { u.code k with suppressed := (u.code k).suppressed - (u.point n).suppression.count k }
        State.Settles (State.setPoint n
          { u.point n with
            shelved := false, suppression := [], outOfService := true
            ann := if (u.point n).hidden then (u.point n).ann else .normal
            postTrip := if (u.point n).hidden then (u.point n).postTrip else false }
          { unshelved with trip := { u.trip with codes } }) t) ∧
    (s.takesAt c { kind := 0x49, tag, payload := p } = some u →
      (u.point n).outOfService → (u.point n).shelved = false → (u.point n).suppression = [] →
      ∃ t : State, exec (.returnPoint tag p) s = .next (t.replyDone 0x49 tag []) ∧
        State.Settles
          (if (u.point n).condition = .active then
            { u with raiseCounter := min (u.raiseCounter + 1) Config.maxSeq }.setPoint n
              { u.point n with
                outOfService := false, ann := .new, raiseSeq := some (min (u.raiseCounter + 1) Config.maxSeq),
                acked := none, postTrip := false }
           else u.setPoint n { u.point n with outOfService := false }) t)

/-! ### Queries -/

/-- Every query with right fields is answered DONE in both operating states and changes nothing (R21, R22, R48, R88, R99,
R107, R136, R157, R178). -/
def Obligations.QueriesChangeNothing : Prop :=
  ∀ (tag : Byte) (a : AreaNo) (c : ConsoleNo) (k : TripNo) (n : PointNo) (sel : Byte) (posted : Bool) (i : Instr)
    (s u : State), (sel = 0xFF ∨ ∃ b : AreaNo, sel = byte b.val) →
    (i = .identify tag [] ∨ i = .queryPoint tag (be16 n.val) ∨ i = .listStanding tag (sel :: be16 n.val)
      ∨ i = .queryConsole tag [byte c.val] ∨ i = .queryConsole tag [0xFF]
      ∨ (∃ q o, s.operator? q = some o ∧ 1 ≤ q ∧ q ≤ 9999 ∧ i = .queryOperator tag (be16 q))
      ∨ (∃ pos, pos ≤ 127 ∧ i = .listShelves tag [sel, byte pos])
      ∨ (∃ count, 1 ≤ count ∧ count ≤ 16 ∧ a.val + count ≤ 32 ∧ i = .queryMeters tag [byte a.val, byte count])
      ∨ i = .queryTrip tag [byte (k.val + 1)] ∨ i = .queryTrip tag [0]
      ∨ (∃ pos, pos ≤ 31 ∧ i = .readSheet tag [byte a.val, flagByte posted, byte pos])
      ∨ i = .queryHandover tag [sel]) →
    ∀ kind payload, i.frame? = some (kind, tag, payload) → s.take { kind, tag, payload } = some u →
      ∃ data, exec i s = .next (u.replyDone kind tag data)

/-- The replies of QUERY_POINT, LIST_STANDING, LIST_SHELVES and READ_SHEET in the layouts of R182, and IDENTIFY's
identification of R178 (the widths of its capacities are the model's reading, log entry 9). LIST_STANDING lists up to 40 standing points of the selection from the start point on (R22); of a full
reply whose last point is below 2047 the continuation is the number after that point, also where no standing point follows it,
which is the model's choice (log entry 25). LIST_SHELVES lists up to 15 records from the start position on, and is complete
where no record of the selection follows (R88); READ_SHEET up to 7 items, and is complete at the list's end (R136). -/
def Obligations.ReportedRecordLayouts : Prop :=
  (∀ (tag : Byte) (n : PointNo) (s u : State), s.take { kind := 0x28, tag, payload := be16 n.val } = some u →
    let p := u.point n
    exec (.queryPoint tag (be16 n.val)) s = .next (u.replyDone 0x28 tag
      (be16 n.val ++ [flagByte p.configured, byte p.area.val, byte p.priority.num] ++ p.states
      ++ [bits p.shelved p.outOfService p.hidden p.postTrip, byte p.occurrences]
      ++ (match p.raiseSeq with | some x => 1 :: be48 x | none => List.replicate 7 0)
      ++ (match p.raisedAt with | some x => 1 :: be32 x | none => List.replicate 5 0)
      ++ (match p.acked with | some x => 1 :: be16 x.operator ++ be32 x.time | none => List.replicate 7 0)
      ++ be48 u.raiseCounter ++ byte p.suppression.length :: p.suppression.map fun c => byte (c.val + 1)))) ∧
  (∀ (tag : Byte) (s u : State), s.take { kind := 0x01, tag, payload := [] } = some u →
    ∃ rev : Byte, rev ≠ 0 ∧ exec (.identify tag []) s = .next (u.replyDone 0x01 tag
      (be16 4120 ++ [rev, (if u.mode = .run then 1 else 0), (if u.link.slow then 1 else 0)] ++ be32 u.clock.count
      ++ be16 2048 ++ [128, 8, 32, 128, 15] ++ be16 512 ++ be16 1024 ++ [64] ++ be16 256 ++ [64]))) ∧
  (∀ (tag : Byte) (area : Option AreaNo) (first : PointNo) (s u : State),
    let q := selector area :: be16 first.val
    s.take { kind := 0x29, tag, payload := q } = some u →
    let listed := ((List.finRange 2048).filter fun n =>
      let p := u.point n
      first ≤ n && p.configured && (p.condition == .active || p.ann == .faded) && (area == none || area == some p.area)).take 40
    let next := match listed.getLast? with
      | some n => if listed.length < 40 ∨ n = 2047 then 0xFFFF else n.val + 1
      | none => 0xFFFF
    exec (.listStanding tag q) s = .next (u.replyDone 0x29 tag (byte listed.length ::
      listed.flatMap (fun n =>
        let p := u.point n
        be16 n.val ++ byte p.priority.num :: p.states ++ [bits p.shelved p.outOfService (p.suppression != []) p.postTrip])
      ++ be16 next))) ∧
  (∀ (tag : Byte) (area : Option AreaNo) (first : Nat) (s u : State), first ≤ 127 → s.ShelvesSound →
    let q := [selector area, byte first]
    s.take { kind := 0x2C, tag, payload := q } = some u →
    let chosen := u.shelves.zipIdx.filter fun x => area == none || area == some x.1.area
    let listed := (chosen.filter fun x => first ≤ x.2).take 15
    let next : Byte := match listed.getLast? with
      | some x => if chosen.any fun y => x.2 < y.2 then byte (x.2 + 1) else 0xFF
      | none => 0xFF
    exec (.listShelves tag q) s = .next (u.replyDone 0x2C tag
      ([byte chosen.length, byte u.shelves.length, byte listed.length]
      ++ listed.flatMap (fun x =>
        byte x.2 :: be16 x.1.point.val ++ byte x.1.area.val :: be16 x.1.operator ++ byte x.1.console.val :: be32 x.1.start
        ++ (match x.1.ending with | .minutes d => 0 :: be32 d.time | .shifts k => 1 :: be32 k))
      ++ [next]))) ∧
  ∀ (tag : Byte) (a : AreaNo) (posted : Bool) (first : Nat) (items : List (SlotNo × Item)) (s u : State), first ≤ 31 →
    let q := [byte a.val, flagByte posted, byte first]
    s.take { kind := 0x2F, tag, payload := q } = some u →
    let r := u.area a
    (if posted then r.posted.items else r.draft.items) = items.map Prod.fst → (∀ x ∈ items, u.item x.1 = some x.2) →
    let captured := items.countP fun x => 3 ≤ x.2.kind.wire.1.toNat
    let own : List Byte :=
      if posted then
        [byte (items.length - captured), byte captured]
        ++ (match r.posted.posting with
          | some g => 1 :: be16 g.shift ++ byte g.crew.code :: be32 g.time ++ 1 :: g.summary.wire
          | none => List.replicate 39 0)
        ++ [byte (items.countP fun x => x.2.reviewed = none)]
      else
        [(match r.draft.lock with | some c => byte c.val | none => 0xFF), flagByte (r.draft.commit != none),
          (match r.draft.commit with | some k => byte k.code | none => 0xFF), flagByte r.draft.poolShort]
    let listed := ((items.drop first).take 7).zipIdx first
    exec (.readSheet tag q) s = .next (u.replyDone 0x2F tag
      ([flagByte r.config.configured, byte r.config.posting.code, flagByte posted] ++ be16 u.freeCount
      ++ byte items.length :: own ++ byte listed.length :: listed.flatMap (fun x => x.1.2.wire x.2 x.1.1)
      ++ [if items.length ≤ first + 7 then 0xFF else byte (first + 7)]))

/-- The replies of QUERY_METERS (R99), QUERY_TRIP (R107), QUERY_CONSOLE and QUERY_OPERATOR (R48) and QUERY_HANDOVER (R157)
carry the fields of their rules in their order; a number outside the roster is NO_SUCH. How fields that may be absent, the
suspension set and the abort record's first reason are sent is the model's reading (log entry 9). -/
def Obligations.BlockQueriesReportState : Prop :=
  (∀ (tag : Byte) (first count : Nat) (s u : State), 1 ≤ count → count ≤ 16 → first + count ≤ 32 →
    let q := [byte first, byte count]
    s.take { kind := 0x2D, tag, payload := q } = some u →
    exec (.queryMeters tag q) s = .next (u.replyDone 0x2D tag
      (((List.finRange 32).filter fun a => first ≤ a.val && a.val < first + count).flatMap fun a =>
        let r := u.area a
        [byte a.val, flagByte r.config.configured] ++ be16 r.meter ++ [flagByte r.flooded, byte r.config.decay]
        ++ be16 r.config.floodOn ++ be16 r.config.floodOff))) ∧
  (∀ (tag : Byte) (k : TripNo) (s u : State), s.take { kind := 0x2E, tag, payload := [byte (k.val + 1)] } = some u →
    let r := u.code k
    exec (.queryTrip tag [byte (k.val + 1)]) s = .next (u.replyDone 0x2E tag
      (flagByte r.configured :: be16 r.start.val ++ be32 r.areas.toNat ++ be16 r.holdTime
      ++ (match r.state with
        | .idle => List.replicate 14 0
        | .running e d => 1 :: 1 :: be16 e.val ++ u.left d ++ u.left none
        | .holding d => 2 :: [0, 0, 0] ++ u.left none ++ u.left d)
      ++ (match r.takenAt with | some x => 1 :: be32 x | none => List.replicate 5 0)
      ++ be16 r.suppressed ++ [flagByte r.faulted]))) ∧
  (∀ (tag : Byte) (running : Option TripNo) (s u : State), s.take { kind := 0x2E, tag, payload := [0] } = some u →
    (∀ c, (u.code c).state.isRunning ↔ running = some c) →
    let code (x : Option TripNo) : Byte := match x with | some c => byte (c.val + 1) | none => 0xFF
    exec (.queryTrip tag [0]) s = .next (u.replyDone 0x2E tag
      (byte u.trip.lines.val ::
      (match u.trip.qualifier with
        | .settling _ => [0, 0xFF]
        | .ready => [1, 0xFF]
        | .qualifying c => [2, code (some c)])
      ++ [flagByte u.trip.latch, code running, code u.trip.pending]
      ++ be16 u.settings.tripQualify ++ be16 u.settings.tripRelease))) ∧
  (∀ (tag : Byte) (c : ConsoleNo) (routed : BitVec 32) (s u : State),
    s.take { kind := 0x2A, tag, payload := [byte c.val] } = some u →
    (∀ a : AreaNo, routed.getLsbD a.val = u.routes c a) →
    let r := u.console c
    exec (.queryConsole tag [byte c.val]) s = .next (u.replyDone 0x2A tag
      ([flagByte r.config.configured, byte r.config.routing.value.toNat, byte r.config.routing.mask.toNat,
        (match r.config.fallback with | some d => byte d.val | none => 0xFF)]
      ++ (match r.seat with
        | .vacant => 0 :: [0, 0, 0] ++ u.left none
        | .seated n d => 1 :: 1 :: be16 n ++ u.left d
        | .absent n => 2 :: 1 :: be16 n ++ u.left none)
      ++ be32 routed.toNat ++ be48 r.generalMark ++ be48 r.p1Mark))) ∧
  (∀ (tag : Byte) (uncovered : BitVec 32) (s u : State), s.take { kind := 0x2A, tag, payload := [0xFF] } = some u →
    (∀ a : AreaNo, uncovered.getLsbD a.val = ((u.area a).config.configured && !(u.area a).covered)) →
    exec (.queryConsole tag [0xFF]) s = .next (u.replyDone 0x2A tag
      (be48 u.room.mark ++ (match u.room.horn with | .off => 0 | .cadence q => byte q.num) :: be32 uncovered.toNat))) ∧
  (∀ (tag : Byte) (n : Nat) (s u : State), 1 ≤ n → n ≤ 9999 →
    s.take { kind := 0x2B, tag, payload := be16 n } = some u →
    (u.operator? n = none → exec (.queryOperator tag (be16 n)) s = .next (u.send (replyFrame 0x2B tag .noSuch []))) ∧
    ∀ o, u.operator? n = some o → exec (.queryOperator tag (be16 n)) s = .next (u.replyDone 0x2B tag
      (be16 n ++ [byte o.crew.code, byte o.role.code, byte o.quals.length]
      ++ o.quals.flatMap (fun q => [byte q.value.toNat, byte q.mask.toNat])
      ++ [match o.seat with | some c => byte c.val | none => 0xFF]))) ∧
  (∀ (tag : Byte) (s u : State), s.take { kind := 0x30, tag, payload := [0xFF] } = some u →
    exec (.queryHandover tag [0xFF]) s = .next (u.replyDone 0x30 tag
      (be16 u.mill.shift ++ byte u.mill.duty.code ::
      (match u.mill.incoming with | some k => [1, byte k.code] | none => [0, 0xFF]) ++ [byte u.mill.outstanding]))) ∧
  ∀ (tag : Byte) (a : AreaNo) (s u : State), s.take { kind := 0x30, tag, payload := [byte a.val] } = some u →
    let r := u.area a
    let at_ (p : Position) : List Byte := [1, byte p.index.val, 1, byte p.ordinal, 1, byte (u.stepEntry p.index).kind.code]
    let saved (x : Option Nat) : List Byte := match x with | some n => 1 :: be32 n | none => List.replicate 5 0
    let bit (b : Bool) (n : Nat) : Nat := if b then n else 0
    exec (.queryHandover tag [byte a.val]) s = .next (u.replyDone 0x30 tag
      ([flagByte r.config.configured, byte r.config.start.val, byte r.duty.code]
      ++ (match r.handover with
        | .steady => List.replicate 18 0
        | .running p x y => 1 :: at_ p ++ u.left x ++ u.left y ++ [0]
        | .suspended p x y z => 2 :: at_ p ++ saved x ++ saved y
            ++ [byte (bit z.p1 1 + bit z.flood 2 + bit z.trip 4 + bit z.request 8)]
        | .halted p => 3 :: at_ p ++ List.replicate 11 0
        | .done p => 4 :: at_ p ++ List.replicate 11 0)
      ++ (match r.abort with
        | some x => [1, (match x.reason with | .stepTimeout => 1 | .hostAbort => 2), byte x.ordinal] ++ be32 x.time
            ++ [flagByte x.further]
        | none => List.replicate 8 0)))

/-! ### Operators, consoles and seating (chapter 2) -/

/-- LOAD_OPERATOR adds a record where the number is new and the roster has room, and replaces the record with the number
where there is one; in RUN a seated operator's record is not replaced (R26). With the remove flag set it takes the record with
the number from the roster (R27). The order of the records, and which payloads carry the flag, are the model's choices (log
entries 18 and 14). -/
def Obligations.OperatorRecordsComeAndGo : Prop :=
  (∀ (tag : Byte) (o : Operator) (s u : State), 1 ≤ o.number → o.number ≤ 9999 → 1 ≤ o.quals.length →
    o.quals.length ≤ 4 → o.seat = none →
    let p := be16 o.number ++ [byte o.crew.code, byte o.role.code, byte o.quals.length]
      ++ o.quals.flatMap (fun q => [byte q.value.toNat, byte q.mask.toNat]) ++ [0]
    s.take { kind := 0x13, tag, payload := p } = some u →
    exec (.loadOperator tag p) s = .next
      (if u.mode = .run ∧ (∃ r ∈ u.operator? o.number, r.seat.isSome) then u.send (replyFrame 0x13 tag .wrongState [])
       else if (u.operator? o.number).isSome then
        State.replyDone 0x13 tag [] { u with roster := u.roster.map fun r => if r.number = o.number then o else r }
       else if 128 ≤ u.roster.length then u.send (replyFrame 0x13 tag .limit [])
       else State.replyDone 0x13 tag [] { u with roster := u.roster ++ [o] })) ∧
  ∀ (tag : Byte) (n : Nat) (rest : List Byte) (s u : State), 1 ≤ n → n ≤ 9999 → 5 ≤ rest.length → rest.length ≤ 11 →
    let p := be16 n ++ rest ++ [1]
    s.take { kind := 0x13, tag, payload := p } = some u →
    exec (.loadOperatorRemove tag p) s = .next
      (if u.operator? n = none then u.send (replyFrame 0x13 tag .noSuch [])
       else if u.mode = .run ∧ (∃ r ∈ u.operator? n, r.seat.isSome) then u.send (replyFrame 0x13 tag .wrongState [])
       else State.replyDone 0x13 tag [] { u with roster := u.roster.filter fun r => r.number ≠ n })

/-- The loads of one record store it whole: a row of the role table (R28), a console's four fields (R29), an area's
configuration (R173), a standing order (R123), with at most 8 defined orders of an area. -/
def Obligations.SingleLoadsStoreRecord : Prop :=
  (∀ (tag : Byte) (r : Role) (row : Vector Bool 9) (s u : State),
    let p := byte r.code :: row.toList.map flagByte
    s.take { kind := 0x14, tag, payload := p } = some u → u.mode = .config →
    exec (.loadRole tag p) s = .next (State.replyDone 0x14 tag [] { u with roles := u.roles.set r.index row })) ∧
  (∀ (tag : Byte) (c : ConsoleNo) (x : ConsoleConfig) (s u : State),
    let p := [byte c.val, flagByte x.configured, byte x.routing.value.toNat, byte x.routing.mask.toNat,
      match x.fallback with | some d => byte d.val | none => 0xFF]
    s.take { kind := 0x12, tag, payload := p } = some u → u.mode = .config →
    exec (.loadConsole tag p) s = .next (State.replyDone 0x12 tag [] (u.modConsole c fun r => { r with config := x }))) ∧
  (∀ (tag : Byte) (a : AreaNo) (x : AreaConfig) (s u : State), 1 ≤ x.decay → x.decay ≤ 64 → 512 ≤ x.floodOn →
    x.floodOn ≤ 65535 → x.floodOff + 256 ≤ x.floodOn →
    let p := [byte a.val, flagByte x.configured, byte x.start.val, byte x.posting.code, byte x.decay]
      ++ be16 x.floodOn ++ be16 x.floodOff
    s.take { kind := 0x11, tag, payload := p } = some u → u.mode = .config →
    exec (.loadArea tag p) s = .next (State.replyDone 0x11 tag [] (u.modArea a fun r => { r with config := x }))) ∧
  ∀ (tag : Byte) (i : OrderNo) (x : Order) (s u : State), x.ref < 4294967296 →
    let p := [byte i.val, flagByte x.defined, byte x.area.val] ++ be32 x.ref
      ++ [x.rotationValue, x.rotationMask, flagByte x.enabled]
    s.take { kind := 0x18, tag, payload := p } = some u → u.mode = .config →
    exec (.loadOrder tag p) s = .next
      (if x.defined ∧ 8 ≤ (List.finRange 64).countP fun j =>
          j ≠ i ∧ u.orders[j].defined ∧ u.orders[j].area = x.area then
        u.send (replyFrame 0x18 tag .limit [])
       else State.replyDone 0x18 tag [] { u with orders := u.orders.set i x })

/-- SIGN_ON seats an operator of the right crew, or a SUPERVISOR, at a VACANT configured console, with its presence timer
started (R31, R32). -/
def Obligations.SignOnSeatsOperator : Prop :=
  ∀ (tag : Byte) (c : ConsoleNo) (n : Nat) (o : Operator) (s u : State), 1 ≤ n → n ≤ 9999 →
    let p := byte c.val :: be16 n
    s.take { kind := 0x40, tag, payload := p } = some u → u.mode = .run → (u.console c).config.configured →
    (u.console c).seat = .vacant → u.operator? n = some o → o.seat = none →
    o.role = .supervisor ∨ o.crew = u.mill.duty ∨ u.mill.incoming = some o.crew →
    ∃ t : State, exec (.signOn tag p) s = .next (t.replyDone 0x40 tag []) ∧
      let deadline := if u.settings.presenceTimeout = 0 then none else some (u.deadlineIn u.settings.presenceTimeout)
      State.Settles ((u.modConsole c fun r => { r with seat := .seated n deadline }).modOperator n
        fun r => { r with seat := some c }) t

/-- SIGN_OFF, from the host or from the console, takes a configured console that is not VACANT to VACANT: its operator is
seated nowhere, its marks are 0, its re-sound deadline is absent and its locks are released (R33, R34). -/
def Obligations.SignOffVacatesConsole : Prop :=
  ∀ (tag : Byte) (c : ConsoleNo) (n : Nat) (p : List Byte) (s u : State),
    (p = [0xFF, byte c.val] ∧ s.take { kind := 0x41, tag, payload := p } = some u) ∨
      (p = [byte c.val, byte c.val] ∧ s.takesAt c { kind := 0x41, tag, payload := p } = some u) →
    u.mode = .run → (u.console c).config.configured → (u.console c).seat.operator? = some n →
    ∃ t : State, exec (.signOff tag p) s = .next (t.replyDone 0x41 tag []) ∧
      let areas := u.areas.map fun r =>
        if r.draft.lock = some c then { r with draft := { r.draft with lock := none } } else r
      State.Settles ((State.modOperator n (fun r => { r with seat := none }) { u with areas }).modConsole c fun r =>
        { r with seat := .vacant, generalMark := 0, p1Mark := 0, resound := none }) t ∧
      ∀ a, (t.area a).draft.lock ≠ some c

/-- At its presence deadline a SEATED console becomes ABSENT, its operator kept and the deadline absent, and
CONSOLE_ABSENT is queued before every other notice that the event adds to the queue, where a BANNER merged into a record that
stands there already is not added (R36, R168). -/
def Obligations.PresenceDeadlineMakesAbsent : Prop :=
  ∀ (c : ConsoleNo) (n : Nat) (d : Deadline) (s : State), (s.console c).seat = .seated n (some d) →
    d.time ≤ s.clock.count → d.since ≤ s.clock.timebase →
    ∃ t : State, exec (.presenceDeadline c) s = .next t ∧
      State.Settles ((s.modConsole c fun r => { r with seat := .absent n }).notify (.consoleAbsent c)) t

/-- The permission check of a point target refuses by its first failing step (R40, R41), and a refused ACK changes nothing
but by its activity. ACK_HEAD with an expected point is refused with HEAD_MOVED where the banner is none or, after the whole
permission check, another point; without one, an empty order gives WRONG_STATE (R73). -/
def Obligations.AckRefusedByFirstFailingCheck : Prop :=
  (∀ (tag : Byte) (c : ConsoleNo) (n : PointNo) (s u : State),
    let p := byte c.val :: be16 n.val
    s.takesAt c { kind := 0x43, tag, payload := p } = some u → u.mode = .run →
    let refusedWith (x : Status) := exec (.ack tag p) s = .next (u.send (replyFrame 0x43 tag x []))
    let q := u.point n
    ((u.console c).config.configured = false → refusedWith .noSuch) ∧
    ((u.console c).config.configured → (u.console c).seat = .vacant → refusedWith .notSeated) ∧
    ∀ k o, (u.console c).config.configured → (u.console c).seat.operator? = some k → u.operator? k = some o →
      ((u.roles[o.role.index])[ActionClass.ack.index] = false → refusedWith .notPermitted) ∧
      ((u.roles[o.role.index])[ActionClass.ack.index] →
        (u.exists? q = false → refusedWith .noSuch) ∧
        (u.exists? q → u.routes c q.area = false → refusedWith .notRouted) ∧
        (u.exists? q → u.routes c q.area → o.qualified q.area = false → refusedWith .notQualified) ∧
        (u.exists? q → u.routes c q.area → o.qualified q.area → u.dutyAck o.crew q.area = false →
          refusedWith .notOnDuty) ∧
        (u.exists? q → u.routes c q.area → o.qualified q.area → u.dutyAck o.crew q.area →
          (q.hidden → refusedWith .wrongState) ∧
          (q.hidden = false → q.ann = .acked ∨ q.ann = .normal → refusedWith .already)))) ∧
  ∀ (tag : Byte) (c : ConsoleNo) (n : PointNo) (o : Operator) (s u : State), u.mode = .run → u.actor c .ack = .ok o →
    (s.takesAt c { kind := 0x44, tag, payload := byte c.val :: be16 n.val } = some u →
      u.bannerOf c = none ∨ (∃ m, u.bannerOf c = some m ∧ m ≠ n ∧ u.permitBanner c m o = .ok o) →
      exec (.ackHead tag (byte c.val :: be16 n.val)) s = .next (u.send (replyFrame 0x44 tag .headMoved []))) ∧
    (s.takesAt c { kind := 0x44, tag, payload := [byte c.val, 0xFF, 0xFF] } = some u → u.bannerOf c = none →
      exec (.ackHead tag [byte c.val, 0xFF, 0xFF]) s = .next (u.send (replyFrame 0x44 tag .wrongState [])))

/-! ### Annunciation and console lines (chapter 3) -/

/-- SILENCE sets both marks of the console to the raise sequence counter, sets its P1 re-sound deadline while an unhidden NEW
point of priority 1 is routed there and else cancels it, and with the room flag sets the room mark (R47, R59). At a reached
re-sound deadline the P1 mark falls to 0 and the deadline is gone (R61). Horns, beacons and the room horn follow; every other
console keeps its marks (R53), and nothing else changes but for SILENCED in the queue. -/
def Obligations.SilenceSetsMarks : Prop :=
  (∀ (tag : Byte) (c : ConsoleNo) (room : Bool) (o : Operator) (s u : State),
    let p := [byte c.val, flagByte room]
    s.takesAt c { kind := 0x42, tag, payload := p } = some u → u.mode = .run → u.permitSilence c = .ok o →
    ∃ t : State, exec (.silence tag p) s = .next (t.replyDone 0x42 tag []) ∧
      u.SilencedTo c (if room then .room else .request) t) ∧
  ∀ (c : ConsoleNo) (d : Deadline) (s : State), (s.console c).resound = some d → d.time ≤ s.clock.count →
    d.since ≤ s.clock.timebase →
    ∃ t : State, exec (.p1ResoundDeadline c) s = .next t ∧
      (∀ b, t.console b = { s.console b with
        p1Mark := if b = c then 0 else (s.console b).p1Mark
        resound := if b = c then none else (s.console b).resound
        horn := t.hornOf b, beacon := t.beaconOf b }) ∧
      t.room = { s.room with horn := t.roomHornOf } ∧ t = { s with consoles := t.consoles, room := t.room }

/-- A key's qualifier follows its contact and its release and stuck timers (R64 to R66), and the trip line qualifier the
lines and its release timer (R101). In CONFIG each stays as it is (R69, R102). Nothing else changes but for KEY_STUCK in the
queue. -/
def Obligations.QualifiersFollowContactsAndLines : Prop :=
  (∀ (c : ConsoleNo) (k : KeyName) (closed : Bool) (s : State), ((s.console c).key k).closed ≠ closed →
    let x := ((s.console c).key k).state
    let y : KeyState := if s.mode = .config then x else if closed then
        (match x with | .idle => .pressing | .releasing => .held | .stuck _ => .stuck false | _ => x)
      else (match x with | .pressing => .idle | .held => .releasing | .stuck _ => .stuck true | _ => x)
    exec (.keyContactChange c k closed) s = .next (s.setKey c k { closed, state := y })) ∧
  (∀ (c : ConsoleNo) (k : KeyName) (s : State),
    ((s.console c).key k).state = .releasing ∨ ((s.console c).key k).state = .stuck true →
    exec (.keyReleaseTimerExpiry c k) s = .next (s.setKey c k { (s.console c).key k with state := .idle })) ∧
  (∀ (c : ConsoleNo) (k : KeyName) (s : State), ((s.console c).key k).state = .held →
    exec (.stuckTimerExpiry c k) s = .next
      ((s.setKey c k { (s.console c).key k with state := .stuck false }).notify (.keyStuck c k))) ∧
  (∀ (lines : Fin 16) (k : Option TripNo) (s : State), s.trip.lines ≠ lines →
    lines.val = (match k with | none => 0 | some c => c.val + 1) →
    exec (.tripLinesChange lines) s = .next (s.modTrip fun x => { x with
      lines
      qualifier := if s.mode = .config then s.trip.qualifier else
        match s.trip.qualifier, k with
        | .settling _, none => .settling true
        | .settling _, some _ => .settling false
        | .ready, none => .ready
        | .ready, some c => .qualifying c
        | .qualifying _, none => .ready
        | .qualifying _, some c => .qualifying c })) ∧
  ∀ s : State, s.trip.qualifier = .settling true →
    exec .tripReleaseTimerExpiry s = .next (s.modTrip fun x => { x with qualifier := .ready })

/-- A key that qualifies enters HELD, is activity at its console, and acts (R67): the acknowledge key acknowledges the
banner, and KEY_ACK is queued once the acknowledgement has settled, its banners compared (R75), before the sheet store's pass
(the model's choice, log entry 11), which finds nothing where no draft waits committed; the silence key silences the console
(R58); a press that any step of its check refuses, or that finds no banner, gives KEY_REFUSED with the reason and changes
nothing else (R43, R75). -/
def Obligations.QualifiedPressActs : Prop :=
  ∀ (c : ConsoleNo) (s u : State), s.mode = .run →
    ((s.console c).ackKey.state = .pressing →
      (s.setKey c .ack { (s.console c).ackKey with state := .held }).activity c = u →
      (∀ o n, u.actor c .ack = .ok o → u.bannerOf c = some n → u.permitBanner c n o = .ok o →
        ∃ v t : State, exec (.keyQualifyTimerExpiry c .ack) s = .next t ∧
          (u.setPoint n { u.point n with
            ann := (u.point n).ann.acknowledged, acked := some ⟨o.number, u.now⟩, postTrip := false }).Settles v ∧
          (∀ b, (v.console b).head = v.bannerOf b) ∧ (v.notify (.keyAck c n o.number)).Settles t ∧
          (u.noCommits → t = v.notify (.keyAck c n o.number))) ∧
      (∀ o n x, u.actor c .ack = .ok o → u.bannerOf c = some n → u.permitBanner c n o = .error x →
        exec (.keyQualifyTimerExpiry c .ack) s = .next (u.notify (.keyRefused c .ack x))) ∧
      (∀ x, u.actor c .ack = .error x →
        exec (.keyQualifyTimerExpiry c .ack) s = .next (u.notify (.keyRefused c .ack x))) ∧
      (∀ o, u.actor c .ack = .ok o → u.bannerOf c = none →
        exec (.keyQualifyTimerExpiry c .ack) s = .next (u.notify (.keyRefused c .ack .wrongState)))) ∧
    ((s.console c).silenceKey.state = .pressing →
      (s.setKey c .silence { (s.console c).silenceKey with state := .held }).activity c = u →
      (∀ o, u.permitSilence c = .ok o → ∃ t : State, exec (.keyQualifyTimerExpiry c .silence) s = .next t ∧
        u.SilencedTo c .key t) ∧
      (∀ x, u.permitSilence c = .error x →
        exec (.keyQualifyTimerExpiry c .silence) s = .next (u.notify (.keyRefused c .silence x))))

/-! ### Acknowledgement and shelving (chapter 4) -/

/-- An acknowledgement takes an unhidden point from NEW to ACKED and from FADED to NORMAL, records the operator and the
time, and clears the post-trip mark (R71); ACK names the point (R72), ACK_HEAD takes the console's banner (R73), and the
reply carries the point and its state. -/
def Obligations.AckAcknowledgesPoint : Prop :=
  ∀ (tag : Byte) (c : ConsoleNo) (n : PointNo) (o : Operator) (s u : State), u.mode = .run →
    let after : Annunciation := if (u.point n).ann = .new then .acked else .normal
    let d := u.setPoint n { u.point n with ann := after, acked := some ⟨o.number, u.now⟩, postTrip := false }
    let data := be16 n.val ++ [byte after.code]
    (s.takesAt c { kind := 0x43, tag, payload := byte c.val :: be16 n.val } = some u →
      u.permitPoint c .ack n true = .ok o → (u.point n).hidden = false →
      (u.point n).ann = .new ∨ (u.point n).ann = .faded →
      ∃ t : State, exec (.ack tag (byte c.val :: be16 n.val)) s = .next (t.replyDone 0x43 tag data) ∧ d.Settles t) ∧
    ∀ expected, expected = be16 n.val ∨ expected = be16 0xFFFF →
      s.takesAt c { kind := 0x44, tag, payload := byte c.val :: expected } = some u →
      u.bannerOf c = some n → u.actor c .ack = .ok o → u.permitBanner c n o = .ok o →
      ∃ t : State, exec (.ackHead tag (byte c.val :: expected)) s = .next (t.replyDone 0x44 tag data) ∧ d.Settles t

/-- ACK_AREA acknowledges every existing unhidden NEW or FADED point of the area whose priority number is at least the
limit, and no other, and reports how many (R74). -/
def Obligations.AckAreaAcknowledgesSelection : Prop :=
  ∀ (tag : Byte) (c : ConsoleNo) (a : AreaNo) (limit : Nat) (o : Operator) (s u : State), 2 ≤ limit → limit ≤ 4 →
    let p := [byte c.val, byte a.val, byte limit]
    s.takesAt c { kind := 0x45, tag, payload := p } = some u → u.mode = .run →
    u.permitArea c .ack a true true = .ok o →
    let chosen (n : PointNo) : Bool := u.exists? (u.point n) && (u.point n).area == a && !(u.point n).hidden
      && ((u.point n).ann == .new || (u.point n).ann == .faded) && limit ≤ (u.point n).priority.num
    ∃ (t : State) (points : Vector Point 2048), exec (.ackArea tag p) s
        = .next (t.replyDone 0x45 tag (be16 ((List.finRange 2048).countP chosen))) ∧
      State.Settles { u with points } t ∧
      t.points = points ∧ t.shelves = u.shelves ∧ t.areas = u.areas ∧ t.mill = u.mill ∧
      ∀ n : PointNo, points[n] = if chosen n then
        { u.point n with
          ann := if (u.point n).ann = .new then .acked else .normal
          acked := some ⟨o.number, u.now⟩, postTrip := false } else u.point n

/-- SHELVE of a point that is not priority 1, not shelved and not out of service, in an area that no running trip covers
and with room in both bounds, adds its record at the end of the list, counts it in its area and hides the point (R80 to R82,
R14). A shelf's end, by UNSHELVE or at its expiry time (R83, R84): its record leaves the list, its area counts one shelf less,
and the shelved reason leaves the point, which becomes NEW where it is ACTIVE and nothing else hides it (R15); the expiry
queues SHELF_EXPIRED before every other notice that its event adds to the queue. While no draft waits committed the list, the
points and the areas are then as the owner left them, after a shelf's end for a point that is not of priority 1 (R81 shelves
no other); else a shift change in the sheet store's pass may end SHIFTS shelves as R85 says. The widths of the value and of
the reply's data are the model's reading (log entry 9). -/
def Obligations.ShelfHidesAndBringsBack : Prop :=
  let stands (d t : State) := t.points = d.points ∧ t.shelves = d.shelves ∧ t.areas = d.areas ∧ t.mill = d.mill
  (∀ (tag : Byte) (c : ConsoleNo) (n : PointNo) (minutes : Bool) (v : Nat) (o : Operator) (s u : State),
    1 ≤ v → v ≤ (if minutes then 720 else 3) →
    let p := byte c.val :: be16 n.val ++ [if minutes then 0 else 1] ++ be16 v
    s.takesAt c { kind := 0x46, tag, payload := p } = some u → u.mode = .run →
    u.permitPoint c .shelve n false = .ok o →
    let q := u.point n
    q.priority ≠ .p1 → u.tripCovers q.area = false → q.outOfService = false → q.shelved = false →
    (u.area q.area).shelvedCount < 8 → u.shelves.length < 128 →
    let ending := if minutes then ShelfEnd.minutes (u.deadlineIn (60 * v)) else .shifts v
    let r : Shelf := { point := n, area := q.area, operator := o.number, console := c, start := u.now, ending }
    let d := ({ u with shelves := u.shelves ++ [r] }.modArea q.area fun x =>
      { x with shelvedCount := x.shelvedCount + 1 }).setPoint n
        { q with shelved := true, ann := if q.hidden then q.ann else .normal
                 postTrip := if q.hidden then q.postTrip else false }
    ∃ t : State, exec (.shelve tag p) s = .next (t.replyDone 0x46 tag
        (be32 (if minutes then min (u.now + 60 * v) 4294967295 else v))) ∧
      d.Settles t ∧ (u.noCommits → stands d t)) ∧
  (∀ (tag : Byte) (c : ConsoleNo) (n : PointNo) (r : Shelf) (o : Operator) (s u : State),
    let p := byte c.val :: be16 n.val
    s.takesAt c { kind := 0x47, tag, payload := p } = some u → u.mode = .run →
    u.permitPoint c .shelve n false = .ok o → u.tripCovers (u.point n).area = false → u.shelfOf? n = some r →
    ∃ t : State, exec (.unshelve tag p) s = .next (t.replyDone 0x47 tag []) ∧ (u.unshelved n r).Settles t ∧
      (u.noCommits → (u.point n).priority ≠ .p1 → stands (u.unshelved n r) t)) ∧
  ∀ (n : PointNo) (r : Shelf) (s : State) (e : Deadline), s.shelfOf? n = some r → r.ending = .minutes e →
    e.time ≤ s.clock.count → e.since ≤ s.clock.timebase →
    ∃ t : State, exec (.shelfExpired n) s = .next t ∧ ((s.unshelved n r).notify (.shelfExpired n)).Settles t ∧
      (s.noCommits → (s.point n).priority ≠ .p1 → stands (s.unshelved n r) t)

/-! ### Trip response (chapter 6) -/

/-- LOAD_TRIP_CODE stores a code's configuration, its hold time clamped to 1440 minutes with the flag (R105), and
LOAD_TRIP_ENTRIES a run of entries (R106); both are refused with BUSY in RUN while a code runs or holds. CLEAR_TRIP_FAULT
clears a set latch and is answered ALREADY of a clear one (R115). LOAD_STEPS stores a run of steps (R141). A load of a run
clamps its timing fields and leaves every other entry. That a load's flag byte is sent as 0 where nothing was clamped, and
the bytes of a carried trip entry, are the model's reading (log entry 9). -/
def Obligations.TripAndStepTablesLoad : Prop :=
  (∀ (tag : Byte) (k : TripNo) (configured : Bool) (start : EntryNo) (areas : BitVec 32) (hold : Nat) (s u : State),
    hold ≤ 65535 →
    let p := [byte (k.val + 1), flagByte configured] ++ be16 start.val ++ be32 areas.toNat ++ be16 hold
    s.take { kind := 0x16, tag, payload := p } = some u →
    exec (.loadTripCode tag p) s = .next
      (if u.mode = .run ∧ ∃ c : TripNo, (u.code c).state ≠ .idle then u.send (replyFrame 0x16 tag .busy [])
       else (u.modCode k fun r => { r with configured, start, areas, holdTime := min hold 1440 }).replyDone 0x16 tag
        [if 1440 < hold then 1 else 0])) ∧
  (∀ (tag : Byte) (s u : State), s.take { kind := 0x60, tag, payload := [] } = some u →
    exec (.clearTripFault tag []) s = .next
      (if u.trip.latch then (u.modTrip fun x => { x with latch := false }).replyDone 0x60 tag []
       else u.send (replyFrame 0x60 tag .already []))) ∧
  (∀ (tag : Byte) (first : Nat) (es : List StepEntry) (s u : State), 1 ≤ es.length → es.length ≤ 16 →
    first + es.length ≤ 256 → (∀ e ∈ es, e.parameter ≤ 65535 ∧ e.timeout ≤ 65535) →
    let p := byte first :: byte es.length :: es.flatMap StepEntry.wire
    s.take { kind := 0x15, tag, payload := p } = some u → u.mode = .config →
    ∃ (steps : Vector StepEntry 256) (flag : Bool),
      exec (.loadSteps tag p) s = .next (State.replyDone 0x15 tag [flagByte flag] { u with steps }) ∧
      (flag ↔ ∃ e ∈ es, e.stored.timeout ≠ e.timeout ∨ (e.kind = .hold ∧ e.stored.parameter ≠ e.parameter)) ∧
      ∀ i : StepNo, steps[i] = match if first ≤ i.val then es[i.val - first]? else none with
        | some e => e.stored
        | none => u.stepEntry i) ∧
  ∀ (tag : Byte) (first : Nat) (es : List TripEntry) (s u : State), 1 ≤ es.length → es.length ≤ 20 →
    first + es.length ≤ 512 → (∀ e ∈ es, e.inRange) →
    let p := be16 first ++ byte es.length :: es.flatMap TripEntry.wire
    s.take { kind := 0x17, tag, payload := p } = some u →
    (u.mode = .run ∧ (∃ c : TripNo, (u.code c).state ≠ .idle) →
      exec (.loadTripEntries tag p) s = .next (u.send (replyFrame 0x17 tag .busy []))) ∧
    (u.mode = .config ∨ (∀ c, (u.code c).state = .idle) →
      ∃ (store : Vector TripEntry 512) (flag : Bool),
        exec (.loadTripEntries tag p) s
          = .next ((u.modTrip fun x => { x with store }).replyDone 0x17 tag [flagByte flag]) ∧
        (flag ↔ ∃ e ∈ es, e.stored ≠ e) ∧
        ∀ i : EntryNo, store[i] = match if first ≤ i.val then es[i.val - first]? else none with
          | some e => e.stored
          | none => u.tripEntry i)

/-- A code that qualifies is delivered (R101, R108): dropped while the latch is set or where it is unconfigured, ignored
while it runs, pended or dropped while another runs, and else it starts a run (R109), which is processed from the code's start
entry on (R110): it waits at a WAIT entry (R111), and wherever `State.RunsTo` says that the processing ends, over GROUP entries
with their members, TRIP_STEP and TRIP_DONE, a WAIT entry or a fault, there it ends, and a pending code is then taken as `State.PendingTaken`
says: its slot is emptied and its own run started and processed. TRIP_STEP for a complete GROUP at entry 511 that runs on past
the store is the model's choice (log entry 26). -/
def Obligations.DeliveredCodeIsTaken : Prop :=
  ∀ (k : TripNo) (s : State), s.trip.qualifier = .qualifying k →
    let u := s.modTrip fun x => { x with qualifier := .settling false }
    let after (d : State) := ∃ t : State, exec .tripQualifyTimerExpiry s = .next t ∧ d.Settles t
    (s.trip.latch → after (u.notify (.tripDropped k .faultLatched))) ∧
    (s.trip.latch = false → (s.code k).configured = false → after (u.notify (.tripDropped k .undefined))) ∧
    (s.TripsSound → s.trip.latch = false → (s.code k).configured → ∀ c, (s.code c).state.isRunning →
      (c = k → after u) ∧
      (c ≠ k → s.trip.pending = none → after (u.modTrip fun x => { x with pending := some k })) ∧
      (c ≠ k → s.trip.pending ≠ none → after (u.notify (.tripDropped k .pendingFull)))) ∧
    (s.trip.latch = false → (s.code k).configured → (∀ c, (s.code c).state.isRunning = false) →
      let v := u.startedRun k
      (∀ seconds last notify, s.tripEntry (s.code k).start = .wait seconds last notify →
        after ((if notify then v.notify (.tripStep k (s.code k).start) else v).modCode k fun r =>
          { r with state := .running (s.code k).start (some (s.deadlineIn seconds)) })) ∧
      ∀ x, State.RunsTo k (s.code k).start.val v x → ∃ y, x.PendingTaken y ∧ after y)

/-- A GROUP entry takes its selected members in ascending order. A member beyond the points, or one that exists, is in service
and lies outside the code's area set, is a fault, at which the entry stops: the members before it stay suppressed, and those
behind it are not examined (R110, R114 step 2). Of the members examined, those that R110's tests let join are suppressed, each
counted once where it was not a member of the set already, and no other point and no other record changes (R14). -/
def Obligations.GroupSuppressesMembers : Prop :=
  ∀ (c : TripNo) (g : Group) (faulty : Bool) (s t : State), s.runGroup c g = (t, faulty) →
    let inService (n : PointNo) : Bool := s.exists? (s.point n) && !(s.point n).outOfService
    let covered (n : PointNo) : Bool := inSet (s.code c).areas (s.point n).area
    let isFault (i : Fin 32) : Bool := g.selection.getLsbD i.val && match below 2048 (g.base.val + i.val) with
      | none => true
      | some n => inService n && !covered n
    let examined (i : Fin 32) : Bool := g.selection.getLsbD i.val && (List.finRange 32).all fun j => j ≥ i || !isFault j
    let joins (n : PointNo) : Bool :=
      ((List.finRange 32).any fun i => examined i && n.val == g.base.val + i.val) && inService n && covered n
      && g.spare < (s.point n).priority.num
      && (g.activeToo || (s.point n).condition != .active || (s.point n).hidden) && !(s.point n).suppression.contains c
    faulty = (List.finRange 32).any isFault ∧
    (∀ n, t.point n = if joins n then
      { s.point n with
        suppression := insertCode c (s.point n).suppression
        ann := if (s.point n).hidden then (s.point n).ann else .normal
        postTrip := if (s.point n).hidden then (s.point n).postTrip else false } else s.point n) ∧
    (t.code c).suppressed = (s.code c).suppressed + (List.finRange 2048).countP joins ∧
    (∀ d, d ≠ c → t.code d = s.code d) ∧
    t = { s with points := t.points, trip := { s.trip with codes := t.trip.codes } }

/-- At a reached wait deadline the run goes on (R111): after a LAST entry the code is HOLDING until its hold deadline
(R113); else the run is processed from the next index on, to where `State.RunsTo` says that the processing ends (R110), so
that at a next entry that is EMPTY, or beyond the store, the fault of R114 stops it. With the code no longer RUNNING a pending
code is then taken, as `State.PendingTaken` says. TRIP_STEP for a complete GROUP at entry 511 that runs on past the store is
the model's choice (log entry 26). -/
def Obligations.WaitDeadlineResumesRun : Prop :=
  ∀ (c : TripNo) (k : EntryNo) (d : Deadline) (s : State), (s.code c).state = .running k (some d) →
    d.time ≤ s.clock.count → d.since ≤ s.clock.timebase → s.TripsSound →
    let after (x : State) := ∃ y t : State, exec (.waitDeadline c) s = .next t ∧ x.PendingTaken y ∧ y.Settles t
    (∀ seconds notify, s.tripEntry k = .wait seconds true notify →
      after ((s.modCode c fun r => { r with state := .holding (s.holdUntil c) }).notify (.tripDone c))) ∧
    (∀ seconds notify, s.tripEntry k = .wait seconds false notify →
      (∀ e : EntryNo, e.val = k.val + 1 → s.tripEntry e = .empty → after (s.faultedAt c e)) ∧
      (k.val = 511 → after (s.faultedAt c k)) ∧
      ∀ x, State.RunsTo c (k.val + 1) (s.modCode c fun r => { r with state := .running k none }) x → after x)

/-- The release of a code from every suppression set (R117 step 2): a point that nothing else hides comes back, NEW and
post-trip-marked where it is ACTIVE, the numbers rising in ascending point number. -/
def Obligations.ReleaseUnsuppressesPoints : Prop :=
  ∀ (c : TripNo) (s : State),
    let rank (n : PointNo) := (List.finRange 2048).countP fun m => decide (m ≤ n) && s.comesBack c m
    let new := (List.finRange 2048).countP (s.comesBack c)
    let t := (s.unsuppressAll c).1
    (s.unsuppressAll c).2 = new ∧
    (s.raiseCounter + 2048 ≤ Config.maxSeq → t.raiseCounter = s.raiseCounter + new) ∧
    t = { s with points := t.points, raiseCounter := t.raiseCounter } ∧
    ∀ n, (s.raiseCounter + 2048 ≤ Config.maxSeq → s.comesBack c n → t.point n = { s.point n with
        suppression := (s.point n).suppression.filter (· != c), ann := .new
        raiseSeq := some (s.raiseCounter + rank n), acked := none, postTrip := true }) ∧
      (s.comesBack c n = false →
        t.point n = { s.point n with suppression := (s.point n).suppression.filter (· != c) })

/-- RELEASE_TRIP of a code that is not IDLE, from the host or from a console that the permission check admits, and a
reached hold deadline release the code (R116, R117, R118): it becomes IDLE, TRIP_RELEASED is queued, and a pending code
is taken where no code is RUNNING, as `State.PendingTaken` says. In that code's run, TRIP_STEP for a complete GROUP at entry
511 that runs on past the store is the model's choice (log entry 26). -/
def Obligations.TripIsReleased : Prop :=
  let released (c : TripNo) (source : ReleaseSource) (u : State) : State :=
    ((u.unsuppressAll c).1.modCode c fun r => { r with state := .idle, suppressed := 0, faulted := false }).notify
      (.tripReleased c source)
  (∀ (tag : Byte) (c : TripNo) (p : List Byte) (source : ReleaseSource) (s u : State),
    (p = [0xFF, byte (c.val + 1)] ∧ source = .host ∧ s.take { kind := 0x4A, tag, payload := p } = some u) ∨
      (∃ d o, p = [byte d.val, byte (c.val + 1)] ∧ source = .console d ∧
        s.takesAt d { kind := 0x4A, tag, payload := p } = some u ∧ u.permitRelease d c = .ok o) →
    u.mode = .run → (u.code c).state ≠ .idle →
    ∃ y t : State, exec (.releaseTrip tag p) s = .next (t.replyDone 0x4A tag
        (be16 (u.code c).suppressed ++ be16 (u.unsuppressAll c).2)) ∧ (released c source u).PendingTaken y ∧ y.Settles t) ∧
  ∀ (c : TripNo) (d : Deadline) (s : State), (s.code c).state = .holding (some d) → d.time ≤ s.clock.count →
    d.since ≤ s.clock.timebase →
    ∃ y t : State, exec (.tripHoldDeadline c) s = .next t ∧ (released c .expiry s).PendingTaken y ∧ y.Settles t

/-! ### Handover sheets (chapter 7) -/

/-- LOCK_DRAFT and UNLOCK_DRAFT (R124, R125): another console's lock is LOCKED, a lock that is held already, or is not
there to release, is ALREADY; locking a committed draft withdraws its commit, with the flag. -/
def Obligations.LockMovesOwner : Prop :=
  ∀ (tag : Byte) (c : ConsoleNo) (a : AreaNo) (o : Operator) (s u : State), u.mode = .run →
    u.permitArea c .edit a false false = .ok o →
    let p := [byte c.val, byte a.val]
    let d := (u.area a).draft
    let withDraft (x : Draft) : State := u.modArea a fun r => { r with draft := x }
    (s.takesAt c { kind := 0x4B, tag, payload := p } = some u →
      let refused (x : Status) := exec (.lockDraft tag p) s = .next (u.send (replyFrame 0x4B tag x []))
      (∀ b, b ≠ c → d.lock = some b → refused .locked) ∧ (d.lock = some c → refused .already) ∧
      (d.lock = none → exec (.lockDraft tag p) s = .next
        (if d.commit = none then (withDraft { d with lock := some c }).replyDone 0x4B tag [0]
         else (withDraft { d with lock := some c, commit := none, poolShort := false }).replyDone 0x4B tag [1]))) ∧
    (s.takesAt c { kind := 0x4C, tag, payload := p } = some u →
      let refused (x : Status) := exec (.unlockDraft tag p) s = .next (u.send (replyFrame 0x4C tag x []))
      (∀ b, b ≠ c → d.lock = some b → refused .locked) ∧ (d.lock = none → refused .already) ∧
      (d.lock = some c →
        exec (.unlockDraft tag p) s = .next ((withDraft { d with lock := none }).replyDone 0x4C tag [])))

/-- ADD_ITEM puts a new item into the lowest free slot and the slot at the end of the draft, REMOVE_ITEM frees the slot of
a position (R126, R127); both from the console that holds the lock. While no draft waits committed, the sheets and the
pool are then as they left them. That ADD_ITEM carries a reference of 4 bytes for every kind, a point number among them, is
the model's reading (log entry 9). -/
def Obligations.ItemsJoinAndLeaveDraft : Prop :=
  ∀ (tag : Byte) (c : ConsoleNo) (a : AreaNo) (o : Operator) (s u : State), u.mode = .run →
    u.permitArea c .edit a false false = .ok o → (u.area a).draft.lock = some c →
    let items := (u.area a).draft.items
    let withItems (is : List SlotNo) (x : State) : State :=
      x.modArea a fun r => { r with draft := { r.draft with items := is } }
    let after (d t : State) := d.Settles t ∧
      (u.noCommits → t.pool = d.pool ∧ t.freeCount = d.freeCount ∧ t.areas = d.areas)
    (∀ (k : ItemKind) (code : Byte) (n : Nat) (i : SlotNo), n < 4294967296 →
      (k = .note n ∧ code = 0) ∨ (k = .equipment n ∧ code = 2) ∨
        (code = 1 ∧ ∃ x : PointNo, n = x.val ∧ k = .point x ∧ (u.point x).configured ∧ (u.point x).area = a) →
      let p := [byte c.val, byte a.val, code] ++ be32 n
      s.takesAt c { kind := 0x4D, tag, payload := p } = some u → items.length < 16 →
      u.item i = none → (∀ j, j < i → u.item j ≠ none) →
      ∃ t : State, exec (.addItem tag p) s = .next (t.replyDone 0x4D tag (byte items.length :: be16 i.val)) ∧
        after (withItems (items ++ [i]) { u with
          pool := u.pool.set i (some { kind := k, author := some o.number, created := u.now, reviewed := none })
          freeCount := u.freeCount - 1 }) t) ∧
    ∀ (pos : Nat) (i : SlotNo), pos ≤ 15 → items[pos]? = some i →
      let p := [byte c.val, byte a.val, byte pos]
      s.takesAt c { kind := 0x4E, tag, payload := p } = some u →
      ∃ t : State, exec (.removeItem tag p) s = .next (t.replyDone 0x4E tag []) ∧
        after (withItems (items.eraseIdx pos)
          { u with pool := u.pool.set i none, freeCount := u.freeCount + 1 }) t

/-- POST (R128) commits the draft for the operator's crew and releases its lock; the reply says whether the draft is
still committed. With no other draft waiting, the exchange is made in the event where the conditions of R129 hold
(`State.MayExchange` spells the first three and `State.PoolHolds` the fourth), and else the draft waits, the shortage of the
pool noted (R131). A commit goes with SHEET_POSTED alone, and the note comes with POOL_SHORT (`State.Settles`). -/
def Obligations.PostCommitsDraft : Prop :=
  ∀ (tag : Byte) (c : ConsoleNo) (a : AreaNo) (o : Operator) (s u : State),
    let p := [byte c.val, byte a.val]
    s.takesAt c { kind := 0x4F, tag, payload := p } = some u → u.mode = .run →
    u.permitArea c .edit a false false = .ok o → (u.area a).draft.lock = some c →
    let d := u.modArea a fun r =>
      { r with draft := { r.draft with lock := none, commit := some o.crew, poolShort := false } }
    ∃ t : State, exec (.post tag p) s
        = .next (t.replyDone 0x4F tag [flagByte ((t.area a).draft.commit != none)]) ∧ d.Settles t ∧
      ((∀ b, b ≠ a → (u.area b).draft.commit = none) → (u.area a).config.configured →
        (¬ d.MayExchange a → t.pool = d.pool ∧ t.areas = d.areas) ∧
        (d.MayExchange a → ¬ d.PoolHolds a → t.pool = d.pool ∧
          t.areas = (d.modArea a fun r => { r with draft := { r.draft with poolShort := true } }).areas) ∧
        (d.MayExchange a → d.PoolHolds a → t.pool = (d.swapSheets a).pool ∧
          (t.area a).posted = ((d.swapSheets a).area a).posted ∧ (t.area a).draft.commit = none))

/-- The exchange of a committed draft (R132 steps 1 to 5, R133): the frames swap, the old posted items go, the drafted ones
lose their reviewers and keep their places, and the due standing orders (R123) and the area's shelves are captured behind
them; the posting summary is that of R134. Then SHEET_POSTED is given (R132 step 6), and the handover unit examines a
SHEET_POSTED or REVIEW step of the area, its notices following (R132 step 7). That the coverage, the BANNER notices and a shift
change that a completion there brings about also stand behind SHEET_POSTED, inside the exchange and in R156's order, is the
model's choice, which R130, R132, R154 and R156 leave open (log entry 10). -/
def Obligations.ExchangeSwapsFrames : Prop :=
  ∀ (a : AreaNo) (k : Crew) (s : State), s.PoolSound → s.ShelvesSound → s.PoolHolds a →
    (s.area a).draft.commit = some k →
    let t := s.swapSheets a
    let drafted := (s.area a).draft.items
    let old := (s.area a).posted.items
    let kinds : List ItemKind :=
      ((List.finRange 64).filter (s.takesOrder a)).map (fun i => .order i s.orders[i].ref)
      ++ (s.shelves.filter (·.area = a)).map fun r =>
        .shelf r.point (match r.ending with | .minutes d => .minutes d.time | .shifts n => .shifts n)
    ∃ captured : List SlotNo, captured.length = kinds.length ∧
      t.area a = { s.area a with
        draftFrame := 1 - (s.area a).draftFrame
        draft := { items := [], lock := none, commit := none, poolShort := false }
        posted := { items := drafted ++ captured
                    posting := some { shift := s.shiftAfter, crew := k, time := s.now, summary := s.summaryRuled a } } } ∧
      (∀ b, b ≠ a → t.area b = s.area b) ∧
      (∀ i ∈ drafted, t.item i = (s.item i).map fun x => { x with reviewed := none }) ∧
      (∀ (j : Nat) (h : j < captured.length) (h' : j < kinds.length),
        t.item captured[j] = some { kind := kinds[j], author := none, created := s.now, reviewed := none }) ∧
      (∀ i ∈ old, i ∉ captured → t.item i = none) ∧
      (∀ i, i ∉ drafted → i ∉ old → i ∉ captured → t.item i = s.item i) ∧
      t.freeCount + captured.length = s.freeCount + old.length ∧
      t = { s with areas := t.areas, pool := t.pool, freeCount := t.freeCount } ∧
      (t.notify (.sheetPosted a)).Settles (s.exchange a)

/-- REVIEW_ITEM (R135) records the operator and the time on an item of the posted frame; its reply carries the item, the
posted-for shift and the number of items without a reviewer at that moment. The posting crew is refused with SAME_CREW,
and a reviewed item is ALREADY. -/
def Obligations.ReviewStampsItem : Prop :=
  ∀ (tag : Byte) (c : ConsoleNo) (a : AreaNo) (pos : Nat) (i : SlotNo) (x : Item) (g : Posting) (o : Operator)
    (s u : State), pos ≤ 31 →
    let p := [byte c.val, byte a.val, byte pos]
    s.takesAt c { kind := 0x50, tag, payload := p } = some u → u.mode = .run →
    u.permitArea c .review a false true = .ok o → (u.area a).posted.items[pos]? = some i → u.item i = some x →
    (u.area a).posted.posting = some g →
    let d : State := { u with pool := u.pool.set i (some { x with reviewed := some ⟨o.number, u.now⟩ }) }
    let left := (u.area a).posted.items.countP fun j => (d.item j).any (·.reviewed = none)
    (g.crew = o.crew → exec (.reviewItem tag p) s = .next (u.send (replyFrame 0x50 tag .sameCrew []))) ∧
    (g.crew ≠ o.crew → x.reviewed ≠ none →
      exec (.reviewItem tag p) s = .next (u.send (replyFrame 0x50 tag .already []))) ∧
    (g.crew ≠ o.crew → x.reviewed = none →
      ∃ t : State, exec (.reviewItem tag p) s
          = .next (t.replyDone 0x50 tag (x.kind.wire.1 :: x.kind.wire.2 ++ be16 g.shift ++ [byte left])) ∧
        d.Settles t ∧ (u.noCommits → t.pool = d.pool ∧ ∀ b, (t.area b).posted = (u.area b).posted))

/-! ### The handover procedure (chapter 8) -/

/-- BEGIN_HANDOVER opens the mill handover (R143): each configured area enters its first step, or is SUSPENDED there, and
passes through the condition steps whose conditions hold, possibly to DONE (R144 to R146); with every area DONE, or none
configured, the shift changes at once (R154). CANCEL_HANDOVER closes it while no configured area is DONE, and no duty crew
changes (R155). -/
def Obligations.HandoverOpensAndCloses : Prop :=
  ∀ (tag : Byte) (s u : State), u.mode = .run →
    (∀ k : Crew, s.take { kind := 0x61, tag, payload := [byte k.code] } = some u →
      let refused (x : Status) := exec (.beginHandover tag [byte k.code]) s = .next (u.send (replyFrame 0x61 tag x []))
      (u.mill.incoming ≠ none → refused .wrongState) ∧
      (u.mill.incoming = none → k = u.mill.duty → refused .badField) ∧
      (u.mill.incoming = none → k ≠ u.mill.duty →
        let count := (List.finRange 32).countP fun a => (u.area a).config.configured
        let mill : Mill := { u.mill with incoming := some k, outstanding := count }
        ∃ t : State, exec (.beginHandover tag [byte k.code]) s
            = .next (t.replyDone 0x61 tag [byte t.mill.outstanding]) ∧
          State.Settles { u with mill } t (fun a =>
            if (u.area a).config.configured then some (State.begun { u with mill } a) else none) ∧
          (count = 0 → t.mill = { shift := if u.mill.shift = 65535 then 0 else u.mill.shift + 1
                                  duty := k, incoming := none, outstanding := 0 } ∧ ∀ b, (t.area b).duty = k) ∧
          ∀ h : AreaNo → Handover,
            (∀ a, (u.area a).config.configured → State.BeginsTo { u with mill } a (h a)) →
            let done (a : AreaNo) : Bool := (u.area a).config.configured && (h a).isDone
            let dones := (List.finRange 32).countP done
            (dones < count → u.noCommits → t.mill = { mill with outstanding := count - dones } ∧
              ∀ a, (t.area a).handover = (if (u.area a).config.configured then h a else (u.area a).handover) ∧
                (t.area a).duty = if done a then k else (u.area a).duty) ∧
            (0 < count → dones = count →
              t.mill = { shift := if u.mill.shift = 65535 then 0 else u.mill.shift + 1
                         duty := k, incoming := none, outstanding := 0 } ∧
              ∀ a, (t.area a).handover = .steady ∧ (t.area a).duty = k))) ∧
    (s.take { kind := 0x62, tag, payload := [] } = some u →
      let refused := exec (.cancelHandover tag []) s = .next (u.send (replyFrame 0x62 tag .wrongState []))
      (u.mill.incoming = none → refused) ∧
      (∀ a p, (u.area a).config.configured → (u.area a).handover = .done p → refused) ∧
      (u.mill.incoming ≠ none → (∀ a p, (u.area a).config.configured → (u.area a).handover ≠ .done p) →
        let mill : Mill := { u.mill with incoming := none, outstanding := 0 }
        ∃ t : State, exec (.cancelHandover tag []) s = .next (t.replyDone 0x62 tag []) ∧
          State.Settles { u with mill, areas := u.areas.map fun r => { r with handover := .steady } } t ∧ t.mill = mill ∧
          ∀ a, (t.area a).handover = .steady ∧ (t.area a).duty = (u.area a).duty))

/-- SUSPEND_AREA and RESUME_AREA (R148, R149): a RUNNING area is suspended with the seconds its deadlines had left saved;
when the last reason leaves, each saved time becomes a deadline, one of 0 reached in that moment, and the current step is
examined: a condition step whose condition holds completes (R142). The suspension gives HANDOVER_SUSPENDED with the set and the
resumption HANDOVER_RESUMED, before the notices of steps that then complete; a change of the set alone gives none
(`State.turned`). -/
def Obligations.RequestSuspendsAndResumes : Prop :=
  ∀ (tag : Byte) (a : AreaNo) (s u : State), u.mode = .run → (u.area a).config.configured →
    let others (t : State) := t.mill = u.mill ∧ ∀ b, b ≠ a → (t.area b).handover = (u.area b).handover
    let turns (b : Bool) (t : State) :=
      u.Settles t fun c => if c = a then some (u.turned a b (u.area a).handover) else none
    let left (d : Deadline) : Nat := d.time - u.clock.count
    let back (n : Nat) : Deadline :=
      ⟨min (u.clock.count + n) 4294967295, if n = 0 then u.clock.timebase else u.clock.timebase + 1⟩
    (s.take { kind := 0x63, tag, payload := [byte a.val] } = some u →
      ∀ p, (∃ x y, (u.area a).handover = .running p x y) ∨
          (∃ x y r, (u.area a).handover = .suspended p x y r ∧ r.request = false) →
        ∃ t : State, exec (.suspendArea tag [byte a.val]) s
            = .next (t.replyDone 0x63 tag [byte (t.area a).handover.code]) ∧ turns true t ∧
          (u.noCommits → others t ∧
            (∀ x y, (u.area a).handover = .running p x y →
              (t.area a).handover = .suspended p (x.map left) (y.map left) (u.reasonsNow a true)) ∧
            ∀ x y r, (u.area a).handover = .suspended p x y r →
              (t.area a).handover = .suspended p x y (u.reasonsNow a true))) ∧
    (s.take { kind := 0x64, tag, payload := [byte a.val] } = some u →
      ∀ p x y r, (u.area a).handover = .suspended p x y r → r.request →
        ∃ t : State, exec (.resumeArea tag [byte a.val]) s
            = .next (t.replyDone 0x64 tag [byte (t.area a).handover.code]) ∧ turns false t ∧
          (u.noCommits →
            (u.reasonsNow a false = ⟨false, false, false, false⟩ → ¬ u.StepHolds a (u.stepEntry p.index).kind →
              others t ∧ (t.area a).handover = .running p (x.map back) (y.map back)) ∧
            (u.reasonsNow a false ≠ ⟨false, false, false, false⟩ →
              others t ∧ (t.area a).handover = .suspended p x y (u.reasonsNow a false))) ∧
          (u.reasonsNow a false = ⟨false, false, false, false⟩ → u.StepHolds a (u.stepEntry p.index).kind →
            u.StepLeads t a p))

/-- CONFIRM_STEP of the right crew completes the confirmation step of a RUNNING area (R150), and a reached hold deadline
its HOLD step (R142). The area then passes through the condition steps whose conditions hold, to a step that waits or to
DONE. Each completion gives STEP_DONE where its entry asks for it, and the last one AREA_HANDED_OVER (`State.completion`). -/
def Obligations.StepCompletesOnConfirmationOrHold : Prop :=
  (∀ (tag : Byte) (c : ConsoleNo) (a : AreaNo) (o : Operator) (p : Position) (x y : Option Deadline) (s u : State),
    let q := [byte c.val, byte a.val]
    s.takesAt c { kind := 0x51, tag, payload := q } = some u → u.mode = .run →
    (u.area a).handover = .running p x y →
    ((u.stepEntry p.index).kind = .confirmOut ∧ u.permitArea c .confirm a false false = .ok o ∧
        o.crew = (u.area a).duty) ∨
      ((u.stepEntry p.index).kind = .confirmIn ∧ u.permitArea c .confirm a false true = .ok o ∧
        u.mill.incoming = some o.crew) →
    ∃ t : State, exec (.confirmStep tag q) s
        = .next (t.replyDone 0x51 tag [byte p.ordinal, byte (t.area a).handover.code]) ∧ u.StepCompletes t a p) ∧
  ∀ (a : AreaNo) (p : Position) (x : Option Deadline) (d : Deadline) (s : State),
    (s.area a).handover = .running p x (some d) → d.time ≤ s.clock.count → d.since ≤ s.clock.timebase →
    ∃ t : State, exec (.handoverHoldDeadline a) s = .next t ∧ s.StepCompletes t a p

/-- A reached step deadline (R151) and ABORT_AREA (R152) halt an area in progress with its abort record and HANDOVER_ABORTED; CLEAR_ABORT removes
the record (R151); RESTART_AREA begins a HALTED area's list again, passing through the condition steps whose conditions hold,
the record kept (R153). -/
def Obligations.AreaHaltsAndRestarts : Prop :=
  let others (a : AreaNo) (u t : State) := t.mill = u.mill ∧ ∀ b, b ≠ a → (t.area b).handover = (u.area b).handover
  let halted (a : AreaNo) (p : Position) (why : AbortReason) (u t : State) :=
    (u.modArea a fun r => { r with abort := some (match r.abort with
      | some x => { x with further := true }
      | none => { reason := why, ordinal := p.ordinal, time := u.now, further := false }) }).Settles t (fun b =>
        if b = a then some ([.handoverAborted a why p.ordinal], .halted p) else none) ∧
    (u.noCommits → others a u t ∧ (t.area a).handover = .halted p)
  (∀ (a : AreaNo) (p : Position) (d : Deadline) (y : Option Deadline) (s : State),
    (s.area a).handover = .running p (some d) y → d.time ≤ s.clock.count → d.since ≤ s.clock.timebase →
    ∃ t : State, exec (.stepTimeout a) s = .next t ∧ halted a p .stepTimeout s t) ∧
  (∀ (tag : Byte) (a : AreaNo) (p : Position) (s u : State),
    s.take { kind := 0x65, tag, payload := [byte a.val] } = some u → u.mode = .run → (u.area a).config.configured →
    (∃ x y, (u.area a).handover = .running p x y) ∨ (∃ x y r, (u.area a).handover = .suspended p x y r) →
    ∃ t : State, exec (.abortArea tag [byte a.val]) s = .next (t.replyDone 0x65 tag []) ∧ halted a p .hostAbort u t) ∧
  (∀ (tag : Byte) (a : AreaNo) (s u : State), s.take { kind := 0x66, tag, payload := [byte a.val] } = some u →
    exec (.clearAbort tag [byte a.val]) s = .next
      (if (u.area a).abort = none then u.send (replyFrame 0x66 tag .already [])
       else (u.modArea a fun r => { r with abort := none }).replyDone 0x66 tag [])) ∧
  ∀ (tag : Byte) (c : ConsoleNo) (a : AreaNo) (o : Operator) (p : Position) (s u : State),
    let q := [byte c.val, byte a.val]
    s.takesAt c { kind := 0x52, tag, payload := q } = some u → u.mode = .run →
    u.permitArea c .restart a false false = .ok o → (u.area a).handover = .halted p →
    ∃ t : State, exec (.restartArea tag q) s
        = .next (t.replyDone 0x52 tag [byte (t.area a).handover.code]) ∧
      u.Settles t (fun b => if b = a then some (u.begun a) else none) ∧
      ∀ h, u.BeginsTo a h → u.ComesTo t a h

/-! ### The clock, the settings and the operating state (chapters 9 and 10) -/

/-- A second of the timebase (R175), and SET_CLOCK: the count takes the value and every deadline that is set keeps the
seconds it had left; the reply carries the count replaced. -/
def Obligations.ClockMovesDeadlines : Prop :=
  (∀ s : State, exec .clockSecond s
    = .next { s with clock := ⟨min (s.clock.count + 1) 4294967295, s.clock.timebase + 1⟩ }) ∧
  ∀ (tag : Byte) (n : Nat) (s u : State), n < 4294967296 → s.take { kind := 0x02, tag, payload := be32 n } = some u →
    let move (d : Deadline) : Deadline :=
      ⟨min (n + (d.time - u.clock.count)) 4294967295, u.clock.timebase + 1⟩
    ∃ t : State, exec (.setClock tag (be32 n)) s = .next (t.replyDone 0x02 tag (be32 u.clock.count)) ∧
      (∀ c, t.console c = { u.console c with
        seat := match (u.console c).seat with
          | .seated k d => .seated k (d.map move)
          | .vacant => .vacant
          | .absent k => .absent k
        resound := (u.console c).resound.map move }) ∧
      t.shelves = u.shelves.map (fun r => { r with ending := match r.ending with
        | .minutes d => .minutes (move d)
        | .shifts k => .shifts k }) ∧
      (∀ k, t.code k = { u.code k with state := match (u.code k).state with
        | .idle => .idle
        | .running e d => .running e (d.map move)
        | .holding d => .holding (d.map move) }) ∧
      (∀ a, t.area a = { u.area a with handover := match (u.area a).handover with
        | .running p d e => .running p (d.map move) (e.map move)
        | h => h }) ∧
      t = { u with
        clock := { u.clock with count := n }
        consoles := t.consoles, shelves := t.shelves, areas := t.areas
        trip := { u.trip with codes := t.trip.codes } }

/-- SET_TIMING (R174) stores each setting clamped to its range, with the flag; a presence timeout of 0 stays 0; the trigger
level moves the attention output. SET_SHIFT stores the shift and the duty crew, of the mill and of every area. That the
flag byte is sent as 0 where nothing was clamped is the model's reading (log entry 9). -/
def Obligations.SettingsAreStored : Prop :=
  (∀ (tag : Byte) (v : Nat) (s u : State), v ≤ 65535 →
    ∀ row ∈ ([(1, 60, 7200, fun x => { u.settings with presenceTimeout := x }),
        (2, 30, 600, fun x => { u.settings with p1Resound := x }),
        (3, 20, 500, fun x => { u.settings with keyQualify := x }),
        (4, 20, 500, fun x => { u.settings with keyRelease := x }),
        (5, 20, 500, fun x => { u.settings with tripQualify := x }),
        (6, 100, 2000, fun x => { u.settings with tripRelease := x }),
        (7, 1, 64, fun x => { u.settings with trigger := x })] : List (Nat × Nat × Nat × (Nat → Settings))),
      let p := byte row.1 :: be16 v
      let n := if row.1 = 1 ∧ v = 0 then 0 else max row.2.1 (min row.2.2.1 v)
      s.take { kind := 0x05, tag, payload := p } = some u → u.mode = .config →
      exec (.setTiming tag p) s = .next (State.replyDone 0x05 tag [flagByte (n != v)] { u with
        settings := row.2.2.2 n
        queue := if row.1 = 7 then { u.queue with attention := attentionFor n u.queue.records } else u.queue })) ∧
  ∀ (tag : Byte) (v : Nat) (k : Crew) (s u : State), v ≤ 65535 →
    let p := be16 v ++ [byte k.code]
    s.take { kind := 0x06, tag, payload := p } = some u → u.mode = .config →
    exec (.setShift tag p) s = .next (State.replyDone 0x06 tag [] { u with
      mill := { u.mill with shift := v, duty := k }, areas := u.areas.map fun r => { r with duty := k } })

/-- START (R176) names the first area whose step list reaches no LAST entry or whose flood levels lie too close, then the
first console with a bad fallback, then the first standing order's unconfigured area, and enters RUN where there is none,
each block as its chapter gives for it. -/
def Obligations.StartValidatesAndEntersRun : Prop :=
  ∀ (tag : Byte) (s u : State), s.take { kind := 0x03, tag, payload := [] } = some u → u.mode = .config →
    let next (i : StepNo) : StepNo := (u.stepEntry i).next
    let areaOk (a : AreaNo) : Prop := (u.area a).config.configured →
      (∃ m < 32, (u.stepEntry (next^[m] (u.area a).config.start)).last) ∧
        (u.area a).config.floodOff + 256 ≤ (u.area a).config.floodOn
    let consoleOk (c : ConsoleNo) : Prop := (u.console c).config.configured →
      ∀ d, (u.console c).config.fallback = some d → d ≠ c ∧ (u.console d).config.configured
    let orderOk (i : OrderNo) : Prop := u.orders[i].defined → (u.area u.orders[i].area).config.configured
    let refused (data : List Byte) := exec (.start tag []) s = .next (u.send (replyFrame 0x03 tag .badConfig data))
    (∀ a, ¬ areaOk a → (∀ b < a, areaOk b) → refused [0, byte a.val]) ∧
    ((∀ a, areaOk a) → ∀ c, ¬ consoleOk c → (∀ b < c, consoleOk b) → refused [1, byte c.val]) ∧
    ((∀ a, areaOk a) → (∀ c, consoleOk c) → ∀ i, ¬ orderOk i → (∀ j < i, orderOk j) →
      refused [0, byte u.orders[i].area.val]) ∧
    ((∀ a, areaOk a) → (∀ c, consoleOk c) → (∀ i, orderOk i) →
      let begun (k : Key) : Key := { k with state := if k.closed then .pressing else .idle }
      exec (.start tag []) s = .next (State.replyDone 0x03 tag [] { u with
        mode := .run
        consoles := u.consoles.map fun r =>
          { r with seat := .vacant, head := none, ackKey := begun r.ackKey, silenceKey := begun r.silenceKey }
        areas := u.areas.map fun r => { r with meter := 0, flooded := false, covered := false, handover := .steady }
        trip := { u.trip with qualifier := .settling (u.trip.lines == 0) } }))

/-- RESTART (R177) takes every block's dynamic state to its RESTART values and keeps the tables, the settings, the clock and
the link; HARD_RESET takes every block to its hard-reset values, at the speed of the strap. That a hard reset lets the levels
of the contacts and of the trip lines stand (log entry 5), leaves every area unconfigured (log entry 6) and empties the list
of what was sent (log entry 7) is the model's choice. -/
def Obligations.ResetsRestoreState : Prop :=
  (∀ (tag : Byte) (s u : State), s.take { kind := 0x04, tag, payload := [] } = some u →
    let idle (k : Key) : Key := { k with state := .idle }
    ∃ t : State, exec (.restart tag []) s = .next (t.replyDone 0x04 tag []) ∧
      t.mode = .config ∧ t.clock = u.clock ∧ t.settings = u.settings ∧ t.roles = u.roles ∧ t.orders = u.orders ∧
      t.steps = u.steps ∧ t.link = u.link ∧ t.raiseCounter = 0 ∧ t.room = { mark := 0, horn := .off } ∧
      t.shelves = [] ∧ t.freeCount = 1024 ∧ (∀ i, t.item i = none) ∧
      t.mill = { u.mill with incoming := none, outstanding := 0 } ∧
      t.queue = { records := [], overflow := false, attention := decide (u.settings.trigger = 0) } ∧
      t.roster = u.roster.map (fun o => { o with seat := none }) ∧
      (∀ n, t.point n = { Point.reset with
        configured := (u.point n).configured, area := (u.point n).area, priority := (u.point n).priority }) ∧
      (∀ c, t.console c = { Console.reset with
        config := (u.console c).config, ackKey := idle (u.console c).ackKey
        silenceKey := idle (u.console c).silenceKey }) ∧
      (∀ a, t.area a = { Area.reset with config := (u.area a).config, duty := u.mill.duty }) ∧
      (∀ k, t.code k = { u.code k with state := .idle, takenAt := none, suppressed := 0, faulted := false }) ∧
      t.trip = { u.trip with qualifier := .settling false, codes := t.trip.codes, pending := none, latch := false }) ∧
  ∀ (strapLow : Bool) (s : State), ∃ t : State, exec (.hardReset strapLow) s = .next t ∧
    t.mode = .config ∧ t.clock = ⟨0, 0⟩ ∧ t.raiseCounter = 0 ∧ t.roster = [] ∧ t.shelves = [] ∧ t.freeCount = 1024 ∧
    t.room = { mark := 0, horn := .off } ∧ t.link = { slow := strapLow, receiver := .hunting, order := [], sent := [] } ∧
    t.queue = { records := [], overflow := false, attention := false } ∧
    t.settings = { presenceTimeout := 1800, p1Resound := 120, keyQualify := 50, keyRelease := 100, tripQualify := 100,
                   tripRelease := 500, trigger := 1 } ∧
    t.mill = { shift := 0, duty := .A, incoming := none, outstanding := 0 } ∧
    (∀ n, t.point n = Point.reset) ∧ (∀ a, t.area a = Area.reset) ∧ (∀ i, t.item i = none) ∧
    (∀ i : OrderNo, t.orders[i] = Order.reset) ∧ (∀ i, t.stepEntry i = StepEntry.reset) ∧
    (∀ k, t.code k = TripCode.reset) ∧ (∀ i, t.tripEntry i = .empty) ∧ t.trip.pending = none ∧ t.trip.latch = false ∧
    t.trip.qualifier = .settling false ∧ t.trip.lines = s.trip.lines ∧
    (∀ c, t.console c = { Console.reset with
      ackKey := { (s.console c).ackKey with state := .idle }
      silenceKey := { (s.console c).silenceKey with state := .idle } }) ∧
    ∀ r : Role, ∀ k : ActionClass, (t.roles[r.index])[k.index] =
      match r, k with
      | .supervisor, _ => true
      | .lead, k => k != .restart
      | .board, k => k != .service && k != .release && k != .restart
      | .trainee, k => k == .ack || k == .silence || k == .review

/-- FETCH_NOTICES (R169) returns the oldest notices, up to its count of 1 to 8, and removes them; it reports and clears the
overflow flag, and re-derives the attention output (R170). Another count is refused with BAD_FIELD. -/
def Obligations.FetchTakesOldestNotices : Prop :=
  ∀ (tag n : Byte) (s u : State), s.take { kind := 0x07, tag, payload := [n] } = some u →
    (n = 0 ∨ 8 < n.toNat → exec (.fetchNotices tag [n]) s = .next (u.send (replyFrame 0x07 tag .badField []))) ∧
    (n ≠ 0 → n.toNat ≤ 8 →
      let got := u.queue.records.take n.toNat
      let left := u.queue.records.drop n.toNat
      (∀ x ∈ got, x.bytes.length = 11) ∧
      exec (.fetchNotices tag [n]) s = .next (State.replyDone 0x07 tag
        ([byte got.length, flagByte u.queue.overflow, byte left.length] ++ got.flatMap Notice.bytes)
        { u with queue :=
          { records := left, overflow := false
            attention := decide (u.settings.trigger ≤ left.length) || left.any (·.kind.urgent) } }))
end

