-- ==== Sys2Proof/Laws/State.lean ====
section
/-! SUPPORT. What each update of the state leaves: one lemma per field and update, and what an update writes. -/

namespace Sys2Proof.Machine

variable (s : State)

/-! ### setPoint -/

@[simp] theorem State.setPoint_mode (n' : PointNo) (p : Point) : (s.setPoint n' p).mode = s.mode := rfl
@[simp] theorem State.setPoint_clock (n' : PointNo) (p : Point) : (s.setPoint n' p).clock = s.clock := rfl
@[simp] theorem State.setPoint_settings (n' : PointNo) (p : Point) : (s.setPoint n' p).settings = s.settings := rfl
@[simp] theorem State.setPoint_raiseCounter (n' : PointNo) (p : Point) : (s.setPoint n' p).raiseCounter = s.raiseCounter := rfl
@[simp] theorem State.setPoint_roster (n' : PointNo) (p : Point) : (s.setPoint n' p).roster = s.roster := rfl
@[simp] theorem State.setPoint_roles (n' : PointNo) (p : Point) : (s.setPoint n' p).roles = s.roles := rfl
@[simp] theorem State.setPoint_consoles (n' : PointNo) (p : Point) : (s.setPoint n' p).consoles = s.consoles := rfl
@[simp] theorem State.setPoint_room (n' : PointNo) (p : Point) : (s.setPoint n' p).room = s.room := rfl
@[simp] theorem State.setPoint_areas (n' : PointNo) (p : Point) : (s.setPoint n' p).areas = s.areas := rfl
@[simp] theorem State.setPoint_shelves (n' : PointNo) (p : Point) : (s.setPoint n' p).shelves = s.shelves := rfl
@[simp] theorem State.setPoint_trip (n' : PointNo) (p : Point) : (s.setPoint n' p).trip = s.trip := rfl
@[simp] theorem State.setPoint_pool (n' : PointNo) (p : Point) : (s.setPoint n' p).pool = s.pool := rfl
@[simp] theorem State.setPoint_freeCount (n' : PointNo) (p : Point) : (s.setPoint n' p).freeCount = s.freeCount := rfl
@[simp] theorem State.setPoint_orders (n' : PointNo) (p : Point) : (s.setPoint n' p).orders = s.orders := rfl
@[simp] theorem State.setPoint_mill (n' : PointNo) (p : Point) : (s.setPoint n' p).mill = s.mill := rfl
@[simp] theorem State.setPoint_steps (n' : PointNo) (p : Point) : (s.setPoint n' p).steps = s.steps := rfl
@[simp] theorem State.setPoint_queue (n' : PointNo) (p : Point) : (s.setPoint n' p).queue = s.queue := rfl
@[simp] theorem State.setPoint_link (n' : PointNo) (p : Point) : (s.setPoint n' p).link = s.link := rfl
@[simp] theorem State.setPoint_pending (n' : PointNo) (p : Point) : (s.setPoint n' p).pending = s.pending := rfl
@[simp] theorem State.setPoint_area (n' : PointNo) (p : Point) (a : AreaNo) : (s.setPoint n' p).area a = s.area a := rfl
@[simp] theorem State.setPoint_console (n' : PointNo) (p : Point) (c : ConsoleNo) : (s.setPoint n' p).console c = s.console c := rfl
@[simp] theorem State.setPoint_code (n' : PointNo) (p : Point) (c : TripNo) : (s.setPoint n' p).code c = s.code c := rfl
@[simp] theorem State.setPoint_operator (n' : PointNo) (p : Point) (n : Nat) : (s.setPoint n' p).operator? n = s.operator? n := rfl
@[simp] theorem State.setPoint_item (n' : PointNo) (p : Point) (i : SlotNo) : (s.setPoint n' p).item i = s.item i := rfl
@[simp] theorem State.setPoint_now (n' : PointNo) (p : Point) : (s.setPoint n' p).now = s.now := rfl

/-! ### modArea -/

@[simp] theorem State.modArea_mode (a' : AreaNo) (f : Area → Area) : (s.modArea a' f).mode = s.mode := rfl
@[simp] theorem State.modArea_clock (a' : AreaNo) (f : Area → Area) : (s.modArea a' f).clock = s.clock := rfl
@[simp] theorem State.modArea_settings (a' : AreaNo) (f : Area → Area) : (s.modArea a' f).settings = s.settings := rfl
@[simp] theorem State.modArea_points (a' : AreaNo) (f : Area → Area) : (s.modArea a' f).points = s.points := rfl
@[simp] theorem State.modArea_raiseCounter (a' : AreaNo) (f : Area → Area) : (s.modArea a' f).raiseCounter = s.raiseCounter := rfl
@[simp] theorem State.modArea_roster (a' : AreaNo) (f : Area → Area) : (s.modArea a' f).roster = s.roster := rfl
@[simp] theorem State.modArea_roles (a' : AreaNo) (f : Area → Area) : (s.modArea a' f).roles = s.roles := rfl
@[simp] theorem State.modArea_consoles (a' : AreaNo) (f : Area → Area) : (s.modArea a' f).consoles = s.consoles := rfl
@[simp] theorem State.modArea_room (a' : AreaNo) (f : Area → Area) : (s.modArea a' f).room = s.room := rfl
@[simp] theorem State.modArea_shelves (a' : AreaNo) (f : Area → Area) : (s.modArea a' f).shelves = s.shelves := rfl
@[simp] theorem State.modArea_trip (a' : AreaNo) (f : Area → Area) : (s.modArea a' f).trip = s.trip := rfl
@[simp] theorem State.modArea_pool (a' : AreaNo) (f : Area → Area) : (s.modArea a' f).pool = s.pool := rfl
@[simp] theorem State.modArea_freeCount (a' : AreaNo) (f : Area → Area) : (s.modArea a' f).freeCount = s.freeCount := rfl
@[simp] theorem State.modArea_orders (a' : AreaNo) (f : Area → Area) : (s.modArea a' f).orders = s.orders := rfl
@[simp] theorem State.modArea_mill (a' : AreaNo) (f : Area → Area) : (s.modArea a' f).mill = s.mill := rfl
@[simp] theorem State.modArea_steps (a' : AreaNo) (f : Area → Area) : (s.modArea a' f).steps = s.steps := rfl
@[simp] theorem State.modArea_queue (a' : AreaNo) (f : Area → Area) : (s.modArea a' f).queue = s.queue := rfl
@[simp] theorem State.modArea_link (a' : AreaNo) (f : Area → Area) : (s.modArea a' f).link = s.link := rfl
@[simp] theorem State.modArea_pending (a' : AreaNo) (f : Area → Area) : (s.modArea a' f).pending = s.pending := rfl
@[simp] theorem State.modArea_point (a' : AreaNo) (f : Area → Area) (n : PointNo) : (s.modArea a' f).point n = s.point n := rfl
@[simp] theorem State.modArea_console (a' : AreaNo) (f : Area → Area) (c : ConsoleNo) : (s.modArea a' f).console c = s.console c := rfl
@[simp] theorem State.modArea_code (a' : AreaNo) (f : Area → Area) (c : TripNo) : (s.modArea a' f).code c = s.code c := rfl
@[simp] theorem State.modArea_operator (a' : AreaNo) (f : Area → Area) (n : Nat) : (s.modArea a' f).operator? n = s.operator? n := rfl
@[simp] theorem State.modArea_item (a' : AreaNo) (f : Area → Area) (i : SlotNo) : (s.modArea a' f).item i = s.item i := rfl
@[simp] theorem State.modArea_now (a' : AreaNo) (f : Area → Area) : (s.modArea a' f).now = s.now := rfl

/-! ### modConsole -/

@[simp] theorem State.modConsole_mode (c' : ConsoleNo) (f : Console → Console) : (s.modConsole c' f).mode = s.mode := rfl
@[simp] theorem State.modConsole_clock (c' : ConsoleNo) (f : Console → Console) : (s.modConsole c' f).clock = s.clock := rfl
@[simp] theorem State.modConsole_settings (c' : ConsoleNo) (f : Console → Console) : (s.modConsole c' f).settings = s.settings := rfl
@[simp] theorem State.modConsole_points (c' : ConsoleNo) (f : Console → Console) : (s.modConsole c' f).points = s.points := rfl
@[simp] theorem State.modConsole_raiseCounter (c' : ConsoleNo) (f : Console → Console) : (s.modConsole c' f).raiseCounter = s.raiseCounter := rfl
@[simp] theorem State.modConsole_roster (c' : ConsoleNo) (f : Console → Console) : (s.modConsole c' f).roster = s.roster := rfl
@[simp] theorem State.modConsole_roles (c' : ConsoleNo) (f : Console → Console) : (s.modConsole c' f).roles = s.roles := rfl
@[simp] theorem State.modConsole_room (c' : ConsoleNo) (f : Console → Console) : (s.modConsole c' f).room = s.room := rfl
@[simp] theorem State.modConsole_areas (c' : ConsoleNo) (f : Console → Console) : (s.modConsole c' f).areas = s.areas := rfl
@[simp] theorem State.modConsole_shelves (c' : ConsoleNo) (f : Console → Console) : (s.modConsole c' f).shelves = s.shelves := rfl
@[simp] theorem State.modConsole_trip (c' : ConsoleNo) (f : Console → Console) : (s.modConsole c' f).trip = s.trip := rfl
@[simp] theorem State.modConsole_pool (c' : ConsoleNo) (f : Console → Console) : (s.modConsole c' f).pool = s.pool := rfl
@[simp] theorem State.modConsole_freeCount (c' : ConsoleNo) (f : Console → Console) : (s.modConsole c' f).freeCount = s.freeCount := rfl
@[simp] theorem State.modConsole_orders (c' : ConsoleNo) (f : Console → Console) : (s.modConsole c' f).orders = s.orders := rfl
@[simp] theorem State.modConsole_mill (c' : ConsoleNo) (f : Console → Console) : (s.modConsole c' f).mill = s.mill := rfl
@[simp] theorem State.modConsole_steps (c' : ConsoleNo) (f : Console → Console) : (s.modConsole c' f).steps = s.steps := rfl
@[simp] theorem State.modConsole_queue (c' : ConsoleNo) (f : Console → Console) : (s.modConsole c' f).queue = s.queue := rfl
@[simp] theorem State.modConsole_link (c' : ConsoleNo) (f : Console → Console) : (s.modConsole c' f).link = s.link := rfl
@[simp] theorem State.modConsole_pending (c' : ConsoleNo) (f : Console → Console) : (s.modConsole c' f).pending = s.pending := rfl
@[simp] theorem State.modConsole_point (c' : ConsoleNo) (f : Console → Console) (n : PointNo) : (s.modConsole c' f).point n = s.point n := rfl
@[simp] theorem State.modConsole_area (c' : ConsoleNo) (f : Console → Console) (a : AreaNo) : (s.modConsole c' f).area a = s.area a := rfl
@[simp] theorem State.modConsole_code (c' : ConsoleNo) (f : Console → Console) (c : TripNo) : (s.modConsole c' f).code c = s.code c := rfl
@[simp] theorem State.modConsole_operator (c' : ConsoleNo) (f : Console → Console) (n : Nat) : (s.modConsole c' f).operator? n = s.operator? n := rfl
@[simp] theorem State.modConsole_item (c' : ConsoleNo) (f : Console → Console) (i : SlotNo) : (s.modConsole c' f).item i = s.item i := rfl
@[simp] theorem State.modConsole_now (c' : ConsoleNo) (f : Console → Console) : (s.modConsole c' f).now = s.now := rfl

/-! ### modCode -/

@[simp] theorem State.modCode_mode (c' : TripNo) (f : TripCode → TripCode) : (s.modCode c' f).mode = s.mode := rfl
@[simp] theorem State.modCode_clock (c' : TripNo) (f : TripCode → TripCode) : (s.modCode c' f).clock = s.clock := rfl
@[simp] theorem State.modCode_settings (c' : TripNo) (f : TripCode → TripCode) : (s.modCode c' f).settings = s.settings := rfl
@[simp] theorem State.modCode_points (c' : TripNo) (f : TripCode → TripCode) : (s.modCode c' f).points = s.points := rfl
@[simp] theorem State.modCode_raiseCounter (c' : TripNo) (f : TripCode → TripCode) : (s.modCode c' f).raiseCounter = s.raiseCounter := rfl
@[simp] theorem State.modCode_roster (c' : TripNo) (f : TripCode → TripCode) : (s.modCode c' f).roster = s.roster := rfl
@[simp] theorem State.modCode_roles (c' : TripNo) (f : TripCode → TripCode) : (s.modCode c' f).roles = s.roles := rfl
@[simp] theorem State.modCode_consoles (c' : TripNo) (f : TripCode → TripCode) : (s.modCode c' f).consoles = s.consoles := rfl
@[simp] theorem State.modCode_room (c' : TripNo) (f : TripCode → TripCode) : (s.modCode c' f).room = s.room := rfl
@[simp] theorem State.modCode_areas (c' : TripNo) (f : TripCode → TripCode) : (s.modCode c' f).areas = s.areas := rfl
@[simp] theorem State.modCode_shelves (c' : TripNo) (f : TripCode → TripCode) : (s.modCode c' f).shelves = s.shelves := rfl
@[simp] theorem State.modCode_pool (c' : TripNo) (f : TripCode → TripCode) : (s.modCode c' f).pool = s.pool := rfl
@[simp] theorem State.modCode_freeCount (c' : TripNo) (f : TripCode → TripCode) : (s.modCode c' f).freeCount = s.freeCount := rfl
@[simp] theorem State.modCode_orders (c' : TripNo) (f : TripCode → TripCode) : (s.modCode c' f).orders = s.orders := rfl
@[simp] theorem State.modCode_mill (c' : TripNo) (f : TripCode → TripCode) : (s.modCode c' f).mill = s.mill := rfl
@[simp] theorem State.modCode_steps (c' : TripNo) (f : TripCode → TripCode) : (s.modCode c' f).steps = s.steps := rfl
@[simp] theorem State.modCode_queue (c' : TripNo) (f : TripCode → TripCode) : (s.modCode c' f).queue = s.queue := rfl
@[simp] theorem State.modCode_link (c' : TripNo) (f : TripCode → TripCode) : (s.modCode c' f).link = s.link := rfl
@[simp] theorem State.modCode_pending (c' : TripNo) (f : TripCode → TripCode) : (s.modCode c' f).pending = s.pending := rfl
@[simp] theorem State.modCode_point (c' : TripNo) (f : TripCode → TripCode) (n : PointNo) : (s.modCode c' f).point n = s.point n := rfl
@[simp] theorem State.modCode_area (c' : TripNo) (f : TripCode → TripCode) (a : AreaNo) : (s.modCode c' f).area a = s.area a := rfl
@[simp] theorem State.modCode_console (c' : TripNo) (f : TripCode → TripCode) (c : ConsoleNo) : (s.modCode c' f).console c = s.console c := rfl
@[simp] theorem State.modCode_operator (c' : TripNo) (f : TripCode → TripCode) (n : Nat) : (s.modCode c' f).operator? n = s.operator? n := rfl
@[simp] theorem State.modCode_item (c' : TripNo) (f : TripCode → TripCode) (i : SlotNo) : (s.modCode c' f).item i = s.item i := rfl
@[simp] theorem State.modCode_now (c' : TripNo) (f : TripCode → TripCode) : (s.modCode c' f).now = s.now := rfl

/-! ### modTrip -/

@[simp] theorem State.modTrip_mode (f : TripUnit → TripUnit) : (s.modTrip f).mode = s.mode := rfl
@[simp] theorem State.modTrip_clock (f : TripUnit → TripUnit) : (s.modTrip f).clock = s.clock := rfl
@[simp] theorem State.modTrip_settings (f : TripUnit → TripUnit) : (s.modTrip f).settings = s.settings := rfl
@[simp] theorem State.modTrip_points (f : TripUnit → TripUnit) : (s.modTrip f).points = s.points := rfl
@[simp] theorem State.modTrip_raiseCounter (f : TripUnit → TripUnit) : (s.modTrip f).raiseCounter = s.raiseCounter := rfl
@[simp] theorem State.modTrip_roster (f : TripUnit → TripUnit) : (s.modTrip f).roster = s.roster := rfl
@[simp] theorem State.modTrip_roles (f : TripUnit → TripUnit) : (s.modTrip f).roles = s.roles := rfl
@[simp] theorem State.modTrip_consoles (f : TripUnit → TripUnit) : (s.modTrip f).consoles = s.consoles := rfl
@[simp] theorem State.modTrip_room (f : TripUnit → TripUnit) : (s.modTrip f).room = s.room := rfl
@[simp] theorem State.modTrip_areas (f : TripUnit → TripUnit) : (s.modTrip f).areas = s.areas := rfl
@[simp] theorem State.modTrip_shelves (f : TripUnit → TripUnit) : (s.modTrip f).shelves = s.shelves := rfl
@[simp] theorem State.modTrip_pool (f : TripUnit → TripUnit) : (s.modTrip f).pool = s.pool := rfl
@[simp] theorem State.modTrip_freeCount (f : TripUnit → TripUnit) : (s.modTrip f).freeCount = s.freeCount := rfl
@[simp] theorem State.modTrip_orders (f : TripUnit → TripUnit) : (s.modTrip f).orders = s.orders := rfl
@[simp] theorem State.modTrip_mill (f : TripUnit → TripUnit) : (s.modTrip f).mill = s.mill := rfl
@[simp] theorem State.modTrip_steps (f : TripUnit → TripUnit) : (s.modTrip f).steps = s.steps := rfl
@[simp] theorem State.modTrip_queue (f : TripUnit → TripUnit) : (s.modTrip f).queue = s.queue := rfl
@[simp] theorem State.modTrip_link (f : TripUnit → TripUnit) : (s.modTrip f).link = s.link := rfl
@[simp] theorem State.modTrip_pending (f : TripUnit → TripUnit) : (s.modTrip f).pending = s.pending := rfl
@[simp] theorem State.modTrip_point (f : TripUnit → TripUnit) (n : PointNo) : (s.modTrip f).point n = s.point n := rfl
@[simp] theorem State.modTrip_area (f : TripUnit → TripUnit) (a : AreaNo) : (s.modTrip f).area a = s.area a := rfl
@[simp] theorem State.modTrip_console (f : TripUnit → TripUnit) (c : ConsoleNo) : (s.modTrip f).console c = s.console c := rfl
@[simp] theorem State.modTrip_operator (f : TripUnit → TripUnit) (n : Nat) : (s.modTrip f).operator? n = s.operator? n := rfl
@[simp] theorem State.modTrip_item (f : TripUnit → TripUnit) (i : SlotNo) : (s.modTrip f).item i = s.item i := rfl
@[simp] theorem State.modTrip_now (f : TripUnit → TripUnit) : (s.modTrip f).now = s.now := rfl

/-! ### modOperator -/

@[simp] theorem State.modOperator_mode (n' : Nat) (f : Operator → Operator) : (s.modOperator n' f).mode = s.mode := rfl
@[simp] theorem State.modOperator_clock (n' : Nat) (f : Operator → Operator) : (s.modOperator n' f).clock = s.clock := rfl
@[simp] theorem State.modOperator_settings (n' : Nat) (f : Operator → Operator) : (s.modOperator n' f).settings = s.settings := rfl
@[simp] theorem State.modOperator_points (n' : Nat) (f : Operator → Operator) : (s.modOperator n' f).points = s.points := rfl
@[simp] theorem State.modOperator_raiseCounter (n' : Nat) (f : Operator → Operator) : (s.modOperator n' f).raiseCounter = s.raiseCounter := rfl
@[simp] theorem State.modOperator_roles (n' : Nat) (f : Operator → Operator) : (s.modOperator n' f).roles = s.roles := rfl
@[simp] theorem State.modOperator_consoles (n' : Nat) (f : Operator → Operator) : (s.modOperator n' f).consoles = s.consoles := rfl
@[simp] theorem State.modOperator_room (n' : Nat) (f : Operator → Operator) : (s.modOperator n' f).room = s.room := rfl
@[simp] theorem State.modOperator_areas (n' : Nat) (f : Operator → Operator) : (s.modOperator n' f).areas = s.areas := rfl
@[simp] theorem State.modOperator_shelves (n' : Nat) (f : Operator → Operator) : (s.modOperator n' f).shelves = s.shelves := rfl
@[simp] theorem State.modOperator_trip (n' : Nat) (f : Operator → Operator) : (s.modOperator n' f).trip = s.trip := rfl
@[simp] theorem State.modOperator_pool (n' : Nat) (f : Operator → Operator) : (s.modOperator n' f).pool = s.pool := rfl
@[simp] theorem State.modOperator_freeCount (n' : Nat) (f : Operator → Operator) : (s.modOperator n' f).freeCount = s.freeCount := rfl
@[simp] theorem State.modOperator_orders (n' : Nat) (f : Operator → Operator) : (s.modOperator n' f).orders = s.orders := rfl
@[simp] theorem State.modOperator_mill (n' : Nat) (f : Operator → Operator) : (s.modOperator n' f).mill = s.mill := rfl
@[simp] theorem State.modOperator_steps (n' : Nat) (f : Operator → Operator) : (s.modOperator n' f).steps = s.steps := rfl
@[simp] theorem State.modOperator_queue (n' : Nat) (f : Operator → Operator) : (s.modOperator n' f).queue = s.queue := rfl
@[simp] theorem State.modOperator_link (n' : Nat) (f : Operator → Operator) : (s.modOperator n' f).link = s.link := rfl
@[simp] theorem State.modOperator_pending (n' : Nat) (f : Operator → Operator) : (s.modOperator n' f).pending = s.pending := rfl
@[simp] theorem State.modOperator_point (n' : Nat) (f : Operator → Operator) (n : PointNo) : (s.modOperator n' f).point n = s.point n := rfl
@[simp] theorem State.modOperator_area (n' : Nat) (f : Operator → Operator) (a : AreaNo) : (s.modOperator n' f).area a = s.area a := rfl
@[simp] theorem State.modOperator_console (n' : Nat) (f : Operator → Operator) (c : ConsoleNo) : (s.modOperator n' f).console c = s.console c := rfl
@[simp] theorem State.modOperator_code (n' : Nat) (f : Operator → Operator) (c : TripNo) : (s.modOperator n' f).code c = s.code c := rfl
@[simp] theorem State.modOperator_item (n' : Nat) (f : Operator → Operator) (i : SlotNo) : (s.modOperator n' f).item i = s.item i := rfl
@[simp] theorem State.modOperator_now (n' : Nat) (f : Operator → Operator) : (s.modOperator n' f).now = s.now := rfl

/-! ### placeItem -/

@[simp] theorem State.placeItem_mode (i' : SlotNo) (x : Item) : (s.placeItem i' x).mode = s.mode := rfl
@[simp] theorem State.placeItem_clock (i' : SlotNo) (x : Item) : (s.placeItem i' x).clock = s.clock := rfl
@[simp] theorem State.placeItem_settings (i' : SlotNo) (x : Item) : (s.placeItem i' x).settings = s.settings := rfl
@[simp] theorem State.placeItem_points (i' : SlotNo) (x : Item) : (s.placeItem i' x).points = s.points := rfl
@[simp] theorem State.placeItem_raiseCounter (i' : SlotNo) (x : Item) : (s.placeItem i' x).raiseCounter = s.raiseCounter := rfl
@[simp] theorem State.placeItem_roster (i' : SlotNo) (x : Item) : (s.placeItem i' x).roster = s.roster := rfl
@[simp] theorem State.placeItem_roles (i' : SlotNo) (x : Item) : (s.placeItem i' x).roles = s.roles := rfl
@[simp] theorem State.placeItem_consoles (i' : SlotNo) (x : Item) : (s.placeItem i' x).consoles = s.consoles := rfl
@[simp] theorem State.placeItem_room (i' : SlotNo) (x : Item) : (s.placeItem i' x).room = s.room := rfl
@[simp] theorem State.placeItem_areas (i' : SlotNo) (x : Item) : (s.placeItem i' x).areas = s.areas := rfl
@[simp] theorem State.placeItem_shelves (i' : SlotNo) (x : Item) : (s.placeItem i' x).shelves = s.shelves := rfl
@[simp] theorem State.placeItem_trip (i' : SlotNo) (x : Item) : (s.placeItem i' x).trip = s.trip := rfl
@[simp] theorem State.placeItem_orders (i' : SlotNo) (x : Item) : (s.placeItem i' x).orders = s.orders := rfl
@[simp] theorem State.placeItem_mill (i' : SlotNo) (x : Item) : (s.placeItem i' x).mill = s.mill := rfl
@[simp] theorem State.placeItem_steps (i' : SlotNo) (x : Item) : (s.placeItem i' x).steps = s.steps := rfl
@[simp] theorem State.placeItem_queue (i' : SlotNo) (x : Item) : (s.placeItem i' x).queue = s.queue := rfl
@[simp] theorem State.placeItem_link (i' : SlotNo) (x : Item) : (s.placeItem i' x).link = s.link := rfl
@[simp] theorem State.placeItem_pending (i' : SlotNo) (x : Item) : (s.placeItem i' x).pending = s.pending := rfl
@[simp] theorem State.placeItem_point (i' : SlotNo) (x : Item) (n : PointNo) : (s.placeItem i' x).point n = s.point n := rfl
@[simp] theorem State.placeItem_area (i' : SlotNo) (x : Item) (a : AreaNo) : (s.placeItem i' x).area a = s.area a := rfl
@[simp] theorem State.placeItem_console (i' : SlotNo) (x : Item) (c : ConsoleNo) : (s.placeItem i' x).console c = s.console c := rfl
@[simp] theorem State.placeItem_code (i' : SlotNo) (x : Item) (c : TripNo) : (s.placeItem i' x).code c = s.code c := rfl
@[simp] theorem State.placeItem_operator (i' : SlotNo) (x : Item) (n : Nat) : (s.placeItem i' x).operator? n = s.operator? n := rfl
@[simp] theorem State.placeItem_now (i' : SlotNo) (x : Item) : (s.placeItem i' x).now = s.now := rfl

/-! ### freeSlot -/

@[simp] theorem State.freeSlot_mode (i' : SlotNo) : (s.freeSlot i').mode = s.mode := rfl
@[simp] theorem State.freeSlot_clock (i' : SlotNo) : (s.freeSlot i').clock = s.clock := rfl
@[simp] theorem State.freeSlot_settings (i' : SlotNo) : (s.freeSlot i').settings = s.settings := rfl
@[simp] theorem State.freeSlot_points (i' : SlotNo) : (s.freeSlot i').points = s.points := rfl
@[simp] theorem State.freeSlot_raiseCounter (i' : SlotNo) : (s.freeSlot i').raiseCounter = s.raiseCounter := rfl
@[simp] theorem State.freeSlot_roster (i' : SlotNo) : (s.freeSlot i').roster = s.roster := rfl
@[simp] theorem State.freeSlot_roles (i' : SlotNo) : (s.freeSlot i').roles = s.roles := rfl
@[simp] theorem State.freeSlot_consoles (i' : SlotNo) : (s.freeSlot i').consoles = s.consoles := rfl
@[simp] theorem State.freeSlot_room (i' : SlotNo) : (s.freeSlot i').room = s.room := rfl
@[simp] theorem State.freeSlot_areas (i' : SlotNo) : (s.freeSlot i').areas = s.areas := rfl
@[simp] theorem State.freeSlot_shelves (i' : SlotNo) : (s.freeSlot i').shelves = s.shelves := rfl
@[simp] theorem State.freeSlot_trip (i' : SlotNo) : (s.freeSlot i').trip = s.trip := rfl
@[simp] theorem State.freeSlot_orders (i' : SlotNo) : (s.freeSlot i').orders = s.orders := rfl
@[simp] theorem State.freeSlot_mill (i' : SlotNo) : (s.freeSlot i').mill = s.mill := rfl
@[simp] theorem State.freeSlot_steps (i' : SlotNo) : (s.freeSlot i').steps = s.steps := rfl
@[simp] theorem State.freeSlot_queue (i' : SlotNo) : (s.freeSlot i').queue = s.queue := rfl
@[simp] theorem State.freeSlot_link (i' : SlotNo) : (s.freeSlot i').link = s.link := rfl
@[simp] theorem State.freeSlot_pending (i' : SlotNo) : (s.freeSlot i').pending = s.pending := rfl
@[simp] theorem State.freeSlot_point (i' : SlotNo) (n : PointNo) : (s.freeSlot i').point n = s.point n := rfl
@[simp] theorem State.freeSlot_area (i' : SlotNo) (a : AreaNo) : (s.freeSlot i').area a = s.area a := rfl
@[simp] theorem State.freeSlot_console (i' : SlotNo) (c : ConsoleNo) : (s.freeSlot i').console c = s.console c := rfl
@[simp] theorem State.freeSlot_code (i' : SlotNo) (c : TripNo) : (s.freeSlot i').code c = s.code c := rfl
@[simp] theorem State.freeSlot_operator (i' : SlotNo) (n : Nat) : (s.freeSlot i').operator? n = s.operator? n := rfl
@[simp] theorem State.freeSlot_now (i' : SlotNo) : (s.freeSlot i').now = s.now := rfl

/-! ### modItem -/

@[simp] theorem State.modItem_mode (i' : SlotNo) (f : Item → Item) : (s.modItem i' f).mode = s.mode := rfl
@[simp] theorem State.modItem_clock (i' : SlotNo) (f : Item → Item) : (s.modItem i' f).clock = s.clock := rfl
@[simp] theorem State.modItem_settings (i' : SlotNo) (f : Item → Item) : (s.modItem i' f).settings = s.settings := rfl
@[simp] theorem State.modItem_points (i' : SlotNo) (f : Item → Item) : (s.modItem i' f).points = s.points := rfl
@[simp] theorem State.modItem_raiseCounter (i' : SlotNo) (f : Item → Item) : (s.modItem i' f).raiseCounter = s.raiseCounter := rfl
@[simp] theorem State.modItem_roster (i' : SlotNo) (f : Item → Item) : (s.modItem i' f).roster = s.roster := rfl
@[simp] theorem State.modItem_roles (i' : SlotNo) (f : Item → Item) : (s.modItem i' f).roles = s.roles := rfl
@[simp] theorem State.modItem_consoles (i' : SlotNo) (f : Item → Item) : (s.modItem i' f).consoles = s.consoles := rfl
@[simp] theorem State.modItem_room (i' : SlotNo) (f : Item → Item) : (s.modItem i' f).room = s.room := rfl
@[simp] theorem State.modItem_areas (i' : SlotNo) (f : Item → Item) : (s.modItem i' f).areas = s.areas := rfl
@[simp] theorem State.modItem_shelves (i' : SlotNo) (f : Item → Item) : (s.modItem i' f).shelves = s.shelves := rfl
@[simp] theorem State.modItem_trip (i' : SlotNo) (f : Item → Item) : (s.modItem i' f).trip = s.trip := rfl
@[simp] theorem State.modItem_freeCount (i' : SlotNo) (f : Item → Item) : (s.modItem i' f).freeCount = s.freeCount := rfl
@[simp] theorem State.modItem_orders (i' : SlotNo) (f : Item → Item) : (s.modItem i' f).orders = s.orders := rfl
@[simp] theorem State.modItem_mill (i' : SlotNo) (f : Item → Item) : (s.modItem i' f).mill = s.mill := rfl
@[simp] theorem State.modItem_steps (i' : SlotNo) (f : Item → Item) : (s.modItem i' f).steps = s.steps := rfl
@[simp] theorem State.modItem_queue (i' : SlotNo) (f : Item → Item) : (s.modItem i' f).queue = s.queue := rfl
@[simp] theorem State.modItem_link (i' : SlotNo) (f : Item → Item) : (s.modItem i' f).link = s.link := rfl
@[simp] theorem State.modItem_pending (i' : SlotNo) (f : Item → Item) : (s.modItem i' f).pending = s.pending := rfl
@[simp] theorem State.modItem_point (i' : SlotNo) (f : Item → Item) (n : PointNo) : (s.modItem i' f).point n = s.point n := rfl
@[simp] theorem State.modItem_area (i' : SlotNo) (f : Item → Item) (a : AreaNo) : (s.modItem i' f).area a = s.area a := rfl
@[simp] theorem State.modItem_console (i' : SlotNo) (f : Item → Item) (c : ConsoleNo) : (s.modItem i' f).console c = s.console c := rfl
@[simp] theorem State.modItem_code (i' : SlotNo) (f : Item → Item) (c : TripNo) : (s.modItem i' f).code c = s.code c := rfl
@[simp] theorem State.modItem_operator (i' : SlotNo) (f : Item → Item) (n : Nat) : (s.modItem i' f).operator? n = s.operator? n := rfl
@[simp] theorem State.modItem_now (i' : SlotNo) (f : Item → Item) : (s.modItem i' f).now = s.now := rfl

/-! ### send -/

@[simp] theorem State.send_mode (f : Frame) : (s.send f).mode = s.mode := rfl
@[simp] theorem State.send_clock (f : Frame) : (s.send f).clock = s.clock := rfl
@[simp] theorem State.send_settings (f : Frame) : (s.send f).settings = s.settings := rfl
@[simp] theorem State.send_points (f : Frame) : (s.send f).points = s.points := rfl
@[simp] theorem State.send_raiseCounter (f : Frame) : (s.send f).raiseCounter = s.raiseCounter := rfl
@[simp] theorem State.send_roster (f : Frame) : (s.send f).roster = s.roster := rfl
@[simp] theorem State.send_roles (f : Frame) : (s.send f).roles = s.roles := rfl
@[simp] theorem State.send_consoles (f : Frame) : (s.send f).consoles = s.consoles := rfl
@[simp] theorem State.send_room (f : Frame) : (s.send f).room = s.room := rfl
@[simp] theorem State.send_areas (f : Frame) : (s.send f).areas = s.areas := rfl
@[simp] theorem State.send_shelves (f : Frame) : (s.send f).shelves = s.shelves := rfl
@[simp] theorem State.send_trip (f : Frame) : (s.send f).trip = s.trip := rfl
@[simp] theorem State.send_pool (f : Frame) : (s.send f).pool = s.pool := rfl
@[simp] theorem State.send_freeCount (f : Frame) : (s.send f).freeCount = s.freeCount := rfl
@[simp] theorem State.send_orders (f : Frame) : (s.send f).orders = s.orders := rfl
@[simp] theorem State.send_mill (f : Frame) : (s.send f).mill = s.mill := rfl
@[simp] theorem State.send_steps (f : Frame) : (s.send f).steps = s.steps := rfl
@[simp] theorem State.send_queue (f : Frame) : (s.send f).queue = s.queue := rfl
@[simp] theorem State.send_pending (f : Frame) : (s.send f).pending = s.pending := rfl
@[simp] theorem State.send_point (f : Frame) (n : PointNo) : (s.send f).point n = s.point n := rfl
@[simp] theorem State.send_area (f : Frame) (a : AreaNo) : (s.send f).area a = s.area a := rfl
@[simp] theorem State.send_console (f : Frame) (c : ConsoleNo) : (s.send f).console c = s.console c := rfl
@[simp] theorem State.send_code (f : Frame) (c : TripNo) : (s.send f).code c = s.code c := rfl
@[simp] theorem State.send_operator (f : Frame) (n : Nat) : (s.send f).operator? n = s.operator? n := rfl
@[simp] theorem State.send_item (f : Frame) (i : SlotNo) : (s.send f).item i = s.item i := rfl
@[simp] theorem State.send_now (f : Frame) : (s.send f).now = s.now := rfl

/-! ### deriveAttention -/

@[simp] theorem State.deriveAttention_mode : (s.deriveAttention).mode = s.mode := rfl
@[simp] theorem State.deriveAttention_clock : (s.deriveAttention).clock = s.clock := rfl
@[simp] theorem State.deriveAttention_settings : (s.deriveAttention).settings = s.settings := rfl
@[simp] theorem State.deriveAttention_points : (s.deriveAttention).points = s.points := rfl
@[simp] theorem State.deriveAttention_raiseCounter : (s.deriveAttention).raiseCounter = s.raiseCounter := rfl
@[simp] theorem State.deriveAttention_roster : (s.deriveAttention).roster = s.roster := rfl
@[simp] theorem State.deriveAttention_roles : (s.deriveAttention).roles = s.roles := rfl
@[simp] theorem State.deriveAttention_consoles : (s.deriveAttention).consoles = s.consoles := rfl
@[simp] theorem State.deriveAttention_room : (s.deriveAttention).room = s.room := rfl
@[simp] theorem State.deriveAttention_areas : (s.deriveAttention).areas = s.areas := rfl
@[simp] theorem State.deriveAttention_shelves : (s.deriveAttention).shelves = s.shelves := rfl
@[simp] theorem State.deriveAttention_trip : (s.deriveAttention).trip = s.trip := rfl
@[simp] theorem State.deriveAttention_pool : (s.deriveAttention).pool = s.pool := rfl
@[simp] theorem State.deriveAttention_freeCount : (s.deriveAttention).freeCount = s.freeCount := rfl
@[simp] theorem State.deriveAttention_orders : (s.deriveAttention).orders = s.orders := rfl
@[simp] theorem State.deriveAttention_mill : (s.deriveAttention).mill = s.mill := rfl
@[simp] theorem State.deriveAttention_steps : (s.deriveAttention).steps = s.steps := rfl
@[simp] theorem State.deriveAttention_link : (s.deriveAttention).link = s.link := rfl
@[simp] theorem State.deriveAttention_pending : (s.deriveAttention).pending = s.pending := rfl
@[simp] theorem State.deriveAttention_point (n : PointNo) : (s.deriveAttention).point n = s.point n := rfl
@[simp] theorem State.deriveAttention_area (a : AreaNo) : (s.deriveAttention).area a = s.area a := rfl
@[simp] theorem State.deriveAttention_console (c : ConsoleNo) : (s.deriveAttention).console c = s.console c := rfl
@[simp] theorem State.deriveAttention_code (c : TripNo) : (s.deriveAttention).code c = s.code c := rfl
@[simp] theorem State.deriveAttention_operator (n : Nat) : (s.deriveAttention).operator? n = s.operator? n := rfl
@[simp] theorem State.deriveAttention_item (i : SlotNo) : (s.deriveAttention).item i = s.item i := rfl
@[simp] theorem State.deriveAttention_now : (s.deriveAttention).now = s.now := rfl

/-! ### mergeBanner -/

@[simp] theorem State.mergeBanner_mode (c' : ConsoleNo) (k : NoticeKind) : (s.mergeBanner c' k).mode = s.mode := rfl
@[simp] theorem State.mergeBanner_clock (c' : ConsoleNo) (k : NoticeKind) : (s.mergeBanner c' k).clock = s.clock := rfl
@[simp] theorem State.mergeBanner_settings (c' : ConsoleNo) (k : NoticeKind) : (s.mergeBanner c' k).settings = s.settings := rfl
@[simp] theorem State.mergeBanner_points (c' : ConsoleNo) (k : NoticeKind) : (s.mergeBanner c' k).points = s.points := rfl
@[simp] theorem State.mergeBanner_raiseCounter (c' : ConsoleNo) (k : NoticeKind) : (s.mergeBanner c' k).raiseCounter = s.raiseCounter := rfl
@[simp] theorem State.mergeBanner_roster (c' : ConsoleNo) (k : NoticeKind) : (s.mergeBanner c' k).roster = s.roster := rfl
@[simp] theorem State.mergeBanner_roles (c' : ConsoleNo) (k : NoticeKind) : (s.mergeBanner c' k).roles = s.roles := rfl
@[simp] theorem State.mergeBanner_consoles (c' : ConsoleNo) (k : NoticeKind) : (s.mergeBanner c' k).consoles = s.consoles := rfl
@[simp] theorem State.mergeBanner_room (c' : ConsoleNo) (k : NoticeKind) : (s.mergeBanner c' k).room = s.room := rfl
@[simp] theorem State.mergeBanner_areas (c' : ConsoleNo) (k : NoticeKind) : (s.mergeBanner c' k).areas = s.areas := rfl
@[simp] theorem State.mergeBanner_shelves (c' : ConsoleNo) (k : NoticeKind) : (s.mergeBanner c' k).shelves = s.shelves := rfl
@[simp] theorem State.mergeBanner_trip (c' : ConsoleNo) (k : NoticeKind) : (s.mergeBanner c' k).trip = s.trip := rfl
@[simp] theorem State.mergeBanner_pool (c' : ConsoleNo) (k : NoticeKind) : (s.mergeBanner c' k).pool = s.pool := rfl
@[simp] theorem State.mergeBanner_freeCount (c' : ConsoleNo) (k : NoticeKind) : (s.mergeBanner c' k).freeCount = s.freeCount := rfl
@[simp] theorem State.mergeBanner_orders (c' : ConsoleNo) (k : NoticeKind) : (s.mergeBanner c' k).orders = s.orders := rfl
@[simp] theorem State.mergeBanner_mill (c' : ConsoleNo) (k : NoticeKind) : (s.mergeBanner c' k).mill = s.mill := rfl
@[simp] theorem State.mergeBanner_steps (c' : ConsoleNo) (k : NoticeKind) : (s.mergeBanner c' k).steps = s.steps := rfl
@[simp] theorem State.mergeBanner_link (c' : ConsoleNo) (k : NoticeKind) : (s.mergeBanner c' k).link = s.link := rfl
@[simp] theorem State.mergeBanner_pending (c' : ConsoleNo) (k : NoticeKind) : (s.mergeBanner c' k).pending = s.pending := rfl
@[simp] theorem State.mergeBanner_point (c' : ConsoleNo) (k : NoticeKind) (n : PointNo) : (s.mergeBanner c' k).point n = s.point n := rfl
@[simp] theorem State.mergeBanner_area (c' : ConsoleNo) (k : NoticeKind) (a : AreaNo) : (s.mergeBanner c' k).area a = s.area a := rfl
@[simp] theorem State.mergeBanner_console (c' : ConsoleNo) (k : NoticeKind) (c : ConsoleNo) : (s.mergeBanner c' k).console c = s.console c := rfl
@[simp] theorem State.mergeBanner_code (c' : ConsoleNo) (k : NoticeKind) (c : TripNo) : (s.mergeBanner c' k).code c = s.code c := rfl
@[simp] theorem State.mergeBanner_operator (c' : ConsoleNo) (k : NoticeKind) (n : Nat) : (s.mergeBanner c' k).operator? n = s.operator? n := rfl
@[simp] theorem State.mergeBanner_item (c' : ConsoleNo) (k : NoticeKind) (i : SlotNo) : (s.mergeBanner c' k).item i = s.item i := rfl
@[simp] theorem State.mergeBanner_now (c' : ConsoleNo) (k : NoticeKind) : (s.mergeBanner c' k).now = s.now := rfl

/-! ### setBanners -/

@[simp] theorem State.setBanners_mode : (s.setBanners).mode = s.mode := by simp only [State.setBanners]
@[simp] theorem State.setBanners_clock : (s.setBanners).clock = s.clock := by simp only [State.setBanners]
@[simp] theorem State.setBanners_settings : (s.setBanners).settings = s.settings := by simp only [State.setBanners]
@[simp] theorem State.setBanners_points : (s.setBanners).points = s.points := by simp only [State.setBanners]
@[simp] theorem State.setBanners_raiseCounter : (s.setBanners).raiseCounter = s.raiseCounter := by simp only [State.setBanners]
@[simp] theorem State.setBanners_roster : (s.setBanners).roster = s.roster := by simp only [State.setBanners]
@[simp] theorem State.setBanners_roles : (s.setBanners).roles = s.roles := by simp only [State.setBanners]
@[simp] theorem State.setBanners_room : (s.setBanners).room = s.room := by simp only [State.setBanners]
@[simp] theorem State.setBanners_areas : (s.setBanners).areas = s.areas := by simp only [State.setBanners]
@[simp] theorem State.setBanners_shelves : (s.setBanners).shelves = s.shelves := by simp only [State.setBanners]
@[simp] theorem State.setBanners_trip : (s.setBanners).trip = s.trip := by simp only [State.setBanners]
@[simp] theorem State.setBanners_pool : (s.setBanners).pool = s.pool := by simp only [State.setBanners]
@[simp] theorem State.setBanners_freeCount : (s.setBanners).freeCount = s.freeCount := by simp only [State.setBanners]
@[simp] theorem State.setBanners_orders : (s.setBanners).orders = s.orders := by simp only [State.setBanners]
@[simp] theorem State.setBanners_mill : (s.setBanners).mill = s.mill := by simp only [State.setBanners]
@[simp] theorem State.setBanners_steps : (s.setBanners).steps = s.steps := by simp only [State.setBanners]
@[simp] theorem State.setBanners_queue : (s.setBanners).queue = s.queue := by simp only [State.setBanners]
@[simp] theorem State.setBanners_link : (s.setBanners).link = s.link := by simp only [State.setBanners]
@[simp] theorem State.setBanners_pending : (s.setBanners).pending = s.pending := by simp only [State.setBanners]
@[simp] theorem State.setBanners_point (n : PointNo) : (s.setBanners).point n = s.point n := by simp only [State.setBanners, State.point]
@[simp] theorem State.setBanners_area (a : AreaNo) : (s.setBanners).area a = s.area a := by simp only [State.setBanners, State.area]
@[simp] theorem State.setBanners_code (c : TripNo) : (s.setBanners).code c = s.code c := by simp only [State.setBanners, State.code]
@[simp] theorem State.setBanners_operator (n : Nat) : (s.setBanners).operator? n = s.operator? n := by simp only [State.setBanners, State.operator?]
@[simp] theorem State.setBanners_item (i : SlotNo) : (s.setBanners).item i = s.item i := by simp only [State.setBanners, State.item]
@[simp] theorem State.setBanners_now : (s.setBanners).now = s.now := by simp only [State.setBanners, State.now]

/-! ### driveOutputs -/

@[simp] theorem State.driveOutputs_mode : (s.driveOutputs).mode = s.mode := by simp only [State.driveOutputs]
@[simp] theorem State.driveOutputs_clock : (s.driveOutputs).clock = s.clock := by simp only [State.driveOutputs]
@[simp] theorem State.driveOutputs_settings : (s.driveOutputs).settings = s.settings := by simp only [State.driveOutputs]
@[simp] theorem State.driveOutputs_points : (s.driveOutputs).points = s.points := by simp only [State.driveOutputs]
@[simp] theorem State.driveOutputs_raiseCounter : (s.driveOutputs).raiseCounter = s.raiseCounter := by simp only [State.driveOutputs]
@[simp] theorem State.driveOutputs_roster : (s.driveOutputs).roster = s.roster := by simp only [State.driveOutputs]
@[simp] theorem State.driveOutputs_roles : (s.driveOutputs).roles = s.roles := by simp only [State.driveOutputs]
@[simp] theorem State.driveOutputs_areas : (s.driveOutputs).areas = s.areas := by simp only [State.driveOutputs]
@[simp] theorem State.driveOutputs_shelves : (s.driveOutputs).shelves = s.shelves := by simp only [State.driveOutputs]
@[simp] theorem State.driveOutputs_trip : (s.driveOutputs).trip = s.trip := by simp only [State.driveOutputs]
@[simp] theorem State.driveOutputs_pool : (s.driveOutputs).pool = s.pool := by simp only [State.driveOutputs]
@[simp] theorem State.driveOutputs_freeCount : (s.driveOutputs).freeCount = s.freeCount := by simp only [State.driveOutputs]
@[simp] theorem State.driveOutputs_orders : (s.driveOutputs).orders = s.orders := by simp only [State.driveOutputs]
@[simp] theorem State.driveOutputs_mill : (s.driveOutputs).mill = s.mill := by simp only [State.driveOutputs]
@[simp] theorem State.driveOutputs_steps : (s.driveOutputs).steps = s.steps := by simp only [State.driveOutputs]
@[simp] theorem State.driveOutputs_queue : (s.driveOutputs).queue = s.queue := by simp only [State.driveOutputs]
@[simp] theorem State.driveOutputs_link : (s.driveOutputs).link = s.link := by simp only [State.driveOutputs]
@[simp] theorem State.driveOutputs_pending : (s.driveOutputs).pending = s.pending := by simp only [State.driveOutputs]
@[simp] theorem State.driveOutputs_point (n : PointNo) : (s.driveOutputs).point n = s.point n := by simp only [State.driveOutputs, State.point]
@[simp] theorem State.driveOutputs_area (a : AreaNo) : (s.driveOutputs).area a = s.area a := by simp only [State.driveOutputs, State.area]
@[simp] theorem State.driveOutputs_code (c : TripNo) : (s.driveOutputs).code c = s.code c := by simp only [State.driveOutputs, State.code]
@[simp] theorem State.driveOutputs_operator (n : Nat) : (s.driveOutputs).operator? n = s.operator? n := by simp only [State.driveOutputs, State.operator?]
@[simp] theorem State.driveOutputs_item (i : SlotNo) : (s.driveOutputs).item i = s.item i := by simp only [State.driveOutputs, State.item]
@[simp] theorem State.driveOutputs_now : (s.driveOutputs).now = s.now := by simp only [State.driveOutputs, State.now]

/-! ### setCoverage -/

@[simp] theorem State.setCoverage_mode : (s.setCoverage).mode = s.mode := by simp only [State.setCoverage]
@[simp] theorem State.setCoverage_clock : (s.setCoverage).clock = s.clock := by simp only [State.setCoverage]
@[simp] theorem State.setCoverage_settings : (s.setCoverage).settings = s.settings := by simp only [State.setCoverage]
@[simp] theorem State.setCoverage_points : (s.setCoverage).points = s.points := by simp only [State.setCoverage]
@[simp] theorem State.setCoverage_raiseCounter : (s.setCoverage).raiseCounter = s.raiseCounter := by simp only [State.setCoverage]
@[simp] theorem State.setCoverage_roster : (s.setCoverage).roster = s.roster := by simp only [State.setCoverage]
@[simp] theorem State.setCoverage_roles : (s.setCoverage).roles = s.roles := by simp only [State.setCoverage]
@[simp] theorem State.setCoverage_consoles : (s.setCoverage).consoles = s.consoles := by simp only [State.setCoverage]
@[simp] theorem State.setCoverage_room : (s.setCoverage).room = s.room := by simp only [State.setCoverage]
@[simp] theorem State.setCoverage_shelves : (s.setCoverage).shelves = s.shelves := by simp only [State.setCoverage]
@[simp] theorem State.setCoverage_trip : (s.setCoverage).trip = s.trip := by simp only [State.setCoverage]
@[simp] theorem State.setCoverage_pool : (s.setCoverage).pool = s.pool := by simp only [State.setCoverage]
@[simp] theorem State.setCoverage_freeCount : (s.setCoverage).freeCount = s.freeCount := by simp only [State.setCoverage]
@[simp] theorem State.setCoverage_orders : (s.setCoverage).orders = s.orders := by simp only [State.setCoverage]
@[simp] theorem State.setCoverage_mill : (s.setCoverage).mill = s.mill := by simp only [State.setCoverage]
@[simp] theorem State.setCoverage_steps : (s.setCoverage).steps = s.steps := by simp only [State.setCoverage]
@[simp] theorem State.setCoverage_queue : (s.setCoverage).queue = s.queue := by simp only [State.setCoverage]
@[simp] theorem State.setCoverage_link : (s.setCoverage).link = s.link := by simp only [State.setCoverage]
@[simp] theorem State.setCoverage_pending : (s.setCoverage).pending = s.pending := by simp only [State.setCoverage]
@[simp] theorem State.setCoverage_point (n : PointNo) : (s.setCoverage).point n = s.point n := by simp only [State.setCoverage, State.point]
@[simp] theorem State.setCoverage_console (c : ConsoleNo) : (s.setCoverage).console c = s.console c := by simp only [State.setCoverage, State.console]
@[simp] theorem State.setCoverage_code (c : TripNo) : (s.setCoverage).code c = s.code c := by simp only [State.setCoverage, State.code]
@[simp] theorem State.setCoverage_operator (n : Nat) : (s.setCoverage).operator? n = s.operator? n := by simp only [State.setCoverage, State.operator?]
@[simp] theorem State.setCoverage_item (i : SlotNo) : (s.setCoverage).item i = s.item i := by simp only [State.setCoverage, State.item]
@[simp] theorem State.setCoverage_now : (s.setCoverage).now = s.now := by simp only [State.setCoverage, State.now]

/-! ### releaseLocks -/

@[simp] theorem State.releaseLocks_mode (c' : ConsoleNo) : (s.releaseLocks c').mode = s.mode := rfl
@[simp] theorem State.releaseLocks_clock (c' : ConsoleNo) : (s.releaseLocks c').clock = s.clock := rfl
@[simp] theorem State.releaseLocks_settings (c' : ConsoleNo) : (s.releaseLocks c').settings = s.settings := rfl
@[simp] theorem State.releaseLocks_points (c' : ConsoleNo) : (s.releaseLocks c').points = s.points := rfl
@[simp] theorem State.releaseLocks_raiseCounter (c' : ConsoleNo) : (s.releaseLocks c').raiseCounter = s.raiseCounter := rfl
@[simp] theorem State.releaseLocks_roster (c' : ConsoleNo) : (s.releaseLocks c').roster = s.roster := rfl
@[simp] theorem State.releaseLocks_roles (c' : ConsoleNo) : (s.releaseLocks c').roles = s.roles := rfl
@[simp] theorem State.releaseLocks_consoles (c' : ConsoleNo) : (s.releaseLocks c').consoles = s.consoles := rfl
@[simp] theorem State.releaseLocks_room (c' : ConsoleNo) : (s.releaseLocks c').room = s.room := rfl
@[simp] theorem State.releaseLocks_shelves (c' : ConsoleNo) : (s.releaseLocks c').shelves = s.shelves := rfl
@[simp] theorem State.releaseLocks_trip (c' : ConsoleNo) : (s.releaseLocks c').trip = s.trip := rfl
@[simp] theorem State.releaseLocks_pool (c' : ConsoleNo) : (s.releaseLocks c').pool = s.pool := rfl
@[simp] theorem State.releaseLocks_freeCount (c' : ConsoleNo) : (s.releaseLocks c').freeCount = s.freeCount := rfl
@[simp] theorem State.releaseLocks_orders (c' : ConsoleNo) : (s.releaseLocks c').orders = s.orders := rfl
@[simp] theorem State.releaseLocks_mill (c' : ConsoleNo) : (s.releaseLocks c').mill = s.mill := rfl
@[simp] theorem State.releaseLocks_steps (c' : ConsoleNo) : (s.releaseLocks c').steps = s.steps := rfl
@[simp] theorem State.releaseLocks_queue (c' : ConsoleNo) : (s.releaseLocks c').queue = s.queue := rfl
@[simp] theorem State.releaseLocks_link (c' : ConsoleNo) : (s.releaseLocks c').link = s.link := rfl
@[simp] theorem State.releaseLocks_pending (c' : ConsoleNo) : (s.releaseLocks c').pending = s.pending := rfl
@[simp] theorem State.releaseLocks_point (c' : ConsoleNo) (n : PointNo) : (s.releaseLocks c').point n = s.point n := rfl
@[simp] theorem State.releaseLocks_console (c' : ConsoleNo) (c : ConsoleNo) : (s.releaseLocks c').console c = s.console c := rfl
@[simp] theorem State.releaseLocks_code (c' : ConsoleNo) (c : TripNo) : (s.releaseLocks c').code c = s.code c := rfl
@[simp] theorem State.releaseLocks_operator (c' : ConsoleNo) (n : Nat) : (s.releaseLocks c').operator? n = s.operator? n := rfl
@[simp] theorem State.releaseLocks_item (c' : ConsoleNo) (i : SlotNo) : (s.releaseLocks c').item i = s.item i := rfl
@[simp] theorem State.releaseLocks_now (c' : ConsoleNo) : (s.releaseLocks c').now = s.now := rfl

/-! ### What is written -/

@[simp] theorem State.point_setPoint (n m : PointNo) (p : Point) :
    (s.setPoint n p).point m = if m = n then p else s.point m := by
  simp only [State.point, State.setPoint, Fin.getElem_fin, Vector.getElem_set, Fin.val_inj, eq_comm]

@[simp] theorem State.area_modArea (a b : AreaNo) (f : Area → Area) :
    (s.modArea a f).area b = if b = a then f (s.area a) else s.area b := by
  simp only [State.area, State.modArea, Fin.getElem_fin, Vector.getElem_set, Fin.val_inj, eq_comm]

@[simp] theorem State.console_modConsole (c d : ConsoleNo) (f : Console → Console) :
    (s.modConsole c f).console d = if d = c then f (s.console c) else s.console d := by
  simp only [State.console, State.modConsole, Fin.getElem_fin, Vector.getElem_set, Fin.val_inj, eq_comm]

@[simp] theorem State.code_modCode (c d : TripNo) (f : TripCode → TripCode) :
    (s.modCode c f).code d = if d = c then f (s.code c) else s.code d := by
  simp only [State.code, State.modCode, Fin.getElem_fin, Vector.getElem_set, Fin.val_inj, eq_comm]

@[simp] theorem State.item_placeItem (i j : SlotNo) (x : Item) :
    (s.placeItem i x).item j = if j = i then some x else s.item j := by
  simp only [State.item, State.placeItem, Fin.getElem_fin, Vector.getElem_set, Fin.val_inj, eq_comm]

@[simp] theorem State.item_freeSlot (i j : SlotNo) :
    (s.freeSlot i).item j = if j = i then none else s.item j := by
  simp only [State.item, State.freeSlot, Fin.getElem_fin, Vector.getElem_set, Fin.val_inj, eq_comm]

@[simp] theorem State.item_modItem (i j : SlotNo) (f : Item → Item) :
    (s.modItem i f).item j = if j = i then (s.item i).map f else s.item j := by
  simp only [State.item, State.modItem, Fin.getElem_fin, Vector.getElem_set, Fin.val_inj, eq_comm]

@[simp] theorem State.console_setBanners (c : ConsoleNo) :
    s.setBanners.console c = { s.console c with head := s.bannerOf c } := by
  simp [State.console, State.setBanners]

@[simp] theorem State.console_driveOutputs (c : ConsoleNo) :
    s.driveOutputs.console c = { s.console c with horn := s.hornOf c, beacon := s.beaconOf c } := by
  simp [State.console, State.driveOutputs]

@[simp] theorem State.room_driveOutputs : s.driveOutputs.room = { s.room with horn := s.roomHornOf } := by
  simp only [State.driveOutputs]

@[simp] theorem State.area_setCoverage (a : AreaNo) :
    s.setCoverage.area a = { s.area a with covered := s.coveredNow a } := by
  simp [State.area, State.setCoverage]

@[simp] theorem State.area_releaseLocks (c : ConsoleNo) (a : AreaNo) :
    (s.releaseLocks c).area a = if (s.area a).draft.lock = some c
      then { s.area a with draft := { (s.area a).draft with lock := none } } else s.area a := by
  simp only [State.area, State.releaseLocks, Fin.getElem_fin, Vector.getElem_map]
  congr

@[simp] theorem State.sent_send (f : Frame) : (s.send f).link = { s.link with sent := s.link.sent ++ [f] } := rfl

@[simp] theorem State.code_modTrip (f : TripUnit → TripUnit) (c : TripNo) (h : (f s.trip).codes = s.trip.codes) :
    (s.modTrip f).code c = s.code c := by
  simp only [State.code, State.modTrip, h]

/-! ### A record changed by two functions that agree on it -/

theorem State.modArea_congr {a : AreaNo} {f g : Area → Area} (h : f (s.area a) = g (s.area a)) :
    s.modArea a f = s.modArea a g := by simp only [State.modArea, h]

theorem State.modConsole_congr {c : ConsoleNo} {f g : Console → Console} (h : f (s.console c) = g (s.console c)) :
    s.modConsole c f = s.modConsole c g := by simp only [State.modConsole, h]

theorem State.modCode_congr {c : TripNo} {f g : TripCode → TripCode} (h : f (s.code c) = g (s.code c)) :
    s.modCode c f = s.modCode c g := by simp only [State.modCode, h]

end Sys2Proof.Machine
end

