-- ==== Sys2Proof/Laws/Frames.lean ====
section
/-! SUPPORT. Everything that the end of an event can do, operation by operation: `State.Frames`. -/

namespace Sys2Proof.Machine

variable {s t u : State}

/-! ### What a shift change leaves of a shelf record -/

theorem Shelf.kept_point (r : Shelf) : r.kept.point = r.point := by unfold Shelf.kept; split <;> rfl

theorem Shelf.kept_area (r : Shelf) : r.kept.area = r.area := by unfold Shelf.kept; split <;> rfl

theorem Shelf.kept_byShifts (r : Shelf) : r.kept.byShifts = r.byShifts := by
  unfold Shelf.kept; split <;> simp_all [Shelf.byShifts]

/-- A record that is left was there before, up to its count. -/
theorem State.Frames.shelf (h : s.Frames t) {r : Shelf} (hr : r ∈ t.shelves) :
    ∃ q ∈ s.shelves, q.point = r.point ∧ q.area = r.area ∧ q.byShifts = r.byShifts := by
  obtain ⟨q, hq, e⟩ := List.mem_map.mp (h.shelves.subset (List.mem_map_of_mem (f := Shelf.kept) hr))
  exact ⟨q, hq, by rw [← q.kept_point, e, r.kept_point], by rw [← q.kept_area, e, r.kept_area],
    by rw [← q.kept_byShifts, e, r.kept_byShifts]⟩

theorem State.Frames.refl (s : State) : s.Frames s := by
  constructor <;> intros <;> first | rfl | assumption | exact .inr rfl | exact .inl rfl | exact Nat.min_le_left ..

theorem State.Frames.trans (h : s.Frames t) (k : t.Frames u) : s.Frames u where
  mode := k.mode.trans h.mode
  clock := k.clock.trans h.clock
  settings := k.settings.trans h.settings
  roster := k.roster.trans h.roster
  roles := k.roles.trans h.roles
  trip := k.trip.trans h.trip
  orders := k.orders.trans h.orders
  steps := k.steps.trans h.steps
  link := k.link.trans h.link
  pending := k.pending.trans h.pending
  mark := k.mark.trans h.mark
  console c := by rw [k.console c, h.console c]
  config a := (k.config a).trans (h.config a)
  meter a := (k.meter a).trans (h.meter a)
  flooded a := (k.flooded a).trans (h.flooded a)
  abort a := (k.abort a).trans (h.abort a)
  lock a := (k.lock a).elim .inl fun e => e ▸ h.lock a
  commit a := (k.commit a).elim .inl fun e => e ▸ h.commit a
  shelves := k.shelves.trans h.shelves
  minutes := k.minutes.trans h.minutes
  count a ha := by
    refine (k.count a fun r hr hra => ?_).trans (h.count a ha)
    obtain ⟨q, hq, -, hqa, hb⟩ := h.shelf hr
    exact hb ▸ ha q hq (hqa.trans hra)
  point n hn := by
    refine (k.point n fun r hr hp => ?_).trans (h.point n hn)
    obtain ⟨q, hq, hp', -, hb⟩ := h.shelf hr
    exact hb ▸ hn q hq (hp'.trans hp)
  counter hs := by
    refine (k.counter fun r hr => ?_).trans (h.counter hs)
    obtain ⟨q, hq, -, -, hb⟩ := h.shelf hr
    exact hb ▸ hs q hq
  rises := by have := h.rises; have := k.rises; omega
  crew := k.crew.trans h.crew
  duty a := by
    rcases k.duty a with e | e
    · rw [e]; exact h.duty a
    · exact .inr (e.trans h.crew)
  notices := h.notices.trans k.notices
  overflow o := k.overflow (h.overflow o)

/-- Where no draft waits committed, none does after the end of an event. -/
theorem State.Frames.noCommits (h : s.Frames t) (hs : s.noCommits) : t.noCommits := fun a =>
  (h.commit a).elim id fun e => e.trans (hs a)

/-! ### The queue -/

/-- Only the queue changed, and notices were only added to it. -/
theorem State.Frames.ofQueue (q : NoticeQueue)
    (hn : s.queue.records.map Notice.place <+: q.records.map Notice.place)
    (ho : s.queue.overflow → q.overflow) : s.Frames { s with queue := q } :=
  { State.Frames.refl s with notices := hn, overflow := ho }

theorem State.append_frames (k : NoticeKind) (s : State) : s.Frames (s.append k) := by
  unfold State.append
  split
  · exact .ofQueue _ (by simp) id
  · exact .ofQueue _ List.prefix_rfl fun _ => rfl

/-- The records keep their places in a merge. -/
theorem place_merge (c : ConsoleNo) (h : Option PointNo) (time : Nat) (l : List Notice) :
    (l.map fun n => if n.isBannerOf c then { kind := .banner c h, time } else n).map Notice.place = l.map Notice.place := by
  rw [List.map_map]
  refine List.map_congr_left fun ⟨k, x⟩ _ => ?_
  cases k with
  | banner d e => by_cases hd : d = c <;> simp [Notice.isBannerOf, Notice.place, hd]
  | _ => simp [Notice.isBannerOf]

theorem State.mergeBanner_frames (c : ConsoleNo) (h : Option PointNo) (s : State) :
    s.Frames (s.mergeBanner c (.banner c h)) :=
  .ofQueue _ (by dsimp only; rw [place_merge]) id

theorem State.notify_frames (k : NoticeKind) (s : State) : s.Frames (s.notify k) := by
  unfold State.notify
  split
  · split
    · exact s.mergeBanner_frames _ _
    · exact s.append_frames _
  · exact s.append_frames _

theorem State.notifyAll_frames (ks : List NoticeKind) (s : State) : s.Frames (s.notifyAll ks) := by
  induction ks generalizing s with
  | nil => exact .refl s
  | cons k ks ih => exact (s.notify_frames k).trans (ih (s.notify k))

/-! ### Areas, the mill record and the pool -/

/-- What every area record keeps at the end of an event, a shift change apart: all but the covered flag, the handover, the
sheets, whose lock and commit are kept or taken away, and the duty crew, which is kept or becomes the crew `k`. -/
def Area.Keeps (k : Crew) (r r' : Area) : Prop :=
  r'.config = r.config ∧ r'.meter = r.meter ∧ r'.flooded = r.flooded ∧ r'.abort = r.abort
  ∧ r'.shelvedCount = r.shelvedCount ∧ (r'.draft.lock = none ∨ r'.draft.lock = r.draft.lock)
  ∧ (r'.draft.commit = none ∨ r'.draft.commit = r.draft.commit) ∧ (r'.duty = r.duty ∨ r'.duty = k)

theorem Area.Keeps.rfl {k : Crew} {r : Area} : r.Keeps k r :=
  ⟨.refl _, .refl _, .refl _, .refl _, .refl _, .inr (.refl _), .inr (.refl _), .inl (.refl _)⟩

/-- Every area keeps what it keeps, and nothing else but the pool and the mill record changed. -/
theorem State.Frames.ofAreas (areas : Vector Area 32) (pool : Vector (Option Item) 1024) (free : Nat) (mill : Mill)
    (h : ∀ a : AreaNo, (s.area a).Keeps (s.mill.incoming.getD s.mill.duty) areas[a])
    (hm : mill.incoming.getD mill.duty = s.mill.incoming.getD s.mill.duty) :
    s.Frames { s with areas, pool, freeCount := free, mill } :=
  { State.Frames.refl s with
    config := fun a => (h a).1, meter := fun a => (h a).2.1, flooded := fun a => (h a).2.2.1,
    abort := fun a => (h a).2.2.2.1, count := fun a _ => (h a).2.2.2.2.1, lock := fun a => (h a).2.2.2.2.2.1,
    commit := fun a => (h a).2.2.2.2.2.2.1, duty := fun a => (h a).2.2.2.2.2.2.2, crew := hm }

theorem State.Frames.modArea (a : AreaNo) (f : Area → Area) (s : State)
    (h : ∀ r : Area, r.Keeps (s.mill.incoming.getD s.mill.duty) (f r)) :
    s.Frames (s.modArea a f) :=
  .ofAreas _ s.pool s.freeCount s.mill (fun b => by
    have := s.area_modArea a b f
    simp only [State.area, State.modArea] at this ⊢
    rw [this]
    split
    · rename_i hb; subst hb; exact h _
    · exact .rfl) rfl

theorem State.Frames.ofPool (pool : Vector (Option Item) 1024) (free : Nat) (mill : Mill) (s : State)
    (hm : mill.incoming.getD mill.duty = s.mill.incoming.getD s.mill.duty := by rfl) :
    s.Frames { s with pool, freeCount := free, mill } :=
  .ofAreas s.areas pool free mill (fun _ => .rfl) hm

/-! ### Coverage and the annunciator -/

theorem State.setCoverage_frames (s : State) : s.Frames s.setCoverage :=
  .ofAreas _ s.pool s.freeCount s.mill (fun a => by simp [State.area, Area.Keeps]) rfl

theorem State.rederiveCoverage_frames (s : State) : s.Frames s.rederiveCoverage :=
  s.setCoverage_frames.trans (State.notifyAll_frames _ _)

theorem State.setBanners_frames (s : State) : s.Frames s.setBanners := by
  constructor <;> intros <;> first | assumption | simp

theorem State.driveOutputs_frames (s : State) : s.Frames s.driveOutputs := by
  constructor <;> intros <;> first | assumption | simp

theorem State.compareBanners_frames (s : State) : s.Frames s.compareBanners :=
  s.setBanners_frames.trans (State.notifyAll_frames _ _)

theorem State.annunciate_frames (s : State) : s.Frames s.annunciate :=
  s.compareBanners_frames.trans s.compareBanners.driveOutputs_frames

/-! ### The handover unit's work -/

theorem Work.setHandover_frames (a : AreaNo) (h : Handover) (w : Work) : w.s.Frames (w.setHandover a h).s := by
  unfold Work.setHandover
  dsimp only
  exact .modArea a _ w.s fun _ => by simp [Area.Keeps]

theorem Work.completeArea_frames (a : AreaNo) (p : Position) (w : Work) : w.s.Frames (w.completeArea a p).s :=
  by
  refine .trans (t := w.s.modArea a _) ?_ (.ofPool _ _ _ _)
  exact .modArea a _ w.s fun _ => by simp [Area.Keeps]

theorem Work.advance_frames (n : Nat) (a : AreaNo) (w : Work) : w.s.Frames (Work.advance n a w).s := by
  induction n generalizing w with
  | zero => exact .refl _
  | succ n ih =>
    unfold Work.advance
    split
    · rename_i p step hold hh
      have hs : (if (w.s.stepEntry p.index).notify then w.say (.stepDone a p.ordinal) else w).s = w.s := by
        split <;> rfl
      dsimp only
      generalize (if (w.s.stepEntry p.index).notify then w.say (.stepDone a p.ordinal) else w) = w' at hs ⊢
      rw [← hs]
      split
      · exact w'.completeArea_frames a p
      · split
        · exact (w'.setHandover_frames a _).trans (ih _)
        · exact w'.setHandover_frames a _
    all_goals exact .refl _

theorem Work.completeStep_frames (a : AreaNo) (w : Work) : w.s.Frames (w.completeStep a).s := w.advance_frames _ a

theorem Work.examine_frames (a : AreaNo) (f : StepKind → Bool) (w : Work) : w.s.Frames (w.examine a f).s := by
  unfold Work.examine
  split
  · dsimp only
    split
    · exact w.completeStep_frames a
    · exact .refl _
  all_goals exact .refl _

theorem Work.begin_frames (a : AreaNo) (w : Work) : w.s.Frames (w.begin a).s := by
  unfold Work.begin
  dsimp only
  split
  · refine .trans ?_ (Work.examine_frames a _ _)
    exact w.setHandover_frames a _
  · exact w.setHandover_frames a _

theorem Work.setReasons_frames (a : AreaNo) (r : Reasons) (w : Work) : w.s.Frames (w.setReasons a r).s := by
  unfold Work.setReasons
  split
  · split
    · exact .refl _
    · exact w.setHandover_frames a _
  · split
    · refine .trans ?_ (Work.examine_frames a _ _)
      exact w.setHandover_frames a _
    · dsimp only
      exact .modArea a _ w.s fun _ => by simp [Area.Keeps]
  all_goals exact .refl _

theorem Work.reconsider_frames (a : AreaNo) (f : StepKind → Bool) (w : Work) : w.s.Frames (w.reconsider a f).s := by
  unfold Work.reconsider
  split
  · exact (w.setReasons_frames a _).trans (Work.examine_frames a _ _)
  · exact .refl _

theorem Work.pointChanged_frames (p : Point) (w : Work) : w.s.Frames (w.pointChanged p).s := by
  unfold Work.pointChanged
  split
  · exact w.reconsider_frames _ _
  · exact .refl _

/-- Work over a list of areas, each keeping what the end of an event keeps. -/
theorem Work.foldl_frames (g : Work → AreaNo → Work) (h : ∀ (w : Work) a, w.s.Frames (g w a).s) (l : List AreaNo) (w : Work) :
    w.s.Frames (l.foldl g w).s := by
  induction l generalizing w with
  | nil => exact .refl _
  | cons a l ih => exact (h w a).trans (ih _)

theorem Work.tripsChanged_frames (w : Work) : w.s.Frames w.tripsChanged.s :=
  Work.foldl_frames _ (fun _ a => Work.reconsider_frames a _ _) _ w

theorem Work.seatsChanged_frames (f : AreaNo → Bool) (w : Work) : w.s.Frames (w.seatsChanged f).s :=
  Work.foldl_frames _ (fun _ a => by split; exacts [Work.examine_frames a _ _, .refl _]) _ w

/-! ### The shift change -/

/-- The point of a shelf that ends at a shift change takes a record, with a raise sequence number perhaps. -/
theorem State.Frames.setPoint (h : s.Frames t) {r : Shelf} (hr : r ∈ s.shelves) (hb : r.byShifts) (n : Nat)
    (hn : min t.raiseCounter Config.maxSeq ≤ n) (p : Point) :
    s.Frames ({ t with raiseCounter := n }.setPoint r.point p) where
  mode := h.mode
  clock := h.clock
  settings := h.settings
  roster := h.roster
  roles := h.roles
  trip := h.trip
  orders := h.orders
  steps := h.steps
  link := h.link
  pending := h.pending
  mark := h.mark
  console := h.console
  config := h.config
  meter := h.meter
  flooded := h.flooded
  abort := h.abort
  lock := h.lock
  commit := h.commit
  shelves := h.shelves
  minutes := h.minutes
  count := h.count
  point m hm := by
    rw [State.point_setPoint, if_neg, ← h.point m hm]
    · rfl
    · rintro rfl
      have := hm r hr rfl
      simp_all
  counter hs := by simp [hs r hr] at hb
  rises := by have := h.rises; simp only [State.setPoint_raiseCounter]; omega
  crew := h.crew
  duty := h.duty
  notices := h.notices
  overflow := h.overflow

/-- A record that ends at a shift change leaves the list, and its area counts one less. -/
theorem State.Frames.dropShelf (h : s.Frames t) {r : Shelf} (hr : r ∈ s.shelves) (hb : r.byShifts) :
    s.Frames (t.dropShelf r) :=
  have key (a : AreaNo) : (t.dropShelf r).area a =
      { t.area a with shelvedCount := if a = r.area then (t.area a).shelvedCount - 1 else (t.area a).shelvedCount } := by
    unfold State.dropShelf
    rw [State.area_modArea]
    split <;> simp_all [State.area]
  { h with
    config := fun a => by rw [key]; exact h.config a
    meter := fun a => by rw [key]; exact h.meter a
    flooded := fun a => by rw [key]; exact h.flooded a
    abort := fun a => by rw [key]; exact h.abort a
    lock := fun a => by rw [key]; exact h.lock a
    commit := fun a => by rw [key]; exact h.commit a
    duty := fun a => by rw [key]; exact h.duty a
    shelves := (List.filter_sublist.map _).trans h.shelves
    minutes := by
      refine Eq.trans ?_ h.minutes
      simp only [State.dropShelf, State.modArea_shelves, List.filter_filter]
      refine List.filter_congr fun x _ => ?_
      by_cases hx : x = r <;> simp [hx, hb]
    count := fun a ha => by
      rw [key, if_neg]
      · exact h.count a ha
      · rintro rfl
        simp [ha r hr rfl] at hb }

theorem State.Frames.endShelf (h : s.Frames t) {r : Shelf} (hr : r ∈ s.shelves) (hb : r.byShifts) :
    s.Frames (t.endShelf r) := by
  have h' := h.dropShelf hr hb
  unfold State.endShelf State.removeReason State.becomeNew
  dsimp only
  split
  · exact h'.setPoint hr hb _ (by simp only [nextSeq]; omega) _
  · exact h'.setPoint hr hb (t.dropShelf r).raiseCounter (Nat.min_le_left ..) _

theorem State.Frames.expireShelf (h : s.Frames t) {r : Shelf} (hr : r ∈ s.shelves) (hb : r.byShifts) :
    s.Frames (t.expireShelf r) :=
  ((h.endShelf hr hb).trans (State.notify_frames _ _)).trans (State.annunciate_frames _)

theorem State.Frames.expireAll (l : List Shelf) (hl : ∀ r ∈ l, r ∈ s.shelves ∧ r.byShifts) (h : s.Frames t) :
    s.Frames (l.foldl (fun s r => s.expireShelf r) t) := by
  induction l generalizing t with
  | nil => exact h
  | cons r l ih =>
    exact ih (fun q hq => hl q (List.mem_cons_of_mem r hq))
      (h.expireShelf (hl r List.mem_cons_self).1 (hl r List.mem_cons_self).2)

theorem Shelf.countDown_point (r : Shelf) : r.countDown.point = r.point := by
  unfold Shelf.countDown; split <;> rfl

theorem Shelf.countDown_byShifts (r : Shelf) : r.countDown.byShifts = r.byShifts := by
  unfold Shelf.countDown
  split <;> simp_all [Shelf.byShifts]

theorem Shelf.byShifts_of_spent {r : Shelf} (h : r.spent) : r.byShifts := by
  simp only [Shelf.spent, beq_iff_eq] at h
  simp [Shelf.byShifts, h]

theorem Shelf.countDown_kept (r : Shelf) : r.countDown.kept = r.kept := by
  unfold Shelf.countDown
  split
  · rename_i h; simp [Shelf.kept, h]
  · rfl

theorem Shelf.countDown_minutes {r : Shelf} (h : r.byShifts = false) : r.countDown = r := by
  unfold Shelf.countDown
  split
  · rename_i e; simp [Shelf.byShifts, e] at h
  · rfl

theorem State.countShelves_frames (s : State) : s.Frames s.countShelves := by
  unfold State.countShelves
  refine State.Frames.trans (t := { s with shelves := s.shelves.map Shelf.countDown }) ?_ ?_
  · refine { State.Frames.refl s with shelves := ?_, minutes := ?_ }
    · rw [List.map_map]
      rw [show Shelf.kept ∘ Shelf.countDown = Shelf.kept from funext Shelf.countDown_kept]
    · simp only [List.filter_map, Function.comp_def, Shelf.countDown_byShifts]
      refine (List.map_congr_left fun r hr => ?_).trans (List.map_id _)
      exact Shelf.countDown_minutes (by simpa using (List.mem_filter.mp hr).2)
  · refine State.Frames.expireAll _ (fun r hr => ?_) (.refl _)
    exact ⟨(List.mem_filter.mp hr).1, Shelf.byShifts_of_spent (List.mem_filter.mp hr).2⟩

theorem State.changeCrews_frames {k : Crew} {s : State} (hk : k = s.mill.incoming.getD s.mill.duty) :
    s.Frames (s.changeCrews k) :=
  .ofAreas _ s.pool s.freeCount _ (fun a => by simp [State.area, Area.Keeps, hk]) hk

theorem State.shiftChange_frames (s : State) : s.Frames s.shiftChange :=
  ((((State.changeCrews_frames rfl).trans (State.countShelves_frames _)).trans (State.notify_frames _ _)).trans
    (State.rederiveCoverage_frames _)).trans (State.driveOutputs_frames _)

/-! ### The end of an event -/

theorem Work.settle_frames (w : Work) : w.s.Frames w.settle := by
  unfold Work.settle
  dsimp only
  have h : w.s.Frames (if w.cover then w.s.rederiveCoverage else w.s) := by
    split
    · exact w.s.rederiveCoverage_frames
    · exact .refl _
  have h' := (h.trans (State.annunciate_frames _)).trans (State.notifyAll_frames w.out _)
  split
  · exact h'.trans (State.shiftChange_frames _)
  · exact h'

theorem State.freeSlots_frames (l : List SlotNo) (s : State) : s.Frames (s.freeSlots l) := by
  unfold State.freeSlots
  induction l generalizing s with
  | nil => exact .refl s
  | cons i l ih => exact (State.Frames.ofPool _ _ s.mill s).trans (ih (s.freeSlot i))

theorem State.clearReviews_frames (l : List SlotNo) (s : State) : s.Frames (s.clearReviews l) := by
  unfold State.clearReviews
  induction l generalizing s with
  | nil => exact .refl s
  | cons i l ih => exact (State.Frames.ofPool _ s.freeCount s.mill s).trans (ih _)

theorem State.capture_frames (a : AreaNo) (k : ItemKind) (s : State) : s.Frames (s.capture a k) := by
  unfold State.capture
  split
  · refine .trans ?_ (.modArea a _ _ fun _ => by simp [Area.Keeps])
    unfold State.placeItem
    exact .ofPool _ _ s.mill s
  · exact .refl s

theorem State.captureAll_frames (a : AreaNo) (l : List ItemKind) (s : State) :
    s.Frames (l.foldl (fun s k => s.capture a k) s) := by
  induction l generalizing s with
  | nil => exact .refl s
  | cons k l ih =>
    rw [List.foldl_cons]
    exact (s.capture_frames a k).trans (ih _)

theorem State.swapSheets_frames (a : AreaNo) (s : State) : s.Frames (s.swapSheets a) :=
by
  unfold State.swapSheets
  dsimp only
  refine .trans ?_ (.modArea a _ _ fun _ => by simp [Area.Keeps])
  refine .trans ?_ (State.captureAll_frames a _ _)
  refine .trans ?_ (State.clearReviews_frames _ _)
  refine .trans ?_ (State.freeSlots_frames _ _)
  exact .modArea a _ s fun _ => by simp [Area.Keeps, Area.swapFrames, Draft.reset]

theorem State.exchange_frames (a : AreaNo) (s : State) : s.Frames (s.exchange a) :=
by
  unfold State.exchange
  dsimp only
  refine .trans ?_ (Work.settle_frames _)
  refine .trans ?_ (Work.examine_frames a _ _)
  exact (s.swapSheets_frames a).trans (State.notify_frames (.sheetPosted a) _)

theorem State.reportShort_frames (a : AreaNo) (s : State) : s.Frames (s.reportShort a) := by
  unfold State.reportShort
  split
  · exact .refl s
  · refine .trans ?_ (State.notify_frames _ _)
    exact .modArea a _ s fun _ => by simp [Area.Keeps]

theorem State.examineSheet_frames (a : AreaNo) (s : State) : s.Frames (s.examineSheet a).1 := by
  unfold State.examineSheet
  split
  · split
    · exact s.exchange_frames a
    · exact s.reportShort_frames a
  · exact .refl s

theorem State.passOnce_frames (s : State) : s.Frames s.passOnce.1 := by
  have : ∀ (l : List AreaNo) (x : State × Bool), x.1.Frames
      (l.foldl (fun x a => let y := x.1.examineSheet a; (y.1, x.2 || y.2)) x).1 := by
    intro l
    induction l with
    | nil => exact fun x => .refl _
    | cons a l ih =>
      intro x
      rw [List.foldl_cons]
      refine .trans ?_ (ih _)
      exact x.1.examineSheet_frames a
  exact this allAreas (s, false)

theorem State.passes_frames (n : Nat) (s : State) : s.Frames (s.passes n) := by
  induction n generalizing s with
  | zero => exact .refl s
  | succ n ih =>
    unfold State.passes
    dsimp only
    split
    · exact s.passOnce_frames.trans (ih _)
    · exact s.passOnce_frames

/-- Everything that the end of an event can do. -/
theorem Work.finish_frames (w : Work) (after : List NoticeKind) : w.s.Frames (w.finish after) := by
  unfold Work.finish
  dsimp only
  have h := w.settle_frames.trans (State.notifyAll_frames after _)
  split
  · exact h.trans (State.passes_frames 33 _)
  · exact h

end Sys2Proof.Machine
end

