-- ==== Sys2Proof/Laws/Events.lean ====
section
/-! SUPPORT. What the end of an event leaves where no draft waits committed and the shift does not change: the handover
unit's state, the sheets and the pool stand, and only coverage, the annunciator and the queue follow. -/

namespace Sys2Proof.Machine

variable {s : State}

/-! ### The annunciator and the queue leave the rest -/

@[simp] theorem State.append_areas (k : NoticeKind) (s : State) : (s.append k).areas = s.areas := by
  unfold State.append; split <;> rfl
@[simp] theorem State.append_pool (k : NoticeKind) (s : State) : (s.append k).pool = s.pool := by
  unfold State.append; split <;> rfl
@[simp] theorem State.append_freeCount (k : NoticeKind) (s : State) : (s.append k).freeCount = s.freeCount := by
  unfold State.append; split <;> rfl
@[simp] theorem State.append_mill (k : NoticeKind) (s : State) : (s.append k).mill = s.mill := by
  unfold State.append; split <;> rfl

/-- A notice changes the queue alone. -/
theorem State.notify_queue (k : NoticeKind) (s : State) : ∃ q, s.notify k = { s with queue := q } := by
  have ha : ∀ k, ∃ q, s.append k = { s with queue := q } := by
    intro k; unfold State.append; split <;> exact ⟨_, rfl⟩
  unfold State.notify; split
  · split
    · exact ⟨_, rfl⟩
    · exact ha _
  · exact ha _

theorem State.notifyAll_queue (ks : List NoticeKind) (s : State) : ∃ q, s.notifyAll ks = { s with queue := q } := by
  induction ks generalizing s with
  | nil => exact ⟨_, rfl⟩
  | cons k ks ih =>
    obtain ⟨q, hq⟩ := s.notify_queue k
    obtain ⟨q', hq'⟩ := ih (s.notify k)
    exact ⟨q', hq'.trans (by rw [hq])⟩

theorem State.notify_eq (k : NoticeKind) (s : State) : s.notify k = { s with queue := (s.notify k).queue } := by
  obtain ⟨q, hq⟩ := s.notify_queue k
  rw [hq]

theorem State.notifyAll_eq (ks : List NoticeKind) (s : State) :
    s.notifyAll ks = { s with queue := (s.notifyAll ks).queue } := by
  obtain ⟨q, hq⟩ := s.notifyAll_queue ks
  rw [hq]

/-- The annunciator changes the consoles, the room horn and the queue alone. -/
theorem State.annunciate_rest (s : State) :
    ∃ consoles room queue, s.annunciate = { s with consoles, room, queue } := by
  obtain ⟨q, hq⟩ := s.setBanners.notifyAll_queue (s.bannerChanges.map fun c => .banner c (s.bannerOf c))
  unfold State.annunciate State.compareBanners
  rw [hq]
  exact ⟨_, _, _, by simp only [State.driveOutputs, State.setBanners]; rfl⟩

/-- Coverage changes the covered flags and the queue alone. -/
theorem State.rederiveCoverage_rest (s : State) :
    ∃ queue, s.rederiveCoverage = { s with areas := s.setCoverage.areas, queue } := by
  obtain ⟨q, hq⟩ := s.setCoverage.notifyAll_queue (s.coverageChanges.map s.coverageNotice)
  exact ⟨q, hq.trans (by simp only [State.setCoverage])⟩

/-! ### A pass that finds no committed draft -/

/-- With no draft committed, an examination finds nothing (R129 condition 1). -/
theorem State.examineSheet_quiet (h : s.noCommits) (a : AreaNo) : s.examineSheet a = (s, false) := by
  have : s.exchangeReady a = false := by simp [State.exchangeReady, h a]
  simp [State.examineSheet, this]

theorem State.passOnce_quiet (h : s.noCommits) : s.passOnce = (s, false) := by
  unfold State.passOnce
  generalize allAreas = l
  induction l with
  | nil => rfl
  | cons a l ih => simpa [State.examineSheet_quiet h a] using ih

theorem State.examineSheets_quiet (h : s.noCommits) : s.examineSheets = s := by
  simp [State.examineSheets, State.passes, State.passOnce_quiet h]

/-! ### The quiet end of an event -/

/-- What the end of an event without a shift change and without committed drafts leaves of the work `w`. -/
structure Work.Quiet (w : Work) (t : State) : Prop where
  points : t.points = w.s.points
  mill   : t.mill = w.s.mill
  pool   : t.pool = w.s.pool
  free   : t.freeCount = w.s.freeCount
  shelves : t.shelves = w.s.shelves
  areas  : w.cover = false → t.areas = w.s.areas
  area   : ∀ a, t.area a = { w.s.area a with covered := (t.area a).covered }

theorem Work.settle_quiet (w : Work) (hs : w.shift = false) : w.Quiet w.settle := by
  unfold Work.settle
  simp only [hs, Bool.false_eq_true, if_false]
  obtain ⟨q, hq⟩ := State.notifyAll_queue w.out (if w.cover then w.s.rederiveCoverage else w.s).annunciate
  obtain ⟨cs, r, q', ha⟩ := State.annunciate_rest (if w.cover then w.s.rederiveCoverage else w.s)
  rw [hq, ha]
  rcases hc : w.cover with _ | _
  · exact ⟨rfl, rfl, rfl, rfl, rfl, fun _ => rfl, fun _ => rfl⟩
  · obtain ⟨q'', h⟩ := w.s.rederiveCoverage_rest
    simp only [if_true]
    rw [h]
    refine ⟨rfl, rfl, rfl, rfl, rfl, by simp [hc], fun a => ?_⟩
    have := State.area_setCoverage w.s a
    simp only [State.area] at this ⊢
    rw [this]

/-- Where no draft waits committed the sheet store's pass finds nothing, and the event ends as it has settled. -/
theorem Work.finish_eq (w : Work) (after : List NoticeKind) (hc : w.s.noCommits) :
    w.finish after = w.settle.notifyAll after := by
  unfold Work.finish
  split
  · exact State.examineSheets_quiet ((w.settle_frames.trans (State.notifyAll_frames after _)).noCommits hc)
  · rfl

/-- Where nothing of R130 has occurred there is no pass, and the event ends as it has settled. -/
theorem Work.finish_settled (w : Work) (after : List NoticeKind) (h : w.sheets = false) :
    w.finish after = w.settle.notifyAll after := by simp [Work.finish, h]

theorem Work.finish_quiet (w : Work) (after : List NoticeKind) (hs : w.shift = false) (hc : w.s.noCommits) :
    w.Quiet (w.finish after) := by
  have q := w.settle_quiet hs
  rw [w.finish_eq after hc, State.notifyAll_eq]
  exact ⟨q.points, q.mill, q.pool, q.free, q.shelves, q.areas, q.area⟩

end Sys2Proof.Machine
end

