-- ==== Sys2Proof/Laws/Fields.lean ====
section
/-! SUPPORT. The encodings of R180 read back: what each field's reader gives for the bytes of a value, and what each
request's reader gives for the payload that its fields spell. -/

namespace Sys2Proof.Machine

/-! ### Numbers -/

theorem byte_toNat {n : Nat} (h : n < 256) : (byte n).toNat = n := by
  simp only [byte, BitVec.toNat_ofNat]; omega

theorem num16_be16 {n : Nat} (h : n < 65536) : num16 (byte (n / 256)) (byte n) = n := by
  simp only [num16, byte, BitVec.toNat_ofNat]; omega

theorem num32_be32 {n : Nat} (h : n < 4294967296) :
    num32 (byte (n / 16777216)) (byte (n / 65536)) (byte (n / 256)) (byte n) = n := by
  simp only [num32, num16, byte, BitVec.toNat_ofNat]; omega

theorem below_val {n : Nat} (x : Fin n) : below n x.val = some x := by simp [below]

theorem within_self {lo hi k : Nat} (h : lo ≤ k) (h' : k ≤ hi) : within lo hi k = some k := by simp [within, h, h']

/-! ### One field -/

@[simp] theorem flagOf_flagByte (b : Bool) : flagOf (flagByte b) = some b := by cases b <;> rfl

@[simp] theorem areaOf_byte (a : AreaNo) : areaOf (byte a.val) = some a := by
  rw [areaOf, byte_toNat (by omega)]; exact below_val a

@[simp] theorem consoleOf_byte (c : ConsoleNo) : consoleOf (byte c.val) = some c := by
  rw [consoleOf, byte_toNat (by omega)]; exact below_val c

@[simp] theorem pointOf_be16 (n : PointNo) : pointOf (byte (n.val / 256)) (byte n.val) = some n := by
  rw [pointOf, num16_be16 (by omega)]; exact below_val n

theorem operatorOf_be16 {n : Nat} (h : 1 ≤ n) (h' : n ≤ 9999) :
    operatorOf (byte (n / 256)) (byte n) = some n := by
  rw [operatorOf, num16_be16 (by omega)]; exact within_self h h'

theorem byte_eq_zero {n : Nat} (h : n < 256) : byte n = 0 ↔ n = 0 := by
  rw [← BitVec.toNat_inj, byte_toNat h]; rfl

theorem byte_ne_none {n : Nat} (h : n < 255) : byte n ≠ 0xFF#8 := by
  intro e; have := congrArg BitVec.toNat e; rw [byte_toNat (by omega)] at this; simp at this; omega

@[simp] theorem codeOf_byte (c : TripNo) : codeOf (byte (c.val + 1)) = some c := by
  rw [codeOf, if_neg (mt (byte_eq_zero (by omega)).mp (by omega)), byte_toNat (by omega)]; exact below_val c

@[simp] theorem crewOf_byte (k : Crew) : crewOf (byte k.code) = some k := by cases k <;> rfl
@[simp] theorem roleOf_byte (r : Role) : roleOf (byte r.code) = some r := by cases r <;> rfl
@[simp] theorem priorityOf_byte (p : Priority) : priorityOf (byte p.num) = some p := by cases p <;> rfl
@[simp] theorem stepKindOf_byte (k : StepKind) : stepKindOf (byte k.code) = some k := by cases k <;> rfl

@[simp] theorem fiveOf_byte (v : BitVec 5) : fiveOf (byte v.toNat) = some v := by
  have h := v.isLt
  rw [fiveOf, if_pos (by rw [byte_toNat (by omega)]; omega)]
  congr 1
  apply BitVec.eq_of_toNat_eq
  simp only [byte, BitVec.toNat_setWidth, BitVec.toNat_ofNat]; omega

@[simp] theorem pairOf_byte (q : Pair) : pairOf (byte q.value.toNat) (byte q.mask.toNat) = some q := by
  simp [pairOf]

@[simp] theorem optionOf_none (f : Byte → Option α) : optionOf f 0xFF#8 = some none := rfl

theorem optionOf_some (f : Byte → Option α) {b : Byte} (h : b ≠ 0xFF#8) : optionOf f b = (f b).map some := if_neg h

@[simp] theorem optionOf_console (c : ConsoleNo) : optionOf consoleOf (byte c.val) = some (some c) := by
  rw [optionOf_some _ (byte_ne_none (by omega)), consoleOf_byte]; rfl

@[simp] theorem optionOf_area (a : AreaNo) : optionOf areaOf (byte a.val) = some (some a) := by
  rw [optionOf_some _ (byte_ne_none (by omega)), areaOf_byte]; rfl

/-! ### The payloads of the requests -/

@[simp] theorem parsePoint_be16 (n : PointNo) : parsePoint (be16 n.val) = some n := by simp [be16, parsePoint]

theorem parseTime_be32 {n : Nat} (h : n < 4294967296) : parseTime (be32 n) = some n := by
  simp [be32, parseTime, num32_be32 h]

@[simp] theorem parseConsolePoint_bytes (c : ConsoleNo) (n : PointNo) :
    parseConsolePoint (byte c.val :: be16 n.val) = some (c, n) := by simp [be16, parseConsolePoint]

@[simp] theorem parseConsoleArea_bytes (c : ConsoleNo) (a : AreaNo) :
    parseConsoleArea [byte c.val, byte a.val] = some (c, a) := by simp [parseConsoleArea]

theorem parsePosition_bytes (c : ConsoleNo) (a : AreaNo) {hi p : Nat} (h : p ≤ hi) (h' : hi < 256) :
    parsePosition hi [byte c.val, byte a.val, byte p] = some (c, a, p) := by
  simp [parsePosition, byte_toNat (show p < 256 by omega), within_self (Nat.zero_le p) h]

@[simp] theorem parseAreaOnly_byte (a : AreaNo) : parseAreaOnly [byte a.val] = some a := by simp [parseAreaOnly]
@[simp] theorem parseCrew_byte (k : Crew) : parseCrew [byte k.code] = some k := by simp [parseCrew]

@[simp] theorem parseSetPoint_bytes (n : PointNo) (a : AreaNo) (q : Priority) :
    parseSetPoint (be16 n.val ++ [byte a.val, byte q.num]) = some (n, a, q) := by simp [be16, parseSetPoint]

theorem parseSignOn_bytes (c : ConsoleNo) {n : Nat} (h : 1 ≤ n) (h' : n ≤ 9999) :
    parseSignOn (byte c.val :: be16 n) = some (c, n) := by simp [be16, parseSignOn, operatorOf_be16 h h']

@[simp] theorem parseSignOff_host (c : ConsoleNo) : parseSignOff [0xFF#8, byte c.val] = some (none, c) := by
  simp [parseSignOff]

@[simp] theorem parseSignOff_console (c : ConsoleNo) :
    parseSignOff [byte c.val, byte c.val] = some (some c, c) := by simp [parseSignOff]

@[simp] theorem parseSilence_bytes (c : ConsoleNo) (b : Bool) :
    parseSilence [byte c.val, flagByte b] = some (c, b) := by simp [parseSilence]

@[simp] theorem parseAckHead_none (c : ConsoleNo) :
    parseAckHead [byte c.val, 0xFF#8, 0xFF#8] = some (c, none) := by simp [parseAckHead, num16]

@[simp] theorem parseAckHead_some (c : ConsoleNo) (n : PointNo) :
    parseAckHead (byte c.val :: be16 n.val) = some (c, some n) := by
  simp [be16, parseAckHead, num16_be16 (show n.val < 65536 by omega)]; omega

theorem parseAckArea_bytes (c : ConsoleNo) (a : AreaNo) {l : Nat} (h : 2 ≤ l) (h' : l ≤ 4) :
    parseAckArea [byte c.val, byte a.val, byte l] = some (c, a, l) := by
  simp [parseAckArea, byte_toNat (show l < 256 by omega), within_self h h']

@[simp] theorem parseRelease_host (k : TripNo) :
    parseRelease [0xFF#8, byte (k.val + 1)] = some (none, k) := by simp [parseRelease]

@[simp] theorem parseRelease_console (c : ConsoleNo) (k : TripNo) :
    parseRelease [byte c.val, byte (k.val + 1)] = some (some c, k) := by simp [parseRelease]

theorem parseShift_bytes (k : Crew) {n : Nat} (h : n ≤ 65535) :
    parseShift (be16 n ++ [byte k.code]) = some (n, k) := by
  simp [be16, parseShift, num16_be16 (show n < 65536 by omega)]

theorem parseShelve_bytes (c : ConsoleNo) (n : PointNo) (minutes : Bool) {v : Nat} (h : 1 ≤ v)
    (h' : v ≤ if minutes then 720 else 3) :
    parseShelve (byte c.val :: be16 n.val ++ [if minutes then 0 else 1] ++ be16 v)
      = some (c, n, if minutes then .minutes v else .shifts v) := by
  cases minutes <;>
    simp [be16, parseShelve, num16_be16 (show v < 65536 by simp at h'; omega), within_self h (by simpa using h')]

theorem parseTripCode_bytes (k : TripNo) (configured : Bool) (start : EntryNo) (areas : BitVec 32) {hold : Nat}
    (h : hold ≤ 65535) :
    parseTripCode ([byte (k.val + 1), flagByte configured] ++ be16 start.val ++ be32 areas.toNat ++ be16 hold)
      = some (k, { configured, start, areas, holdTime := min hold 1440, clamped := decide (1440 < hold) }) := by
  have e := num32_be32 areas.isLt
  simp [be16, be32, parseTripCode, num16_be16 (show hold < 65536 by omega),
    num16_be16 (show start.val < 65536 by omega), below_val, e]

end Sys2Proof.Machine
end

