-- ==== Sys2Proof/Laws/Handler.lean ====
section
/-! SUPPORT. What the request handler does with a frame that it takes (R163 to R165): the two kinds of request, and the two
kinds of answer. -/

namespace Sys2Proof.Machine

variable {s u t : State}

/-- A DONE answer is the state the owner left, with its reply sent. -/
@[simp] theorem State.answer_taken (kind tag : Byte) (t : State) (data : List Byte) (s : State) :
    s.answer kind tag (taken t data) = t.replyDone kind tag data := rfl

/-- A refusal sends its reply and changes nothing. -/
@[simp] theorem State.answer_refuse (kind tag : Byte) (x : Status) (s : State) :
    s.answer kind tag (refuse x) = s.send (replyFrame kind tag x []) := rfl

/-- In the operating state it is taken in, a request that was read acts. -/
theorem checkRequest_taken {α : Type} (x : α) {m : TakenIn} {act : State → α → Answer} (h : m.refusal u.mode = none) :
    checkRequest (some x) m act u = act u x := by simp [checkRequest, h]

@[simp] theorem refusal_both (m : Mode) : TakenIn.both.refusal m = none := by cases m <;> rfl
@[simp] theorem refusal_run : TakenIn.run.refusal .run = none := rfl
@[simp] theorem refusal_config : TakenIn.config.refusal .config = none := rfl

/-- A host request whose frame is taken and whose payload is read as `x` is answered by its owner. -/
theorem hostRequest_read {α : Type} {kind tag : Byte} {p : List Byte} {parse : List Byte → Option α} {m : TakenIn}
    {act : State → α → Answer} {x : α} (ht : s.take { kind, tag, payload := p } = some u) (hp : parse p = some x)
    (hm : m.refusal u.mode = none) : hostRequest kind tag p parse m act s = .next (u.answer kind tag (act u x)) := by
  simp [hostRequest, ht, hp, checkRequest_taken x hm]

/-- A console request whose frame is taken and whose payload is read as `x`: its activity is noted, then its owner
answers. -/
theorem consoleRequest_read {α : Type} {kind tag : Byte} {p : List Byte} {parse : List Byte → Option α}
    {act : State → α → Answer} {x : α} (ht : s.take { kind, tag, payload := p } = some u) (hp : parse p = some x)
    (hm : (u.noteActivity p).mode = .run) :
    consoleRequest kind tag p parse act s = .next ((u.noteActivity p).answer kind tag (act (u.noteActivity p) x)) := by
  simp [consoleRequest, ht, hp, checkRequest, hm, TakenIn.refusal]

/-- A console request of the console `c` that its payload names. -/
theorem consoleRequest_at {α : Type} {kind tag : Byte} {c : ConsoleNo} {p : List Byte} {parse : List Byte → Option α}
    {act : State → α → Answer} {x : α} (ht : s.takesAt c { kind, tag, payload := byte c.val :: p } = some u)
    (hp : parse (byte c.val :: p) = some x) (hm : u.mode = .run) :
    consoleRequest kind tag (byte c.val :: p) parse act s = .next (u.answer kind tag (act u x)) := by
  simp only [State.takesAt, Option.map_eq_some_iff] at ht
  obtain ⟨v, hv, rfl⟩ := ht
  have e : v.noteActivity (byte c.val :: p) = v.activity c := by simp [State.noteActivity]
  rw [consoleRequest_read hv hp (by rw [e]; exact hm), e]

/-- What taking a frame leaves: the same part, with the frame gone from the order. -/
theorem State.take_eq {f : Frame} (h : s.take f = some u) : u = { s with link := u.link } := by
  unfold State.take at h
  split at h
  · cases h; rfl
  · split at h <;> cases h; rfl
  · cases h

@[simp] theorem withOperator_ok (o : Operator) (act : Operator → Answer) : withOperator (.ok o) act = act o := rfl
@[simp] theorem withOperator_error (x : Status) (act : Operator → Answer) :
    withOperator (.error x) act = refuse x := rfl

end Sys2Proof.Machine
end

