-- ==== Sys2Proof/Laws/Notices.lean ====
section
/-! SUPPORT. The notices that the end of an event gives, operation by operation: each tells of exactly what it changes
(`State.Tells`), and the handovers pass on as their notices say (`State.PassesSteps`). -/

namespace Sys2Proof.Machine

variable {s t u : State} {a : AreaNo}

/-! ### Label by label -/

theorem Follows.trans {α β : Type} {R : α → β → α → Prop} {x y z : α} {l m : List β} (h : Follows R x l y)
    (k : Follows R y m z) : Follows R x (l ++ m) z := by
  induction l generalizing x with
  | nil => cases h; exact k
  | cons b l ih =>
    obtain ⟨w, hb, hw⟩ := h
    exact ⟨w, hb, ih hw⟩

/-! ### Notices handed on -/

/-- Only what the queue reads matters to it: its own state, the clock and the trigger level. -/
theorem State.notify_congr (k : NoticeKind) (hq : t.queue = s.queue) (hc : t.clock = s.clock)
    (hs : t.settings = s.settings) : (t.notify k).queue = (s.notify k).queue := by
  have happ : ∀ k, (t.append k).queue = (s.append k).queue := by
    intro k
    simp only [State.append, State.deriveAttention, State.now, hq, hc, hs]
    split <;> rfl
  unfold State.notify
  split
  · simp only [hq]
    split
    · simp only [State.mergeBanner, State.now, hq, hc]
    · exact happ _
  · exact happ _

@[simp] theorem State.notify_clock (k : NoticeKind) (s : State) : (s.notify k).clock = s.clock := by
  rw [State.notify_eq]
@[simp] theorem State.notify_settings (k : NoticeKind) (s : State) : (s.notify k).settings = s.settings := by
  rw [State.notify_eq]

theorem State.notifyAll_congr (ks : List NoticeKind) (hq : t.queue = s.queue) (hc : t.clock = s.clock)
    (hs : t.settings = s.settings) : (t.notifyAll ks).queue = (s.notifyAll ks).queue := by
  induction ks generalizing s t with
  | nil => exact hq
  | cons k ks ih => exact ih (State.notify_congr k hq hc hs) (by simp [hc]) (by simp [hs])

theorem State.notifyAll_append (ks ls : List NoticeKind) (s : State) :
    s.notifyAll (ks ++ ls) = (s.notifyAll ks).notifyAll ls := List.foldl_append ..

theorem State.Hands.trans {ks ls : List NoticeKind} (h : s.Hands t ks) (k : t.Hands u ls) (hc : t.clock = s.clock)
    (hs : t.settings = s.settings) : s.Hands u (ks ++ ls) := by
  unfold State.Hands at *
  rw [State.notifyAll_append, k]
  refine State.notifyAll_congr ls h ?_ ?_
  · rw [State.notifyAll_eq]; exact hc
  · rw [State.notifyAll_eq]; exact hs

/-! ### What the end of an event tells -/

theorem State.Tells.trans {ks ls : List NoticeKind} (f : s.Frames t) (h : s.Tells t ks) (k : t.Tells u ls) :
    s.Tells u (ks ++ ls) where
  queue := h.queue.trans k.queue f.clock f.settings
  kinds x hx := (List.mem_append.mp hx).elim (h.kinds x) (k.kinds x)
  covered a := by
    have h1 := h.covered a
    have h2 := k.covered a
    rw [f.config a] at h2
    rw [List.filterMap_append]
    split
    · rw [if_pos ‹_›] at h1 h2; exact h1.trans h2
    · rw [if_neg ‹_›] at h1 h2; rw [h1, h2]; rfl
  heads c := by rw [List.filterMap_append]; exact (h.heads c).trans (k.heads c)
  shifts := by
    have h2 := k.shifts
    rw [f.crew] at h2
    rw [List.filterMap_append]; exact h.shifts.trans h2
  expired n := by
    rw [List.count_append]
    have h1 := h.expired n
    have h2 := k.expired n
    omega
  sheets a := by rw [List.filterMap_append]; exact (h.sheets a).trans (k.sheets a)

/-- Where nothing that notices tell of has changed, none is given. -/
theorem State.Tells.silent (hq : t.queue = s.queue) (hc : ∀ a, (t.area a).covered = (s.area a).covered)
    (hh : ∀ c, (t.console c).head = (s.console c).head)
    (hm : t.mill.shift = s.mill.shift ∧ t.mill.duty = s.mill.duty) (hl : t.shelves = s.shelves)
    (hd : ∀ a, (t.area a).draft.commit = (s.area a).draft.commit ∧ (t.area a).draft.poolShort = (s.area a).draft.poolShort) :
    s.Tells t [] where
  queue := hq
  kinds := nofun
  covered a := by split; exacts [(hc a).symm, rfl]
  heads c := (hh c).symm
  shifts := by simp only [List.filterMap_nil, Follows, hm.1, hm.2, hl]
  expired n := by simp [hl]
  sheets a := by simp only [List.filterMap_nil, Follows, (hd a).1, (hd a).2]

theorem State.Tells.refl (s : State) : s.Tells s [] :=
  .silent rfl (fun _ => rfl) (fun _ => rfl) ⟨rfl, rfl⟩ rfl fun _ => ⟨rfl, rfl⟩

/-! ### The steps that an event passes -/

theorem State.PassesSteps.trans {h h' h'' : Handover} {ks ls : List NoticeKind} (x : s.PassesSteps a h ks h')
    (y : s.PassesSteps a h' ls h'') : s.PassesSteps a h (ks ++ ls) h'' := by
  induction x with
  | rests h => exact y
  | step p d e ks h c _ ih => rw [List.append_assoc]; exact .step p d e _ _ c (ih y)
  | shift h n k ks h' _ ih => exact .shift h n k _ _ (ih y)

theorem State.stepEntry_congr (hs : t.steps = s.steps) (i : StepNo) : t.stepEntry i = s.stepEntry i := by
  simp only [State.stepEntry, hs]

/-- Entering a step reads the clock and the step store. -/
theorem State.entered_congr (hc : t.clock = s.clock) (hs : t.steps = s.steps) (p : Position) (r : Reasons) :
    t.entered p r = s.entered p r := by
  have hd : t.deadlineIn = s.deadlineIn := funext fun n => by simp only [State.deadlineIn, State.now, hc]
  simp only [State.entered, State.stepEntry_congr hs, hd]

theorem State.completion_congr (hc : t.clock = s.clock) (hs : t.steps = s.steps)
    (hk : t.mill.incoming.getD t.mill.duty = s.mill.incoming.getD s.mill.duty) (p : Position) :
    t.completion a p = s.completion a p := by
  simp only [State.completion, State.entered_congr hc hs, hk, State.stepEntry_congr hs]

theorem State.PassesSteps.congr (hc : t.clock = s.clock) (hs : t.steps = s.steps)
    (hk : t.mill.incoming.getD t.mill.duty = s.mill.incoming.getD s.mill.duty) {h h' : Handover} {ks : List NoticeKind}
    (x : t.PassesSteps a h ks h') : s.PassesSteps a h ks h' := by
  induction x with
  | rests h => exact .rests h
  | step p d e ks h c _ ih =>
    rw [State.completion_congr hc hs hk] at ih ⊢
    exact .step p d e _ _ (by rwa [State.stepEntry_congr hs] at c) ih
  | shift h n k ks h' _ ih => exact .shift h n k _ _ ih

theorem State.HandoverGoes.trans {own : Option (List NoticeKind × Handover)} {h h' h'' : Handover} {ks ls : List NoticeKind}
    (x : s.HandoverGoes own a h ks h') (y : s.PassesSteps a h' ls h'') : s.HandoverGoes own a h (ks ++ ls) h'' := by
  unfold State.HandoverGoes at *
  split at x
  · obtain ⟨l, rfl, hl⟩ := x
    exact ⟨l ++ ls, List.append_assoc .., hl.trans y⟩
  · rcases x with hl | ⟨l, rfl, hl⟩
    · exact .inl (hl.trans y)
    · exact .inr ⟨l ++ ls, List.append_assoc .., hl.trans y⟩

/-! ### One stretch of the end of an event -/

/-- A stretch of the end of an event: it changes what it may, tells of what it changes, and each handover goes on as its
notices say. -/
structure State.Proceeds (s t : State) (ks : List NoticeKind) : Prop where
  frames : s.Frames t
  tells  : s.Tells t ks
  steps  : ∀ a, s.PassesSteps a (s.area a).handover (ks.filter (·.tells a)) (t.area a).handover

theorem State.Proceeds.trans {ks ls : List NoticeKind} (h : s.Proceeds t ks) (k : t.Proceeds u ls) :
    s.Proceeds u (ks ++ ls) where
  frames := h.frames.trans k.frames
  tells := h.tells.trans h.frames k.tells
  steps a := by
    rw [List.filter_append]
    exact (h.steps a).trans ((k.steps a).congr h.frames.clock h.frames.steps h.frames.crew)

theorem State.Proceeds.silent (f : s.Frames t) (hq : t.queue = s.queue) (hc : ∀ a, (t.area a).covered = (s.area a).covered)
    (hh : ∀ c, (t.console c).head = (s.console c).head)
    (hm : t.mill.shift = s.mill.shift ∧ t.mill.duty = s.mill.duty) (hl : t.shelves = s.shelves)
    (hd : ∀ a, (t.area a).draft.commit = (s.area a).draft.commit ∧ (t.area a).draft.poolShort = (s.area a).draft.poolShort)
    (ho : ∀ a, (t.area a).handover = (s.area a).handover) : s.Proceeds t [] where
  frames := f
  tells := .silent hq hc hh hm hl hd
  steps a := by rw [ho]; exact .rests _

theorem State.Proceeds.refl (s : State) : s.Proceeds s [] :=
  .silent (.refl s) rfl (fun _ => rfl) (fun _ => rfl) ⟨rfl, rfl⟩ rfl (fun _ => ⟨rfl, rfl⟩) fun _ => rfl

/-! ### A notice for each of a list of changes -/

theorem filterMap_pick {α β γ : Type} [DecidableEq α] {l : List α} (hl : l.Nodup) (p : α → Bool) (f : α → β)
    (g : β → Option γ) (a : α) (v : γ) (hg : ∀ b, g (f b) = if b = a then some v else none) :
    ((l.filter p).map f).filterMap g = if a ∈ l ∧ p a then [v] else [] := by
  induction l with
  | nil => simp
  | cons b l ih =>
    have hb := List.nodup_cons.mp hl
    by_cases hp : p b
    · rw [List.filter_cons_of_pos hp, List.map_cons, List.filterMap_cons, hg]
      by_cases h : b = a
      · subst h
        simp [ih hb.2, hb.1, hp]
      · rw [if_neg h]
        simp [ih hb.2, Ne.symm h]
    · rw [List.filter_cons_of_neg hp, ih hb.2]
      by_cases h : b = a
      · subst h; simp [hb.1, hp]
      · simp [Ne.symm h]

/-- Notices none of which says anything of the kind asked for. -/
theorem filterMap_none {β γ : Type} {l : List β} {g : β → Option γ} (h : ∀ b ∈ l, g b = none) : l.filterMap g = [] :=
  List.filterMap_eq_nil_iff.mpr h

theorem count_none {l : List NoticeKind} {k : NoticeKind} (h : k ∉ l) : l.count k = 0 := List.count_eq_zero.mpr h

theorem Keyed.nil {key : NoticeKind → Option Nat} {R : Nat → Nat → Prop} : Keyed key R [] := ⟨nofun, .nil⟩

/-- Notices in the order of the records they tell of. -/
theorem Keyed.ofChanges {n : Nat} (key : NoticeKind → Option Nat) (p : Fin n → Bool) (f : Fin n → NoticeKind)
    (h : ∀ i, key (f i) = some i.val) : Keyed key (· < ·) (((List.finRange n).filter p).map f) := by
  refine ⟨fun k hk => ?_, ?_⟩
  · obtain ⟨i, -, rfl⟩ := List.mem_map.mp hk
    simp [h]
  · rw [List.pairwise_map]
    refine List.Pairwise.imp ?_ ((List.pairwise_lt_finRange n).filter p)
    intro i j hij
    simpa [h] using hij

/-! ### Coverage and banners -/

/-- The notices of coverage re-derived. -/
def State.coverageNotices (s : State) : List NoticeKind := s.coverageChanges.map s.coverageNotice

theorem State.coverageNotice_cases (s : State) (a : AreaNo) :
    s.coverageNotice a = .areaCovered a ∧ s.coveredNow a = true ∨ s.coverageNotice a = .areaUncovered a ∧ s.coveredNow a = false := by
  unfold State.coverageNotice; split <;> simp_all

theorem State.mem_coverageNotices {k : NoticeKind} (h : k ∈ s.coverageNotices) : ∃ a, k = .areaCovered a ∨ k = .areaUncovered a := by
  obtain ⟨a, -, rfl⟩ := List.mem_map.mp h
  exact ⟨a, (s.coverageNotice_cases a).elim (fun x => .inl x.1) (fun x => .inr x.1)⟩

theorem State.coverageNotices_keyed (s : State) : Keyed NoticeKind.coverageArea (· < ·) s.coverageNotices :=
  .ofChanges _ _ _ fun a => by rcases s.coverageNotice_cases a with ⟨e, -⟩ | ⟨e, -⟩ <;> rw [e] <;> rfl

theorem State.rederiveCoverage_proceeds (s : State) : s.Proceeds s.rederiveCoverage s.coverageNotices := by
  obtain ⟨q, he⟩ := s.rederiveCoverage_rest
  have hk (k : NoticeKind) (h : k ∈ s.coverageNotices) := State.mem_coverageNotices h
  have hareas : s.rederiveCoverage.areas = s.setCoverage.areas := by rw [he]
  have harea (a : AreaNo) : s.rederiveCoverage.area a = { s.area a with covered := s.coveredNow a } := by
    rw [← State.area_setCoverage s a]; simp only [State.area, hareas]
  have hcov (a : AreaNo) : (s.rederiveCoverage.area a).covered = s.coveredNow a :=
    congrArg Area.covered (harea a)
  have hcon (c : ConsoleNo) : s.rederiveCoverage.console c = s.console c := by rw [he]; simp only [State.console]
  have hmill : s.rederiveCoverage.mill = s.mill := by rw [he]
  have hshelves : s.rederiveCoverage.shelves = s.shelves := by rw [he]
  refine ⟨s.rederiveCoverage_frames, ⟨?_, ?_, ?_, ?_, ?_, ?_, ?_⟩, ?_⟩
  · exact State.notifyAll_congr (s := s) (t := s.setCoverage) _ (by simp) (by simp) (by simp)
  · intro k h; obtain ⟨a, rfl | rfl⟩ := hk k h <;> rfl
  · intro a
    have hp := filterMap_pick (List.nodup_finRange 32) (fun a => (s.area a).config.configured && (s.area a).covered != s.coveredNow a)
      s.coverageNotice (·.coverage? a) a (s.coveredNow a) fun b => by
        rcases s.coverageNotice_cases b with ⟨e, f⟩ | ⟨e, f⟩ <;> rw [e] <;> by_cases h : b = a <;>
          simp_all [NoticeKind.coverage?]
    rw [State.coverageNotices, State.coverageChanges, allAreas, hp, hcov]
    split
    · rename_i hc
      by_cases h : (s.area a).covered = s.coveredNow a
      · rw [if_neg (by simp [h])]; exact h
      · rw [if_pos (by simp [hc, h, List.mem_finRange])]; exact ⟨_, ⟨Ne.symm h, rfl⟩, rfl⟩
    · rename_i hc
      rw [if_neg (by simp [hc])]
  · intro c
    rw [filterMap_none fun k h => by obtain ⟨a, rfl | rfl⟩ := hk k h <;> rfl, hcon]; rfl
  · rw [filterMap_none fun k h => by obtain ⟨a, rfl | rfl⟩ := hk k h <;> rfl, hmill, hshelves]; rfl
  · intro n
    rw [count_none fun h => (by obtain ⟨a, e | e⟩ := hk _ h <;> cases e), hshelves, Nat.zero_add]
  · intro a
    rw [filterMap_none fun k h => by obtain ⟨a, rfl | rfl⟩ := hk k h <;> rfl, harea]; exact rfl
  · intro a
    rw [List.filter_eq_nil_iff.mpr fun k h => by obtain ⟨a, rfl | rfl⟩ := hk k h <;> simp [NoticeKind.tells, NoticeKind.handoverArea, NoticeKind.shift?], harea]
    exact .rests _

/-- The notices of the banner comparison. -/
def State.bannerNotices (s : State) : List NoticeKind := s.bannerChanges.map fun c => .banner c (s.bannerOf c)

theorem State.mem_bannerNotices {k : NoticeKind} (h : k ∈ s.bannerNotices) : ∃ c x, k = .banner c x := by
  obtain ⟨c, -, rfl⟩ := List.mem_map.mp h
  exact ⟨c, _, rfl⟩

theorem State.bannerNotices_keyed (s : State) : Keyed NoticeKind.bannerConsole (· < ·) s.bannerNotices :=
  .ofChanges _ _ _ fun _ => rfl

theorem State.compareBanners_proceeds (s : State) : s.Proceeds s.compareBanners s.bannerNotices := by
  have he : s.compareBanners = { s.setBanners with queue := s.compareBanners.queue } := State.notifyAll_eq _ _
  have hk (k : NoticeKind) (h : k ∈ s.bannerNotices) := State.mem_bannerNotices h
  have hcon (c : ConsoleNo) : (s.compareBanners.console c).head = s.bannerOf c := by
    rw [he]; simp [State.console, State.setBanners]
  have harea (a : AreaNo) : s.compareBanners.area a = s.area a := by rw [he]; rfl
  have hmill : s.compareBanners.mill = s.mill := by rw [he, State.setBanners]
  have hshelves : s.compareBanners.shelves = s.shelves := by rw [he, State.setBanners]
  refine ⟨s.compareBanners_frames, ⟨?_, ?_, ?_, ?_, ?_, ?_, ?_⟩, ?_⟩
  · exact State.notifyAll_congr (s := s) (t := s.setBanners) _ (by simp) (by simp) (by simp)
  · intro k h; obtain ⟨c, x, rfl⟩ := hk k h; rfl
  · intro a
    rw [filterMap_none fun k h => by obtain ⟨c, x, rfl⟩ := hk k h; rfl, harea]
    split <;> rfl
  · intro c
    have hp := filterMap_pick (List.nodup_finRange 8) (fun c => (s.console c).head != s.bannerOf c)
      (fun c => NoticeKind.banner c (s.bannerOf c)) (·.head? c) c (s.bannerOf c) fun b => by
        by_cases h : b = c <;> simp [NoticeKind.head?, h]
    rw [State.bannerNotices, State.bannerChanges, allConsoles, hp, hcon]
    by_cases h : (s.console c).head = s.bannerOf c
    · rw [if_neg (by simp [h])]; exact h
    · rw [if_pos (by simp [h, List.mem_finRange])]; exact ⟨_, ⟨Ne.symm h, rfl⟩, rfl⟩
  · rw [filterMap_none fun k h => by obtain ⟨c, x, rfl⟩ := hk k h; rfl, hmill, hshelves]; rfl
  · intro n
    rw [count_none fun h => (by obtain ⟨c, x, e⟩ := hk _ h; cases e), hshelves, Nat.zero_add]
  · intro a
    rw [filterMap_none fun k h => by obtain ⟨c, x, rfl⟩ := hk k h; rfl, harea]; rfl
  · intro a
    rw [List.filter_eq_nil_iff.mpr fun k h => by obtain ⟨c, x, rfl⟩ := hk k h; simp [NoticeKind.tells, NoticeKind.handoverArea, NoticeKind.shift?], harea]
    exact .rests _

theorem State.driveOutputs_proceeds (s : State) : s.Proceeds s.driveOutputs [] :=
  .silent s.driveOutputs_frames rfl (fun _ => rfl) (fun c => by simp [State.console, State.driveOutputs]) ⟨rfl, rfl⟩ rfl
    (fun _ => ⟨rfl, rfl⟩) fun _ => rfl

theorem State.annunciate_proceeds (s : State) : s.Proceeds s.annunciate s.bannerNotices := by
  have h := s.compareBanners_proceeds.trans s.compareBanners.driveOutputs_proceeds
  rwa [List.append_nil] at h

end Sys2Proof.Machine
end

