-- ==== Sys2Proof/Laws/Tables.lean ====
section
/-! SUPPORT. What the shared operations on points, shelves and the item pool do: the record they write, and that they
write nothing else. -/

namespace Sys2Proof.Machine

variable {s : State}

/-! ### Points (R4, R14, R15) -/

/-- A point that becomes NEW: its record and the raise sequence counter, and nothing else. -/
theorem State.point_becomeNew (n m : PointNo) (marked : Bool) (p : Point) : (s.becomeNew n marked p).point m =
    if m = n then { p with ann := .new, raiseSeq := some (nextSeq s.raiseCounter), acked := none, postTrip := marked }
    else s.point m := by
  unfold State.becomeNew
  rw [State.point_setPoint]
  rfl

/-- A hiding reason added: the point's record alone changes (R14). -/
theorem State.addReason_eq (n : PointNo) (f : Point → Point) (s : State) : s.addReason n f = s.setPoint n
    (if (s.point n).hidden then f (s.point n) else { f (s.point n) with ann := .normal, postTrip := false }) := by
  unfold State.addReason
  split <;> simp_all

/-- A hiding reason removed: the point's record and the raise sequence counter alone change (R15). -/
theorem State.removeReason_rest (n : PointNo) (f : Point → Point) (marked : Bool) (s : State) :
    ∃ p seq, s.removeReason n f marked = { s with raiseCounter := seq }.setPoint n p := by
  unfold State.removeReason
  dsimp only
  split
  · exact ⟨_, _, rfl⟩
  · exact ⟨_, s.raiseCounter, rfl⟩

/-! ### The shelf list (R79) -/

/-- A shelf that ends leaves the list. -/
theorem State.shelves_endShelf (r : Shelf) (s : State) :
    (s.endShelf r).shelves = s.shelves.filter (· != r) := by
  obtain ⟨p, seq, e⟩ := (s.dropShelf r).removeReason_rest r.point (fun p => { p with shelved := false }) false
  unfold State.endShelf
  rw [e]
  rfl

/-! ### The item pool (R120) -/

/-- The lowest free slot is free, and every slot below it is taken. -/
theorem State.lowestFree_some {i : SlotNo} :
    s.lowestFree = some i ↔ s.item i = none ∧ ∀ j, j < i → s.item j ≠ none := by
  have hlen : s.slots.length = 1024 := by simp [State.slots]
  have hget : ∀ (j : Nat) (h : j < s.slots.length), s.slots[j] = (⟨j, by omega⟩, s.item ⟨j, by omega⟩) := by
    intro j h
    simp [State.slots, State.item]
  unfold State.lowestFree
  rw [Option.map_eq_some_iff]
  constructor
  · rintro ⟨⟨k, x⟩, hf, rfl⟩
    rw [List.find?_eq_some_iff_getElem] at hf
    obtain ⟨hx, j, hj, hk, hlt⟩ := hf
    rw [hget j hj] at hk
    cases hk
    refine ⟨by simpa using hx, fun m hm => ?_⟩
    have hmj : m.val < j := hm
    have := hlt m.val hmj
    rw [hget] at this
    intro h0
    rw [show (⟨m.val, by omega⟩ : SlotNo) = m from rfl, h0] at this
    simp at this
  · rintro ⟨h, hj⟩
    refine ⟨(i, none), ?_, rfl⟩
    rw [List.find?_eq_some_iff_getElem]
    refine ⟨rfl, i.val, by omega, by rw [hget, show (⟨i.val, by omega⟩ : SlotNo) = i from rfl, h], fun m hm => ?_⟩
    rw [hget]
    have := hj ⟨m, by omega⟩ hm
    cases hx : s.item ⟨m, by omega⟩ <;> simp_all

end Sys2Proof.Machine
end

