-- ==== Sys2Proof/Laws/Steps.lean ====
section
/-! SUPPORT. What an area's steps come to inside an event: the conditions of R142 as the statements spell them, the steps
that are passed at once, and what the end of the event leaves of the handovers. -/

namespace Sys2Proof.Machine

variable {s t u : State} {w w' : Work} {a : AreaNo}

/-! ### The conditions of R142 -/

theorem State.mem_numbered {x : PointNo × Point} : x ∈ s.numbered ↔ x.2 = s.point x.1 := by
  have hlen : s.numbered.length = 2048 := by simp [State.numbered]
  have hget : ∀ (i : Nat) (h : i < s.numbered.length), s.numbered[i] = (⟨i, by omega⟩, s.point ⟨i, by omega⟩) := by
    intro i h
    simp [State.numbered, State.point]
  constructor
  · intro h
    obtain ⟨i, hi, rfl⟩ := List.getElem_of_mem h
    rw [hget i hi]
  · intro h
    have hi : x.1.val < s.numbered.length := by omega
    have : s.numbered[x.1.val] = x := by rw [hget _ hi]; exact Prod.ext rfl h.symm
    exact this ▸ List.getElem_mem hi

theorem State.p1In_iff (f : Annunciation → Bool) : s.p1In a f ↔
    ∃ n, (s.point n).area = a ∧ (s.point n).priority = .p1 ∧ (s.point n).hidden = false ∧ f (s.point n).ann := by
  unfold State.p1In
  rw [List.any_eq_true]
  constructor
  · rintro ⟨x, hx, h⟩
    rw [State.mem_numbered.mp hx] at h
    simp only [Bool.and_eq_true, beq_iff_eq, Bool.not_eq_true'] at h
    exact ⟨x.1, h.1.1.1, h.1.1.2, h.1.2, h.2⟩
  · rintro ⟨n, h1, h2, h3, h4⟩
    exact ⟨(n, s.point n), State.mem_numbered.mpr rfl, by simp [h1, h2, h3, h4]⟩

/-- The condition that the model reads is that of R142. -/
theorem State.conditionMet_iff (k : StepKind) : s.conditionMet a k ↔ s.StepHolds a k := by
  cases k with
  | seatIn =>
    simp only [State.conditionMet, State.StepHolds, State.seatInMet, List.any_eq_true]
    constructor
    · rintro ⟨c, -, h⟩
      split at h
      · rename_i n d hs
        split at h
        · rename_i o ho
          simp only [Bool.and_eq_true, beq_iff_eq] at h
          exact ⟨c, n, d, o, hs, ho, h.1.1, h.1.2, h.2⟩
        · cases h
      all_goals cases h
    · rintro ⟨c, n, d, o, hs, ho, h1, h2, h3⟩
      exact ⟨c, List.mem_finRange c, by simp [hs, ho, h1, h2, h3]⟩
  | sheetPosted =>
    simp only [State.conditionMet, State.StepHolds, State.nextShift, beq_iff_eq]
    cases (s.area a).posted.posting <;> simp
  | review =>
    simp only [State.conditionMet, State.StepHolds, State.reviewed, List.all_eq_true]
    refine forall_congr' fun i => forall_congr' fun _ => ?_
    cases s.item i <;> simp [Option.isSome_iff_ne_none]
  | clearP1 =>
    rw [show s.conditionMet a .clearP1 = !s.p1In a fun n => n == .new || n == .faded from rfl, Bool.not_eq_true',
      ← Bool.not_eq_true, State.p1In_iff]
    simp only [State.StepHolds, Bool.or_eq_true, beq_iff_eq, not_exists, not_and, not_or, ne_eq]
  | confirmOut | confirmIn | hold => simp [State.conditionMet, State.StepHolds]

/-! ### What the steps read -/

/-- `t` agrees with `s` on all that the steps of area `a` read: the clock, the step store, and what R142 examines. -/
structure State.SameSteps (s t : State) (a : AreaNo) : Prop where
  clock    : t.clock = s.clock
  steps    : t.steps = s.steps
  consoles : t.consoles = s.consoles
  roster   : t.roster = s.roster
  incoming : t.mill.incoming = s.mill.incoming
  shift    : t.mill.shift = s.mill.shift
  points   : t.points = s.points
  pool     : t.pool = s.pool
  posted   : (t.area a).posted = (s.area a).posted

theorem State.SameSteps.refl (s : State) (a : AreaNo) : s.SameSteps s a := ⟨rfl, rfl, rfl, rfl, rfl, rfl, rfl, rfl, rfl⟩

theorem State.SameSteps.trans (h : s.SameSteps t a) (k : t.SameSteps u a) : s.SameSteps u a :=
  ⟨k.clock.trans h.clock, k.steps.trans h.steps, k.consoles.trans h.consoles, k.roster.trans h.roster,
    k.incoming.trans h.incoming, k.shift.trans h.shift, k.points.trans h.points, k.pool.trans h.pool,
    k.posted.trans h.posted⟩

theorem State.SameSteps.stepEntry (h : s.SameSteps t a) (i : StepNo) : t.stepEntry i = s.stepEntry i := by
  simp only [State.stepEntry, h.steps]

theorem State.SameSteps.holds (h : s.SameSteps t a) (k : StepKind) : t.StepHolds a k ↔ s.StepHolds a k := by
  have hc (c : ConsoleNo) : t.console c = s.console c := by simp only [State.console, h.consoles]
  have hr (c : ConsoleNo) (b : AreaNo) : t.routes c b = s.routes c b := by simp only [State.routes, hc]
  have hp (n : PointNo) : t.point n = s.point n := by simp only [State.point, h.points]
  have hi (i : SlotNo) : t.item i = s.item i := by simp only [State.item, h.pool]
  have ho (n : Nat) : t.operator? n = s.operator? n := by simp only [State.operator?, h.roster]
  cases k <;> simp only [State.StepHolds, hc, hr, hp, hi, ho, h.incoming, h.shift, h.posted]

theorem State.SameSteps.entered (h : s.SameSteps t a) (p : Position) (r : Reasons) : t.entered p r = s.entered p r := by
  have hd : t.deadlineIn = s.deadlineIn := funext fun n => by simp only [State.deadlineIn, State.now, h.clock]
  simp only [State.entered, h.stepEntry, hd]

theorem Reasons.isEmpty_iff {r : Reasons} : r.isEmpty ↔ r = ⟨false, false, false, false⟩ := by
  obtain ⟨p1, flood, trip, request⟩ := r
  simp [Reasons.isEmpty, and_assoc]

theorem State.entering_eq (s : State) (p : Position) (r : Reasons) : s.entering p r = s.entered p r := by
  unfold State.entering State.entered Reasons.isEmpty StepEntry.timeoutSeconds StepEntry.holdSeconds
  cases h : (r.p1 || r.flood || r.trip || r.request) <;> simp

/-! ### The steps that are passed at once -/

/-- What the work of area `a`'s steps leaves: the area's handover record `h`, and behind a LAST step the duty crew, the lock
and the count of areas outstanding (R146). -/
structure Work.Comes (w w' : Work) (a : AreaNo) (h : Handover) : Prop where
  rest  : w'.s = { w.s with areas := w'.s.areas, mill := w'.s.mill }
  other : ∀ b, b ≠ a → w'.s.area b = w.s.area b
  rests : (∀ q, h ≠ .done q) → w'.s.area a = { w.s.area a with handover := h } ∧ w'.s.mill = w.s.mill ∧ w'.shift = w.shift
  done  : ∀ q, h = .done q →
    w'.s.area a = { w.s.area a with
      handover := h, duty := w.s.mill.incoming.getD w.s.mill.duty, draft := { (w.s.area a).draft with lock := none } } ∧
    w'.s.mill = { w.s.mill with outstanding := w.s.mill.outstanding - 1 } ∧
    w'.shift = (w.shift || w.s.mill.outstanding - 1 == 0)

theorem Work.setHandover_comes (h : Handover) (hd : ∀ q, h ≠ .done q) (w : Work) : w.Comes (w.setHandover a h) a h where
  rest := rfl
  other b hb := by simp [Work.setHandover, hb]
  rests _ := by simp [Work.setHandover]
  done q e := absurd e (hd q)

/-- A record written before the record that stands at the end is lost. -/
theorem Work.Comes.after {h x : Handover} (hd : ∀ q, x ≠ .done q) (k : w.Comes w' a x) {v : Work} (c : w'.Comes v a h) :
    w.Comes v a h where
  rest := by rw [c.rest, k.rest]
  other b hb := (c.other b hb).trans (k.other b hb)
  rests e := by
    obtain ⟨h1, h2, h3⟩ := k.rests hd
    obtain ⟨g1, g2, g3⟩ := c.rests e
    exact ⟨by rw [g1, h1], g2.trans h2, g3.trans h3⟩
  done q e := by
    obtain ⟨h1, h2, h3⟩ := k.rests hd
    obtain ⟨g1, g2, g3⟩ := c.done q e
    exact ⟨by rw [g1, h1, h2], by rw [g2, h2], by rw [g3, h2, h3]⟩

theorem Work.completeArea_area (p : Position) (w : Work) (b : AreaNo) : (w.completeArea a p).s.area b =
    if b = a then { w.s.area a with
      handover := .done p, duty := w.s.mill.incoming.getD w.s.mill.duty, draft := { (w.s.area a).draft with lock := none } }
    else w.s.area b := by
  exact State.area_modArea w.s a b fun r => { r with
    handover := .done p, duty := w.s.mill.incoming.getD w.s.mill.duty, draft := { r.draft with lock := none } }

theorem Work.completeArea_comes (p : Position) (w : Work) : w.Comes (w.completeArea a p) a (.done p) where
  rest := rfl
  other b hb := by rw [Work.completeArea_area, if_neg hb]
  rests e := absurd rfl (e p)
  done q e := ⟨by rw [Work.completeArea_area, if_pos rfl], rfl, rfl⟩

theorem Work.setHandover_sameSteps (h : Handover) (w : Work) : w.s.SameSteps (w.setHandover a h).s a :=
  ⟨rfl, rfl, rfl, rfl, rfl, rfl, rfl, rfl, by simp [Work.setHandover]⟩

theorem State.entered_not_done (s : State) (p q : Position) (r : Reasons) : s.entered p r ≠ .done q := by
  unfold State.entered; dsimp only; split <;> nofun

/-- The completion of the RUNNING area's current step, whose successors stand as `State.EntersTo` says (R144 to R146). -/
theorem Work.advance_comes {p : Position} {x y : Option Deadline} (hr : (w.s.area a).handover = .running p x y)
    (hs : s.SameSteps w.s a) {n m : Nat} (hm : n ≤ m) {h : Handover}
    (hn : if (s.stepEntry p.index).last then h = .done p
      else s.EntersTo a n ⟨(s.stepEntry p.index).next, p.ordinal + 1⟩ h) :
    w.Comes (w.advance (m + 1) a) a h := by
  induction m using Nat.strongRecOn generalizing w p x y n with | ind m ih => ?_
  unfold Work.advance
  rw [hr]
  dsimp only
  have hw : ∀ v : Work, (if (w.s.stepEntry p.index).notify then w.say (.stepDone a p.ordinal) else w).Comes v a h →
      w.Comes v a h := by
    intro v hv
    split at hv
    · exact ⟨hv.rest, hv.other, hv.rests, hv.done⟩
    · exact hv
  apply hw
  have hws : (if (w.s.stepEntry p.index).notify then w.say (.stepDone a p.ordinal) else w).s = w.s := by split <;> rfl
  generalize (if (w.s.stepEntry p.index).notify then w.say (.stepDone a p.ordinal) else w) = v at hws ⊢
  rw [← hws] at hs
  rw [← hws, hs.stepEntry]
  split at hn
  · rename_i hl
    rw [if_pos hl, hn]
    exact v.completeArea_comes p
  · rename_i hl
    rw [if_neg hl]
    rw [State.entering_eq, hs.entered]
    generalize (s.stepEntry p.index).next = i at hn ⊢
    generalize p.ordinal + 1 = o at hn ⊢
    obtain ⟨q, rfl, rfl⟩ : ∃ q : Position, q.index = i ∧ q.ordinal = o := ⟨⟨i, o⟩, rfl, rfl⟩
    change s.EntersTo a n q h at hn
    change v.Comes (if (v.setHandover a (s.entered q Reasons.none)).s.conditionMet a
      ((v.setHandover a (s.entered q Reasons.none)).s.stepEntry q.index).kind then
        Work.advance m a (v.setHandover a (s.entered q Reasons.none)) else v.setHandover a (s.entered q Reasons.none)) a h
    have hv := v.setHandover_sameSteps (a := a) (s.entered q Reasons.none)
    have hsv := hs.trans hv
    have hset := v.setHandover_comes (a := a) (s.entered q Reasons.none) fun r => s.entered_not_done q r _
    have hh : ((v.setHandover a (s.entered q Reasons.none)).s.area a).handover = s.entered q Reasons.none := by
      simp [Work.setHandover]
    have hrun : ∃ x y, s.entered q Reasons.none = .running q x y := ⟨_, _, rfl⟩
    rw [hsv.stepEntry]
    clear hr hw
    cases hn with
    | rests _ hno =>
      rw [if_neg (by rwa [State.conditionMet_iff, hsv.holds])]
      exact hset
    | done _ hy hl' =>
      rw [if_pos (by rwa [State.conditionMet_iff, hsv.holds])]
      obtain ⟨x', y', e⟩ := hrun
      obtain ⟨m, rfl⟩ : ∃ k, m = k + 1 := ⟨m - 1, by omega⟩
      exact hset.after (fun r => s.entered_not_done q r _)
        (ih m (Nat.lt_succ_self m) (hh.trans e) hsv (Nat.zero_le m) (by rw [if_pos hl']))
    | passes n _ _ hy hl' more =>
      rw [if_pos (by rwa [State.conditionMet_iff, hsv.holds])]
      obtain ⟨x', y', e⟩ := hrun
      obtain ⟨m, rfl⟩ : ∃ k, m = k + 1 := ⟨m - 1, by omega⟩
      exact hset.after (fun r => s.entered_not_done q r _)
        (ih m (Nat.lt_succ_self m) (hh.trans e) hsv (Nat.le_of_succ_le_succ hm) (by rw [if_neg (by simp [hl'])]; exact more))

/-- The completion of the current step of the RUNNING area, as an event asks for it. -/
theorem Work.completeStep_comes {p : Position} {x y : Option Deadline} (hr : (w.s.area a).handover = .running p x y)
    {n : Nat} (hm : n < 32) {h : Handover}
    (hn : if (w.s.stepEntry p.index).last then h = .done p
      else w.s.EntersTo a n ⟨(w.s.stepEntry p.index).next, p.ordinal + 1⟩ h) :
    w.Comes (w.completeStep a) a h :=
  Work.advance_comes hr (.refl _ _) (Nat.le_of_lt_succ hm) hn

theorem Work.completeStep_settled (hr : ∀ p x y, (w.s.area a).handover ≠ .running p x y) : w.completeStep a = w := by
  unfold Work.completeStep
  rw [show Config.stepListSize = 31 + 1 from rfl, Work.advance]
  split
  · exact absurd ‹_› (hr _ _ _)
  all_goals rfl

/-- The examination of a RUNNING area's step: where its condition holds the step completes (R142). -/
theorem Work.examine_eq {p : Position} {x y : Option Deadline} (hr : (w.s.area a).handover = .running p x y)
    (f : StepKind → Bool) : w.examine a f =
    if f (w.s.stepEntry p.index).kind && w.s.conditionMet a (w.s.stepEntry p.index).kind then w.completeStep a else w := by
  simp only [Work.examine, hr]

/-- The RUNNING area `a` enters a step of its list, which is then examined (R144). -/
theorem Work.enter_comes {p : Position} {n : Nat} (hm : n ≤ 32) {h : Handover} (hn : w.s.EntersTo a n p h)
    {v : Work} (hv : v.s = (w.setHandover a (w.s.entered p Reasons.none)).s) (hs : v.shift = w.shift) :
    w.Comes (v.examine a fun _ => true) a h := by
  have same : w.s.SameSteps v.s a := hv ▸ w.setHandover_sameSteps _
  have hset : w.Comes v a (w.s.entered p Reasons.none) := by
    have c := w.setHandover_comes (a := a) (w.s.entered p Reasons.none) fun r => w.s.entered_not_done p r _
    refine ⟨hv ▸ c.rest, hv ▸ c.other, fun e => ?_, fun q e => absurd e (w.s.entered_not_done p q _)⟩
    exact ⟨hv ▸ (c.rests e).1, hv ▸ (c.rests e).2.1, hs⟩
  have hr : ∃ x y, (v.s.area a).handover = .running p x y := by
    rw [hv]; simp only [Work.setHandover, State.area_modArea, if_true]; exact ⟨_, _, rfl⟩
  obtain ⟨x, y, hr⟩ := hr
  rw [Work.examine_eq hr, same.stepEntry]
  cases hn with
  | rests _ hno =>
    rw [if_neg (by rw [Bool.true_and]; rwa [State.conditionMet_iff, same.holds])]
    exact hset
  | done _ hy hl =>
    rw [if_pos (by rw [Bool.true_and]; rwa [State.conditionMet_iff, same.holds])]
    exact hset.after (fun r => w.s.entered_not_done p r _)
      (Work.advance_comes hr same (Nat.zero_le 31) (by rw [if_pos hl]))
  | passes n _ _ hy hl more =>
    rw [if_pos (by rw [Bool.true_and]; rwa [State.conditionMet_iff, same.holds])]
    exact hset.after (fun r => w.s.entered_not_done p r _)
      (Work.advance_comes hr same (Nat.le_of_succ_le_succ hm) (by rw [if_neg (by simp [hl])]; exact more))

/-- Area `a` begins its list, and comes to rest where `State.BeginsTo` says (R143, R153). -/
theorem Work.begin_comes {h : Handover} (hb : w.s.BeginsTo a h) : w.Comes (w.begin a) a h := by
  unfold Work.begin
  dsimp only
  rw [State.entering_eq]
  by_cases hr : w.s.reasonsNow a false = ⟨false, false, false, false⟩
  · obtain ⟨n, hn, e⟩ := hb.runs hr
    rw [if_pos (Reasons.isEmpty_iff.mpr hr)]
    refine Work.enter_comes hn e ?_ rfl
    rw [hr]
    rfl
  · have e := hb.held hr
    rw [if_neg fun e => hr (Reasons.isEmpty_iff.mp e), ← e]
    have c := w.setHandover_comes (a := a) h fun q d => w.s.entered_not_done _ q _ (e.symm.trans d)
    exact { rest := c.rest, other := c.other, rests := c.rests, done := c.done }

/-! ### The end of the event -/

/-- The mill's record and every area's handover record and duty crew stand. -/
def State.SameHandovers (s t : State) : Prop :=
  t.mill = s.mill ∧ ∀ b, (t.area b).handover = (s.area b).handover ∧ (t.area b).duty = (s.area b).duty

theorem State.SameHandovers.refl (s : State) : s.SameHandovers s := ⟨rfl, fun _ => ⟨rfl, rfl⟩⟩

theorem State.SameHandovers.trans (h : s.SameHandovers t) (k : t.SameHandovers u) : s.SameHandovers u :=
  ⟨k.1.trans h.1, fun b => ⟨(k.2 b).1.trans (h.2 b).1, (k.2 b).2.trans (h.2 b).2⟩⟩

theorem State.SameHandovers.ofAreas (hm : t.mill = s.mill) (ha : t.areas = s.areas) : s.SameHandovers t :=
  ⟨hm, fun b => by simp only [State.area, ha, and_self]⟩

theorem State.SameHandovers.modArea (a : AreaNo) (f : Area → Area) (s : State)
    (h : ∀ r, (f r).handover = r.handover ∧ (f r).duty = r.duty) : s.SameHandovers (s.modArea a f) := by
  refine ⟨rfl, fun b => ?_⟩
  rw [State.area_modArea]
  split
  · subst_vars; exact h _
  · exact ⟨rfl, rfl⟩

theorem State.notify_same (k : NoticeKind) (s : State) : s.SameHandovers (s.notify k) := by
  rw [State.notify_eq]; exact .ofAreas rfl rfl

theorem State.notifyAll_same (ks : List NoticeKind) (s : State) : s.SameHandovers (s.notifyAll ks) := by
  rw [State.notifyAll_eq]; exact .ofAreas rfl rfl

theorem State.annunciate_same (s : State) : s.SameHandovers s.annunciate := by
  obtain ⟨_, _, _, h⟩ := s.annunciate_rest
  rw [h]; exact .ofAreas rfl rfl

theorem State.driveOutputs_same (s : State) : s.SameHandovers s.driveOutputs := by
  unfold State.driveOutputs; exact .ofAreas rfl rfl

theorem State.rederiveCoverage_same (s : State) : s.SameHandovers s.rederiveCoverage := by
  refine .trans (t := s.setCoverage) ⟨by simp, fun b => by simp⟩ ?_
  exact State.notifyAll_same _ _

theorem State.expireShelf_same (r : Shelf) (s : State) : s.SameHandovers (s.expireShelf r) := by
  unfold State.expireShelf State.endShelf
  refine .trans ?_ (State.annunciate_same _)
  refine .trans ?_ (State.notify_same _ _)
  refine .trans (t := s.dropShelf r) ?_ ?_
  · exact .modArea _ _ _ fun _ => ⟨rfl, rfl⟩
  · obtain ⟨p, seq, e⟩ := (s.dropShelf r).removeReason_rest r.point (fun p => { p with shelved := false }) false
    rw [e]; exact .ofAreas rfl rfl

theorem State.countShelves_same (s : State) : s.SameHandovers s.countShelves := by
  unfold State.countShelves
  dsimp only
  generalize (s.shelves.map Shelf.countDown).filter Shelf.spent = l
  refine .trans (t := { s with shelves := s.shelves.map Shelf.countDown }) (.ofAreas rfl rfl) ?_
  generalize ({ s with shelves := s.shelves.map Shelf.countDown } : State) = t
  induction l generalizing t with
  | nil => exact .refl t
  | cons r l ih => exact (t.expireShelf_same r).trans (ih _)

/-- After the shift change every area is STEADY under the crew that came in (R154). -/
structure State.Changed (s t : State) : Prop where
  mill : t.mill = { shift := s.nextShift, duty := s.mill.incoming.getD s.mill.duty, incoming := none, outstanding := 0 }
  area : ∀ b, (t.area b).handover = .steady ∧ (t.area b).duty = s.mill.incoming.getD s.mill.duty

theorem State.Changed.same (h : s.Changed t) (k : t.SameHandovers u) : s.Changed u :=
  ⟨k.1.trans h.mill, fun b => ⟨(k.2 b).1.trans (h.area b).1, (k.2 b).2.trans (h.area b).2⟩⟩

theorem State.shiftChange_changed (s : State) : s.Changed s.shiftChange := by
  unfold State.shiftChange
  refine .same (t := s.changeCrews (s.mill.incoming.getD s.mill.duty)) ⟨rfl, fun b => ?_⟩ ?_
  · simp [State.changeCrews, State.area]
  · exact ((((State.countShelves_same _).trans (State.notify_same _ _)).trans (State.rederiveCoverage_same _)).trans
      (State.driveOutputs_same _))

/-! ### The pass where every area is STEADY -/

theorem State.capture_same (a : AreaNo) (k : ItemKind) (s : State) : s.SameHandovers (s.capture a k) := by
  unfold State.capture
  split
  · refine .trans ?_ (.modArea a _ _ fun _ => ⟨rfl, rfl⟩)
    exact .ofAreas rfl rfl
  · exact .refl s

theorem State.swapSheets_same (a : AreaNo) (s : State) : s.SameHandovers (s.swapSheets a) := by
  have hfree : ∀ (l : List SlotNo) (s : State), s.SameHandovers (s.freeSlots l) := by
    intro l
    induction l with
    | nil => exact fun s => .refl s
    | cons i l ih => exact fun s => .trans (t := s.freeSlot i) (.ofAreas rfl rfl) (ih _)
  have hclear : ∀ (l : List SlotNo) (s : State), s.SameHandovers (s.clearReviews l) := by
    intro l
    induction l with
    | nil => exact fun s => .refl s
    | cons i l ih => exact fun s => .trans (t := s.modItem i fun x => { x with reviewed := none }) (.ofAreas rfl rfl) (ih _)
  have hcapture : ∀ (l : List ItemKind) (s : State), s.SameHandovers (l.foldl (fun s k => s.capture a k) s) := by
    intro l
    induction l with
    | nil => exact fun s => .refl s
    | cons k l ih =>
      intro s
      rw [List.foldl_cons]
      exact (s.capture_same a k).trans (ih _)
  unfold State.swapSheets
  dsimp only
  refine .trans ?_ (.modArea a _ _ fun _ => ⟨rfl, rfl⟩)
  refine .trans ?_ (hcapture _ _)
  refine .trans ?_ (hclear _ _)
  refine .trans ?_ (hfree _ _)
  exact .modArea a _ s fun _ => ⟨rfl, rfl⟩

theorem State.examineSheet_same (hs : ∀ b, (s.area b).handover = .steady) (a : AreaNo) :
    s.SameHandovers (s.examineSheet a).1 := by
  unfold State.examineSheet
  split
  · split
    · unfold State.exchange
      dsimp only
      have h := (s.swapSheets_same a).trans (State.notify_same (.sheetPosted a) _)
      have hx : (((s.swapSheets a).notify (.sheetPosted a)).area a).handover = .steady := ((h.2 a).1).trans (hs a)
      simp only [Work.examine, hx]
      unfold Work.settle
      simp only [Bool.false_eq_true, if_false]
      exact (h.trans (State.annunciate_same _)).trans (State.notifyAll_same _ _)
    · unfold State.reportShort
      split
      · exact .refl s
      · refine .trans ?_ (State.notify_same _ _)
        exact .modArea a _ s fun _ => ⟨rfl, rfl⟩
  · exact .refl s

theorem State.examineSheets_same (hs : ∀ b, (s.area b).handover = .steady) : s.SameHandovers s.examineSheets := by
  have hl : ∀ (l : List AreaNo) (x : State × Bool), s.SameHandovers x.1 → s.SameHandovers
      (l.foldl (fun x a => let y := x.1.examineSheet a; (y.1, x.2 || y.2)) x).1 := by
    intro l
    induction l with
    | nil => exact fun _ h => h
    | cons a l ih => exact fun x h => ih _ (h.trans (State.examineSheet_same (fun b => (h.2 b).1.trans (hs b)) a))
  have hp : ∀ (n : Nat) (t : State), s.SameHandovers t → s.SameHandovers (t.passes n) := by
    intro n
    induction n with
    | zero => exact fun _ h => h
    | succ n ih =>
      intro t h
      unfold State.passes
      dsimp only
      split
      · exact ih _ (hl _ _ h)
      · exact hl _ _ h
  exact hp 33 s (.refl s)

/-- With the shift change in its event, the work ends with every area STEADY under the crew that came in (R154). -/
theorem Work.finish_changed (hw : w.shift) (after : List NoticeKind) : w.s.Changed (w.finish after) := by
  have h : w.s.Changed (w.settle.notifyAll after) := by
    unfold Work.settle
    dsimp only
    rw [if_pos hw]
    have hc : w.s.SameHandovers (if w.cover then w.s.rederiveCoverage else w.s) := by
      split
      · exact State.rederiveCoverage_same _
      · exact .refl _
    have hb := (hc.trans (State.annunciate_same _)).trans (State.notifyAll_same w.out _)
    have k := State.shiftChange_changed
      ((if w.cover then w.s.rederiveCoverage else w.s).annunciate.notifyAll w.out)
    have k' : w.s.Changed _ := ⟨by rw [k.mill, State.nextShift, hb.1]; rfl, fun b => by rw [(k.area b).1, (k.area b).2, hb.1]; exact ⟨rfl, rfl⟩⟩
    exact k'.same (State.notifyAll_same after _)
  unfold Work.finish
  dsimp only
  split
  · exact h.same (State.examineSheets_same fun b => (h.area b).1)
  · exact h

/-- What the steps of area `a` come to, the end of the event leaves (R144 to R146, R154). -/
theorem Work.Comes.finish {h : Handover} (c : w.Comes w' a h) (hw : w.shift = false) (after : List NoticeKind) :
    w.s.ComesTo (w'.finish after) a h := by
  have hcommit (hn : w.s.noCommits) : w'.s.noCommits := by
    intro b
    by_cases hb : b = a
    · subst hb
      by_cases hd : ∃ q, h = .done q
      · obtain ⟨q, hd⟩ := hd
        rw [(c.done q hd).1]; exact hn b
      · rw [(c.rests fun q e => hd ⟨q, e⟩).1]; exact hn b
    · rw [c.other b hb]; exact hn b
  refine ⟨fun hd hn => ?_, fun q hd ho hn => ?_, fun q k hd ho hi => ?_⟩
  · obtain ⟨h1, h2, h3⟩ := c.rests hd
    have q := w'.finish_quiet after (h3.trans hw) (hcommit hn)
    refine ⟨q.mill.trans h2, fun b => ?_⟩
    rw [q.area b]
    split
    · subst_vars; rw [h1]
    · rw [c.other b ‹_›]
  · obtain ⟨h1, h2, h3⟩ := c.done q hd
    have hf : w'.shift = false := by rw [h3, hw, Bool.false_or, beq_eq_false_iff_ne]; omega
    have q := w'.finish_quiet after hf (hcommit hn)
    refine ⟨q.mill.trans h2, ?_, ?_, ?_, fun b hb => ?_⟩
    · rw [q.area a, h1]
    · rw [q.area a, h1]
    · rw [q.area a, h1]
    · rw [q.area b, c.other b hb]; exact ⟨rfl, rfl⟩
  · obtain ⟨h1, h2, h3⟩ := c.done q hd
    have hf : w'.shift := by simp [h3, ho]
    have x := Work.finish_changed hf after
    refine ⟨?_, fun b => ?_⟩
    · rw [x.mill, State.nextShift, h2, hi]; rfl
    · rw [(x.area b).1, (x.area b).2, h2, hi]; exact ⟨rfl, rfl⟩

end Sys2Proof.Machine
end

