-- ==== Sys2Proof/Laws/Work.lean ====
section
/-! SUPPORT. What the handover unit's work inside an event does, operation by operation: which notices it adds, how the
handovers go on, and that nothing else of what notices tell changes. -/

namespace Sys2Proof.Machine

variable {s t u d : State} {w w' w'' : Work} {a : AreaNo} {l m : List NoticeKind}

/-! ### The relation -/

/-- The work from `w` to `w'` adds the handover notices `l`, and leaves all but the areas and the mill record, and of these
what the other notices tell of. -/
structure Work.Acts (w w' : Work) (l : List NoticeKind) : Prop where
  frames : w.s.Frames w'.s
  same   : w'.s = { w.s with areas := w'.s.areas, mill := w'.s.mill }
  mill   : w'.s.mill.shift = w.s.mill.shift ∧ w'.s.mill.duty = w.s.mill.duty ∧ w'.s.mill.incoming = w.s.mill.incoming
  kept   : ∀ b, (w'.s.area b).covered = (w.s.area b).covered ∧ (w'.s.area b).draft.commit = (w.s.area b).draft.commit
    ∧ (w'.s.area b).draft.poolShort = (w.s.area b).draft.poolShort
  out    : w'.out = w.out ++ l
  kinds  : ∀ k ∈ l, k.handoverArea.isSome

theorem Work.Acts.refl (w : Work) : w.Acts w [] :=
  ⟨.refl _, rfl, ⟨rfl, rfl, rfl⟩, fun _ => ⟨rfl, rfl, rfl⟩, (List.append_nil _).symm, nofun⟩

theorem Work.Acts.trans (h : w.Acts w' l) (k : w'.Acts w'' m) : w.Acts w'' (l ++ m) where
  frames := h.frames.trans k.frames
  same := by rw [k.same, h.same]
  mill := ⟨k.mill.1.trans h.mill.1, k.mill.2.1.trans h.mill.2.1, k.mill.2.2.trans h.mill.2.2⟩
  kept b := ⟨(k.kept b).1.trans (h.kept b).1, (k.kept b).2.1.trans (h.kept b).2.1, (k.kept b).2.2.trans (h.kept b).2.2⟩
  out := by rw [k.out, h.out, List.append_assoc]
  kinds x hx := (List.mem_append.mp hx).elim (h.kinds x) (k.kinds x)

/-- Only the state and the notices of the work matter. -/
theorem Work.Acts.of_eq (hs : w'.s = w.s) (ho : w'.out = w.out ++ l) (hk : ∀ k ∈ l, k.handoverArea.isSome) : w.Acts w' l :=
  ⟨hs ▸ .refl _, by rw [hs], by rw [hs]; exact ⟨rfl, rfl, rfl⟩, fun b => by rw [hs]; exact ⟨rfl, rfl, rfl⟩, ho, hk⟩

/-- The work is on area `a` alone. -/
structure Work.ActsOn (a : AreaNo) (w w' : Work) (l : List NoticeKind) : Prop where
  acts  : w.Acts w' l
  own   : ∀ k ∈ l, k.handoverArea = some a.val
  other : ∀ b, b ≠ a → (w'.s.area b).handover = (w.s.area b).handover

theorem Work.ActsOn.refl (a : AreaNo) (w : Work) : w.ActsOn a w [] := ⟨.refl w, nofun, fun _ _ => rfl⟩

theorem Work.ActsOn.trans (h : w.ActsOn a w' l) (k : w'.ActsOn a w'' m) : w.ActsOn a w'' (l ++ m) where
  acts := h.acts.trans k.acts
  own x hx := (List.mem_append.mp hx).elim (h.own x) (k.own x)
  other b hb := (k.other b hb).trans (h.other b hb)

theorem Work.ActsOn.of_eq (hs : w'.s = w.s) (ho : w'.out = w.out ++ l) (hk : ∀ k ∈ l, k.handoverArea = some a.val) :
    w.ActsOn a w' l :=
  ⟨.of_eq hs ho fun k h => by rw [hk k h]; rfl, hk, fun b _ => by rw [hs]⟩

/-! ### What the work reads -/

theorem Work.Acts.clock (h : w.Acts w' l) : w'.s.clock = w.s.clock := h.frames.clock

theorem Work.Acts.reasonsNow (h : w.Acts w' l) (a : AreaNo) (request : Bool) :
    w'.s.reasonsNow a request = w.s.reasonsNow a request := by
  have hp : w'.s.points = w.s.points := by rw [h.same]
  have ht : w'.s.trip = w.s.trip := by rw [h.same]
  simp only [State.reasonsNow, State.p1In, State.numbered, hp, h.frames.flooded, State.tripCovers, State.code, ht]

theorem Work.Acts.turned (h : w.Acts w' l) (a : AreaNo) (request : Bool) (x : Handover) :
    w'.s.turned a request x = w.s.turned a request x := by
  simp only [State.turned, h.reasonsNow, h.clock]

theorem Work.Acts.begun (h : w.Acts w' l) (a : AreaNo) : w'.s.begun a = w.s.begun a := by
  simp only [State.begun, h.reasonsNow, h.frames.config, State.entered_congr h.clock h.frames.steps]

theorem Work.Acts.completion (h : w.Acts w' l) (a : AreaNo) (p : Position) : w'.s.completion a p = w.s.completion a p :=
  State.completion_congr h.clock h.frames.steps h.frames.crew p

theorem Work.Acts.passes (h : w.Acts w' l) {x y : Handover} (p : w'.s.PassesSteps a x m y) : w.s.PassesSteps a x m y :=
  p.congr h.clock h.frames.steps h.frames.crew

/-- How an event takes a handover can be read before the work as well as in it. -/
theorem Work.Acts.goes (h : w.Acts w' l) {own : Option (List NoticeKind × Handover)} {x y : Handover}
    (g : w'.s.HandoverGoes own a x m y) : w.s.HandoverGoes own a x m y := by
  unfold State.HandoverGoes at *
  split at g
  · obtain ⟨l, e, p⟩ := g; exact ⟨l, e, h.passes p⟩
  · rw [h.turned] at g
    rcases g with p | ⟨l, e, p⟩
    · exact .inl (h.passes p)
    · exact .inr ⟨l, e, h.passes p⟩

/-! ### The operations on one area -/

theorem Work.setHandover_acts (a : AreaNo) (h : Handover) (w : Work) :
    w.ActsOn a (w.setHandover a h) [] ∧ ((w.setHandover a h).s.area a).handover = h := by
  have key (b : AreaNo) : (w.setHandover a h).s.area b =
      { w.s.area b with handover := if b = a then h else (w.s.area b).handover } := by
    unfold Work.setHandover
    rw [State.area_modArea]
    split
    · subst_vars; rfl
    · rfl
  refine ⟨⟨⟨w.setHandover_frames a h, rfl, ⟨rfl, rfl, rfl⟩, fun b => ?_, (List.append_nil _).symm, nofun⟩, nofun, fun b hb => ?_⟩, ?_⟩
  · rw [key]; exact ⟨rfl, rfl, rfl⟩
  · rw [key]; exact if_neg hb
  · rw [key]; exact if_pos rfl

theorem Work.completeArea_acts (a : AreaNo) (p : Position) (w : Work) :
    w.ActsOn a (w.completeArea a p) [.areaHandedOver a (w.s.mill.incoming.getD w.s.mill.duty)] ∧
    ((w.completeArea a p).s.area a).handover = .done p := by
  refine ⟨⟨⟨w.completeArea_frames a p, rfl, ⟨rfl, rfl, rfl⟩, fun b => ?_, rfl, ?_⟩, ?_, fun b hb => ?_⟩, ?_⟩
  · rw [Work.completeArea_area]; split
    · subst_vars; exact ⟨rfl, rfl, rfl⟩
    · exact ⟨rfl, rfl, rfl⟩
  · intro k hk; rw [List.mem_singleton.mp hk]; rfl
  · intro k hk; rw [List.mem_singleton.mp hk]; rfl
  · rw [Work.completeArea_area, if_neg hb]
  · rw [Work.completeArea_area, if_pos rfl]

/-- A step completes on a condition only where it is a condition step. -/
theorem State.conditionMet_isCondition {k : StepKind} (h : s.conditionMet a k) : k.isCondition := by
  cases k <;> first | rfl | simp [State.conditionMet] at h

theorem Work.advance_acts (n : Nat) {p : Position} {x y : Option Deadline} {w : Work}
    (hr : (w.s.area a).handover = .running p x y) :
    ∃ l, w.ActsOn a (w.advance (n + 1) a) ((w.s.completion a p).1 ++ l) ∧
      w.s.PassesSteps a (w.s.completion a p).2 l ((w.advance (n + 1) a).s.area a).handover := by
  induction n generalizing w p x y with | zero => _ | succ n ih => _
  all_goals
    unfold Work.advance
    rw [hr]
    dsimp only
    have hv : w.ActsOn a (if (w.s.stepEntry p.index).notify then w.say (.stepDone a p.ordinal) else w)
        (if (w.s.stepEntry p.index).notify then [.stepDone a p.ordinal] else []) := by
      split
      · exact .of_eq rfl rfl fun k hk => by rw [List.mem_singleton.mp hk]; rfl
      · exact .refl a w
    have hs : (if (w.s.stepEntry p.index).notify then w.say (.stepDone a p.ordinal) else w).s = w.s := by split <;> rfl
    generalize (if (w.s.stepEntry p.index).notify then w.say (.stepDone a p.ordinal) else w) = v at hv hs ⊢
    by_cases hl : (w.s.stepEntry p.index).last
    · rw [if_pos hl]
      have hc : w.s.completion a p = ((if (w.s.stepEntry p.index).notify then [.stepDone a p.ordinal] else [])
          ++ [.areaHandedOver a (w.s.mill.incoming.getD w.s.mill.duty)], .done p) := by
        simp only [State.completion, if_pos hl]
      obtain ⟨h1, h2⟩ := v.completeArea_acts a p
      rw [hs] at h1
      refine ⟨[], ?_, ?_⟩
      · rw [hc, List.append_nil]; exact hv.trans h1
      · rw [hc, h2]; exact .rests _
    · rw [if_neg hl, State.entering_eq, hs]
      have hc : w.s.completion a p = ((if (w.s.stepEntry p.index).notify then [.stepDone a p.ordinal] else []),
          w.s.entered ⟨(w.s.stepEntry p.index).next, p.ordinal + 1⟩ Reasons.none) := by
        simp only [State.completion, if_neg hl]; rfl
      rw [hc]
      obtain ⟨h1, h2⟩ := v.setHandover_acts a (w.s.entered ⟨(w.s.stepEntry p.index).next, p.ordinal + 1⟩ Reasons.none)
      have h := hv.trans h1
      rw [List.append_nil] at h
      generalize v.setHandover a (w.s.entered ⟨(w.s.stepEntry p.index).next, p.ordinal + 1⟩ Reasons.none) = v' at h1 h2 h ⊢
      first
      | rw [show Work.advance 0 a v' = v' from rfl, ite_self]
        exact ⟨[], by rwa [List.append_nil], h2 ▸ .rests _⟩
      | obtain ⟨x', y', e⟩ : ∃ x y, w.s.entered ⟨(w.s.stepEntry p.index).next, p.ordinal + 1⟩ Reasons.none
            = .running ⟨(w.s.stepEntry p.index).next, p.ordinal + 1⟩ x y := ⟨_, _, rfl⟩
        split
        · rename_i hm
          obtain ⟨l, g1, g2⟩ := ih (w := v') (h2.trans e)
          refine ⟨_, h.trans g1, ?_⟩
          rw [h.acts.completion] at g2 ⊢
          rw [e]
          refine .step _ x' y' _ _ ?_ (h.acts.passes g2)
          have := State.conditionMet_isCondition hm
          rwa [State.stepEntry_congr h.acts.frames.steps] at this
        · refine ⟨[], ?_, ?_⟩
          · rw [List.append_nil]; exact h
          · rw [h2]; exact .rests _

theorem Work.completeStep_acts {p : Position} {x y : Option Deadline} {w : Work}
    (hr : (w.s.area a).handover = .running p x y) :
    ∃ l, w.ActsOn a (w.completeStep a) ((w.s.completion a p).1 ++ l) ∧
      w.s.PassesSteps a (w.s.completion a p).2 l ((w.completeStep a).s.area a).handover := Work.advance_acts 31 hr

theorem Work.examine_acts (a : AreaNo) (f : StepKind → Bool) (w : Work) :
    ∃ l, w.ActsOn a (w.examine a f) l ∧
      w.s.PassesSteps a (w.s.area a).handover l ((w.examine a f).s.area a).handover := by
  unfold Work.examine
  split
  · rename_i p x y hr
    dsimp only
    split
    · rename_i hc
      obtain ⟨l, h1, h2⟩ := Work.completeStep_acts hr
      refine ⟨_, h1, hr ▸ .step p x y _ _ (State.conditionMet_isCondition (Bool.and_eq_true .. ▸ hc).2) h2⟩
    · exact ⟨[], .refl a w, .rests _⟩
  all_goals exact ⟨[], .refl a w, .rests _⟩

/-- The work adds notices `l` that begin with those of a change `x` of area `a`'s handover, and passes steps from there. -/
def Work.Turns (a : AreaNo) (x : List NoticeKind × Handover) (w w' : Work) : Prop :=
  ∃ l, w.ActsOn a w' (x.1 ++ l) ∧ w.s.PassesSteps a x.2 l (w'.s.area a).handover

theorem Work.Turns.rests {x : List NoticeKind × Handover} (h : w.ActsOn a w' x.1) (e : (w'.s.area a).handover = x.2) :
    w.Turns a x w' := ⟨[], by rwa [List.append_nil], e ▸ .rests _⟩

theorem Work.Turns.examine {x : List NoticeKind × Handover} (h : w.Turns a x w') (f : StepKind → Bool) :
    w.Turns a x (w'.examine a f) := by
  obtain ⟨l, h1, h2⟩ := h
  obtain ⟨m, g1, g2⟩ := w'.examine_acts a f
  exact ⟨l ++ m, List.append_assoc .. ▸ h1.trans g1, h2.trans (h1.acts.passes g2)⟩

theorem Work.setReasons_turns (a : AreaNo) (request : Bool) (w : Work) :
    w.Turns a (w.s.turned a request (w.s.area a).handover) (w.setReasons a (w.s.reasonsNow a request)) := by
  have same (h : w.s.turned a request (w.s.area a).handover = ([], (w.s.area a).handover)) :
      w.Turns a (w.s.turned a request (w.s.area a).handover) w := by
    rw [h]; exact .rests (.refl a w) rfl
  unfold Work.setReasons
  split
  · rename_i p x y hr
    split
    · rename_i he
      exact same (by simp only [State.turned, hr, Reasons.isEmpty_iff.mp he, if_true])
    · rename_i he
      have e : w.s.turned a request (w.s.area a).handover = ([.handoverSuspended a (w.s.reasonsNow a request)],
          .suspended p (x.map w.s.remaining) (y.map w.s.remaining) (w.s.reasonsNow a request)) := by
        simp only [State.turned, hr, if_neg fun h => he (Reasons.isEmpty_iff.mpr h)]; rfl
      rw [e]
      obtain ⟨h1, h2⟩ := w.setHandover_acts a
        (.suspended p (x.map w.s.remaining) (y.map w.s.remaining) (w.s.reasonsNow a request))
      refine .rests ?_ h2
      exact h1.trans (.of_eq rfl rfl fun k hk => by rw [List.mem_singleton.mp hk]; rfl)
  · rename_i p x y r hr
    split
    · rename_i he
      have e : w.s.turned a request (w.s.area a).handover = ([.handoverResumed a],
          .running p (x.map w.s.resumeIn) (y.map w.s.resumeIn)) := by
        simp only [State.turned, hr, if_pos (Reasons.isEmpty_iff.mp he)]; rfl
      rw [e]
      obtain ⟨h1, h2⟩ := w.setHandover_acts a (.running p (x.map w.s.resumeIn) (y.map w.s.resumeIn))
      refine .examine (.rests ?_ h2) _
      exact h1.trans (.of_eq rfl rfl fun k hk => by rw [List.mem_singleton.mp hk]; rfl)
    · rename_i he
      have e : w.s.turned a request (w.s.area a).handover = ([], .suspended p x y (w.s.reasonsNow a request)) := by
        simp only [State.turned, hr, if_neg fun h => he (Reasons.isEmpty_iff.mpr h)]
      rw [e]
      obtain ⟨h1, h2⟩ := w.setHandover_acts a (.suspended p x y (w.s.reasonsNow a request))
      exact .rests ⟨⟨h1.acts.frames, h1.acts.same, h1.acts.mill, h1.acts.kept, h1.acts.out, h1.acts.kinds⟩, h1.own, h1.other⟩ h2
  · rename_i hr; exact same (by simp only [State.turned, hr])
  · rename_i hr; exact same (by simp only [State.turned, hr])
  · rename_i hr; exact same (by simp only [State.turned, hr])

theorem Work.reconsider_acts (a : AreaNo) (f : StepKind → Bool) (w : Work) :
    ∃ l, w.ActsOn a (w.reconsider a f) l ∧
      w.s.HandoverGoes none a (w.s.area a).handover l ((w.reconsider a f).s.area a).handover := by
  unfold Work.reconsider
  split
  · obtain ⟨l, h1, h2⟩ := (w.setReasons_turns a (w.s.area a).handover.requested).examine f
    exact ⟨_, h1, .inr ⟨l, rfl, h2⟩⟩
  · exact ⟨[], .refl a w, .inl (.rests _)⟩

theorem Work.begin_turns (a : AreaNo) (w : Work) : w.Turns a (w.s.begun a) (w.begin a) := by
  unfold Work.begin
  dsimp only
  rw [State.entering_eq]
  obtain ⟨h1, h2⟩ := w.setHandover_acts a (w.s.entered ⟨(w.s.area a).config.start, 1⟩ (w.s.reasonsNow a false))
  generalize w.setHandover a (w.s.entered ⟨(w.s.area a).config.start, 1⟩ (w.s.reasonsNow a false)) = v at h1 h2 ⊢
  by_cases hr : w.s.reasonsNow a false = ⟨false, false, false, false⟩
  · rw [if_pos (Reasons.isEmpty_iff.mpr hr)]
    rw [show w.s.begun a = ([], w.s.entered ⟨(w.s.area a).config.start, 1⟩ (w.s.reasonsNow a false)) by
      simp only [State.begun, if_pos hr]]
    generalize w.s.entered ⟨(w.s.area a).config.start, 1⟩ (w.s.reasonsNow a false) = x at h2 ⊢
    refine .examine (.rests ?_ h2) _
    exact ⟨⟨h1.acts.frames, h1.acts.same, h1.acts.mill, h1.acts.kept, h1.acts.out, h1.acts.kinds⟩, h1.own, h1.other⟩
  · rw [if_neg fun e => hr (Reasons.isEmpty_iff.mp e)]
    rw [show w.s.begun a = ([.handoverSuspended a (w.s.reasonsNow a false)],
      w.s.entered ⟨(w.s.area a).config.start, 1⟩ (w.s.reasonsNow a false)) by simp only [State.begun, if_neg hr]]
    generalize w.s.entered ⟨(w.s.area a).config.start, 1⟩ (w.s.reasonsNow a false) = x at h2 ⊢
    refine .rests ?_ h2
    exact h1.trans (.of_eq rfl rfl fun k hk => by rw [List.mem_singleton.mp hk]; rfl)

/-- Turns are what an owner's own change is. -/
theorem Work.Turns.goes {x : List NoticeKind × Handover} (h : w.Turns a x w') :
    ∃ l, w.ActsOn a w' l ∧ w.s.HandoverGoes (some x) a (w.s.area a).handover l (w'.s.area a).handover := by
  obtain ⟨l, h1, h2⟩ := h
  exact ⟨_, h1, l, rfl, h2⟩

end Sys2Proof.Machine
end

