-- ==== Sys2Proof/Laws/Settles.lean ====
section
/-! SUPPORT. The handover unit's work of an event (`Work.Of`) and the shift change, with their notices and the order
of these. -/

namespace Sys2Proof.Machine

variable {s t u d : State} {w w' w'' : Work} {a : AreaNo} {l m : List NoticeKind}

/-! ### Work over several areas -/

theorem NoticeKind.shift?_of_handover {k : NoticeKind} (h : k.handoverArea.isSome) : k.shift? = none := by
  cases k <;> first | rfl | simp [NoticeKind.handoverArea] at h

theorem NoticeKind.tells_of_handover {k : NoticeKind} {b : AreaNo} (h : k.handoverArea = some b.val) (a : AreaNo) :
    k.tells a = decide (b = a) := by
  simp only [NoticeKind.tells, NoticeKind.shift?_of_handover (by rw [h]; rfl : k.handoverArea.isSome), h,
    Option.isSome_none, Bool.or_false]
  by_cases e : b = a
  · subst e; simp
  · simp [e, Fin.val_inj]

theorem filter_tells_self {a : AreaNo} (h : ∀ k ∈ l, k.handoverArea = some a.val) : l.filter (·.tells a) = l :=
  List.filter_eq_self.mpr fun k hk => by simp [NoticeKind.tells_of_handover (h k hk)]

theorem filter_tells_other {a : AreaNo} (h : ∀ k ∈ l, ∃ b : AreaNo, b ≠ a ∧ k.handoverArea = some b.val) :
    l.filter (·.tells a) = [] :=
  List.filter_eq_nil_iff.mpr fun k hk => by
    obtain ⟨b, hb, e⟩ := h k hk
    simp [NoticeKind.tells_of_handover e, hb]

/-- The handover work over areas in ascending order. -/
theorem Work.fold_acts {Q : State → AreaNo → Handover → List NoticeKind → Handover → Prop} {g : Work → AreaNo → Work}
    (hQ : ∀ {w w' : Work} {l m : List NoticeKind} {a x y}, w.Acts w' l → Q w'.s a x m y → Q w.s a x m y)
    (hg : ∀ w a, ∃ l, w.ActsOn a (g w a) l ∧ Q w.s a (w.s.area a).handover l ((g w a).s.area a).handover)
    {as : List AreaNo} (h : as.Pairwise (· < ·)) (w : Work) :
    ∃ l, w.Acts (as.foldl g w) l ∧ Keyed NoticeKind.handoverArea (· ≤ ·) l ∧
      (∀ k ∈ l, ∃ a ∈ as, k.handoverArea = some a.val) ∧
      (∀ a ∈ as, Q w.s a (w.s.area a).handover (l.filter (·.tells a)) ((as.foldl g w).s.area a).handover) ∧
      ∀ a ∉ as, ((as.foldl g w).s.area a).handover = (w.s.area a).handover := by
  induction as generalizing w with
  | nil => exact ⟨[], .refl w, .nil, nofun, nofun, fun _ _ => rfl⟩
  | cons a as ih =>
    obtain ⟨ha, has⟩ := List.pairwise_cons.mp h
    obtain ⟨l, g1, g2⟩ := hg w a
    obtain ⟨m, f1, f2, f3, f4, f5⟩ := ih has (g w a)
    have hm : a ∉ as := fun h => absurd (ha a h) (by simp)
    refine ⟨l ++ m, g1.acts.trans f1, ⟨?_, ?_⟩, ?_, ?_, ?_⟩
    · intro k hk
      exact (List.mem_append.mp hk).elim (g1.acts.kinds k) (f1.kinds k)
    · refine List.pairwise_append.mpr ⟨?_, f2.2, ?_⟩
      · exact List.pairwise_of_forall_mem_list fun x hx y hy => by simp [g1.own x hx, g1.own y hy]
      · intro x hx y hy
        obtain ⟨b, hb, e⟩ := f3 y hy
        simp only [g1.own x hx, e, Option.getD_some]
        exact Nat.le_of_lt (ha b hb)
    · intro k hk
      rcases List.mem_append.mp hk with hk | hk
      · exact ⟨a, List.mem_cons_self, g1.own k hk⟩
      · obtain ⟨b, hb, e⟩ := f3 k hk
        exact ⟨b, List.mem_cons_of_mem a hb, e⟩
    · intro b hb
      rw [List.filter_append, List.foldl_cons]
      by_cases e : b = a
      · subst e
        rw [filter_tells_self g1.own, filter_tells_other fun k hk => by
          obtain ⟨c, hc, e⟩ := f3 k hk
          exact ⟨c, fun e => hm (e ▸ hc), e⟩, List.append_nil, f5 b hm]
        exact g2
      · have hb : b ∈ as := (List.mem_cons.mp hb).resolve_left e
        rw [filter_tells_other fun k hk => ⟨a, Ne.symm e, g1.own k hk⟩, List.nil_append, ← g1.other b e]
        exact hQ g1.acts (f4 b hb)
    · intro b hb
      rw [List.foldl_cons, f5 b fun h => hb (List.mem_cons_of_mem a h), g1.other b fun e => hb (e ▸ List.mem_cons_self)]

theorem allAreas_sorted : allAreas.Pairwise (· < ·) := List.pairwise_lt_finRange 32

theorem mem_allAreas (a : AreaNo) : a ∈ allAreas := List.mem_finRange a

/-! ### An event -/

/-- The work `w` of an event whose owner has made `d`, with the owner's own changes of handovers. -/
structure Work.Of (d : State) (own : AreaNo → Option (List NoticeKind × Handover)) (w : Work) : Prop where
  acts  : (Work.mk d [] false false false).Acts w w.out
  order : Keyed NoticeKind.handoverArea (· ≤ ·) w.out
  goes  : ∀ a, d.HandoverGoes (own a) a (d.area a).handover (w.out.filter (·.tells a)) (w.s.area a).handover

/-- An event in which the handover unit has nothing to do. -/
theorem Work.Of.start (d : State) (cover shift sheets : Bool) : (Work.mk d [] cover shift sheets).Of d fun _ => none :=
  ⟨.of_eq rfl rfl nofun, .nil, fun _ => .inl (.rests _)⟩

/-- Work on one area alone. -/
theorem Work.Of.onArea {own : AreaNo → Option (List NoticeKind × Handover)} {cover shift sheets : Bool}
    (h : ∃ l, (Work.mk d [] cover shift sheets).ActsOn a w l ∧
      d.HandoverGoes (own a) a (d.area a).handover l (w.s.area a).handover)
    (hb : ∀ b, b ≠ a → own b = none ∨ own b = some ([], (d.area b).handover)) : w.Of d own := by
  obtain ⟨l, h1, h2⟩ := h
  have ho : w.out = l := h1.acts.out.trans (List.nil_append l)
  refine ⟨⟨h1.acts.frames, h1.acts.same, h1.acts.mill, h1.acts.kept, rfl, ho ▸ h1.acts.kinds⟩, ho ▸ ⟨h1.acts.kinds, ?_⟩, fun b => ?_⟩
  · exact List.pairwise_of_forall_mem_list fun x hx y hy => by simp [h1.own x hx, h1.own y hy]
  · rw [ho]
    by_cases e : b = a
    · subst e
      rw [filter_tells_self h1.own]
      exact h2
    · rw [filter_tells_other fun k hk => ⟨a, Ne.symm e, h1.own k hk⟩, h1.other b e]
      rcases hb b e with x | x <;> rw [x]
      · exact .inl (.rests _)
      · exact ⟨[], rfl, .rests _⟩

/-- Work over areas in ascending order. -/
theorem Work.Of.fold {own : State → AreaNo → Option (List NoticeKind × Handover)} {g : Work → AreaNo → Work}
    (hQ : ∀ {w w' : Work} {l : List NoticeKind} {a}, w.Acts w' l → own w'.s a = own w.s a)
    (hg : ∀ (w : Work) a, ∃ l, w.ActsOn a (g w a) l ∧
      w.s.HandoverGoes (own w.s a) a (w.s.area a).handover l ((g w a).s.area a).handover)
    {as : List AreaNo} (h : as.Pairwise (· < ·)) (cover shift sheets : Bool) :
    (as.foldl g (Work.mk d [] cover shift sheets)).Of d fun a => if a ∈ as then own d a else none := by
  obtain ⟨l, h1, h2, h3, h4, h5⟩ := Work.fold_acts (Q := fun s a x m y => s.HandoverGoes (own s a) a x m y)
    (fun c q => c.goes (hQ c ▸ q)) hg h (Work.mk d [] cover shift sheets)
  have ho := h1.out.trans (List.nil_append l)
  refine ⟨⟨h1.frames, h1.same, h1.mill, h1.kept, rfl, ho ▸ h1.kinds⟩, ho ▸ h2, fun a => ?_⟩
  rw [ho]
  split
  · exact h4 a ‹_›
  · rw [h5 a ‹_›, filter_tells_other fun k hk => by
      obtain ⟨b, hb, e⟩ := h3 k hk
      exact ⟨b, fun e => ‹a ∉ as› (e ▸ hb), e⟩]
    exact .inl (.rests _)

theorem Work.tripsChanged_of (d : State) : (Work.tripsChanged { s := d }).Of d fun _ => none := by
  have h := Work.Of.fold (d := d) (own := fun _ _ => none) (g := fun w a => w.reconsider a fun _ => false) (fun _ => rfl)
    (fun w a => w.reconsider_acts a _) allAreas_sorted false false false
  unfold Work.tripsChanged
  simpa [mem_allAreas] using h

theorem Work.seatsChanged_of (f : AreaNo → Bool) (d : State) (cover : Bool) :
    (Work.seatsChanged f { s := d, cover }).Of d fun _ => none := by
  have h := Work.Of.fold (d := d) (own := fun _ _ => none) (g := fun w a => if f a then w.examine a (· == .seatIn) else w)
    (fun _ => rfl) (fun w a => by
      split
      · obtain ⟨l, h1, h2⟩ := w.examine_acts a (· == .seatIn); exact ⟨l, h1, .inl h2⟩
      · exact ⟨[], .refl a w, .inl (.rests _)⟩) allAreas_sorted cover false false
  unfold Work.seatsChanged
  simpa [mem_allAreas] using h

theorem Work.reconsider_of (a : AreaNo) (f : StepKind → Bool) (d : State) (cover shift sheets : Bool) :
    ((Work.mk d [] cover shift sheets).reconsider a f).Of d fun _ => none :=
  .onArea ((Work.mk d [] cover shift sheets).reconsider_acts a f) fun _ _ => .inl rfl

theorem Work.pointChanged_of (p : Point) (d : State) (cover shift sheets : Bool) :
    ((Work.mk d [] cover shift sheets).pointChanged p).Of d fun _ => none := by
  unfold Work.pointChanged
  split
  · exact Work.reconsider_of _ _ d cover shift sheets
  · exact .start d cover shift sheets

theorem Work.examine_of (a : AreaNo) (f : StepKind → Bool) (d : State) (cover shift sheets : Bool) :
    ((Work.mk d [] cover shift sheets).examine a f).Of d fun _ => none := by
  obtain ⟨l, h1, h2⟩ := (Work.mk d [] cover shift sheets).examine_acts a f
  exact .onArea ⟨l, h1, .inl h2⟩ fun _ _ => .inl rfl

/-- An examination alone: no handover turns, each passes steps. -/
theorem Work.examine_passes (a : AreaNo) (f : StepKind → Bool) (d : State) (cover shift sheets : Bool) :
    ((Work.mk d [] cover shift sheets).examine a f).Of d fun b => some ([], (d.area b).handover) := by
  obtain ⟨l, h1, h2⟩ := (Work.mk d [] cover shift sheets).examine_acts a f
  exact .onArea ⟨l, h1, l, rfl, h2⟩ fun _ _ => .inr rfl

/-- The owner's own change of area `a`'s handover. -/
theorem Work.Turns.of {x : List NoticeKind × Handover} {cover shift sheets : Bool}
    (h : (Work.mk d [] cover shift sheets).Turns a x w) : w.Of d fun b => if b = a then some x else none :=
  .onArea (by simpa using h.goes) fun b hb => .inl (if_neg hb)

theorem Work.completeStep_of {p : Position} {x y : Option Deadline} (h : (d.area a).handover = .running p x y)
    (cover shift sheets : Bool) : ((Work.mk d [] cover shift sheets).completeStep a).Of d fun b =>
      if b = a then some (d.completion a p) else none :=
  Work.Turns.of (cover := cover) (shift := shift) (sheets := sheets) (Work.completeStep_acts h)

/-! ### The shift change -/

/-- What a notice of a shelf's end, or of a banner, leaves. -/
structure State.Announces (s t : State) (ks : List NoticeKind) : Prop where
  clock    : t.clock = s.clock
  settings : t.settings = s.settings
  mill     : t.mill = s.mill
  area     : ∀ a, t.area a = { s.area a with shelvedCount := (t.area a).shelvedCount }
  queue    : s.Hands t ks
  heads    : ∀ c, Follows Becomes (s.console c).head (ks.filterMap (·.head? c)) (t.console c).head

theorem State.Announces.trans (h : s.Announces t l) (k : t.Announces u m) : s.Announces u (l ++ m) where
  clock := k.clock.trans h.clock
  settings := k.settings.trans h.settings
  mill := k.mill.trans h.mill
  area a := by rw [k.area a, h.area a]
  queue := h.queue.trans k.queue h.clock h.settings
  heads c := by rw [List.filterMap_append]; exact (h.heads c).trans (k.heads c)

theorem State.Announces.refl (s : State) : s.Announces s [] := ⟨rfl, rfl, rfl, fun _ => rfl, rfl, fun _ => rfl⟩

theorem State.annunciate_announces (s : State) : s.Announces s.annunciate s.bannerNotices := by
  obtain ⟨cs, r, q, e⟩ := s.annunciate_rest
  have h := s.annunciate_proceeds.tells
  refine ⟨by rw [e], by rw [e], by rw [e], fun a => by rw [e]; rfl, h.queue, h.heads⟩

theorem State.endShelf_announces (r : Shelf) (s : State) : s.Announces (s.endShelf r) [] := by
  have hd : s.Announces (s.dropShelf r) [] := by
    refine ⟨rfl, rfl, rfl, fun a => ?_, rfl, fun _ => rfl⟩
    unfold State.dropShelf
    rw [State.area_modArea]
    split
    · subst_vars; rfl
    · rfl
  refine hd.trans (m := []) ?_
  unfold State.endShelf State.removeReason
  dsimp only
  split <;> exact ⟨rfl, rfl, rfl, fun _ => rfl, rfl, fun _ => rfl⟩

theorem State.expireShelf_announces (r : Shelf) (s : State) :
    ∃ b, s.Announces (s.expireShelf r) (.shelfExpired r.point :: b) ∧ Keyed NoticeKind.bannerConsole (· < ·) b := by
  have hn (x : State) : x.Announces (x.notify (.shelfExpired r.point)) [.shelfExpired r.point] := by
    obtain ⟨q, e⟩ := x.notify_queue (.shelfExpired r.point)
    exact ⟨by rw [e], by rw [e], by rw [e], fun a => by rw [e]; rfl, rfl, fun c => by rw [e]; exact rfl⟩
  exact ⟨_, ((s.endShelf_announces r).trans (hn _)).trans (State.annunciate_announces _), State.bannerNotices_keyed _⟩

theorem State.expireShelf_shelves (r : Shelf) (s : State) : (s.expireShelf r).shelves = s.shelves.filter (· != r) := by
  have h : (s.endShelf r).shelves = s.shelves.filter (· != r) := by
    unfold State.endShelf State.removeReason
    dsimp only
    split <;> rfl
  unfold State.expireShelf
  obtain ⟨cs, x, q, e⟩ := State.annunciate_rest ((s.endShelf r).notify (.shelfExpired r.point))
  rw [e, ← h, State.notify_eq]

theorem State.expireAll_announces (l : List Shelf) (s : State) :
    ∃ ends : List (PointNo × List NoticeKind),
      s.Announces (l.foldl (fun s r => s.expireShelf r) s) (ends.flatMap fun x => .shelfExpired x.1 :: x.2) ∧
      (∀ x ∈ ends, Keyed NoticeKind.bannerConsole (· < ·) x.2) ∧ ends.map (·.1) = l.map (·.point) ∧
      (l.foldl (fun s r => s.expireShelf r) s).shelves = s.shelves.filter fun q => q ∉ l := by
  induction l generalizing s with
  | nil => exact ⟨[], .refl s, nofun, rfl, by simp⟩
  | cons r l ih =>
    obtain ⟨b, h1, h2⟩ := s.expireShelf_announces r
    obtain ⟨ends, g1, g2, g3, g4⟩ := ih (s.expireShelf r)
    refine ⟨(r.point, b) :: ends, h1.trans g1, ?_, by simp [g3], ?_⟩
    · intro x hx
      rcases List.mem_cons.mp hx with rfl | hx
      · exact h2
      · exact g2 x hx
    · rw [List.foldl_cons, g4, State.expireShelf_shelves, List.filter_filter]
      refine List.filter_congr fun q _ => ?_
      by_cases e : q = r <;> simp [e]

theorem Shelf.afterShift_eq (r : Shelf) : r.afterShift = if r.countDown.spent then none else some r.countDown := by
  obtain ⟨p, a, o, c, x, e⟩ := r
  cases e with
  | minutes d => rfl
  | shifts n =>
    simp only [Shelf.afterShift, Shelf.countDown, Shelf.spent]
    by_cases h : n ≤ 1
    · have : n - 1 = 0 := by omega
      simp [h, this]
    · have : n - 1 ≠ 0 := by omega
      simp [h, this]

theorem State.countShelves_announces (s : State) :
    ∃ ends : List (PointNo × List NoticeKind),
      s.Announces s.countShelves (ends.flatMap fun x => .shelfExpired x.1 :: x.2) ∧
      (∀ x ∈ ends, Keyed NoticeKind.bannerConsole (· < ·) x.2) ∧
      ends.map (·.1) = (s.shelves.filter fun r => r.afterShift.isNone).map (·.point) ∧
      s.countShelves.shelves = s.shelves.filterMap Shelf.afterShift := by
  obtain ⟨ends, h1, h2, h3, h4⟩ := State.expireAll_announces ((s.shelves.map Shelf.countDown).filter Shelf.spent)
    { s with shelves := s.shelves.map Shelf.countDown }
  have h0 : s.Announces { s with shelves := s.shelves.map Shelf.countDown } [] :=
    ⟨rfl, rfl, rfl, fun _ => rfl, rfl, fun _ => rfl⟩
  refine ⟨ends, h0.trans h1, h2, ?_, ?_⟩
  · rw [h3, List.filter_map, List.map_map]
    rw [show (fun r : Shelf => r.point) ∘ Shelf.countDown = (·.point) from funext Shelf.countDown_point]
    refine congrArg _ (List.filter_congr fun r _ => ?_)
    rw [Function.comp, Shelf.afterShift_eq]
    split <;> simp_all
  · refine h4.trans ?_
    have : (s.shelves.map Shelf.countDown).filter (fun q => q ∉ (s.shelves.map Shelf.countDown).filter Shelf.spent)
        = (s.shelves.map Shelf.countDown).filter fun q => !q.spent :=
      List.filter_congr fun q hq => by simp only [List.mem_filter, hq, true_and]; cases q.spent <;> rfl
    refine this.trans ?_
    generalize s.shelves = x
    induction x with
    | nil => rfl
    | cons r x ih =>
      rw [List.map_cons, List.filter_cons, List.filterMap_cons, Shelf.afterShift_eq]
      by_cases h : r.countDown.spent
      · simp [h, ih]
      · simp [h, ih]

/-- The notices of the shelves' ends name each ended point once for each of its records. -/
theorem count_ends (n : PointNo) (ends : List (PointNo × List NoticeKind))
    (h : ∀ x ∈ ends, Keyed NoticeKind.bannerConsole (· < ·) x.2) :
    (ends.flatMap fun x => NoticeKind.shelfExpired x.1 :: x.2).count (.shelfExpired n) = (ends.map (·.1)).count n := by
  induction ends with
  | nil => rfl
  | cons x ends ih =>
    have hx : NoticeKind.shelfExpired n ∉ x.2 := fun hn => by
      have := (h x List.mem_cons_self).1 _ hn
      simp [NoticeKind.bannerConsole] at this
    simp only [List.flatMap_cons, List.map_cons, List.cons_append, List.count_cons, List.count_append, count_none hx,
      ih fun y hy => h y (List.mem_cons_of_mem x hy)]
    by_cases e : x.1 = n <;> simp [e]

/-- The notices of shelves' ends are SHELF_EXPIRED and BANNER. -/
theorem mem_ends {ends : List (PointNo × List NoticeKind)} (h : ∀ x ∈ ends, Keyed NoticeKind.bannerConsole (· < ·) x.2)
    {k : NoticeKind} (hk : k ∈ ends.flatMap fun x => NoticeKind.shelfExpired x.1 :: x.2) :
    (∃ n, k = .shelfExpired n) ∨ ∃ c y, k = .banner c y := by
  obtain ⟨x, hx, hk⟩ := List.mem_flatMap.mp hk
  rcases List.mem_cons.mp hk with rfl | hk
  · exact .inl ⟨_, rfl⟩
  · have := (h x hx).1 k hk
    cases k <;> first | exact .inr ⟨_, _, rfl⟩ | simp [NoticeKind.bannerConsole] at this

theorem countP_afterShift (n : PointNo) (l : List Shelf) :
    ((l.filter fun r => r.afterShift.isNone).map (·.point)).count n + (l.filterMap Shelf.afterShift).countP (·.point == n)
      = l.countP (·.point == n) := by
  induction l with
  | nil => rfl
  | cons r l ih =>
    rw [List.filter_cons, List.filterMap_cons, List.countP_cons]
    rw [Shelf.afterShift_eq]
    by_cases h : r.countDown.spent
    · simp only [h, if_true, Option.isNone_none, List.map_cons, List.count_cons]
      omega
    · simp only [h, Option.isNone_some, Bool.false_eq_true, if_false, List.countP_cons, Shelf.countDown_point]
      omega

theorem State.PassesSteps.steady_nil {h : Handover} (x : s.PassesSteps a .steady [] h) : h = .steady := by
  generalize hx : Handover.steady = y at x
  generalize hl : ([] : List NoticeKind) = l at x
  cases x with
  | rests => rfl
  | step => cases hx
  | shift => cases hl

theorem State.shiftChange_proceeds (s : State) :
    ∃ ks, s.Proceeds s.shiftChange ks ∧ s.ShiftNotices ks := by
  obtain ⟨ends, h1, h2, h3, h4⟩ := (s.changeCrews (s.mill.incoming.getD s.mill.duty)).countShelves_announces
  unfold State.shiftChange
  dsimp only
  generalize hs1 : (s.changeCrews (s.mill.incoming.getD s.mill.duty)).countShelves = s1 at h1 h4 ⊢
  have hmill : s1.mill = { shift := s.nextShift, duty := s.mill.incoming.getD s.mill.duty, incoming := none, outstanding := 0 } :=
    h1.mill
  have harea (a : AreaNo) : s1.area a =
      { s.area a with
        duty := s.mill.incoming.getD s.mill.duty, handover := .steady, shelvedCount := (s1.area a).shelvedCount } := by
    rw [h1.area a]; simp [State.changeCrews, State.area]
  obtain ⟨q, hn⟩ := s1.notify_queue (.shiftChanged s1.mill.shift s1.mill.duty)
  have hc := (s1.notify (.shiftChanged s1.mill.shift s1.mill.duty)).rederiveCoverage_proceeds
  have ho := (s1.notify (.shiftChanged s1.mill.shift s1.mill.duty)).rederiveCoverage.driveOutputs_proceeds
  have h5 := hc.trans ho
  rw [List.append_nil] at h5
  have hk : ∀ k ∈ (s1.notify (.shiftChanged s1.mill.shift s1.mill.duty)).coverageNotices,
      ∃ a, k = .areaCovered a ∨ k = .areaUncovered a := fun k => State.mem_coverageNotices
  have hkeyed := (s1.notify (.shiftChanged s1.mill.shift s1.mill.duty)).coverageNotices_keyed
  generalize (s1.notify (.shiftChanged s1.mill.shift s1.mill.duty)).coverageNotices = cov at hk hkeyed h5
  have hfr : s.Frames (s1.notify (.shiftChanged s1.mill.shift s1.mill.duty)).rederiveCoverage.driveOutputs := by
    have := s.shiftChange_frames
    unfold State.shiftChange at this
    dsimp only at this
    rwa [hs1] at this
  have hqueue : s.Hands (s1.notify (.shiftChanged s1.mill.shift s1.mill.duty))
      (ends.flatMap (fun x => NoticeKind.shelfExpired x.1 :: x.2) ++ [.shiftChanged s1.mill.shift s1.mill.duty]) := by
    refine State.Hands.trans (t := s1) ?_ rfl h1.clock h1.settings
    have : s.Hands (s.changeCrews (s.mill.incoming.getD s.mill.duty)) [] := rfl
    exact this.trans h1.queue rfl rfl
  have hends {k : NoticeKind} (hk : k ∈ ends.flatMap fun x => NoticeKind.shelfExpired x.1 :: x.2) := mem_ends h2 hk
  generalize (s1.notify (.shiftChanged s1.mill.shift s1.mill.duty)).rederiveCoverage.driveOutputs = t at h5 hfr
  generalize hs2 : s1.notify (.shiftChanged s1.mill.shift s1.mill.duty) = s2 at *
  refine ⟨ends.flatMap (fun x => .shelfExpired x.1 :: x.2) ++ .shiftChanged s1.mill.shift s1.mill.duty :: cov, ?_,
    ⟨ends, _, _, cov, rfl, h2, hkeyed, h3⟩⟩
  have hsplit : ends.flatMap (fun x => NoticeKind.shelfExpired x.1 :: x.2) ++ .shiftChanged s1.mill.shift s1.mill.duty :: cov
      = (ends.flatMap (fun x => NoticeKind.shelfExpired x.1 :: x.2) ++ [.shiftChanged s1.mill.shift s1.mill.duty]) ++ cov := by
    simp
  have hs2a (a : AreaNo) : s2.area a = s1.area a := by rw [hn]; rfl
  have hnone {γ : Type} (g : NoticeKind → Option γ) (h1 : ∀ n, g (.shelfExpired n) = none)
      (h2 : ∀ c y, g (.banner c y) = none) :
      (ends.flatMap fun x => NoticeKind.shelfExpired x.1 :: x.2).filterMap g = [] :=
    filterMap_none fun k hk => by
      rcases hends hk with ⟨n, rfl⟩ | ⟨c, y, rfl⟩
      · exact h1 n
      · exact h2 c y
  have hcov {γ : Type} (g : NoticeKind → Option γ) (h1 : ∀ a, g (.areaCovered a) = none)
      (h2 : ∀ a, g (.areaUncovered a) = none) : cov.filterMap g = [] :=
    filterMap_none fun k h => by
      obtain ⟨a, rfl | rfl⟩ := hk k h
      · exact h1 a
      · exact h2 a
  refine ⟨hfr, ⟨?_, ?_, ?_, ?_, ?_, ?_, ?_⟩, fun a => ?_⟩
  · rw [hsplit]
    exact hqueue.trans h5.tells.queue (by rw [hn]; exact h1.clock) (by rw [hn]; exact h1.settings)
  · intro k hm
    rcases List.mem_append.mp hm with hm | hm
    · rcases hends hm with ⟨n, rfl⟩ | ⟨c, y, rfl⟩ <;> rfl
    · rcases List.mem_cons.mp hm with rfl | hm
      · rfl
      · obtain ⟨a, rfl | rfl⟩ := hk k hm <;> rfl
  · intro a
    have h6 := h5.tells.covered a
    rw [hs2a, harea] at h6
    rw [List.filterMap_append, List.filterMap_cons, hnone _ (fun _ => rfl) (fun _ _ => rfl)]
    exact h6
  · intro c
    have h6 := h5.tells.heads c
    rw [List.filterMap_append, List.filterMap_cons]
    refine (h1.heads c).trans ?_
    rw [hn] at h6
    exact h6
  · have h6 := h5.tells.shifts
    rw [hcov _ (fun _ => rfl) (fun _ => rfl), hn] at h6
    rw [List.filterMap_append, List.filterMap_cons, hnone _ (fun _ => rfl) (fun _ _ => rfl),
      hcov _ (fun _ => rfl) (fun _ => rfl), ← (show (s1.mill.shift, s1.mill.duty, s1.shelves) = _ from h6), h4, hmill]
    exact ⟨_, ⟨rfl, rfl⟩, rfl⟩
  · intro n
    have h6 := h5.tells.shifts
    rw [hcov _ (fun _ => rfl) (fun _ => rfl), hn] at h6
    have h7 : t.shelves = s1.shelves := (congrArg (fun x => x.2.2) (show (s1.mill.shift, s1.mill.duty, s1.shelves) = _ from h6)).symm
    rw [List.count_append, count_ends n ends h2, h3, List.count_cons, count_none fun h => (by
      obtain ⟨a, e | e⟩ := hk _ h <;> cases e), h7, h4]
    have := countP_afterShift n s.shelves
    simp only [State.changeCrews] at *
    simpa using this
  · intro a
    have h6 := h5.tells.sheets a
    rw [hs2a, harea] at h6
    rw [List.filterMap_append, List.filterMap_cons, hnone _ (fun _ => rfl) (fun _ _ => rfl)]
    exact h6
  · have h6 := h5.steps a
    rw [hs2a, harea] at h6
    have hc : cov.filter (·.tells a) = [] := List.filter_eq_nil_iff.mpr fun k h => by
      obtain ⟨a, rfl | rfl⟩ := hk k h <;> simp [NoticeKind.tells, NoticeKind.handoverArea, NoticeKind.shift?]
    have he : (ends.flatMap fun x => NoticeKind.shelfExpired x.1 :: x.2).filter (·.tells a) = [] :=
      List.filter_eq_nil_iff.mpr fun k h => by
        rcases hends h with ⟨n, rfl⟩ | ⟨c, y, rfl⟩ <;> simp [NoticeKind.tells, NoticeKind.handoverArea, NoticeKind.shift?]
    rw [List.filter_append, he, List.filter_cons_of_pos (by simp [NoticeKind.tells, NoticeKind.shift?]), hc, List.nil_append]
    rw [hc] at h6
    exact h6.steady_nil ▸ .shift _ _ _ _ _ (.rests _)

end Sys2Proof.Machine
end

