-- ==== Sys2Proof/Laws/Passes.lean ====
section
/-! SUPPORT. The sheet store's pass with its notices, and everything that the end of an event can do: `State.Settles`. -/

namespace Sys2Proof.Machine

variable {s t u d : State} {w w' : Work} {a : AreaNo} {l m : List NoticeKind}
variable {own : AreaNo → Option (List NoticeKind × Handover)}

/-! ### The settling -/

/-- The handover notices queued tell of no change but those of the handovers. -/
theorem State.notifyAll_tells (s : State) (h : ∀ k ∈ l, k.handoverArea.isSome) : s.Tells (s.notifyAll l) l := by
  have he := s.notifyAll_eq l
  have hf {γ : Type} (g : NoticeKind → Option γ) (hg : ∀ k : NoticeKind, k.handoverArea.isSome → g k = none) :
      l.filterMap g = [] := filterMap_none fun k hk => hg k (h k hk)
  have hm : (s.notifyAll l).mill = s.mill := by rw [he]
  have hl : (s.notifyAll l).shelves = s.shelves := by rw [he]
  have ha (a : AreaNo) : (s.notifyAll l).area a = s.area a := by rw [he]; rfl
  have hc (c : ConsoleNo) : (s.notifyAll l).console c = s.console c := by rw [he]; rfl
  refine ⟨rfl, fun k hk => ?_, fun a => ?_, fun c => ?_, ?_, fun n => ?_, fun a => ?_⟩
  · have := h k hk
    cases k <;> first | rfl | simp [NoticeKind.handoverArea] at this
  · rw [hf _ fun k hk => by cases k <;> first | rfl | simp [NoticeKind.handoverArea] at hk, ha]
    split <;> rfl
  · rw [hf _ fun k hk => by cases k <;> first | rfl | simp [NoticeKind.handoverArea] at hk, hc]; rfl
  · rw [hf _ fun k hk => by cases k <;> first | rfl | simp [NoticeKind.handoverArea] at hk, hm, hl]; rfl
  · rw [count_none fun hk => by simpa [NoticeKind.handoverArea] using h _ hk, hl, Nat.zero_add]
  · rw [hf _ fun k hk => by cases k <;> first | rfl | simp [NoticeKind.handoverArea] at hk, ha]; exact rfl

/-- What the settling of an event leaves, with its notices in R156's order. -/
structure Work.Settled (w : Work) (d : State) (own : AreaNo → Option (List NoticeKind × Handover)) (t : State)
    (cov ban shift : List NoticeKind) : Prop where
  frames : d.Frames t
  tells  : d.Tells t (cov ++ (ban ++ (w.out ++ shift)))
  covKey : Keyed NoticeKind.coverageArea (· < ·) cov
  banKey : Keyed NoticeKind.bannerConsole (· < ·) ban
  turn   : shift = [] ∨ d.ShiftNotices shift
  goes   : ∀ a, d.HandoverGoes (own a) a (d.area a).handover ((cov ++ (ban ++ (w.out ++ shift))).filter (·.tells a))
    (t.area a).handover

theorem filter_tells_none (h : ∀ k ∈ l, k.handoverArea = none ∧ k.shift? = none) (a : AreaNo) : l.filter (·.tells a) = [] :=
  List.filter_eq_nil_iff.mpr fun k hk => by simp [NoticeKind.tells, h k hk]

theorem Work.Of.settle (h : w.Of d own) : ∃ cov ban shift, w.Settled d own w.settle cov ban shift := by
  have h0 : d.Frames w.s := h.acts.frames
  have t0 : d.Tells w.s [] := by
    have e := h.acts.same
    have m := h.acts.mill
    refine .silent (by rw [e]) (fun a => (h.acts.kept a).1) (fun c => ?_) ⟨m.1, m.2.1⟩ (by rw [e]) fun a => (h.acts.kept a).2
    show (w.s.consoles[c]).head = _
    rw [e]; rfl
  have hc : ∃ cov, w.s.Proceeds (if w.cover then w.s.rederiveCoverage else w.s) cov ∧
      Keyed NoticeKind.coverageArea (· < ·) cov := by
    split
    · exact ⟨_, w.s.rederiveCoverage_proceeds, w.s.coverageNotices_keyed⟩
    · exact ⟨[], .refl _, .nil⟩
  obtain ⟨cov, hc, kc⟩ := hc
  have hsame : w.s.SameHandovers (if w.cover then w.s.rederiveCoverage else w.s) := by
    split
    · exact w.s.rederiveCoverage_same
    · exact .refl _
  unfold Work.settle
  dsimp only
  generalize (if w.cover then w.s.rederiveCoverage else w.s) = s1 at hc hsame ⊢
  have hb := s1.annunciate_proceeds
  have kb := s1.bannerNotices_keyed
  generalize s1.bannerNotices = ban at hb kb
  replace hsame := hsame.trans s1.annunciate_same
  generalize s1.annunciate = s2 at hb hsame ⊢
  have hcb := hc.trans hb
  have fo := State.notifyAll_frames w.out s2
  have tn := s2.notifyAll_tells h.acts.kinds
  have f2 : d.Frames s2 := h0.trans hcb.frames
  have t2 : d.Tells s2 ([] ++ (cov ++ ban)) := t0.trans h0 hcb.tells
  rw [List.nil_append] at t2
  have ha (a : AreaNo) : (s2.notifyAll w.out).area a = s2.area a := by rw [State.notifyAll_eq]; rfl
  have hs : ∃ shift t, (if w.shift then (s2.notifyAll w.out).shiftChange else s2.notifyAll w.out) = t ∧
      (s2.notifyAll w.out).Proceeds t shift ∧ (shift = [] ∨ (s2.notifyAll w.out).ShiftNotices shift) := by
    split
    · obtain ⟨ks, h1, h2⟩ := (s2.notifyAll w.out).shiftChange_proceeds
      exact ⟨ks, _, rfl, h1, .inr h2⟩
    · exact ⟨[], _, rfl, .refl _, .inl rfl⟩
  obtain ⟨shift, t, e, hs, ks⟩ := hs
  rw [e]
  have fc : ∀ k ∈ cov, k.handoverArea = none ∧ k.shift? = none := fun k hk => by
    have := kc.1 k hk
    cases k <;> first | exact ⟨rfl, rfl⟩ | simp [NoticeKind.coverageArea] at this
  have fb : ∀ k ∈ ban, k.handoverArea = none ∧ k.shift? = none := fun k hk => by
    have := kb.1 k hk
    cases k <;> first | exact ⟨rfl, rfl⟩ | simp [NoticeKind.bannerConsole] at this
  have hshelves : (s2.notifyAll w.out).shelves = d.shelves := by
    rw [State.notifyAll_eq]
    have h1 := t2.shifts
    rw [filterMap_none fun k hk => (List.mem_append.mp hk).elim (fun h => (fc k h).2) fun h => (fb k h).2] at h1
    exact (congrArg (fun x => x.2.2) h1).symm
  refine ⟨cov, ban, shift, ?_, ?_, kc, kb, ?_, fun a => ?_⟩
  · exact (f2.trans fo).trans hs.frames
  · have := (t2.trans f2 tn).trans (f2.trans fo) hs.tells
    simpa [List.append_assoc] using this
  · refine ks.imp_right fun ⟨ends, n, k, c, x⟩ => ⟨ends, n, k, c, ?_⟩
    rwa [hshelves] at x
  · simp only [List.filter_append, filter_tells_none fc, filter_tells_none fb, List.nil_append]
    refine (h.goes a).trans ?_
    have hp := hs.steps a
    have h2 : (s2.area a).handover = (w.s.area a).handover := (hsame.2 a).1
    rw [ha, h2] at hp
    exact hp.congr (f2.trans fo).clock (f2.trans fo).steps (f2.trans fo).crew

/-- The settling of an event in which no handover turns. -/
theorem Work.Of.settle_proceeds (h : w.Of d fun a => some ([], (d.area a).handover)) : ∃ ks, d.Proceeds w.settle ks := by
  obtain ⟨cov, ban, shift, x⟩ := h.settle
  refine ⟨_, x.frames, x.tells, fun a => ?_⟩
  obtain ⟨l, e, p⟩ := x.goes a
  exact e ▸ p

/-! ### The exchange -/

/-- Slots of the pool are filled and freed, and items join posted frames. -/
structure State.Fills (s t : State) : Prop where
  same : t = { s with areas := t.areas, pool := t.pool, freeCount := t.freeCount }
  kept : ∀ b, (t.area b).covered = (s.area b).covered ∧ (t.area b).handover = (s.area b).handover ∧
    (t.area b).draft = (s.area b).draft

theorem State.Fills.refl (s : State) : s.Fills s := ⟨rfl, fun _ => ⟨rfl, rfl, rfl⟩⟩

theorem State.Fills.trans (h : s.Fills t) (k : t.Fills u) : s.Fills u where
  same := by rw [k.same, h.same]
  kept b := ⟨(k.kept b).1.trans (h.kept b).1, (k.kept b).2.1.trans (h.kept b).2.1, (k.kept b).2.2.trans (h.kept b).2.2⟩

theorem State.Fills.fold {α : Type} {f : State → α → State} (h : ∀ (s : State) x, s.Fills (f s x)) (l : List α) (s : State) :
    s.Fills (l.foldl f s) := by
  induction l generalizing s with
  | nil => exact .refl s
  | cons x l ih => exact (h s x).trans (ih _)

theorem State.Fills.modPosted (a : AreaNo) (f : Area → Area) (s : State)
    (h : ∀ r, (f r).covered = r.covered ∧ (f r).handover = r.handover ∧ (f r).draft = r.draft) : s.Fills (s.modArea a f) where
  same := rfl
  kept b := by
    rw [State.area_modArea]
    split
    · subst_vars; exact h _
    · exact ⟨rfl, rfl, rfl⟩

theorem State.capture_fills (a : AreaNo) (k : ItemKind) (s : State) : s.Fills (s.capture a k) := by
  unfold State.capture
  split
  · exact .trans (t := s.placeItem _ _) ⟨rfl, fun _ => ⟨rfl, rfl, rfl⟩⟩ (.modPosted a _ _ fun _ => by exact ⟨rfl, rfl, rfl⟩)
  · exact .refl s

theorem State.swapSheets_fills (a : AreaNo) (s : State) : (s.modArea a Area.swapFrames).Fills (s.swapSheets a) := by
  unfold State.swapSheets
  dsimp only
  refine .trans ?_ (.modPosted a _ _ fun _ => by exact ⟨rfl, rfl, rfl⟩)
  refine .trans ?_ (State.Fills.fold (fun s k => s.capture_fills a k) _ _)
  refine .trans ?_ (State.Fills.fold (f := fun s i => s.modItem i _) (fun _ _ => ⟨rfl, fun _ => ⟨rfl, rfl, rfl⟩⟩) _ _)
  exact .fold (f := fun s i => s.freeSlot i) (fun _ _ => ⟨rfl, fun _ => ⟨rfl, rfl, rfl⟩⟩) _ _

/-- What the sheet store itself does to one area's sheets, and its notice of it. -/
theorem State.Proceeds.sheet {k : NoticeKind} {posted : Bool} (f : s.Frames t) (h : t.queue = s.queue)
    (hk : k = if posted then .sheetPosted a else .poolShort a)
    (ha : ∀ b, (t.area b).covered = (s.area b).covered ∧ (t.area b).handover = (s.area b).handover ∧
      (b ≠ a → (t.area b).draft = (s.area b).draft))
    (hc : t.consoles = s.consoles) (hm : t.mill = s.mill) (hl : t.shelves = s.shelves)
    (hd : SheetStep ((s.area a).draft.commit, (s.area a).draft.poolShort) posted
      ((t.area a).draft.commit, (t.area a).draft.poolShort)) :
    s.Proceeds (t.notify k) [k] := by
  have he := t.notify_eq k
  have xa (b : AreaNo) : (t.notify k).area b = t.area b := by rw [he]; rfl
  have xc (c : ConsoleNo) : (t.notify k).console c = s.console c := by rw [he]; simp only [State.console, hc]
  have xm : (t.notify k).mill = s.mill := by rw [he]; exact hm
  have xl : (t.notify k).shelves = s.shelves := by rw [he]; exact hl
  refine ⟨f.trans (State.notify_frames k t), ⟨?_, ?_, fun b => ?_, fun c => ?_, ?_, fun n => ?_, fun b => ?_⟩, fun b => ?_⟩
  · exact State.notify_congr k h f.clock f.settings
  · intro x hx
    rw [List.mem_singleton.mp hx, hk]
    split <;> rfl
  · rw [xa, (ha b).1, List.filterMap_cons, show k.coverage? b = none by rw [hk]; split <;> rfl]
    split <;> rfl
  · rw [xc, List.filterMap_cons, show k.head? c = none by rw [hk]; split <;> rfl]; rfl
  · rw [xm, xl, List.filterMap_cons, show k.shift? = none by rw [hk]; split <;> rfl]; rfl
  · rw [xl, count_none (by rw [hk]; split <;> simp), Nat.zero_add]
  · rw [xa]
    by_cases e : b = a
    · subst e
      rw [List.filterMap_cons, show k.sheet? b = some posted by rw [hk]; cases posted <;> simp [NoticeKind.sheet?]]
      exact ⟨_, hd, rfl⟩
    · rw [List.filterMap_cons, show k.sheet? b = none by
        rw [hk]; cases posted <;> simp [NoticeKind.sheet?, Ne.symm e], (ha b).2.2 e]
      exact rfl
  · rw [xa, (ha b).2.1, filter_tells_none (by rw [hk]; split <;> simp [NoticeKind.handoverArea, NoticeKind.shift?])]
    exact .rests _

/-- A pass's notices begin with one of the sheet store's own. -/
def OpensPass (ks : List NoticeKind) : Prop := ∀ k, ks.head? = some k → ∃ a, k = .sheetPosted a ∨ k = .poolShort a

theorem OpensPass.append (h : OpensPass l) (k : OpensPass m) : OpensPass (l ++ m) := by
  cases l with
  | nil => exact k
  | cons x l => exact h

theorem State.exchange_proceeds (h : (s.area a).draft.commit ≠ none) :
    ∃ ks, s.Proceeds (s.exchange a) (.sheetPosted a :: ks) := by
  have hf := s.swapSheets_fills a
  have e := hf.same
  have h1 : s.Proceeds ((s.swapSheets a).notify (.sheetPosted a)) [.sheetPosted a] := by
    have hq : (s.swapSheets a).queue = s.queue := by rw [e]; rfl
    have hcon : (s.swapSheets a).consoles = s.consoles := by rw [e]; rfl
    have hm : (s.swapSheets a).mill = s.mill := by rw [e]; rfl
    have hl : (s.swapSheets a).shelves = s.shelves := by rw [e]; rfl
    refine .sheet (posted := true) (s.swapSheets_frames a) hq rfl (fun b => ?_) hcon hm hl ?_
    · obtain ⟨h1, h2, h3⟩ := hf.kept b
      rw [State.area_modArea] at h1 h2 h3
      split at h1
      · subst_vars; rw [if_pos rfl] at h2; exact ⟨h1, h2, fun h => absurd rfl h⟩
      · rename_i hb
        rw [if_neg hb] at h2 h3
        exact ⟨h1, h2, fun _ => h3⟩
    · rw [(hf.kept a).2.2, State.area_modArea, if_pos rfl]
      exact ⟨h, rfl⟩
  obtain ⟨ks, h2⟩ := (Work.examine_passes a (fun k => k == .sheetPosted || k == .review)
    ((s.swapSheets a).notify (.sheetPosted a)) false false false).settle_proceeds
  exact ⟨ks, h1.trans h2⟩

theorem State.reportShort_proceeds (h : (s.area a).draft.commit ≠ none) :
    ∃ ks, s.Proceeds (s.reportShort a) ks ∧ OpensPass ks := by
  unfold State.reportShort
  split
  · exact ⟨[], .refl s, nofun⟩
  · rename_i hp
    refine ⟨[.poolShort a], .sheet (posted := false) (.modArea a _ s fun _ => by simp [Area.Keeps]) rfl rfl (fun b => ?_) rfl rfl
      rfl ?_, ?_⟩
    · rw [State.area_modArea]
      split
      · subst_vars; exact ⟨rfl, rfl, fun h => absurd rfl h⟩
      · exact ⟨rfl, rfl, fun _ => rfl⟩
    · rw [State.area_modArea, if_pos rfl]
      exact ⟨h, by simpa using hp, rfl⟩
    · intro k hk
      exact ⟨a, .inr (by simpa using hk.symm)⟩

theorem State.examineSheet_proceeds (a : AreaNo) (s : State) :
    ∃ ks, s.Proceeds (s.examineSheet a).1 ks ∧ OpensPass ks := by
  unfold State.examineSheet
  split
  · rename_i h
    have hc : (s.area a).draft.commit ≠ none := by
      simp only [Bool.and_eq_true, State.exchangeReady] at h
      exact Option.isSome_iff_ne_none.mp h.2.1.1
    split
    · obtain ⟨ks, h⟩ := State.exchange_proceeds hc
      exact ⟨_, h, fun k hk => ⟨a, .inl (by simpa using hk.symm)⟩⟩
    · exact State.reportShort_proceeds hc
  · exact ⟨[], .refl s, nofun⟩

theorem State.passOnce_proceeds (s : State) : ∃ ks, s.Proceeds s.passOnce.1 ks ∧ OpensPass ks := by
  have : ∀ (l : List AreaNo) (x : State × Bool), ∃ ks, x.1.Proceeds
      (l.foldl (fun x a => let y := x.1.examineSheet a; (y.1, x.2 || y.2)) x).1 ks ∧ OpensPass ks := by
    intro l
    induction l with
    | nil => exact fun x => ⟨[], .refl _, nofun⟩
    | cons a l ih =>
      intro x
      rw [List.foldl_cons]
      obtain ⟨ks, h1, h2⟩ := x.1.examineSheet_proceeds a
      obtain ⟨ls, g1, g2⟩ := ih (let y := x.1.examineSheet a; (y.1, x.2 || y.2))
      exact ⟨_, h1.trans g1, h2.append g2⟩
  exact this allAreas (s, false)

theorem State.passes_proceeds (n : Nat) (s : State) : ∃ ks, s.Proceeds (s.passes n) ks ∧ OpensPass ks := by
  induction n generalizing s with
  | zero => exact ⟨[], .refl s, nofun⟩
  | succ n ih =>
    unfold State.passes
    dsimp only
    obtain ⟨ks, h1, h2⟩ := s.passOnce_proceeds
    split
    · obtain ⟨ls, g1, g2⟩ := ih s.passOnce.1
      exact ⟨_, h1.trans g1, h2.append g2⟩
    · exact ⟨ks, h1, h2⟩

/-- The sheet store's pass: where no draft waits committed it finds nothing, and else its first notice is its own. -/
theorem State.examineSheets_proceeds (s : State) :
    ∃ ks, s.Proceeds s.examineSheets ks ∧ ∀ k, ks.head? = some k → (∃ a, k = .sheetPosted a ∨ k = .poolShort a) ∧ ¬ s.noCommits := by
  by_cases h : s.noCommits
  · rw [State.examineSheets_quiet h]; exact ⟨[], .refl s, nofun⟩
  · obtain ⟨ks, h1, h2⟩ := s.passes_proceeds 33
    exact ⟨ks, h1, fun k hk => ⟨h2 k hk, h⟩⟩

/-! ### The end of an event -/

/-- Everything that the end of an event can do. -/
theorem Work.Of.finish (h : w.Of d own) : d.Settles w.finish own := by
  obtain ⟨cov, ban, shift, x⟩ := h.settle
  have hp : ∃ pass t, w.finish = t ∧ w.settle.Proceeds t pass ∧
      ∀ k, pass.head? = some k → (∃ a, k = .sheetPosted a ∨ k = .poolShort a) ∧ ¬ w.settle.noCommits := by
    show ∃ pass t, (if w.sheets then w.settle.examineSheets else w.settle) = t ∧ _
    split
    · obtain ⟨ks, h1, h2⟩ := w.settle.examineSheets_proceeds
      exact ⟨ks, _, rfl, h1, h2⟩
    · exact ⟨[], _, rfl, .refl _, nofun⟩
  obtain ⟨pass, t, e, hp, ho⟩ := hp
  rw [e]
  refine ⟨x.frames.trans hp.frames, cov ++ (ban ++ (w.out ++ (shift ++ pass))), ?_, ?_, fun a => ?_⟩
  · have := x.tells.trans x.frames hp.tells
    simpa [List.append_assoc] using this
  · exact ⟨cov, ban, w.out, shift, pass, rfl, x.covKey, x.banKey, h.order, x.turn, fun k hk =>
      ⟨(ho k hk).1, fun hn => (ho k hk).2 (x.frames.noCommits hn)⟩⟩
  · have := (x.goes a).trans ((hp.steps a).congr x.frames.clock x.frames.steps x.frames.crew)
    simpa [List.append_assoc] using this

/-- What the settling alone can do, before notices of the owner's that stand behind it. -/
theorem Work.Of.settles (h : w.Of d own) : d.Settles w.settle own := by
  obtain ⟨cov, ban, shift, x⟩ := h.settle
  refine ⟨x.frames, _, x.tells, ⟨cov, ban, w.out, shift, [], by simp, x.covKey, x.banKey, h.order, x.turn, nofun⟩, x.goes⟩

/-- Everything that a sheet store's pass alone can do. -/
theorem State.examineSheets_settles (s : State) : s.Settles s.examineSheets := by
  obtain ⟨pass, hp, ho⟩ := s.examineSheets_proceeds
  exact ⟨hp.frames, pass, hp.tells, ⟨[], [], [], [], pass, rfl, .nil, .nil, .nil, .inl rfl, ho⟩, fun a => .inl (hp.steps a)⟩

/-! ### The handover unit's own events -/

/-- The completion of a RUNNING area's step leaves what `State.StepCompletes` says. -/
theorem Work.completeStep_completes {p : Position} {x y : Option Deadline} (hr : (d.area a).handover = .running p x y)
    (cover sheets : Bool) : d.StepCompletes ((Work.mk d [] cover false sheets).completeStep a).finish a p where
  next _ _ hl hn e := (Work.completeStep_comes (w := .mk d [] cover false sheets) hr hn
    (by rw [if_neg (by simp [hl])]; exact e)).finish rfl []
  last hl := (Work.completeStep_comes (w := .mk d [] cover false sheets) (n := 0) hr (by omega)
    (by rw [if_pos hl])).finish rfl []
  settles := (Work.completeStep_of hr cover false sheets).finish

/-- A change of the REQUEST reason, with what R149 makes of it. -/
theorem State.request_settles (a : AreaNo) (b : Bool) (s : State) :
    s.Settles (s.request a b) fun c => if c = a then some (s.turned a b (s.area a).handover) else none :=
  (Work.Turns.of (Work.setReasons_turns a b (Work.mk s [] false false false))).finish

/-- The halt of an area in progress, with its abort record. -/
theorem Work.halt_settles {p : Position} {why : AbortReason}
    (hp : (∃ x y, (s.area a).handover = .running p x y) ∨ ∃ x y r, (s.area a).handover = .suspended p x y r) :
    (s.modArea a fun r => { r with abort := some (s.abortRecord a why p.ordinal) }).Settles
      (Work.halt a why { s }).finish
      fun b => if b = a then some ([.handoverAborted a why p.ordinal], .halted p) else none := by
  have hs : ((s.modArea a fun r => { r with handover := .halted p }).modArea a fun r =>
        { r with abort := some (s.abortRecord a why p.ordinal) })
      = (s.modArea a fun r => { r with abort := some (s.abortRecord a why p.ordinal) }).modArea a fun r =>
        { r with handover := .halted p } := by
    simp only [State.modArea, State.area, Fin.getElem_fin, Vector.getElem_set_self, Vector.set_set]
  have hw : Work.halt a why { s } = { ((Work.mk (s.modArea a fun r =>
      { r with abort := some (s.abortRecord a why p.ordinal) }) [] true false false).setHandover a (.halted p)).say
        (.handoverAborted a why p.ordinal) with cover := true } := by
    unfold Work.halt
    rcases hp with ⟨x, y, h⟩ | ⟨x, y, r, h⟩ <;> rw [h] <;> dsimp only [Work.setHandover, Work.say] <;> rw [hs]
  rw [hw]
  generalize s.modArea a (fun r => { r with abort := some (s.abortRecord a why p.ordinal) }) = d
  obtain ⟨h1, h2⟩ := (Work.mk d [] true false false).setHandover_acts a (.halted p)
  refine (Work.Turns.of (cover := true) (shift := false) (sheets := false) (.rests ?_ h2)).finish
  exact h1.trans (.of_eq rfl rfl fun k hk => by rw [List.mem_singleton.mp hk]; rfl)

/-- The beginning of one area's list. -/
theorem Work.begin_settles (a : AreaNo) (s : State) :
    s.Settles (Work.begin a { s }).finish fun b => if b = a then some (s.begun a) else none :=
  (Work.Turns.of (Work.begin_turns a (Work.mk s [] false false false))).finish

/-- The handover opened: every configured area begins its list. -/
theorem State.beginHandover_settles (k : Crew) (s : State) : (s.openMill k).Settles (s.beginHandover k) fun a =>
    if (s.area a).config.configured then some ((s.openMill k).begun a) else none := by
  have hp : s.configuredAreas.Pairwise (· < ·) := allAreas_sorted.filter _
  have h := (Work.Of.fold (d := s.openMill k) (own := fun s a => some (s.begun a)) (g := fun w a => w.begin a)
    (fun c => by rw [c.begun]) (fun w a => (w.begin_turns a).goes) hp true s.configuredAreas.isEmpty true).finish
  unfold State.beginHandover
  simpa [State.configuredAreas, mem_allAreas] using h

end Sys2Proof.Machine
end

