-- ==== Sys2Proof/Laws/Queue.lean ====
section
/-! SUPPORT. The notice queue's rules (R167, R168, R170) under the operations that change it: a notice, several notices, and
a change that leaves the queue and the trigger level. -/

namespace Sys2Proof.Machine

variable {s t : State}

/-- Where the queue and the trigger level are the same, so are the queue's rules. -/
theorem State.QueueSound.of_same (h : s.QueueSound) (hq : t.queue = s.queue)
    (ht : t.settings.trigger = s.settings.trigger) : t.QueueSound :=
  ⟨hq ▸ h.size, hq ▸ h.banners, by rw [hq, ht]; exact h.attention⟩

/-- The number of a console's BANNER records after one more record. -/
theorem countP_banner_append (c : ConsoleNo) (k : NoticeKind) (time : Nat) (l : List Notice) :
    (l ++ [({ kind := k, time } : Notice)]).countP (·.isBannerOf c)
      = l.countP (·.isBannerOf c) + if Notice.isBannerOf c { kind := k, time } then 1 else 0 := by
  simp [List.countP_append, List.countP_cons]

/-- An appended notice that is no second BANNER keeps the rules. -/
theorem State.QueueSound.append (h : s.QueueSound) (k : NoticeKind)
    (hk : ∀ c head, k = .banner c head → s.queue.records.any (·.isBannerOf c) = false) : (s.append k).QueueSound := by
  unfold State.append
  split
  · rename_i hlt
    refine ⟨?_, fun c => ?_, rfl⟩
    · simp only [State.deriveAttention, List.length_append, List.length_singleton]
      simp only [Config.queueSize] at hlt ⊢
      omega
    · simp only [State.deriveAttention, countP_banner_append]
      have hb := h.banners c
      split
      · rename_i hn
        rcases k with _ | _ | _ | _ | _ | _ | _ | _ | _ | _ | _ | _ | _ | _ | _ | _ | _ | _ | _ | _ | _ | _ | _ | _ | _ | _ <;>
          simp [Notice.isBannerOf] at hn
        subst hn
        have h0 := List.any_eq_false.mp (hk _ _ rfl)
        rw [List.countP_eq_zero.mpr h0]
      · exact hb
  · exact ⟨h.size, h.banners, h.attention⟩

theorem isBannerOf_merge (c d : ConsoleNo) (head : Option PointNo) (time : Nat) (n : Notice) :
    Notice.isBannerOf d (if n.isBannerOf c then { kind := .banner c head, time } else n) = n.isBannerOf d := by
  obtain ⟨k, x⟩ := n
  cases k <;> simp [Notice.isBannerOf]
  rename_i e _
  by_cases h : e = c <;> simp [h]

theorem urgent_merge (c : ConsoleNo) (head : Option PointNo) (time : Nat) (n : Notice) :
    (if n.isBannerOf c then ({ kind := .banner c head, time } : Notice) else n).kind.urgent = n.kind.urgent := by
  obtain ⟨k, x⟩ := n
  cases k <;> simp [Notice.isBannerOf, NoticeKind.urgent]
  rename_i e _
  by_cases h : e = c <;> simp [h]

/-- A merge keeps the rules: no record more, none urgent more (R168, R170). -/
theorem State.QueueSound.mergeBanner (h : s.QueueSound) (c : ConsoleNo) (head : Option PointNo) :
    (s.mergeBanner c (.banner c head)).QueueSound := by
  refine ⟨by simpa [State.mergeBanner] using h.size, fun d => ?_, ?_⟩
  · simp only [State.mergeBanner, List.countP_map, Function.comp_def, isBannerOf_merge]
    exact h.banners d
  · simp only [State.mergeBanner, attentionFor, List.length_map, List.any_map, Function.comp_def, urgent_merge]
    exact h.attention

/-- A notice handed to the queue keeps the rules. -/
theorem State.QueueSound.notify (h : s.QueueSound) (k : NoticeKind) : (s.notify k).QueueSound := by
  unfold State.notify
  split
  · split
    · exact h.mergeBanner _ _
    · rename_i hn
      exact h.append _ fun c head e => by cases e; simpa using hn
  · rename_i hk
    exact h.append _ fun c head e => absurd e (hk c head)

theorem State.QueueSound.notifyAll (h : s.QueueSound) (ks : List NoticeKind) : (s.notifyAll ks).QueueSound := by
  induction ks generalizing s with
  | nil => exact h
  | cons k ks ih => exact ih (h.notify k)

end Sys2Proof.Machine
end

