-- ==== Sys2Proof/Laws/Sheets.lean ====
section
/-! SUPPORT. The model's tests of an exchange are the conditions of R129 (`State.MayExchange`, `State.PoolHolds`), with the
standing orders of R123 and the summary of R134. -/

namespace Sys2Proof.Machine

variable {s : State} {a : AreaNo}

theorem State.reviewed_iff {i : SlotNo} : s.reviewed i ↔ ∀ x, s.item i = some x → x.reviewed ≠ none := by
  unfold State.reviewed
  cases s.item i <;> simp [Option.isSome_iff_ne_none]

/-- Condition 2 of R129. -/
theorem State.underReview_iff : s.underReview a ↔
    ∃ p, ((∃ x y, (s.area a).handover = .running p x y) ∨ ∃ x y r, (s.area a).handover = .suspended p x y r) ∧
      (s.stepEntry p.index).kind = .review := by
  unfold State.underReview State.stepKind?
  cases (s.area a).handover <;> simp [Handover.inProgress, Handover.position?]

/-- Conditions 1 to 3 of R129. -/
theorem State.mayExchange_iff : s.exchangeReady a ↔ s.MayExchange a := by
  have replace : s.mayReplace a ↔ (s.area a).config.posting = .latest ∨ (s.area a).posted.items = [] ∨
      (∀ i ∈ (s.area a).posted.items, ∀ x, s.item i = some x → x.reviewed ≠ none) ∨
      ((s.area a).draft.commit ≠ none ∧ (s.area a).posted.posting.map (·.crew) = (s.area a).draft.commit) := by
    simp [State.mayReplace, State.reviewed_iff, or_assoc, Option.isSome_iff_ne_none]
  have crew (k : Crew) (h : (s.area a).draft.commit = some k) :
      (s.area a).posted.posting.map (·.crew) = (s.area a).draft.commit ↔
        ∃ g, (s.area a).posted.posting = some g ∧ (s.area a).draft.commit = some g.crew := by
    rw [h]
    cases (s.area a).posted.posting <;> simp [eq_comm]
  unfold State.exchangeReady
  rw [Bool.and_eq_true, Bool.and_eq_true, replace, Bool.not_eq_true', ← Bool.not_eq_true, State.underReview_iff]
  constructor
  · rintro ⟨⟨committed, review⟩, h⟩
    obtain ⟨k, hk⟩ := Option.isSome_iff_exists.1 committed
    exact ⟨by simp [hk], fun p hp e => review ⟨p, hp, e⟩, h.imp_right (Or.imp_right (Or.imp_right fun h => (crew k hk).1 h.2))⟩
  · rintro ⟨committed, review, h⟩
    obtain ⟨k, hk⟩ := Option.ne_none_iff_exists'.1 committed
    exact ⟨⟨by simp [hk], fun ⟨p, hp, e⟩ => review p hp e⟩,
      h.imp_right (Or.imp_right (Or.imp_right fun h => ⟨committed, (crew k hk).2 h⟩))⟩

/-- The standing orders due (R123) are those that the exchange takes, ascending. -/
theorem State.ordersDue_eq : s.ordersDue a =
    ((List.finRange 64).filter (s.takesOrder a)).map fun i => (i, s.orders[i]) := by
  have zip : (List.finRange 64).zip s.orders.toList = (List.finRange 64).map fun i => (i, s.orders[i]) := by
    apply List.ext_getElem <;> simp
  unfold State.ordersDue
  rw [zip, List.filter_map]
  rfl

/-- Condition 4 of R129. -/
theorem State.poolHolds_iff : s.poolSuffices a ↔ s.PoolHolds a := by
  unfold State.poolSuffices State.PoolHolds State.captureNeed
  rw [decide_eq_true_iff, State.ordersDue_eq, List.length_map, List.countP_eq_length_filter]

theorem State.countPoints_eq (f : Point → Bool) :
    s.countPoints f = (List.finRange 2048).countP fun n => f (s.point n) := by
  have points : s.points.toList = (List.finRange 2048).map s.point := by
    apply List.ext_getElem <;> simp [State.point]
  unfold State.countPoints
  rw [points, List.countP_map]
  rfl

/-- The posting summary (R134). -/
theorem State.summaryOf_eq : s.summaryOf a = s.summaryRuled a := by
  have empty (p : Point) : (!p.suppression.isEmpty) = (p.suppression != []) := by cases p.suppression <;> rfl
  unfold State.summaryOf State.summaryRuled
  simp only [State.countPoints_eq, empty, Bool.and_assoc]

end Sys2Proof.Machine
end

