-- ==== Sys2Proof/Laws/Trips.lean ====
section
/-! SUPPORT. The run of a trip list ends where its relation says (R110), and what a point's change tells the handover unit. -/

namespace Sys2Proof.Machine

variable {s t : State}

/-! ### The run of a trip list -/

/-- A GROUP entry changes points and code records alone, and of a code record the count alone. -/
structure State.GroupChanges (s t : State) : Prop where
  rest : t = { s with points := t.points, trip := { s.trip with codes := t.trip.codes } }
  code : ∀ c, t.code c = { s.code c with suppressed := (t.code c).suppressed }

theorem State.GroupChanges.refl (s : State) : s.GroupChanges s := ⟨rfl, fun _ => rfl⟩

theorem State.GroupChanges.trans {u : State} (h : s.GroupChanges t) (k : t.GroupChanges u) : s.GroupChanges u where
  rest := by rw [k.rest, h.rest]
  code c := by rw [k.code c, h.code c]

theorem State.suppress_changes (c : TripNo) (n : PointNo) (s : State) : s.GroupChanges (s.suppress c n) := by
  unfold State.suppress
  split
  · exact .refl s
  · rw [State.addReason_eq]
    refine ⟨rfl, fun d => ?_⟩
    rw [State.setPoint_code, State.code_modCode]
    split <;> simp_all

theorem State.runMembers_changes (c : TripNo) (g : Group) (l : List (Fin 32)) (s : State) :
    s.GroupChanges (s.runMembers c g l).1 := by
  induction l generalizing s with
  | nil => exact .refl s
  | cons i l ih =>
    unfold State.runMembers
    split
    · split
      · exact .refl s
      · split
        · exact .refl s
        · exact (s.suppress_changes c _).trans (ih _)
        · exact ih s
        · exact ih s
    · exact ih s

theorem State.runGroup_changes {c : TripNo} {g : Group} {faulty : Bool} (h : s.runGroup c g = (t, faulty)) :
    s.GroupChanges t := by
  have := s.runMembers_changes c g (List.finRange 32)
  rwa [show s.runMembers c g (List.finRange 32) = (t, faulty) from h] at this

theorem State.notify_trip (k : NoticeKind) (s : State) : (s.notify k).trip = s.trip := by rw [State.notify_eq]

/-- The fault of the processing is the fault of the relation (R114). -/
theorem State.tripFault_eq (c : TripNo) (i : EntryNo) (s : State) : s.tripFault c i = s.faultedAt c i := by
  have e : s.holdCode c true = s.modCode c fun r => { r with state := .holding (s.holdUntil c), faulted := true } :=
    State.modCode_congr _ (by simp [State.holdDeadline, State.holdUntil])
  unfold State.tripFault State.faultedAt State.dropPending
  rw [e]
  simp only [State.notify_trip]
  rfl

theorem State.tripStep_eq (c : TripNo) (i : EntryNo) (notify : Bool) (s : State) :
    s.tripStep c i notify = s.steppedAt c i notify := rfl

theorem State.steppedAt_rest (c : TripNo) (e : EntryNo) (notify : Bool) (s : State) :
    s.steppedAt c e notify = { s with queue := (s.steppedAt c e notify).queue } := by
  unfold State.steppedAt
  split
  · exact State.notify_eq _ _
  · rfl

/-- The processing of a run ends where its relation says (R110 to R114). -/
theorem State.runFrom_runsTo {c : TripNo} {i : Nat} (h : State.RunsTo c i s t) : s.runFrom c (512 - i) i = t := by
  have fuel (e : EntryNo) : 512 - e.val = (511 - e.val) + 1 := by omega
  have at_ (e : EntryNo) : below 512 e.val = some e := by simp [below]
  induction h with
  | beyond s => exact s.tripFault_eq c 511
  | empty e s h => rw [fuel, State.runFrom, at_]; simp only [h]; exact s.tripFault_eq c e
  | wait e seconds last notify s h =>
    rw [fuel, State.runFrom, at_]
    simp only [h]
    rfl
  | fault e g last notify s t h run =>
    rw [fuel, State.runFrom, at_]
    simp only [h, run, if_true]
    exact t.tripFault_eq c e
  | last e g notify s t h run =>
    rw [fuel, State.runFrom, at_]
    simp only [h, run, Bool.false_eq_true, if_false, if_true]
    have hg := State.runGroup_changes run
    unfold State.tripDone State.holdCode
    congr 1
    refine State.modCode_congr _ ?_
    rw [State.tripStep_eq, State.steppedAt_rest]
    rw [hg.rest, show ∀ q, State.code { s with points := t.points, trip := { s.trip with codes := t.trip.codes }, queue := q } c
      = t.code c from fun _ => rfl]
    have hold : (t.code c).holdTime = (s.code c).holdTime := by rw [hg.code c]
    simp [State.holdDeadline, State.holdUntil, State.deadlineIn, State.now, hold]
  | next e g notify s t u h run more ih =>
    rw [fuel, State.runFrom, at_]
    simp only [h, run, Bool.false_eq_true, if_false]
    rw [show 511 - e.val = 512 - (e.val + 1) by omega]
    exact ih

/-- Every run ends somewhere. -/
theorem State.exists_runsTo (c : TripNo) {i : Nat} (hi : i ≤ 512) (s : State) : ∃ t, State.RunsTo c i s t := by
  obtain ⟨n, hn⟩ : ∃ n, n + i = 512 := ⟨512 - i, by omega⟩
  induction n generalizing i s with
  | zero => obtain rfl : i = 512 := by omega
            exact ⟨_, .beyond s⟩
  | succ n ih =>
    obtain ⟨e, rfl⟩ : ∃ e : EntryNo, e.val = i := ⟨⟨i, by omega⟩, rfl⟩
    rcases h : s.tripEntry e with _ | ⟨g, _ | _, notify⟩ | ⟨seconds, last, notify⟩
    · exact ⟨_, .empty e s h⟩
    · rcases run : s.runGroup c g with ⟨t, _ | _⟩
      · obtain ⟨u, more⟩ := ih (i := e.val + 1) (by omega) (t.steppedAt c e notify) (by omega)
        exact ⟨u, .next e g notify s t u h run more⟩
      · exact ⟨_, .fault e g false notify s t h run⟩
    · rcases run : s.runGroup c g with ⟨t, _ | _⟩
      · exact ⟨_, .last e g notify s t h run⟩
      · exact ⟨_, .fault e g true notify s t h run⟩
    · exact ⟨_, .wait e seconds last notify s h⟩

/-! ### The taking of a code -/

/-- Another run of the same code from the same entry ends in the same state. -/
theorem State.RunsTo.unique {c : TripNo} {i : Nat} {u : State} (h : State.RunsTo c i s t) (k : State.RunsTo c i s u) : t = u :=
  (State.runFrom_runsTo h).symm.trans (State.runFrom_runsTo k)

/-- The taking of a code is the start of its run (R109) and the processing of its list. -/
theorem State.startRun_eq (c : TripNo) (s : State) :
    s.startRun c = (s.startedRun c).runFrom c (512 - (s.code c).start.val) (s.code c).start.val := by
  have e (r : TripCode) : (r.state.isIdle = true) = (r.state = .idle) := by cases r.state <;> simp [TripState.isIdle]
  simp only [State.startRun, State.startedRun, e, State.now]

/-- No code is RUNNING exactly where the search finds none. -/
theorem State.runningCode_eq_none : s.runningCode = none ↔ ∀ c, (s.code c).state.isRunning = false := by
  simp [State.runningCode, allCodes]

/-- The taking of the pending code is what its relation says (R108, R113, R117). -/
theorem State.takePending_taken (s : State) : s.PendingTaken s.takePending := by
  unfold State.takePending
  cases hr : s.runningCode with
  | some c =>
    have := List.find?_some hr
    exact .waits s c (by simpa using this)
  | none =>
    cases hp : s.trip.pending with
    | none => exact .empty s hp
    | some d =>
      obtain ⟨t, ht⟩ := State.exists_runsTo d (Nat.le_of_lt (s.code d).start.isLt)
        (State.startedRun d { s with trip := { s.trip with pending := none } })
      have e : (s.modTrip fun t => { t with pending := none }).startRun d = t :=
        (State.startRun_eq d _).trans (State.runFrom_runsTo ht)
      show s.PendingTaken ((s.modTrip fun t => { t with pending := none }).startRun d)
      rw [e]
      exact .runs s t d hp (State.runningCode_eq_none.1 hr) ht

/-! ### What a point's change tells the handover unit -/

/-- Of a point that is not of priority 1 the handover unit is told nothing (R16, R71). -/
theorem Work.pointChanged_quiet {p : Point} (h : p.priority ≠ .p1) (w : Work) : w.pointChanged p = w := if_neg h

end Sys2Proof.Machine
end

