-- ==== Sys2Proof/Tests/Slice0.lean ====
section
/-! SUPPORT. The model's own tests: the refusals of WellFormed, the encodings and worked examples of the spec, one step of
each family on a small state, and, for each statement with hypotheses, states and operands that meet them. -/

namespace Sys2Proof.Tests

set_option Elab.async false

open Sys2Proof.Machine

/-! ### Small states -/

/-- A SUPERVISOR of crew A, qualified for every area, seated at console 0. -/
def boss : Operator := { number := 1, crew := .A, role := .supervisor, quals := [⟨0, 0⟩], seat := some 0 }

/-- A SUPERVISOR of crew B, seated nowhere. -/
def mate : Operator := { boss with number := 2, crew := .B, seat := none }

/-- A configured area with default settings. -/
def yard : Area := { Area.reset with config := { AreaConfig.reset with configured := true } }

/-- A configured console that routes every area. -/
def desk : Console := { Console.reset with config := { configured := true, routing := ⟨0, 0⟩, fallback := none } }

/-- A configured point of area 0 and priority 2. -/
def bell : Point := { Point.reset with configured := true, priority := .p2 }

/-- In CONFIG: area 0, console 0 and point 0 are configured, and the roster holds two operators. -/
def ready : State :=
  { State.reset with
    roster := [{ boss with seat := none }, mate]
    points := State.reset.points.set 0 bell
    consoles := State.reset.consoles.set 0 desk
    areas := State.reset.areas.set 0 yard
    steps := State.reset.steps.set 0 { StepEntry.reset with last := true } }

/-- In RUN, with `boss` seated at console 0. -/
def manned : State :=
  { ready with
    mode := .run
    roster := [boss, mate]
    consoles := State.reset.consoles.set 0 { desk with seat := .seated 1 none } }

/-- `s` with the record of point 0 changed. -/
def withPoint (f : Point → Point) (s : State) : State := s.setPoint 0 (f (s.point 0))

/-- `s` with the record of area 0 changed. -/
def withArea (f : Area → Area) (s : State) : State := s.modArea 0 f

/-- `s` with the record of console 0 changed. -/
def withConsole (f : Console → Console) (s : State) : State := s.modConsole 0 f

/-- `s` with the record of trip code 1 changed. -/
def withCode (f : TripCode → TripCode) (s : State) : State := s.modCode 0 f

/-- Point 0 is a standing NEW alarm. -/
def ringing : State := withPoint (fun p => { p with condition := .active, ann := .new, raiseSeq := some 1 }) manned

/-- A console's frame is taken, with its activity, in a state of which `f` holds. -/
def at0 (s : State) (kind : Byte) (p : List Byte) (f : State → Bool) : Bool :=
  (s.takesAt 0 { kind, tag := 7, payload := p }).any f

/-- A frame is taken in a state of which `f` holds. -/
def took (s : State) (kind : Byte) (p : List Byte) (f : State → Bool) : Bool :=
  (s.take { kind, tag := 7, payload := p }).any f

/-- A permission check passes with an operator. -/
def passes (o : Operator) : Except Status Operator → Bool
  | .ok x => x == o
  | .error _ => false

/-- A permission check refuses with a status. -/
def refuses (x : Status) : Except Status Operator → Bool
  | .ok _ => false
  | .error y => x == y

/-- The step answers a next state of which `f` holds. -/
def gives (o : Host.Outcome State Fault Refusal) (f : State → Bool) : Bool :=
  match o with
  | .next t => f t
  | .fault _ | .refused _ => false

/-- No draft waits committed. -/
def quiet (s : State) : Bool := allAreas.all fun a => (s.area a).draft.commit == none

theorem noCommits_of_quiet {s : State} (h : quiet s) : s.noCommits := fun a => by
  simpa using List.all_eq_true.mp h a (List.mem_finRange a)

/-- The payload of the last reply sent. -/
def lastReply (s : State) : List Byte := (s.link.sent.getLast?.map (·.payload)).getD []

/-! ### WellFormed -/

/-- R160: a payload of 249 bytes fits no frame. -/
theorem test_wellFormed_refuses_long_payload : (Instr.ack 0 (List.replicate 249 0)).wellFormed = false := by
  decide +kernel
/-- R164: a request's kind is no unknown kind. -/
theorem test_wellFormed_refuses_bad_kind_of_a_request : (Instr.badKind 0x20 0 []).wellFormed = false := by decide
/-- R26: the adding row has the remove flag clear. -/
theorem test_wellFormed_refuses_load_with_remove_flag :
    (Instr.loadOperator 0 [0, 1, 0, 0, 0, 0, 0, 1]).wellFormed = false := by decide
/-- R27: the removing row has it set. -/
theorem test_wellFormed_refuses_remove_without_flag :
    (Instr.loadOperatorRemove 0 [0, 1, 0, 0, 0, 0, 0, 0]).wellFormed = false := by decide
/-- A right command is well formed. -/
theorem test_wellFormed_takes_ack : (Instr.ack 0 [0, 0, 0]).wellFormed = true := by decide

/-! ### Encodings and worked examples of the spec -/

/-- R160: the check of the characters 1 to 9 is 29B1H. -/
theorem test_crc_of_the_nine_digits :
    crc [0x31, 0x32, 0x33, 0x34, 0x35, 0x36, 0x37, 0x38, 0x39] = 0x29B1#16 := by decide +kernel

/-- R94: a meter of 65535 with decay 64 loses 4095, and one of 63 with decay 16 loses 1. -/
theorem test_decrement_examples : decrement 65535 64 = 4095 ∧ decrement 63 16 = 1 := by decide

/-- R95: a raise and a decay step of a meter of 10000 with decay 16, in both orders. -/
theorem test_raise_and_decay_orders :
    raisedMeter 10000 - decrement (raisedMeter 10000) 16 = 10096 ∧ raisedMeter (10000 - decrement 10000 16) = 10100 := by
  decide

/-- R180: numbers go most significant byte first. -/
theorem test_be32_order : be32 0x01020304 = [1, 2, 3, 4] := by decide

/-- R181: BANNER of console 2 with no head, at time 5. -/
theorem test_banner_notice_bytes :
    Notice.bytes { kind := .banner 2 none, time := 5 } = [1, 0, 0, 0, 5, 0, 2, 0xFF, 0xFF, 0, 0] := by decide

/-- R180: a point number above 2047, an area above 31 and a trip code 0 are out of range. -/
theorem test_fields_out_of_range : parsePoint [8, 0] = none ∧ parseAreaOnly [32] = none ∧ codeOf 0 = none := by decide

/-- R180: the payload of each of three families, written out from the layout, is read as its fields. -/
theorem test_payloads_read :
    parseConsolePoint [3, 7, 0xFF] = some (3, 2047) ∧ parseConsoleArea [7, 31] = some (7, 31) ∧
    parseSetPoint [1, 2, 5, 4] = some (258, 5, .p4) := by decide

/-- R179: the rows of the request kinds at both ends of their ranges. -/
theorem test_request_kinds :
    isRequestKind 0x01 ∧ isRequestKind 0x66 ∧ isRequestKind 0x52 ∧ isRequestKind 0x00 = false ∧ isRequestKind 0x53 = false
    ∧ isRequestKind 0x67 = false := by decide

/-! ### The machine and the line: hypotheses met -/

/-- `manned` with a command waiting. -/
def waiting : State := { manned with pending := [.clockSecond] }

theorem waiting_steps : ∃ t, step waiting = .next t := ⟨_, rfl⟩

theorem hyp_StepRunsFrontCommand : waiting.pending = [.clockSecond] ∧ manned.pending = [] := ⟨rfl, rfl⟩

theorem hyp_ModeChangesAtStartAndResets :
    gives (exec (.start 7 []) ready) (fun t => t.mode != ready.mode) ∧
    gives (exec (.restart 7 []) manned) (fun t => t.mode != manned.mode) ∧
    gives (exec (.hardReset false) manned) (fun t => t.mode != manned.mode) := by decide +kernel

theorem manned_listed : manned.listed = [] := by decide +kernel
theorem manned_inView : manned.inView = [] := by decide +kernel

/-- A second of the clock is a command that only notifies. -/
theorem waiting_notifies : waiting.pending = [.clockSecond] ∧ OnlyNotifies .clockSecond :=
  ⟨rfl, nofun, fun _ _ => ⟨nofun, nofun, nofun⟩⟩

theorem hyp_QueueRulesKept : waiting.QueueSound ∧ ∃ t, step waiting = .next t :=
  ⟨⟨by decide, fun _ => Nat.zero_le _, by decide⟩, waiting_steps⟩

theorem manned_codes (c : TripNo) : manned.code c = TripCode.reset := by
  simp [State.code, manned, ready, State.reset, TripUnit.reset]

theorem manned_points (n : PointNo) : manned.point n = if n = 0 then bell else Point.reset := by
  rw [show manned.point n = (State.reset.points.set 0 bell)[n] from rfl]
  simp only [State.reset, Fin.getElem_fin, Vector.getElem_set, Vector.getElem_replicate]
  split <;> rename_i h
  · rw [if_pos (Fin.ext h.symm)]
  · rw [if_neg fun e => h (by rw [e]; rfl)]

/-- The trip rules hold where code 1 alone may run, the latch is clear, no point is suppressed and no entry is a GROUP. -/
theorem sound_of (s : State) (h : allCodes.all fun k => k == 0 || !(s.code k).state.isRunning)
    (hc : allCodes.all fun k => (s.code k).suppressed == 0) (hl : s.trip.latch = false) (hp : s.points = manned.points)
    (hs : ∀ e g last notify, s.tripEntry e ≠ .group g last notify) : s.TripsSound := by
  have free n : (s.point n).suppression = [] := by
    rw [show s.point n = manned.point n by rw [State.point, hp]; rfl, manned_points]; split <;> rfl
  have key : ∀ k, (s.code k).state.isRunning → k = 0 := by
    intro k hk
    have := List.all_eq_true.mp h k (List.mem_finRange k)
    simpa [hk] using this
  refine ⟨fun c d hc hd => by rw [key c hc, key d hd], fun e => (by rw [hl] at e; cases e), fun c => ?_, fun c _ n => ?_,
    fun n => ?_, fun e g last notify k => absurd k (hs e g last notify)⟩
  · have : (s.code c).suppressed = 0 := by simpa using List.all_eq_true.mp hc c (List.mem_finRange c)
    rw [this, List.countP_eq_zero.mpr fun n _ => by rw [free n]; exact Bool.false_ne_true]
  · rw [free n]; exact List.not_mem_nil
  · rw [free n]; exact .nil

theorem manned_entries (e : EntryNo) : manned.tripEntry e = .empty := Vector.getElem_replicate ..

theorem waiting_trips : waiting.TripsSound :=
  sound_of _ (by decide +kernel) (by decide +kernel) rfl rfl fun e _ _ _ h => by
    rw [show waiting.tripEntry e = _ from manned_entries e] at h; cases h

theorem hyp_TripRulesKept : waiting.TripsSound ∧ ∃ t, step waiting = .next t := ⟨waiting_trips, waiting_steps⟩

theorem waiting_commits : waiting.noCommits := noCommits_of_quiet (by decide +kernel)

theorem hyp_PoolRulesKept : waiting.PoolSound ∧ waiting.SheetsSound ∧ ∃ t, step waiting = .next t := by
  refine ⟨⟨?_, ?_, fun i => ?_⟩, ⟨nofun, fun a _ h => absurd (waiting_commits a) h.committed⟩, waiting_steps⟩
  · rw [show waiting.listed = [] from manned_listed]; rfl
  · rw [show waiting.listed = [] from manned_listed]; exact List.nodup_nil
  · rw [show waiting.listed = [] from manned_listed]
    simp [State.item, waiting, manned, ready, State.reset]

theorem manned_areas (a : AreaNo) : manned.area a = if a = 0 then yard else Area.reset := by
  rw [show manned.area a = (State.reset.areas.set 0 yard)[a] from rfl]
  simp only [State.reset, Fin.getElem_fin, Vector.getElem_set, Vector.getElem_replicate]
  split <;> rename_i h
  · rw [if_pos (Fin.ext h.symm)]
  · rw [if_neg fun e => h (by rw [e]; rfl)]

theorem waiting_points : waiting.PointsSound := by
  refine ⟨?_, ?_, ?_, ?_, ?_, ?_, ?_, ?_, ?_, ?_, Nat.zero_le _⟩ <;> intro n <;>
    rw [show waiting.point n = _ from manned_points n] <;> split <;> simp [bell, Point.reset]

theorem hyp_PointAndShelfRulesKept : waiting.ConfigSound ∧ waiting.TripsSound ∧ waiting.ShelvesSound ∧ waiting.PointsSound ∧
    ∃ t, step waiting = .next t := by
  refine ⟨nofun, waiting_trips, ⟨List.nodup_nil, fun n => ?_, fun a => ?_, fun a => ?_, Nat.zero_le _⟩, waiting_points,
    waiting_steps⟩
  · rw [show waiting.point n = _ from manned_points n, show waiting.shelves = [] from rfl]
    split <;> simp [bell, Point.reset]
  · rw [show waiting.area a = _ from manned_areas a]
    split <;> rfl
  · rw [show waiting.area a = _ from manned_areas a]
    split <;> decide

theorem ready_consoles (c : ConsoleNo) : (ready.console c).atRest := by
  rw [show ready.console c = (State.reset.consoles.set 0 desk)[c] from rfl]
  simp only [State.reset, Fin.getElem_fin, Vector.getElem_set, Vector.getElem_replicate]
  split <;> decide

theorem ready_at_rest : ready.AtRest := by
  refine ⟨fun n => ?_, ready_consoles, rfl, fun a => ?_, rfl, fun c => ?_, rfl, rfl⟩
  · rw [show ready.point n = _ from manned_points n]; split <;> decide
  · rw [show ready.area a = _ from manned_areas a]; split <;> decide
  · rw [show ready.code c = _ from manned_codes c]; rfl

/-- `ready` with a START waiting. -/
def starting : State := { ready with pending := [.start 7 []] }

theorem hyp_ConfigStaysAtRest : starting.ConfigSound ∧ gives (step starting) fun t => t.mode == .run :=
  ⟨fun _ => ⟨ready_at_rest.points, ready_at_rest.consoles, ready_at_rest.room, ready_at_rest.areas, ready_at_rest.shelves,
    ready_at_rest.codes, ready_at_rest.qualifier, ready_at_rest.mill⟩, by decide +kernel⟩

/-- `waiting` with no presence timeout and area 0 covered by console 0. -/
def watched : State :=
  withArea (fun r => { r with covered := true }) { waiting with settings := { waiting.settings with presenceTimeout := 0 } }

theorem watched_steps : ∃ t, step watched = .next t := ⟨_, rfl⟩

theorem watched_consoles (c : ConsoleNo) :
    watched.console c = if c = 0 then { desk with seat := .seated 1 none } else Console.reset := by
  rw [show watched.console c = (State.reset.consoles.set 0 { desk with seat := .seated 1 none })[c] from rfl]
  simp only [State.reset, Fin.getElem_fin, Vector.getElem_set, Vector.getElem_replicate]
  split <;> rename_i h
  · rw [if_pos (Fin.ext h.symm)]
  · rw [if_neg fun e => h (by rw [e]; rfl)]

theorem watched_seats : watched.SeatsSound := by
  refine ⟨by decide, fun c n h => ?_, by decide +kernel, by decide +kernel, fun c n d h => ?_⟩ <;>
    rw [watched_consoles] at h <;> split at h <;> cases h
  · subst c; exact ⟨boss, by decide +kernel, rfl⟩
  · exact ⟨fun _ => rfl, fun _ => rfl⟩

theorem hyp_SeatsNameEachOther : watched.ConfigSound ∧ watched.SeatsSound ∧ (∃ t, step watched = .next t) ∧
    (watched.console 0).seat.operator? = some 1 := ⟨nofun, watched_seats, watched_steps, rfl⟩

theorem watched_quiet (n : PointNo) : (watched.point n).ann = .normal := by
  rw [show watched.point n = _ from manned_points n]; split <;> rfl

theorem hyp_OutputsFollowState : watched.ConfigSound ∧ watched.SeatsSound ∧ watched.OutputsSound ∧
    (∃ t, step watched = .next t) ∧ (watched.area 0).covered ∧ watched.pending = [.clockSecond] ∧
    OnlyNotifies .clockSecond := by
  refine ⟨nofun, watched_seats, ⟨fun c => ?_, fun c => ?_, fun c => ?_, ?_, fun _ a h => ?_⟩, watched_steps,
    by decide +kernel, waiting_notifies⟩
  · rw [show (watched.console c).head = none by rw [watched_consoles]; split <;> rfl]
    exact fun n h => by simp [State.InOrder, watched_quiet] at h
  · rw [show (watched.console c).horn = .off by rw [watched_consoles]; split <;> rfl]
    unfold State.HornIs
    split
    · exact fun n h => by simp [State.SoundsAt, watched_quiet] at h
    · rfl
  · rw [show (watched.console c).beacon = .off by rw [watched_consoles]; split <;> rfl]
    simp [State.BeaconIs, watched_quiet]
  · exact fun n h => by simp [State.SoundsInRoom, watched_quiet] at h
  · rw [show watched.area = (manned.modArea 0 fun r => { r with covered := true }).area from rfl, State.area_modArea] at h ⊢
    by_cases e : a = 0
    · subst e
      exact ⟨fun _ => ⟨0, 1, none, boss, by decide +kernel, by decide +kernel, by decide +kernel, by decide +kernel,
        .inl (by decide +kernel)⟩, fun _ => rfl⟩
    · rw [if_neg e, manned_areas, if_neg e] at h; cases h

/-- A whole frame waiting to be sent, the longest and the shortest. -/
def sending (f : Frame) : State := { State.reset with pending := f.wire.map Instr.receiveCharacter }

theorem hyp_FrameArrivesWhole :
    (∀ n ∈ [0, 248], let f : Frame := { kind := 1, tag := 7, payload := List.replicate n 0 }
      f.payload.length ≤ 248 ∧ (sending f).link.receiver = .hunting
      ∧ (sending f).link.held + (f.payload.length + 6) ≤ 256) ∧
    ∀ f, (sending f).pending = f.wire.map Instr.receiveCharacter := ⟨by decide +kernel, fun _ => rfl⟩

/-- A link that hunts, and one in the length and the body of a frame. -/
def linkAt (r : Receiver) : Link := { Link.reset with receiver := r }

/-- A frame of 254 bytes in the buffer. -/
def longFrame : Received := .frame { kind := 1, tag := 0, payload := List.replicate 248 0 }

theorem hyp_ReceiverTakesCharacter :
    (linkAt .hunting).held < 256 ∧ (linkAt .length).held < 256 ∧ (2 ≤ (250 : Byte).toNat ∧ (250 : Byte).toNat ≤ 250) ∧
    ¬ (2 ≤ (251 : Byte).toNat ∧ (251 : Byte).toNat ≤ 250) ∧ ¬ (2 ≤ (1 : Byte).toNat ∧ (1 : Byte).toNat ≤ 250) ∧
    (linkAt (.body 2 [1, 7, 0])).held < 256 ∧ [1, 7].length = 2 ∧
    crc [2, 1, 7] = 0xE12A#16 ∧
    256 ≤ ({ linkAt (.body 2 []) with order := [longFrame] } : Link).held ∧
    256 ≤ ({ linkAt .hunting with order := [longFrame, longFrame] } : Link).held := by decide +kernel

theorem hyp_LinkFaultsAnswered :
    (linkAt .hunting).errors < 16 ∧ 16 ≤ ({ Link.reset with order := List.replicate 16 (.error .gap) } : Link).errors ∧
    (linkAt .length).receiver ≠ .hunting ∧ isRequestKind 0x67 = false ∧ took State.reset 0x67 [] fun _ => true := by
  decide +kernel

theorem hyp_RequestsRefusedBeforeTheirOwner :
    (isRequestKind 0x02 ∧ isRequestKind 0x66 ∧ 0x66#8 ∉ [0x01#8, 0x03#8, 0x04#8, 0x60#8, 0x62#8] ∧
      (took State.reset 0x02 [] fun _ => true) ∧ (took State.reset 0x66 [] fun _ => true) ∧
      (took manned 0x40 [0] fun _ => true) ∧ took manned 0x52 [7, 0] fun _ => true) ∧
    (∃ row ∈ configRows, row.1 = 0x03 ∧ row.2 [] ∧ manned.mode = .run ∧ took manned 0x03 [] fun _ => true) ∧
    (∃ row ∈ runRows, row.1 = 0x62 ∧ row.2 [] ∧ ready.mode = .config ∧ ready.ConfigSound
      ∧ took ready 0x62 [] fun _ => true) :=
  ⟨by decide +kernel, ⟨(0x03, fun p => (parseNone p).isSome), by simp [configRows], rfl, rfl, rfl, by decide +kernel⟩,
   ⟨(0x62, fun p => (parseNone p).isSome), by simp [runRows], rfl, rfl, rfl, fun _ => ready_at_rest, by decide +kernel⟩⟩

theorem hyp_ActivityKeepsConsoleSeated :
    (manned.console 0).seat = .seated 1 none ∧ (took manned 0x52 [0] fun _ => true) ∧
    gives (exec (.restartArea 7 [0]) manned) (fun t => (t.console 0).seat == .seated 1 (some ⟨1800, 1⟩)) ∧
    ((withConsole (fun r => { r with seat := .absent 1 }) manned).console 0).seat = .absent 1 := by decide +kernel

/-! ### Points and operators: hypotheses met -/

theorem hyp_RaiseActsByView :
    (took manned 0x20 [0, 0] fun u => u.mode == .run && u.exists? (u.point 0) && !(u.point 0).hidden
      && (u.point 0).condition == .clear) ∧
    (took (withPoint (fun p => { p with shelved := true }) manned) 0x20 [0, 0] fun u => u.exists? (u.point 0)
      && (u.point 0).hidden && (u.point 0).condition == .clear) ∧
    (took ringing 0x20 [0, 0] fun u => u.exists? (u.point 0) && (u.point 0).condition == .active) ∧
    took manned 0x20 [7, 0xFF] fun u => !u.exists? (u.point 2047) := by decide +kernel

theorem hyp_ClearFadesOrSettlesPoint :
    (took ringing 0x21 [0, 0] fun u => u.mode == .run && u.exists? (u.point 0) && (u.point 0).condition == .active
      && (u.point 0).ann == .new && !(u.point 0).hidden) ∧
    (took (withPoint (fun p => { p with ann := .acked }) ringing) 0x21 [0, 0] fun u => (u.point 0).condition == .active
      && (u.point 0).ann == .acked && !(u.point 0).hidden) ∧
    (took (withPoint (fun p => { p with ann := .normal, outOfService := true }) ringing) 0x21 [0, 0] fun u =>
      (u.point 0).hidden && (u.point 0).condition == .active) ∧
    (took manned 0x21 [0, 0] fun u => u.exists? (u.point 0) && (u.point 0).condition == .clear) ∧
    took manned 0x21 [7, 0xFF] fun u => !u.exists? (u.point 2047) := by decide +kernel

theorem hyp_DecayStepLowersMeter : let s := withArea (fun r => { r with meter := 1 }) manned
    s.mode = .run ∧ (s.area 0).config.configured ∧ 0 < (s.area 0).meter := by decide +kernel

theorem hyp_PointsAreConfigured : (took ready 0x10 [7, 0xFF, 1, 1, 31, 4] fun u => u.mode == .config) ∧
    2047 + 1 ≤ 2048 ∧ 1968 + 80 ≤ 2048 ∧ (took manned 0x19 [0, 0, 0, 1] fun u => (u.point 0).configured) ∧
    (took manned 0x19 [8, 0, 0, 1] fun _ => true) ∧ 2047 < (8 : Byte).toNat * 256 + (0 : Byte).toNat ∧
    31 < (32 : Byte).toNat ∧ 4 < (5 : Byte).toNat := by decide +kernel

/-- Point 0 is out of service. -/
def laidOff : State := withPoint (fun p => { p with outOfService := true }) manned

theorem hyp_ServiceTakesPointOutAndBack : (at0 manned 0x48 [0, 0, 0] fun u => u.mode == .run
    && passes boss (u.permitPoint 0 .service 0 false) && !u.tripCovers (u.point 0).area && !(u.point 0).outOfService) ∧
  at0 laidOff 0x49 [0, 0, 0] fun u => u.mode == .run
    && passes boss (u.permitPoint 0 .service 0 false) && !u.tripCovers (u.point 0).area && (u.point 0).outOfService
    && !(u.point 0).shelved && (u.point 0).suppression == [] := by decide +kernel

theorem hyp_QueriesChangeNothing :
    (Instr.listShelves 7 [0xFF, 127]).frame? = some (0x2C, 7, [0xFF, 127]) ∧
    (Instr.queryMeters 7 [16, 16]).frame? = some (0x2D, 7, [16, 16]) ∧ manned.operator? 1 = some boss ∧
    (took manned 0x2C [0xFF, 127] fun _ => true) ∧ took manned 0x2D [16, 16] fun _ => true := by decide +kernel

theorem hyp_OperatorRecordsComeAndGo : (mate.seat = none ∧ 1 ≤ mate.quals.length ∧ mate.quals.length ≤ 4 ∧
      took ready 0x13 [0, 2, 1, 3, 1, 0, 0, 0] fun u => u.roster.length < 128) ∧
    (took ready 0x13 [0, 2, 0, 0, 0, 0, 0, 1] fun u => u.operator? 2 == some mate) ∧
    (took manned 0x13 [0, 1, 0, 0, 0, 0, 0, 1] fun u => (u.operator? 1).any (·.seat.isSome)) ∧
    took ready 0x13 [0x27, 0x0F, 9, 9, 9, 9, 9, 9, 9, 9, 9, 9, 9, 1] fun u => u.operator? 9999 == none := by
  decide +kernel

theorem hyp_SingleLoadsStoreRecord :
    (took ready 0x14 [3, 1, 1, 1, 1, 1, 1, 1, 1, 1] fun u => u.mode == .config) ∧
    (took ready 0x12 [7, 1, 31, 31, 0xFF] fun u => u.mode == .config) ∧
    (took ready 0x11 [31, 1, 255, 1, 64, 2, 0, 1, 0] fun u => u.mode == .config) ∧
    (took ready 0x18 [63, 1, 31, 0, 0, 0, 0, 0, 0, 1] fun u => u.mode == .config) ∧ 256 + 256 ≤ 512 := by decide +kernel

/-- In RUN with console 0 vacant. -/
def unmanned : State :=
  withConsole (fun r => { r with seat := .vacant }) { manned with roster := [{ boss with seat := none }, mate] }

theorem hyp_SignOnSeatsOperator : at0 unmanned 0x40 [0, 0, 1] fun u => u.mode == .run
    && (u.console 0).config.configured && (u.console 0).seat == .vacant
    && u.operator? 1 == some { boss with seat := none } && u.mill.duty == .A := by decide +kernel

theorem hyp_SignOffVacatesConsole : (took manned 0x41 [0xFF, 0] fun u => u.mode == .run && (u.console 0).config.configured
      && (u.console 0).seat.operator? == some 1) ∧
    at0 manned 0x41 [0, 0] fun u => u.mode == .run && (u.console 0).seat.operator? == some 1 := by decide +kernel

theorem hyp_PresenceDeadlineMakesAbsent : let s := withConsole (fun r => { r with seat := .seated 1 (some ⟨0, 0⟩) }) manned
    (s.console 0).seat = .seated 1 (some ⟨0, 0⟩) ∧ 0 ≤ s.clock.count ∧ 0 ≤ s.clock.timebase := by decide +kernel

/-! ### Consoles, acknowledgement and shelving: hypotheses met -/

/-- `ringing` with the roster's first record changed. -/
def staffed (f : Operator → Operator) (s : State) : State := { s with roster := [f boss, mate] }

theorem hyp_AckRefusedByFirstFailingCheck :
    (at0 (withConsole (fun r => { r with config := Console.reset.config }) ringing) 0x43 [0, 0, 0] fun u =>
      !(u.console 0).config.configured) ∧
    (at0 unmanned 0x43 [0, 0, 0] fun u => (u.console 0).seat == .vacant) ∧
    (at0 { ringing with roles := ringing.roles.set 3 (Vector.replicate 9 false) } 0x43 [0, 0, 0] fun u =>
      refuses .notPermitted (u.permitPoint 0 .ack 0 true)) ∧
    (at0 ringing 0x43 [0, 0, 1] fun u => !u.exists? (u.point 1)) ∧
    (at0 (withConsole (fun r => { r with config := { r.config with routing := ⟨1, 1⟩ } }) ringing) 0x43 [0, 0, 0]
      fun u => u.exists? (u.point 0) && !u.routes 0 0) ∧
    (at0 (staffed (fun o => { o with quals := [⟨1, 1⟩] }) ringing) 0x43 [0, 0, 0] fun u =>
      refuses .notQualified (u.permitPoint 0 .ack 0 true)) ∧
    (at0 (staffed (fun o => { o with crew := .C }) ringing) 0x43 [0, 0, 0] fun u =>
      refuses .notOnDuty (u.permitPoint 0 .ack 0 true)) ∧
    (at0 laidOff 0x43 [0, 0, 0] fun u => passes boss (u.permitPoint 0 .ack 0 true) && (u.point 0).hidden) ∧
    (at0 manned 0x43 [0, 0, 0] fun u => passes boss (u.permitPoint 0 .ack 0 true) && (u.point 0).ann == .normal) ∧
    (at0 manned 0x44 [0, 0, 0] fun u => passes boss (u.actor 0 .ack) && u.bannerOf 0 == none) ∧
    (at0 ringing 0x44 [0, 0, 1] fun u => u.bannerOf 0 == some 0 && passes boss (u.permitBanner 0 0 boss)) ∧
    at0 manned 0x44 [0, 0xFF, 0xFF] fun u => u.bannerOf 0 == none := by decide +kernel

/-- `ringing` with a P1 re-sound deadline that is reached. -/
def resounding : State := withConsole (fun r => { r with resound := some ⟨0, 0⟩ }) ringing

theorem hyp_SilenceSetsMarks : (at0 ringing 0x42 [0, 1] fun u => u.mode == .run && passes boss (u.permitSilence 0)) ∧
    (resounding.console 0).resound = some ⟨0, 0⟩ ∧ 0 ≤ resounding.clock.count := by decide +kernel

/-- `ringing` with both keys of console 0 in a state. -/
def keyed (x : KeyState) : State :=
  withConsole (fun r => { r with ackKey := ⟨true, x⟩, silenceKey := ⟨true, x⟩ }) ringing

theorem hyp_QualifiersFollowContactsAndLines : (((keyed .held).console 0).key .ack).closed ≠ false ∧
    ((ready.console 0).key .ack).closed ≠ true ∧ (((keyed (.stuck true)).console 0).key .silence).state = .stuck true ∧
    (((keyed .held).console 0).key .ack).state = .held ∧
    manned.trip.lines ≠ 15 ∧ (15 : Fin 16).val = (14 : TripNo).val + 1 ∧
    ({ manned.trip with qualifier := .settling true } : TripUnit).qualifier = .settling true := by decide +kernel

theorem hyp_QualifiedPressActs :
    (keyed .pressing).mode = .run ∧ ((keyed .pressing).console 0).ackKey.state = .pressing ∧
    (let u := ((keyed .pressing).setKey 0 .ack ⟨true, .held⟩).activity 0
     passes boss (u.actor 0 .ack) ∧ u.bannerOf 0 = some 0 ∧ passes boss (u.permitBanner 0 0 boss)) ∧
    (let u := ((keyed .pressing).setKey 0 .silence ⟨true, .held⟩).activity 0
     passes boss (u.permitSilence 0)) ∧
    (let u := ((withConsole (fun r => { r with seat := .vacant }) (keyed .pressing)).setKey 0 .ack ⟨true, .held⟩).activity 0
     refuses .notSeated (u.actor 0 .ack) ∧ refuses .notSeated (u.permitSilence 0)) ∧
    (let u := ((staffed (fun o => { o with crew := .C }) (keyed .pressing)).setKey 0 .ack ⟨true, .held⟩).activity 0
     passes { boss with crew := .C } (u.actor 0 .ack) ∧ u.bannerOf 0 = some 0 ∧
     refuses .notOnDuty (u.permitBanner 0 0 { boss with crew := .C })) ∧
    quiet (((keyed .pressing).setKey 0 .ack ⟨true, .held⟩).activity 0) ∧
    (manned.bannerOf 0 = none ∧ passes boss (manned.actor 0 .ack)) := by decide +kernel

theorem hyp_AckAcknowledgesPoint :
    (at0 ringing 0x43 [0, 0, 0] fun u => u.mode == .run && passes boss (u.permitPoint 0 .ack 0 true)
      && !(u.point 0).hidden && (u.point 0).ann == .new) ∧
    at0 ringing 0x44 [0, 0xFF, 0xFF] fun u => u.bannerOf 0 == some 0 && passes boss (u.actor 0 .ack)
      && passes boss (u.permitBanner 0 0 boss) := by decide +kernel

theorem hyp_AckAreaAcknowledgesSelection : ∀ limit ∈ [2, 4], 2 ≤ limit ∧ limit ≤ 4 ∧
    at0 ringing 0x45 [0, 0, byte limit] fun u => u.mode == .run && passes boss (u.permitArea 0 .ack 0 true true) := by
  decide +kernel

/-- Point 0 is shelved, its expiry time reached. -/
def shelved : State :=
  withArea (fun r => { r with shelvedCount := 1 }) <| withPoint (fun p => { p with shelved := true, condition := .active })
    { manned with shelves :=
      [{ point := 0, area := 0, operator := 1, console := 0, start := 0, ending := .minutes ⟨0, 0⟩ }] }

theorem hyp_ShelfHidesAndBringsBack :
    (at0 ringing 0x46 [0, 0, 0, 0, 2, 208] fun u => u.mode == .run
      && passes boss (u.permitPoint 0 .shelve 0 false) && (u.point 0).priority != .p1 && !u.tripCovers 0
      && !(u.point 0).outOfService && !(u.point 0).shelved && (u.area 0).shelvedCount < 8 && u.shelves.length < 128
      && quiet u) ∧
    (at0 ringing 0x46 [0, 0, 0, 1, 0, 3] fun u => passes boss (u.permitPoint 0 .shelve 0 false)) ∧
    be16 720 = [2, 208] ∧
    (at0 shelved 0x47 [0, 0, 0] fun u => u.mode == .run
      && passes boss (u.permitPoint 0 .shelve 0 false) && !u.tripCovers (u.point 0).area && (u.shelfOf? 0).isSome
      && quiet u && (u.point 0).priority != .p1) ∧
    ((shelved.shelfOf? 0).any fun r => r.ending == .minutes ⟨0, 0⟩) ∧ quiet shelved ∧
    (shelved.point 0).priority ≠ .p1 := by decide +kernel

/-! ### Trips: hypotheses met -/

/-- Trip code 1 is configured for area 0 from entry 0, in a state. -/
def tripped (x : TripState) : State := withCode (fun r => { r with configured := true, areas := 1, state := x }) manned

/-- Entry 0 of the trip list store is `e`. -/
def listing (e : TripEntry) (s : State) : State := { s with trip := { s.trip with store := s.trip.store.set 0 e } }

theorem hyp_TripAndStepTablesLoad :
    (took manned 0x16 [15, 1, 1, 255, 0, 0, 0, 1, 5, 161] fun u => u.mode == .run) ∧
    (took (tripped (.holding none)) 0x16 [1, 1, 0, 0, 0, 0, 0, 1, 0, 0] fun u => (u.code 0).state != .idle) ∧
    (took manned 0x60 [] fun u => !u.trip.latch) ∧
    (took ready 0x15 [255, 1, 6, 0, 0, 0, 9, 0, 1, 0] fun u => u.mode == .config) ∧
    TripEntry.wire (.wait 601 false true) = [2, 0, 1, 2, 89] ∧
    (took ready 0x17 [1, 255, 1, 2, 0, 1, 2, 89] fun u => u.mode == .config) ∧
    (TripEntry.wait 601 false true).inRange := by decide +kernel

/-- `s` with code 1 in the qualifier. -/
def delivering (s : State) : State := s.modTrip fun x => { x with qualifier := .qualifying 0 }

/-- A GROUP of point 0 alone. -/
def justBell : Group := { base := 0, selection := 1, spare := 1, activeToo := true }

/-- A code's run over a LAST GROUP of its first entry ends behind it, without a fault. -/
theorem group_run_ends (s : State) (h : s.tripEntry 0 = .group justBell true true) (run : (s.runGroup 0 justBell).2 = false) :
    ∃ x, State.RunsTo 0 0 s x :=
  ⟨_, .last 0 justBell true s _ h (Prod.ext rfl run)⟩

theorem hyp_DeliveredCodeIsTaken :
    (delivering manned).trip.qualifier = .qualifying 0 ∧
    ((delivering manned).modTrip fun x => { x with latch := true }).trip.latch ∧
    (delivering manned).trip.latch = false ∧ ((delivering manned).code 0).configured = false ∧
    ((delivering (tripped .idle)).code 0).configured ∧
    (allCodes.all fun c => !((delivering (tripped .idle)).code c).state.isRunning) ∧
    (listing (.wait 600 true true) (delivering (tripped .idle))).tripEntry
      ((delivering (tripped .idle)).code 0).start = .wait 600 true true := by decide +kernel

/-- A LAST GROUP at the start entry is run without a fault. -/
theorem hyp_DeliveredCodeRunsGroup :
    ((delivering (tripped .idle)).code 0).start = 0 ∧
    ∃ x, State.RunsTo 0 0 (listing (.group justBell true true) (tripped (.running 0 none))) x :=
  ⟨by decide +kernel, group_run_ends _ (by decide +kernel) (by decide +kernel)⟩

/-- Code 1 runs, code 2 is configured and qualifies, and the pending slot holds `p`. -/
def second (p : Option TripNo) : State :=
  ((tripped (.running 0 none)).modCode 1 fun r => { r with configured := true }).modTrip fun x =>
    { x with qualifier := .qualifying 1, pending := p }

theorem second_trips (p : Option TripNo) : (second p).TripsSound :=
  sound_of _ (show allCodes.all fun k => k == 0 || !((second none).code k).state.isRunning by decide +kernel)
    (show allCodes.all fun k => ((second none).code k).suppressed == 0 by decide +kernel) rfl rfl fun e _ _ _ h => by
    rw [show (second p).tripEntry e = _ from manned_entries e] at h; cases h

theorem hyp_DeliveredCodeWhileRunning :
    (delivering (tripped (.running 0 none))).TripsSound ∧
    (((delivering (tripped (.running 0 none))).code 0).state.isRunning ∧
      ((delivering (tripped (.running 0 none))).code 0).configured) ∧
    (∀ p, (second p).TripsSound) ∧ ((second none).code 1).configured ∧ ((second none).code 0).state.isRunning ∧
    (second none).trip.pending = none ∧ (second (some 4)).trip.pending ≠ none ∧
    (second none).trip.qualifier = .qualifying 1 :=
  ⟨sound_of _ (by decide +kernel) (by decide +kernel) rfl rfl fun e _ _ _ h => (by
    rw [show (delivering (tripped (.running 0 none))).tripEntry e = _ from manned_entries e] at h; cases h),
    by decide +kernel, second_trips, by decide +kernel⟩

theorem hyp_GroupSuppressesMembers : ((tripped (.running 0 none)).runGroup 0 justBell).2 = false ∧
    ((tripped (.running 0 none)).memberOutcome 0 justBell 0 == .joins) ∧
    ((tripped (.running 0 none)).runGroup 0 { justBell with base := 2047, selection := 3 }).2 := by decide +kernel

/-- Code 1 RUNNING at entry `k` of a store that holds a WAIT there and nothing else, its wait deadline reached. -/
def waited (k : EntryNo) (last : Bool) : State :=
  (tripped (.running k (some ⟨0, 0⟩))).modTrip fun x => { x with store := manned.trip.store.set k (.wait 1 last false) }

theorem waited_codes (k : EntryNo) (last : Bool) (c : TripNo) : (waited k last).code c = if c = 0 then
    { TripCode.reset with configured := true, areas := 1, state := .running k (some ⟨0, 0⟩) } else TripCode.reset := by
  rw [show (waited k last).code c = (manned.modCode 0 fun r =>
    { r with configured := true, areas := 1, state := .running k (some ⟨0, 0⟩) }).code c from rfl, State.code_modCode,
    manned_codes, manned_codes]

theorem waited_trips (k : EntryNo) (last : Bool) : (waited k last).TripsSound :=
  sound_of _ (by
    refine List.all_eq_true.mpr fun c _ => ?_
    by_cases e : c = 0
    · simp [e]
    · rw [waited_codes, if_neg e]
      simp [TripCode.reset, TripState.isRunning])
  (by
    refine List.all_eq_true.mpr fun c _ => ?_
    rw [waited_codes]; split <;> rfl) rfl rfl fun e g x y h => by
    rw [show (waited k last).tripEntry e = (manned.trip.store.set k (.wait 1 last false))[e] from rfl,
      Fin.getElem_fin, Vector.getElem_set] at h
    split at h
    · cases h
    · rw [show manned.trip.store[e.val] = TripEntry.empty from manned_entries e] at h; cases h

theorem hyp_WaitDeadlineResumesRun : (∀ k last, (waited k last).TripsSound) ∧
    (∀ last ∈ [true, false], ∀ k ∈ [(0 : EntryNo), 511],
      ((waited k last).code 0).state = .running k (some ⟨0, 0⟩) ∧ (waited k last).tripEntry k = .wait 1 last false) ∧
    (waited 0 false).tripEntry 1 = .empty := ⟨waited_trips, by decide +kernel⟩

/-- Behind a WAIT at entry 0 the processing of entry 1 ends somewhere. -/
theorem hyp_WaitDeadlineRunsOn :
    ∃ x, State.RunsTo 0 1 (listing (.wait 1 false false) (tripped (.running 0 none))) x :=
  State.exists_runsTo 0 (by decide) _

/-- What the pending slot leaves always exists. -/
theorem hyp_PendingIsTaken (s : State) : ∃ y, s.PendingTaken y := ⟨_, s.takePending_taken⟩

theorem hyp_ReleaseUnsuppressesPoints :
    let s := withPoint (fun p => { p with condition := .active, suppression := [0] }) (tripped (.holding none))
    s.raiseCounter + 2048 ≤ Config.maxSeq ∧ s.comesBack 0 0 ∧ s.comesBack 0 1 = false := by decide +kernel

theorem hyp_TripIsReleased :
    (took (tripped (.holding none)) 0x4A [0xFF, 1] fun u => u.mode == .run && (u.code 0).state != .idle) ∧
    (at0 (tripped (.holding none)) 0x4A [0, 1] fun u => passes boss (u.permitRelease 0 0)) ∧
    ((tripped (.holding (some ⟨0, 0⟩))).code 0).state = .holding (some ⟨0, 0⟩) := by decide +kernel

/-! ### Sheets and handovers: hypotheses met -/

/-- Area 0's draft changed. -/
def drafting (f : Draft → Draft) (s : State) : State := withArea (fun r => { r with draft := f r.draft }) s

/-- `manned` with area 0's record replaced, and a note in slot 0 of the pool. -/
def sheeted (r : Area) : State :=
  { manned with
    areas := manned.areas.set 0 r
    pool := manned.pool.set 0 (some { kind := .note 7, author := some 1, created := 0, reviewed := none })
    freeCount := 1023 }

theorem sheeted_areas (r : Area) (a : AreaNo) : (sheeted r).area a = if a = 0 then r else Area.reset := by
  rw [show (sheeted r).area a = (manned.areas.set 0 r)[a] from rfl]
  simp only [manned, ready, State.reset, Fin.getElem_fin, Vector.getElem_set, Vector.getElem_replicate]
  by_cases h : a = 0
  · subst h; rfl
  · have h' : ¬ 0 = a.val := fun e => h (Fin.ext e.symm)
    rw [if_neg h', if_neg h', if_neg h]

/-- Area 0's draft is locked at console 0 and lists slot 0. -/
def drafted : State := sheeted { yard with draft := { items := [0], lock := some 0, commit := none, poolShort := false } }

theorem hyp_LockMovesOwner :
    (at0 manned 0x4B [0, 0] fun u => u.mode == .run && passes boss (u.permitArea 0 .edit 0 false false)
      && (u.area 0).draft.lock == none) ∧
    (at0 drafted 0x4C [0, 0] fun u => passes boss (u.permitArea 0 .edit 0 false false)
      && (u.area 0).draft.lock == some 0) ∧
    (at0 (drafting (fun d => { d with lock := some 7 }) manned) 0x4B [0, 0] fun u =>
      (u.area 0).draft.lock == some 7) := by decide +kernel

theorem drafted_areas (b : AreaNo) : (drafted.area b).draft.commit = none := by
  rw [drafted, sheeted_areas]; split <;> rfl

theorem hyp_ItemsJoinAndLeaveDraft : drafted.noCommits ∧
    (at0 drafted 0x4D [0, 0, 1, 0, 0, 0, 0] fun u => u.mode == .run && passes boss (u.permitArea 0 .edit 0 false false)
      && (u.area 0).draft.lock == some 0 && (u.area 0).draft.items.length < 16 && (u.item 1).isNone
      && (u.item 0).isSome && (u.point 0).configured && (u.point 0).area == 0) ∧
    at0 drafted 0x4E [0, 0, 0] fun u => (u.area 0).draft.items[0]? == some 0 := ⟨drafted_areas, by decide +kernel⟩

/-- Area 0's draft, which lists slot 0, waits committed for crew A. -/
def committed (mode : PostingMode) : State :=
  sheeted { yard with
    config := { yard.config with posting := mode }
    draft := { items := [0], lock := none, commit := some .A, poolShort := false } }

/-- A posting summary of a quiet area. -/
def noCounts : Summary := ⟨#v[0, 0, 0, 0], #v[0, 0, 0, 0], #v[0, 0, 0, 0], 0, 0, 0⟩

/-- An unreviewed posted item in slot 1, posted by crew B. -/
def posted (s : State) : State :=
  withArea (fun r => { r with posted := { items := [1], posting := some ⟨1, .B, 0, noCounts⟩ } })
    { s with
      pool := s.pool.set 1 (some { kind := .point 0, author := some 2, created := 0, reviewed := none })
      freeCount := 1022 }

/-- The items of the posted frame of area 0 in a state. -/
def oneItem : List (SlotNo × Item) := [(1, { kind := .point 0, author := some 2, created := 0, reviewed := none })]

theorem hyp_ReportedRecordLayouts : waiting.ShelvesSound ∧
    ((took manned 0x28 [0, 0] fun _ => true) ∧ (took manned 0x01 [] fun _ => true) ∧
      (took manned 0x29 [selector none, 7, 255] fun _ => true) ∧ (took manned 0x29 [selector (some 31), 0, 0] fun _ => true) ∧
      (took waiting 0x2C [selector none, 127] fun _ => true) ∧
      (took manned 0x2F [0, 0, 31] fun u => (u.area 0).draft.items == []) ∧
      took (posted manned) 0x2F [0, 1, 0] fun u => (u.area 0).posted.items == oneItem.map Prod.fst
        && oneItem.all fun x => u.item x.1 == some x.2) := ⟨hyp_PointAndShelfRulesKept.2.2.1, by decide +kernel⟩

theorem hyp_BlockQueriesReportState :
    (16 + 16 ≤ 32 ∧ took manned 0x2D [16, 16] fun _ => true) ∧
    (took manned 0x2E [15] fun _ => true) ∧
    (took (tripped (.running 0 none)) 0x2E [0] fun u => allCodes.all fun c => (u.code c).state.isRunning == (c == 0)) ∧
    (took manned 0x2E [0] fun u => allCodes.all fun c => !(u.code c).state.isRunning) ∧
    (took manned 0x2A [0] fun u => allAreas.all fun a => (0xFFFFFFFF#32).getLsbD a.val == u.routes 0 a) ∧
    (took manned 0x2A [0xFF] fun u =>
      allAreas.all fun a => (1#32).getLsbD a.val == ((u.area a).config.configured && !(u.area a).covered)) ∧
    (took manned 0x2B [0, 1] fun u => u.operator? 1 == some boss) ∧
    (took manned 0x2B [0x27, 0x0F] fun u => u.operator? 9999 == none) ∧
    (took manned 0x30 [0xFF] fun _ => true) ∧ took manned 0x30 [31] fun _ => true := by decide +kernel

theorem hyp_PostCommitsDraft :
    (at0 drafted 0x4F [0, 0] fun u => u.mode == .run && passes boss (u.permitArea 0 .edit 0 false false)
      && (u.area 0).draft.lock == some 0 && (u.area 0).config.configured) ∧
    (committed .latest).MayExchange 0 ∧ (committed .latest).PoolHolds 0 ∧ ¬ (posted (committed .reviewAll)).MayExchange 0 ∧
    ¬ State.PoolHolds { withArea (fun r => { r with shelvedCount := 1 }) (committed .latest) with freeCount := 0 } 0 := by
  rw [← State.mayExchange_iff, ← State.mayExchange_iff, ← State.poolHolds_iff, ← State.poolHolds_iff]
  decide +kernel

theorem committed_listed : (committed .latest).listed = [0] := by decide +kernel

theorem committed_items (i : SlotNo) : (committed .latest).item i =
    if i = 0 then some { kind := .note 7, author := some 1, created := 0, reviewed := none } else none := by
  rw [show (committed .latest).item i = (manned.placeItem 0 _).item i from rfl, State.item_placeItem]
  congr 1
  exact Vector.getElem_replicate ..

theorem hyp_ExchangeSwapsFrames : (committed .latest).PoolSound ∧ (committed .latest).ShelvesSound ∧
    (committed .latest).PoolHolds 0 ∧ ((committed .latest).area 0).draft.commit = some .A := by
  refine ⟨⟨?_, ?_, fun i => ?_⟩, ⟨List.nodup_nil, fun n => ?_, fun a => ?_, fun a => ?_, Nat.zero_le _⟩,
    State.poolHolds_iff.mp (by decide +kernel), by decide +kernel⟩
  · rw [committed_listed]; rfl
  · rw [committed_listed]; decide
  · rw [committed_listed]
    rw [committed_items]
    by_cases h : i = 0 <;> simp [h]
  · rw [show (committed .latest).point n = _ from manned_points n, show (committed .latest).shelves = [] from rfl]
    split <;> simp [bell, Point.reset]
  · rw [committed, sheeted_areas]; split <;> rfl
  · rw [committed, sheeted_areas]; split <;> decide

theorem hyp_ReviewStampsItem : ((posted manned).area 0).posted.posting.isSome ∧ (posted manned).noCommits ∧
    (at0 (posted manned) 0x50 [0, 0, 0] fun u => u.mode == .run && passes boss (u.permitArea 0 .review 0 false true)
      && (u.area 0).posted.items[0]? == some 1 && (u.item 1).any fun x => x.reviewed == none) ∧
    (0 : Nat) ≤ 31 := by
  refine ⟨by decide +kernel, fun b => ?_, by decide +kernel⟩
  rw [show (posted manned).area b = (manned.modArea 0 fun r =>
    { r with posted := { items := [1], posting := some ⟨1, .B, 0, noCounts⟩ } }).area b from rfl, State.area_modArea]
  split
  · rfl
  · rw [manned_areas]; split <;> rfl

/-- Area 0's handover record is `h`, crew B is the incoming crew and one area is outstanding. -/
def handing (h : Handover) (s : State) : State :=
  withArea (fun r => { r with handover := h }) { s with mill := { s.mill with incoming := some .B, outstanding := 1 } }

theorem handing_noCommits (h : Handover) : (handing h manned).noCommits := by
  intro b
  rw [show (handing h manned).area b = (manned.modArea 0 fun r => { r with handover := h }).area b from rfl,
    State.area_modArea]
  split
  · rw [manned_areas]; rfl
  · rw [manned_areas]; split <;> rfl

/-- A first step that waits is where the area comes to rest. -/
theorem begins_waiting {s : State} {a : AreaNo} (h : ¬ s.StepHolds a (s.stepEntry (s.area a).config.start).kind) :
    s.BeginsTo a (s.entered ⟨(s.area a).config.start, 1⟩ (s.reasonsNow a false)) :=
  ⟨fun e => ⟨0, Nat.zero_le _, by rw [e]; exact .rests _ h⟩, fun _ => rfl⟩

theorem hyp_HandoverOpensAndCloses : manned.noCommits ∧
    (∀ mill, ∃ h : AreaNo → Handover, ∀ a, (manned.area a).config.configured →
      State.BeginsTo { manned with mill } a (h a)) ∧
    ((took manned 0x61 [1] fun u => u.mode == .run && u.mill.incoming == none && u.mill.duty != .B
        && (u.area 0).config.configured) ∧
      (allAreas.countP fun a => (manned.area a).config.configured) = 1 ∧
      (took (handing .steady manned) 0x61 [1] fun u => u.mill.incoming != none) ∧
      (took (handing .steady manned) 0x62 [] fun u => u.mill.incoming != none) ∧
      (took (handing (.done ⟨0, 1⟩) manned) 0x62 [] fun u => (u.area 0).handover == .done ⟨0, 1⟩) ∧
      took { manned with areas := State.reset.areas } 0x61 [1] fun u =>
        u.mill.incoming == none && (allAreas.countP fun a => (u.area a).config.configured) == 0) :=
  ⟨fun b => by rw [manned_areas]; split <;> rfl, fun mill => ⟨_, fun a h => begins_waiting (by
    have e : a = 0 := by
      rw [manned_areas] at h
      by_contra n
      rw [if_neg n] at h
      cases h
    subst e
    exact id)⟩, by decide +kernel⟩

/-- A RUNNING handover at step 0, both deadlines reached. -/
def underWay : Handover := .running ⟨0, 1⟩ (some ⟨0, 0⟩) (some ⟨0, 0⟩)

/-- A CLEAR_P1 step that is followed by entry 1, and a LAST one. -/
def clearSteps : StepEntry × StepEntry :=
  ({ StepEntry.reset with kind := .clearP1, next := 1 }, { StepEntry.reset with kind := .clearP1, last := true })

/-- `handing h s`, with the step list of those two. -/
def clearing (h : Handover) (s : State) : State :=
  { handing h s with steps := (State.reset.steps.set 0 clearSteps.1).set 1 clearSteps.2 }

theorem hyp_RequestSuspendsAndResumes : (∀ h, (handing h manned).noCommits) ∧
    ((took (handing underWay manned) 0x63 [0] fun u => u.mode == .run && (u.area 0).config.configured
        && (u.area 0).handover == underWay) ∧
      (took (handing (.suspended ⟨0, 1⟩ (some 0) (some 9) ⟨false, false, false, true⟩) manned) 0x64 [0] fun u =>
        u.reasonsNow 0 false == ⟨false, false, false, false⟩ && !u.conditionMet 0 (u.stepEntry 0).kind) ∧
      (took (clearing (.suspended ⟨0, 1⟩ (some 0) (some 9) ⟨false, false, false, true⟩) manned) 0x64 [0] fun u =>
        u.reasonsNow 0 false == ⟨false, false, false, false⟩ && u.conditionMet 0 (u.stepEntry 0).kind) ∧
      took (handing (.suspended ⟨0, 1⟩ none none ⟨false, true, false, true⟩)
          (withArea (fun r => { r with flooded := true }) manned)) 0x64 [0] fun u =>
        u.reasonsNow 0 false != ⟨false, false, false, false⟩) := ⟨handing_noCommits, by decide +kernel⟩

theorem hyp_StepCompletesOnConfirmationOrHold :
    (at0 (handing underWay manned) 0x51 [0, 0] fun u => u.mode == .run && (u.area 0).handover == underWay
      && (u.stepEntry 0).kind == .confirmOut && passes boss (u.permitArea 0 .confirm 0 false false)
      && (u.area 0).duty == .A) ∧
    (at0 { staffed (fun o => { o with crew := .B }) (handing underWay manned) with
        steps := manned.steps.set 0 { StepEntry.reset with kind := .confirmIn, last := true } } 0x51 [0, 0] fun u =>
      (u.stepEntry 0).kind == .confirmIn
      && passes { boss with crew := .B } (u.permitArea 0 .confirm 0 false true) && u.mill.incoming == some .B) ∧
    ((handing underWay manned).area 0).handover = .running ⟨0, 1⟩ (some ⟨0, 0⟩) (some ⟨0, 0⟩) ∧
    ((handing underWay manned).stepEntry 0).last ∧ (handing underWay manned).mill.outstanding = 1 ∧
    (at0 { handing underWay manned with steps := State.reset.steps } 0x51 [0, 0] fun u =>
      !(u.stepEntry 0).last && !u.conditionMet 0 (u.stepEntry (u.stepEntry 0).next).kind) := by decide +kernel

/-- No priority-1 point stands: both steps are passed at once, and the area is DONE. -/
theorem hyp_StepsPassAtOnce (h : Handover) : (clearing h manned).EntersTo 0 2 ⟨0, 1⟩ (.done ⟨1, 2⟩) := by
  have holds : (clearing h manned).StepHolds 0 .clearP1 := fun n _ e => by
    rw [show (clearing h manned).point n = _ from manned_points n] at e
    split at e <;> cases e
  have k : (clearing h manned).stepEntry 0 = clearSteps.1 ∧ (clearing h manned).stepEntry 1 = clearSteps.2 := ⟨rfl, rfl⟩
  refine .passes 1 ⟨0, 1⟩ _ (by rw [k.1]; exact holds) (by rw [k.1]; rfl) ?_
  rw [k.1]
  exact .done ⟨1, 2⟩ (by rw [k.2]; exact holds) (by rw [k.2]; rfl)

theorem hyp_AreaHaltsAndRestarts :
    (took (handing underWay manned) 0x65 [0] fun u => u.mode == .run && (u.area 0).config.configured
      && (u.area 0).handover == underWay) ∧
    (took manned 0x66 [31] fun u => (u.area 31).abort == none) ∧
    (at0 (handing (.halted ⟨0, 1⟩) manned) 0x52 [0, 0] fun u => u.mode == .run
      && passes boss (u.permitArea 0 .restart 0 false false) && (u.area 0).handover == .halted ⟨0, 1⟩
      && !u.conditionMet 0 (u.stepEntry (u.area 0).config.start).kind) := by decide +kernel

theorem handing_areas (h : Handover) (a : AreaNo) :
    ((handing h waiting).area a).flooded = false ∧
    ((handing h waiting).area a).handover = if a = 0 then h else .steady := by
  rw [show (handing h waiting).area a = (manned.modArea 0 fun r => { r with handover := h }).area a from rfl,
    State.area_modArea]
  by_cases e : a = 0
  · subst e; rw [manned_areas]; exact ⟨rfl, rfl⟩
  · rw [if_neg e, if_neg e, manned_areas, if_neg e]; exact ⟨rfl, rfl⟩

/-- No reason but the host's REQUEST stands in `manned`. -/
theorem handing_reasons (h : Handover) (a : AreaNo) (request : Bool) :
    (handing h waiting).ReasonsOf a ⟨false, false, false, request⟩ := by
  refine ⟨⟨nofun, fun ⟨n, _, _, _, e⟩ => ?_⟩, (handing_areas h a).1.symm, ⟨nofun, fun ⟨c, e, _⟩ => ?_⟩⟩
  · rw [show (handing h waiting).point n = _ from manned_points n] at e
    split at e <;> cases e
  · rw [show (handing h waiting).code c = _ from manned_codes c] at e
    cases e

theorem hyp_ReasonsSuspendAndResume :
    (∀ h, (handing h waiting).ConfigSound ∧ ∃ t, step (handing h waiting) = .next t) ∧
    (handing underWay waiting).HandoversSound ∧ ((handing underWay waiting).area 0).handover = underWay ∧
    (handing (.suspended ⟨0, 1⟩ none none ⟨false, false, false, true⟩) waiting).HandoversSound := by
  refine ⟨fun h => ⟨nofun, _, rfl⟩, ⟨fun a _ _ _ _ => handing_reasons _ a _, fun a p x y r e => ?_⟩, rfl,
    ⟨fun a _ _ _ _ => handing_reasons _ a _, fun a p x y r e => ?_⟩⟩ <;>
    rw [(handing_areas _ a).2] at e <;> split at e <;> cases e
  exact ⟨handing_reasons _ a _, nofun⟩

/-- Area 0 is RUNNING at a CONFIRM_OUT step, under a watched console. -/
def stepping : State := handing underWay watched

theorem stepping_areas (a : AreaNo) : (stepping.area a).handover = (if a = 0 then underWay else .steady) ∧
    (stepping.area a).config = (manned.area a).config := by
  rw [show stepping.area a = (watched.modArea 0 fun r => { r with handover := underWay }).area a from rfl,
    State.area_modArea, show watched.area = (manned.modArea 0 fun r => { r with covered := true }).area from rfl]
  by_cases e : a = 0
  · subst e; rw [if_pos rfl, if_pos rfl, State.area_modArea, if_pos rfl]; exact ⟨rfl, rfl⟩
  · rw [if_neg e, if_neg e, State.area_modArea, if_neg e, manned_areas, if_neg e]; exact ⟨rfl, rfl⟩

theorem stepping_duties : stepping.DutiesSound :=
  ⟨nofun, fun _ => by decide +kernel, by decide +kernel, fun a p k e => (by
    rw [(stepping_areas a).1] at e; split at e <;> cases e),
    fun a _ => (by decide +kernel : ∀ a, (stepping.area a).duty = stepping.mill.duty) a⟩

/-- The kinds in the queue after the command `c` in `s`. -/
def tellsOf (c : Instr) (s : State) (ks : List NoticeKind) : Bool :=
  gives (exec c s) fun t => t.queue.records.map (·.kind) == ks

theorem hyp_DutiesFollowHandover : (stepping.ConfigSound ∧ stepping.DutiesSound ∧ stepping.mill.incoming = some .B ∧
      ∃ t, step stepping = .next t) ∧
    (waiting.ConfigSound ∧ waiting.DutiesSound ∧ waiting.mill.incoming = none ∧ waiting.pending = [.clockSecond] ∧
      OnlyNotifies .clockSecond) ∧
    OnlyNotifies (.handoverHoldDeadline 0) ∧
    tellsOf (.handoverHoldDeadline 0) stepping [.areaUncovered 0, .areaHandedOver 0 .B, .shiftChanged 1 .B] :=
  have steady : ∀ a, (waiting.area a).handover = .steady := by decide +kernel
  ⟨⟨nofun, stepping_duties, rfl, _, rfl⟩, ⟨nofun, ⟨fun _ => ⟨rfl, steady⟩, nofun, fun a _ => steady a, nofun,
    fun a _ => (by decide +kernel : ∀ a, (waiting.area a).duty = waiting.mill.duty) a⟩, rfl, waiting_notifies⟩,
    ⟨nofun, fun _ _ => ⟨nofun, nofun, nofun⟩⟩, by decide +kernel⟩

/-- The handover record `underWay` is sound as to the duty crews, and an abort there tells of itself, behind the coverage that the
event re-derives. -/
theorem hyp_ReasonsAreTold : (handing underWay waiting).DutiesSound ∧
    (handing underWay waiting).pending = [.clockSecond] ∧ OnlyNotifies (.abortArea 7 [0]) ∧
    tellsOf (.abortArea 7 [0]) (handing underWay waiting) [.areaCovered 0, .handoverAborted 0 .hostAbort 1] :=
  ⟨⟨nofun, fun _ => by decide +kernel, by decide +kernel, fun a p k e => (by
    rw [(handing_areas _ a).2] at e; split at e <;> cases e),
    fun a _ => (by decide +kernel : ∀ a, ((handing underWay waiting).area a).duty
      = (handing underWay waiting).mill.duty) a⟩, rfl, ⟨nofun, fun _ _ => ⟨nofun, nofun, nofun⟩⟩, by decide +kernel⟩

theorem stepping_trips : stepping.TripsSound :=
  sound_of _ (by decide +kernel) (by decide +kernel) rfl rfl fun e _ _ _ h => by
    rw [show stepping.tripEntry e = _ from manned_entries e] at h; cases h

theorem hyp_ConditionStepsComplete : stepping.ConfigSound ∧ stepping.TripsSound ∧ stepping.PoolSound ∧ stepping.SeatsSound ∧
    stepping.DutiesSound ∧ stepping.StepsSound ∧
    (∃ t, step stepping = .next t) ∧ (∀ c rest, stepping.pending ≠ .presenceDeadline c :: rest) ∧
    stepping.SeatStepsSound := by
  have hl : stepping.listed = [] := by decide +kernel
  have hp (a p) (e : (stepping.area a).handover.position? = some p) : p = ⟨0, 1⟩ := by
    rw [(stepping_areas a).1] at e
    split at e <;> cases e
    rfl
  have hr (a p x y) (e : (stepping.area a).handover = .running p x y) : p = ⟨0, 1⟩ := hp a p (by rw [e]; rfl)
  have h0 : stepping.listEnds 0 := ⟨0, by decide, rfl⟩
  refine ⟨nofun, stepping_trips, ⟨by rw [hl]; rfl, by rw [hl]; exact List.nodup_nil, fun i => ?_⟩,
    ⟨watched_seats.once, watched_seats.console, watched_seats.operator, watched_seats.configured, watched_seats.deadline⟩,
    stepping_duties, ⟨fun _ a h => ?_, fun a p _ e => hp a p e ▸ h0, fun a p x y e _ => ?_⟩,
    ⟨_, rfl⟩, nofun, fun a p x y e k => ?_⟩
  · rw [hl, show stepping.item i = none from Vector.getElem_replicate ..]; simp
  · rw [(stepping_areas a).2, manned_areas] at h ⊢
    by_cases e : a = 0
    · rw [if_pos e]; exact h0
    · rw [if_neg e] at h; cases h
  · rw [hr a p x y e]; exact id
  · rw [hr a p x y e] at k; cases k

/-! ### The clock, the settings and the operating state: hypotheses met -/

theorem hyp_ClockMovesDeadlines : ∀ n ∈ [0, 4294967295], n < 4294967296 ∧ took manned 0x02 (be32 n) fun _ => true := by
  decide +kernel

theorem hyp_SettingsAreStored :
    (∀ v ∈ [0, 65535], v ≤ 65535 ∧ took ready 0x05 (7 :: be16 v) fun u => u.mode == .config) ∧
    took ready 0x06 [255, 255, 4] fun u => u.mode == .config := by decide +kernel

/-- `ready` with the step list of area 0 going round in a circle. -/
def circling : State := { ready with steps := State.reset.steps }

/-- `ready` with console 0 its own fallback. -/
def leaning : State := withConsole (fun r => { r with config := { r.config with fallback := some 0 } }) ready

/-- `ready` with a standing order for an unconfigured area. -/
def misordered : State := { ready with orders := ready.orders.set 5 { Order.reset with defined := true, area := 31 } }

theorem hyp_StartValidatesAndEntersRun :
    (took ready 0x03 [] fun u => u.mode == .config && u.offender == none) ∧
    (took circling 0x03 [] fun u => u.mode == .config && !u.areaValid 0 && (u.area 0).config.configured) ∧
    (took leaning 0x03 [] fun u => u.badArea == none && !u.consoleValid 0 && (u.console 0).config.configured) ∧
    (took misordered 0x03 [] fun u => u.badArea == none && u.badConsole == none && u.orders[5].defined
      && !(u.area 31).config.configured) := by decide +kernel

theorem hyp_ResetsRestoreState : took manned 0x04 [] fun _ => true := by decide +kernel

theorem hyp_FetchTakesOldestNotices : ∀ n : Byte, took manned 0x07 [n] fun _ => true := by
  intro n; rfl

/-! ### One step of each family: what the spec's rules give -/

/-- R182: LIST_STANDING of one NEW point of priority 2, complete. -/
theorem test_list_standing : gives (exec (.listStanding 7 [0xFF, 0, 0]) ringing) fun t =>
    lastReply t == [0, 1, 0, 0, 2, 1, 1, 0, 0xFF, 0xFF] := by decide +kernel

/-- R182: LIST_SHELVES of one MINUTES record of area 0. -/
theorem test_list_shelves : gives (exec (.listShelves 7 [0, 0]) shelved) fun t =>
    lastReply t == [0, 1, 1, 1, 0, 0, 0, 0, 0, 1, 0, 0, 0, 0, 0, 0, 0, 0, 0, 0, 0xFF] := by decide +kernel

/-- R182: READ_SHEET of a draft of one NOTE, locked by console 0. -/
theorem test_read_sheet : gives (exec (.readSheet 7 [0, 0, 0]) drafted) fun t =>
    lastReply t == [0, 1, 0, 0, 3, 255, 1, 0, 0, 0xFF, 0, 1, 0, 0, 0, 0, 0, 0, 0, 0, 7, 0, 0, 0, 0, 1, 0, 1, 0, 0, 0, 0,
      0, 0, 0, 0, 0, 0, 0, 0xFF] := by decide +kernel

/-- R108 case 6: with no code RUNNING, the pending code's slot is emptied and its run starts. -/
theorem test_pending_code_runs :
    let t := (listing (.wait 600 true true) ((tripped (.holding none)).modTrip fun x => { x with pending := some 1 })).takePending
    t.trip.pending = none ∧ (t.code 1).state = .running 0 (some ⟨600, 1⟩)
    ∧ (t.queue.records.map (·.kind)) = [.tripTaken 1, .tripStep 1 0] := by decide +kernel

/-- R155: CANCEL_HANDOVER keeps the duty crews. -/
theorem test_cancel_handover : gives (exec (.cancelHandover 7 []) (handing underWay manned)) fun t =>
    t.mill == { shift := 0, duty := .A, incoming := none, outstanding := 0 } && (t.area 0).handover == .steady
    && (t.area 0).duty == .A := by decide +kernel

/-- R5: a raise of a normal point makes it NEW with number 1 at the banner, and the meter counts 256. -/
theorem test_raise : gives (exec (.raise 7 [0, 0]) manned) fun t =>
    (t.point 0).ann == .new && (t.point 0).raiseSeq == some 1 && (t.console 0).head == some 0
    && (t.console 0).horn == .cadence .p2 && (t.area 0).meter == 256 && lastReply t == [0] := by decide +kernel

/-- R8: a second raise is answered ALREADY. -/
theorem test_raise_again : gives (exec (.raise 7 [0, 0]) ringing) fun t => lastReply t == [1] := by decide +kernel

/-- R9: a NEW point that clears is FADED. -/
theorem test_clear : gives (exec (.clear 7 [0, 0]) ringing) fun t => (t.point 0).ann == .faded && lastReply t == [0] := by
  decide +kernel

/-- R72: the reply to ACK carries the point and ACKED. -/
theorem test_ack : gives (exec (.ack 7 [0, 0, 0]) ringing) fun t =>
    (t.point 0).ann == .acked && lastReply t == [0, 0, 0, 2] := by decide +kernel

/-- R73: a head that is not the expected point is HEAD_MOVED. -/
theorem test_ack_head_moved : gives (exec (.ackHead 7 [0, 0, 1]) ringing) fun t => lastReply t == [0x35] := by
  decide +kernel

/-- R74: a priority-2 point is acknowledged at limit 2 and not at limit 3. -/
theorem test_ack_area : (gives (exec (.ackArea 7 [0, 0, 2]) ringing) fun t => lastReply t == [0, 0, 1]) ∧
    gives (exec (.ackArea 7 [0, 0, 3]) ringing) fun t => lastReply t == [0, 0, 0] && (t.point 0).ann == .new := by
  decide +kernel

/-- R59: a silence sets both marks and the horn goes off. -/
theorem test_silence : gives (exec (.silence 7 [0, 0]) { ringing with raiseCounter := 1 }) fun t =>
    (t.console 0).generalMark == 1 && (t.console 0).p1Mark == 1 && (t.console 0).horn == .off
    && (t.queue.records.map (·.kind)) == [.silenced 0 .request] := by decide +kernel

/-- R81: 720 minutes from mill time 0 end at 43200. -/
theorem test_shelve : gives (exec (.shelve 7 [0, 0, 0, 0, 2, 208]) ringing) fun t =>
    (t.point 0).shelved && (t.point 0).ann == .normal && (t.area 0).shelvedCount == 1
    && lastReply t == [0, 0, 0, 0xA8, 0xC0] := by decide +kernel

/-- R84 and R15: an active point whose shelf expires comes back NEW. -/
theorem test_shelf_expired : gives (exec (.shelfExpired 0) shelved) fun t =>
    (t.point 0).ann == .new && t.shelves == [] && (t.area 0).shelvedCount == 0 := by decide +kernel

/-- R17: TAKE_OUT hides the point; R19: RETURN of one that is in service is ALREADY. -/
theorem test_take_out_and_return : (gives (exec (.takeOut 7 [0, 0, 0]) manned) fun t => (t.point 0).outOfService) ∧
    gives (exec (.returnPoint 7 [0, 0, 0]) manned) fun t => lastReply t == [1] := by decide +kernel

/-- R31: an operator signed on elsewhere is SEATED_ELSEWHERE; R34: SIGN_OFF vacates the console. -/
theorem test_sign_on_and_off :
    (gives (exec (.signOn 7 [1, 0, 1]) { manned with consoles := manned.consoles.set 1 desk }) fun t =>
      lastReply t == [0x26]) ∧
    gives (exec (.signOff 7 [0xFF, 0]) manned) fun t => (t.console 0).seat == .vacant && t.operator? 1 == some
      { boss with seat := none } := by decide +kernel

/-- R101: a code that stands for the qualify time is delivered, and an unconfigured one is dropped (R108). -/
theorem test_trip_dropped : gives (exec .tripQualifyTimerExpiry (delivering manned)) fun t =>
    (t.queue.records.map (·.kind)) == [.tripDropped 0 .undefined] && t.trip.qualifier == .settling false := by
  decide +kernel

/-- R114: an EMPTY first entry is a fault that sets the latch. -/
theorem test_trip_fault : gives (exec .tripQualifyTimerExpiry (delivering (tripped .idle))) fun t =>
    t.trip.latch && (t.queue.records.map (·.kind)) == [.tripTaken 0, .tripFault 0 0] && t.queue.attention := by
  decide +kernel

/-- R111: a WAIT of 600 s leaves the code RUNNING until then. -/
theorem test_trip_waits : gives
    (exec .tripQualifyTimerExpiry (listing (.wait 600 true true) (delivering (tripped .idle)))) fun t =>
      (t.code 0).state == .running 0 (some ⟨600, 1⟩) := by decide +kernel

/-- R117: the point that a release leaves unhidden and active is NEW and marked. -/
theorem test_release :
    let x := (withPoint (fun p => { p with condition := .active, suppression := [0] }) manned).unsuppress 0 0
    (x.1.point 0).postTrip ∧ (x.1.point 0).ann = .new ∧ x.2 := by decide +kernel

/-- R126: a second item takes position 1 and the lowest free slot. -/
theorem test_add_item : gives (exec (.addItem 7 [0, 0, 1, 0, 0, 0, 0]) drafted) fun t =>
    (t.area 0).draft.items == [0, 1] && t.freeCount == 1022 && lastReply t == [0, 1, 0, 1] := by decide +kernel

/-- R128 and R132: a POST whose conditions hold is exchanged within the event. -/
theorem test_post : gives (exec (.post 7 [0, 0]) drafted) fun t =>
    (t.area 0).posted.items == [0] && (t.area 0).draft.items == [] && (t.area 0).draftFrame == 1
    && (t.queue.records.map (·.kind)) == [.sheetPosted 0] && lastReply t == [0, 0] := by decide +kernel

/-- R135: a crew does not review its own sheet. -/
theorem test_review_same_crew : gives (exec (.reviewItem 7 [0, 0, 0]) (staffed (fun o => { o with crew := .B })
    (handing (.running ⟨0, 1⟩ none none) (posted manned)))) fun t => lastReply t == [0x36] := by decide +kernel

/-- R143 and R144: the first step waits for a confirmation, with no timer. -/
theorem test_begin_handover : gives (exec (.beginHandover 7 [1]) manned) fun t =>
    (t.area 0).handover == .running ⟨0, 1⟩ none none && t.mill.isOpen && lastReply t == [0, 1] := by decide +kernel

/-- R146 and R154: the confirmation of the only area's LAST step changes the shift. -/
theorem test_confirm_changes_shift : gives (exec (.confirmStep 7 [0, 0]) (handing underWay manned)) fun t =>
    t.mill == { shift := 1, duty := .B, incoming := none, outstanding := 0 } && (t.area 0).handover == .steady
    && lastReply t == [0, 1, 0] := by decide +kernel

/-- R151: a step timeout halts the area with its abort record. -/
theorem test_step_timeout : gives (exec (.stepTimeout 0) (handing underWay manned)) fun t =>
    (t.area 0).handover == .halted ⟨0, 1⟩ && (t.area 0).abort == some ⟨.stepTimeout, 1, 0, false⟩ := by decide +kernel

/-- R94: the meter falls by 1 from 1 to 0. -/
theorem test_decay : gives (exec (.decayStep 0) (withArea (fun r => { r with meter := 1 }) manned)) fun t =>
    (t.area 0).meter == 0 := by decide +kernel

/-- R176: a list without LAST names the area. -/
theorem test_start_refused : gives (exec (.start 7 []) circling) fun t => t.mode == .config && lastReply t == [0x14, 0, 0] := by
  decide +kernel

/-- R69: a key that is closed when the part enters RUN begins a press. -/
theorem test_start_with_key_closed : gives
    (exec (.start 7 []) (withConsole (fun r => { r with ackKey := ⟨true, .idle⟩ }) ready)) fun t =>
      t.mode == .run && (t.console 0).ackKey.state == .pressing := by decide +kernel

/-- R175: SET_CLOCK moves a deadline with the clock and replies the count replaced. -/
theorem test_set_clock : gives
    (exec (.setClock 7 [0, 0, 4, 0]) { shelved with clock := ⟨10, 10⟩, shelves := shelved.shelves.map fun r =>
      { r with ending := .minutes ⟨70, 0⟩ } }) fun t =>
      (t.shelves.map (·.ending)) == [.minutes ⟨1084, 11⟩] && lastReply t == [0, 0, 0, 0, 10] := by decide +kernel

/-- R174: a key qualify time of 10 ms is stored as 20 with the clamped flag. -/
theorem test_set_timing : gives (exec (.setTiming 7 [3, 0, 10]) ready) fun t =>
    t.settings.keyQualify == 20 && lastReply t == [0, 1] := by decide +kernel

/-- R169: a fetch from an empty queue returns no notices. -/
theorem test_fetch_empty : gives (exec (.fetchNotices 7 [8]) manned) fun t => lastReply t == [0, 0, 0, 0] := by
  decide +kernel

/-- R164: an unknown kind is answered BAD_KIND with its top bit set. -/
theorem test_bad_kind : gives (exec (.badKind 0x67 7 []) manned) fun t =>
    t.link.sent == [{ kind := 0xE7, tag := 7, payload := [0x10] }] := by decide +kernel

/-- R66: a key held for 10 s is stuck, with an urgent notice. -/
theorem test_key_stuck : gives (exec (.stuckTimerExpiry 0 .ack) (keyed .held)) fun t =>
    (t.console 0).ackKey.state == .stuck false && t.queue.attention := by decide +kernel

/-- R37: a request at an ABSENT console revives it before it is handled. -/
theorem test_revival : gives (exec (.unlockDraft 7 [0, 0]) (withConsole (fun r => { r with seat := .absent 1 }) manned))
    fun t => (t.console 0).seat.isSeated && (t.queue.records.map (·.kind)) == [.consolePresent 0, .areaCovered 0]
      && lastReply t == [1] := by decide +kernel

end Sys2Proof.Tests
end

/-!
What the end of an event does to the points and the shelf records: nothing, but for the shelves that count down and end at a
shift change (R85, R154). `State.Expires` says it once, for every operation that the end of an event is made of.
-/

namespace Sys2Proof.Machine

variable {s t u : State}

/-! ### Changes that leave points and shelves -/

/-- The points, the shelf records, the areas' shelved counts and the raise sequence counter stand. -/
structure State.SameShelves (s t : State) : Prop where
  points  : t.points = s.points
  shelves : t.shelves = s.shelves
  counter : t.raiseCounter = s.raiseCounter
  count   : ∀ a, (t.area a).shelvedCount = (s.area a).shelvedCount

theorem State.SameShelves.refl (s : State) : s.SameShelves s := ⟨rfl, rfl, rfl, fun _ => rfl⟩

theorem State.SameShelves.trans (h : s.SameShelves t) (k : t.SameShelves u) : s.SameShelves u :=
  ⟨k.points.trans h.points, k.shelves.trans h.shelves, k.counter.trans h.counter, fun a => (k.count a).trans (h.count a)⟩

theorem State.SameShelves.point (h : s.SameShelves t) (n : PointNo) : t.point n = s.point n := by
  simp only [State.point, h.points]

theorem State.SameShelves.ofAreas (hp : t.points = s.points) (hs : t.shelves = s.shelves)
    (hc : t.raiseCounter = s.raiseCounter) (ha : t.areas = s.areas) : s.SameShelves t :=
  ⟨hp, hs, hc, fun a => by simp only [State.area, ha]⟩

theorem State.SameShelves.modArea (a : AreaNo) (f : Area → Area) (s : State)
    (h : ∀ r : Area, (f r).shelvedCount = r.shelvedCount) : s.SameShelves (s.modArea a f) :=
  ⟨rfl, rfl, rfl, fun b => by rw [State.area_modArea]; split <;> simp_all⟩

theorem State.SameShelves.foldl {α : Type} {f : State → α → State} (h : ∀ (s : State) x, s.SameShelves (f s x))
    (l : List α) (s : State) : s.SameShelves (l.foldl f s) := by
  induction l generalizing s with
  | nil => exact .refl s
  | cons x l ih => exact (h s x).trans (ih _)

theorem State.notify_sameShelves (k : NoticeKind) (s : State) : s.SameShelves (s.notify k) := by
  rw [State.notify_eq]; exact .ofAreas rfl rfl rfl rfl

theorem State.notifyAll_sameShelves (ks : List NoticeKind) (s : State) : s.SameShelves (s.notifyAll ks) :=
  .foldl (fun s k => s.notify_sameShelves k) ks s

theorem State.annunciate_sameShelves (s : State) : s.SameShelves s.annunciate := by
  obtain ⟨consoles, room, queue, h⟩ := s.annunciate_rest
  rw [h]; exact .ofAreas rfl rfl rfl rfl

theorem State.rederiveCoverage_sameShelves (s : State) : s.SameShelves s.rederiveCoverage := by
  obtain ⟨queue, h⟩ := s.rederiveCoverage_rest
  rw [h]
  exact ⟨rfl, rfl, rfl, fun a => by rw [← congrArg Area.shelvedCount (s.area_setCoverage a)]; rfl⟩

theorem State.driveOutputs_sameShelves (s : State) : s.SameShelves s.driveOutputs := .ofAreas rfl rfl rfl rfl

/-! ### The handover unit's work -/

theorem Work.setHandover_sameShelves (a : AreaNo) (h : Handover) (w : Work) : w.s.SameShelves (w.setHandover a h).s :=
  State.SameShelves.modArea a (fun r => { r with handover := h }) w.s fun _ => rfl

theorem Work.completeArea_sameShelves (a : AreaNo) (p : Position) (w : Work) : w.s.SameShelves (w.completeArea a p).s :=
  by
  have h : ∀ r : Area, ({ r with
      handover := .done p, duty := w.s.mill.incoming.getD w.s.mill.duty, draft := { r.draft with lock := none } } :
      Area).shelvedCount = r.shelvedCount := fun _ => rfl
  exact .trans (.modArea a _ w.s h) (.ofAreas rfl rfl rfl rfl)

theorem Work.advance_sameShelves (n : Nat) (a : AreaNo) (w : Work) : w.s.SameShelves (Work.advance n a w).s := by
  induction n generalizing w with
  | zero => exact .refl _
  | succ n ih =>
    unfold Work.advance
    split
    · rename_i p step hold hh
      have hs : (if (w.s.stepEntry p.index).notify then w.say (.stepDone a p.ordinal) else w).s = w.s := by
        split <;> rfl
      dsimp only
      generalize (if (w.s.stepEntry p.index).notify then w.say (.stepDone a p.ordinal) else w) = w' at hs ⊢
      rw [← hs]
      split
      · exact w'.completeArea_sameShelves a p
      · split
        · exact (w'.setHandover_sameShelves a _).trans (ih _)
        · exact w'.setHandover_sameShelves a _
    all_goals exact .refl _

theorem Work.examine_sameShelves (a : AreaNo) (f : StepKind → Bool) (w : Work) : w.s.SameShelves (w.examine a f).s := by
  unfold Work.examine
  split
  · dsimp only
    split
    · exact w.advance_sameShelves _ a
    · exact .refl _
  all_goals exact .refl _

theorem Work.begin_sameShelves (a : AreaNo) (w : Work) : w.s.SameShelves (w.begin a).s := by
  unfold Work.begin
  dsimp only
  split
  · refine .trans ?_ (Work.examine_sameShelves a _ _)
    exact w.setHandover_sameShelves a _
  · exact w.setHandover_sameShelves a _

theorem Work.setReasons_sameShelves (a : AreaNo) (r : Reasons) (w : Work) : w.s.SameShelves (w.setReasons a r).s := by
  unfold Work.setReasons
  split
  · split
    · exact .refl _
    · exact w.setHandover_sameShelves a _
  · split
    · refine .trans ?_ (Work.examine_sameShelves a _ _)
      exact w.setHandover_sameShelves a _
    · dsimp only
      exact .modArea a _ w.s fun _ => by rfl
  all_goals exact .refl _

theorem Work.reconsider_sameShelves (a : AreaNo) (f : StepKind → Bool) (w : Work) :
    w.s.SameShelves (w.reconsider a f).s := by
  unfold Work.reconsider
  split
  · exact (w.setReasons_sameShelves a _).trans (Work.examine_sameShelves a _ _)
  · exact .refl _

theorem Work.pointChanged_sameShelves (p : Point) (w : Work) : w.s.SameShelves (w.pointChanged p).s := by
  unfold Work.pointChanged
  split
  · exact w.reconsider_sameShelves _ _
  · exact .refl _

theorem Work.halt_sameShelves (a : AreaNo) (why : AbortReason) (w : Work) : w.s.SameShelves (w.halt a why).s := by
  have halted (p : Position) (x : Abort) :
      w.s.SameShelves ((w.setHandover a (.halted p)).s.modArea a fun r => { r with abort := some x }) :=
    (w.setHandover_sameShelves a _).trans (.modArea a _ _ fun _ => rfl)
  unfold Work.halt
  split
  case h_1 | h_2 => exact halted _ _
  all_goals exact .refl _

/-- Work over a list of areas, each leaving the points and the shelves. -/
theorem Work.foldl_sameShelves {g : Work → AreaNo → Work} (h : ∀ (w : Work) a, w.s.SameShelves (g w a).s) (l : List AreaNo)
    (w : Work) : w.s.SameShelves (l.foldl g w).s := by
  induction l generalizing w with
  | nil => exact .refl _
  | cons a l ih => exact (h w a).trans (ih _)

theorem Work.tripsChanged_sameShelves (w : Work) : w.s.SameShelves w.tripsChanged.s :=
  Work.foldl_sameShelves (fun w a => w.reconsider_sameShelves a _) _ w

theorem Work.seatsChanged_sameShelves (f : AreaNo → Bool) (w : Work) : w.s.SameShelves (w.seatsChanged f).s :=
  Work.foldl_sameShelves (fun w a => by split; exacts [w.examine_sameShelves a _, .refl _]) _ w

/-! ### The sheets -/

theorem State.capture_sameShelves (a : AreaNo) (k : ItemKind) (s : State) : s.SameShelves (s.capture a k) := by
  unfold State.capture
  split
  · exact State.SameShelves.trans (t := s.placeItem _ _) (.ofAreas rfl rfl rfl rfl) (.modArea a _ _ fun _ => by rfl)
  · exact .refl s

theorem State.swapSheets_sameShelves (a : AreaNo) (s : State) : s.SameShelves (s.swapSheets a) := by
  unfold State.swapSheets
  dsimp only
  refine .trans ?_ (.modArea a _ _ fun _ => by rfl)
  refine .trans ?_ (.foldl (fun s k => s.capture_sameShelves a k) _ _)
  refine .trans ?_ (.foldl (f := fun s i => s.modItem i _) (fun _ _ => .ofAreas rfl rfl rfl rfl) _ _)
  refine .trans ?_ (.foldl (f := fun s i => s.freeSlot i) (fun _ _ => .ofAreas rfl rfl rfl rfl) _ _)
  exact .modArea a _ s fun _ => by rfl

theorem State.reportShort_sameShelves (a : AreaNo) (s : State) : s.SameShelves (s.reportShort a) := by
  unfold State.reportShort
  split
  · exact .refl s
  · exact State.SameShelves.trans (.modArea a _ s fun _ => by rfl) (State.notify_sameShelves _ _)

/-! ### Shelves that count down and end -/

/-- From `s` to `t` the points and the shelf records stand, but for records that count down (R85) and records that end
(R83). A record that ends stands in the list, where no two records of `s` are of one point. -/
inductive State.Expires (s : State) : State → Prop
  | refl : Expires s s
  | same {t u : State} (h : Expires s t) (k : t.SameShelves u) : Expires s u
  | counts {t : State} (h : Expires s t) : Expires s { t with shelves := t.shelves.map Shelf.countDown }
  | ends {t : State} (h : Expires s t) (r : Shelf) (hr : (s.shelves.map (·.point)).Nodup → r ∈ t.shelves) :
      Expires s (t.endShelf r)

theorem State.SameShelves.expires (h : s.SameShelves t) : s.Expires t := .same .refl h

theorem map_point_countDown (l : List Shelf) : (l.map Shelf.countDown).map (·.point) = l.map (·.point) := by
  rw [List.map_map]
  exact List.map_congr_left fun r _ => r.countDown_point

/-- The points of the records that are left had records before. -/
theorem State.Expires.sublist (h : s.Expires t) : (t.shelves.map (·.point)).Sublist (s.shelves.map (·.point)) := by
  induction h with
  | refl => exact .refl _
  | same _ k ih => rwa [k.shelves]
  | counts _ ih => rwa [map_point_countDown]
  | ends _ r _ ih => rw [State.shelves_endShelf]; exact (List.filter_sublist.map _).trans ih

theorem State.Expires.trans (h : s.Expires t) (k : t.Expires u) : s.Expires u := by
  induction k with
  | refl => exact h
  | same _ k ih => exact .same ih k
  | counts _ ih => exact .counts ih
  | ends _ r hr ih => exact .ends ih r fun hs => hr (h.sublist.nodup hs)

/-- The spent records expire one after another (R85), each behind those before it in the list `l`. -/
theorem State.Expires.expireAll (l : List Shelf) (h : s.Expires t)
    (hl : (s.shelves.map (·.point)).Nodup → l.Nodup ∧ ∀ r ∈ l, r ∈ t.shelves) :
    s.Expires (l.foldl (fun s r => s.expireShelf r) t) := by
  induction l generalizing t with
  | nil => exact h
  | cons r l ih =>
    rw [List.foldl_cons]
    refine ih ?_ fun hs => ?_
    · exact .same (h.ends r fun hs => (hl hs).2 r List.mem_cons_self)
        ((State.notify_sameShelves _ _).trans (State.annunciate_sameShelves _))
    · obtain ⟨hd, hm⟩ := hl hs
      obtain ⟨hr, hd⟩ := List.nodup_cons.mp hd
      refine ⟨hd, fun q hq => ?_⟩
      rw [State.expireShelf_shelves, List.mem_filter]
      exact ⟨hm q (List.mem_cons_of_mem r hq), by simpa using fun e : q = r => hr (e ▸ hq)⟩

theorem State.countShelves_expires (s : State) : s.Expires s.countShelves :=
  State.Expires.expireAll _ (.counts .refl) fun hs =>
    ⟨(List.Nodup.of_map (·.point) (by rwa [map_point_countDown])).filter _, fun _ hr => (List.mem_filter.mp hr).1⟩

theorem State.changeCrews_sameShelves (k : Crew) (s : State) : s.SameShelves (s.changeCrews k) :=
  ⟨rfl, rfl, rfl, fun a => by simp [State.area, State.changeCrews]⟩

theorem State.shiftChange_expires (s : State) : s.Expires s.shiftChange :=
  .same ((s.changeCrews_sameShelves _).expires.trans (State.countShelves_expires _))
    (((State.notify_sameShelves _ _).trans (State.rederiveCoverage_sameShelves _)).trans (State.driveOutputs_sameShelves _))

/-! ### The end of an event -/

theorem Work.settle_expires (w : Work) : w.s.Expires w.settle := by
  unfold Work.settle
  dsimp only
  have h : w.s.SameShelves (if w.cover then w.s.rederiveCoverage else w.s) := by
    split
    · exact w.s.rederiveCoverage_sameShelves
    · exact .refl _
  have h' := ((h.trans (State.annunciate_sameShelves _)).trans (State.notifyAll_sameShelves w.out _)).expires
  split
  · exact h'.trans (State.shiftChange_expires _)
  · exact h'

theorem State.exchange_expires (a : AreaNo) (s : State) : s.Expires (s.exchange a) := by
  unfold State.exchange
  dsimp only
  refine .trans ?_ (Work.settle_expires _)
  refine State.SameShelves.expires (.trans ?_ (Work.examine_sameShelves a _ _))
  exact (s.swapSheets_sameShelves a).trans (State.notify_sameShelves (.sheetPosted a) _)

theorem State.examineSheet_expires (a : AreaNo) (s : State) : s.Expires (s.examineSheet a).1 := by
  unfold State.examineSheet
  split
  · split
    · exact s.exchange_expires a
    · exact (s.reportShort_sameShelves a).expires
  · exact .refl

theorem State.passOnce_expires (s : State) : s.Expires s.passOnce.1 := by
  have pass (l : List AreaNo) (x : State × Bool) : x.1.Expires
      (l.foldl (fun x a => let y := x.1.examineSheet a; (y.1, x.2 || y.2)) x).1 := by
    induction l generalizing x with
    | nil => exact .refl
    | cons a l ih =>
      rw [List.foldl_cons]
      refine .trans ?_ (ih _)
      exact x.1.examineSheet_expires a
  exact pass allAreas (s, false)

theorem State.passes_expires (n : Nat) (s : State) : s.Expires (s.passes n) := by
  induction n generalizing s with
  | zero => exact .refl
  | succ n ih =>
    unfold State.passes
    dsimp only
    split
    · exact s.passOnce_expires.trans (ih _)
    · exact s.passOnce_expires

/-- Of points and shelf records, the end of an event only lets shelves count down and end. -/
theorem Work.finish_expires (w : Work) (after : List NoticeKind) : w.s.Expires (w.finish after) := by
  unfold Work.finish
  dsimp only
  have h := State.Expires.same w.settle_expires (State.notifyAll_sameShelves after _)
  split
  · exact h.trans (State.passes_expires 33 _)
  · exact h

end Sys2Proof.Machine

/-!
What a command can do to the operating state, the trip unit, the points and the shelf records. `State.Owns` lists the changes
that the owning blocks make, one by one, `State.Leaves` says what everything else in an event may do to them, and
`State.Moves` is any number of both. Every command but HARD_RESET, RESTART, START, LOAD_POINTS and SET_POINT moves the part
so, and the invariants need only be proved of one owner's change at a time.
-/

namespace Sys2Proof.Machine

variable {s t u : State}

/-! ### What leaves the points but for shelves that end -/

/-- The operating state and the trip unit stand, and of points and shelf records all but what expires. -/
structure State.Leaves (s t : State) : Prop where
  mode    : t.mode = s.mode
  trip    : t.trip = s.trip
  expires : s.Expires t

theorem State.Leaves.refl (s : State) : s.Leaves s := ⟨rfl, rfl, .refl⟩

theorem State.Leaves.trans (h : s.Leaves t) (k : t.Leaves u) : s.Leaves u :=
  ⟨k.mode.trans h.mode, k.trip.trans h.trip, h.expires.trans k.expires⟩

theorem State.SameShelves.leaves (h : s.SameShelves t) (hm : t.mode = s.mode) (ht : t.trip = s.trip) : s.Leaves t :=
  ⟨hm, ht, h.expires⟩

theorem State.Leaves.ofAreas (hm : t.mode = s.mode) (ht : t.trip = s.trip) (hp : t.points = s.points)
    (hs : t.shelves = s.shelves) (hc : t.raiseCounter = s.raiseCounter) (ha : t.areas = s.areas) : s.Leaves t :=
  (State.SameShelves.ofAreas hp hs hc ha).leaves hm ht

theorem State.Leaves.modArea (a : AreaNo) (f : Area → Area) (s : State)
    (h : ∀ r : Area, (f r).shelvedCount = r.shelvedCount) : s.Leaves (s.modArea a f) :=
  (State.SameShelves.modArea a f s h).leaves rfl rfl

theorem State.notify_leaves (k : NoticeKind) (s : State) : s.Leaves (s.notify k) :=
  (s.notify_sameShelves k).leaves (State.notify_frames k s).mode (State.notify_frames k s).trip

theorem State.driveOutputs_leaves (s : State) : s.Leaves s.driveOutputs := .ofAreas rfl rfl rfl rfl rfl rfl

theorem State.modConsole_leaves (c : ConsoleNo) (f : Console → Console) (s : State) : s.Leaves (s.modConsole c f) :=
  .ofAreas rfl rfl rfl rfl rfl rfl

theorem State.send_leaves (f : Frame) (s : State) : s.Leaves (s.send f) := .ofAreas rfl rfl rfl rfl rfl rfl

theorem State.link_leaves (l : Link) (s : State) : s.Leaves { s with link := l } := .ofAreas rfl rfl rfl rfl rfl rfl

theorem State.take_leaves {f : Frame} (h : s.take f = some u) : s.Leaves u := State.take_eq h ▸ s.link_leaves _

theorem Work.finish_leaves (w : Work) (after : List NoticeKind) : w.s.Leaves (w.finish after) :=
  ⟨(w.finish_frames after).mode, (w.finish_frames after).trip, w.finish_expires after⟩

theorem Work.examine_leaves (a : AreaNo) (f : StepKind → Bool) (w : Work) : w.s.Leaves (w.examine a f).s :=
  (w.examine_sameShelves a f).leaves (w.examine_frames a f).mode (w.examine_frames a f).trip

theorem Work.seatsChanged_leaves (f : AreaNo → Bool) (w : Work) : w.s.Leaves (w.seatsChanged f).s :=
  (w.seatsChanged_sameShelves f).leaves (w.seatsChanged_frames f).mode (w.seatsChanged_frames f).trip

theorem Work.tripsChanged_leaves (w : Work) : w.s.Leaves w.tripsChanged.s :=
  w.tripsChanged_sameShelves.leaves w.tripsChanged_frames.mode w.tripsChanged_frames.trip

theorem Work.reconsider_leaves (a : AreaNo) (f : StepKind → Bool) (w : Work) : w.s.Leaves (w.reconsider a f).s :=
  (w.reconsider_sameShelves a f).leaves (w.reconsider_frames a f).mode (w.reconsider_frames a f).trip

theorem Work.pointChanged_leaves (p : Point) (w : Work) : w.s.Leaves (w.pointChanged p).s :=
  (w.pointChanged_sameShelves p).leaves (w.pointChanged_frames p).mode (w.pointChanged_frames p).trip

theorem Work.setReasons_leaves (a : AreaNo) (r : Reasons) (w : Work) : w.s.Leaves (w.setReasons a r).s :=
  (w.setReasons_sameShelves a r).leaves (w.setReasons_frames a r).mode (w.setReasons_frames a r).trip

theorem Work.completeStep_leaves (a : AreaNo) (w : Work) : w.s.Leaves (w.completeStep a).s :=
  (w.advance_sameShelves _ a).leaves (w.completeStep_frames a).mode (w.completeStep_frames a).trip

theorem Work.begin_leaves (a : AreaNo) (w : Work) : w.s.Leaves (w.begin a).s :=
  (w.begin_sameShelves a).leaves (w.begin_frames a).mode (w.begin_frames a).trip

theorem Work.halt_leaves (a : AreaNo) (why : AbortReason) (w : Work) : w.s.Leaves (w.halt a why).s := by
  refine (w.halt_sameShelves a why).leaves ?_ ?_ <;> unfold Work.halt <;> split <;> rfl

theorem Work.foldl_begin_leaves (l : List AreaNo) (w : Work) : w.s.Leaves (l.foldl (fun w a => w.begin a) w).s :=
  (Work.foldl_sameShelves (fun w a => w.begin_sameShelves a) l w).leaves
    (Work.foldl_frames _ (fun w a => w.begin_frames a) l w).mode (Work.foldl_frames _ (fun w a => w.begin_frames a) l w).trip

/-- Activity at a console (R35, R37). -/
theorem State.activity_leaves (c : ConsoleNo) (s : State) : s.Leaves (s.activity c) := by
  unfold State.activity
  split
  · exact .refl s
  · exact s.modConsole_leaves c _
  · refine .trans ?_ (Work.finish_leaves _ _)
    refine .trans ?_ (Work.seatsChanged_leaves _ _)
    exact (s.modConsole_leaves c _).trans (State.notify_leaves (.consolePresent c) _)

theorem State.noteActivity_leaves (p : List Byte) (s : State) : s.Leaves (s.noteActivity p) := by
  unfold State.noteActivity
  split
  · exact s.activity_leaves _
  · exact .refl s

/-! ### The owners' changes -/

/-- The record of a point that goes out of service, with its shelf and its suppression removed (R18). -/
def State.outOfServiceAt (n : PointNo) (s : State) : State :=
  ((s.dropShelfOf n).uncountSuppressed (s.point n).suppression).addReason n fun q =>
    { q with shelved := false, suppression := [], outOfService := true }

/-- One change that an owning block makes to the trip unit, the points and the shelf records. -/
inductive State.Owns (s : State) : State → Prop
  /-- SET_CLOCK moves the deadlines (R175). -/
  | clock (n : Nat) : Owns s (s.setClock n)
  /-- A code's configuration is stored (R105). -/
  | tripCode (c : TripNo) (f : TripCode → TripCode)
      (hf : ∀ r, (f r).state = r.state ∧ (f r).suppressed = r.suppressed) : Owns s (s.modCode c f)
  /-- The store, the lines, the qualifier or the latch change, of which the latch is not set (R101, R106, R115). -/
  | tripUnit (f : TripUnit → TripUnit) (hc : (f s.trip).codes = s.trip.codes) (hp : (f s.trip).pending = s.trip.pending)
      (hl : (f s.trip).latch → s.trip.latch)
      (he : ∀ (e : EntryNo) g last notify, (f s.trip).store[e] = .group g last notify →
        s.tripEntry e = .group g last notify ∨ 1 ≤ g.spare) : Owns s (s.modTrip f)
  /-- A hidden point is raised (R6). -/
  | raiseHidden (n : PointNo) (h : (s.point n).hidden) : Owns s (s.setPoint n ((s.point n).raised s.now))
  /-- An unhidden point is raised (R5). -/
  | raise (n : PointNo) (h : (s.point n).hidden = false) : Owns s (s.becomeNew n false ((s.point n).raised s.now))
  /-- A hidden point is cleared (R9). -/
  | clearHidden (n : PointNo) (h : (s.point n).hidden) : Owns s (s.setPoint n { s.point n with condition := .clear })
  /-- An unhidden ACTIVE point is cleared (R9). -/
  | clear (n : PointNo) (h : (s.point n).hidden = false) (ha : (s.point n).condition = .active) :
      Owns s (s.setPoint n (s.point n).cleared)
  /-- A point is acknowledged (R71). -/
  | acknowledge (n : PointNo) (o : Nat) : Owns s (s.acknowledge n o)
  /-- A point is shelved within the bounds (R80 to R82). -/
  | shelve (r : Shelf) (hp : (s.point r.point).priority ≠ .p1) (ho : (s.point r.point).outOfService = false)
      (hs : (s.point r.point).shelved = false) (ha : (s.area r.area).shelvedCount < Config.shelvesPerArea)
      (hl : s.shelves.length < Config.shelfListSize) : Owns s (s.addShelf r)
  /-- A shelf ends (R83, R84). -/
  | unshelve (n : PointNo) (r : Shelf) (h : s.shelfOf? n = some r) : Owns s (s.endShelf r)
  /-- A point is taken out of service (R18). -/
  | takeOut (n : PointNo) : Owns s (s.outOfServiceAt n)
  /-- A point returns to service (R19). -/
  | putBack (n : PointNo) : Owns s (s.removeReason n (fun q => { q with outOfService := false }) false)
  /-- A delivered code waits (R108). -/
  | pend (c r : TripNo) (hr : (s.code r).state.isRunning) (hl : s.trip.latch = false) :
      Owns s (s.modTrip fun x => { x with pending := some c })
  /-- A delivered code starts a run (R109). -/
  | start (c : TripNo) (idle : ∀ d, (s.code d).state.isRunning = false) (hl : s.trip.latch = false) :
      Owns s (s.startedRun c)
  /-- The pending code starts a run (R108, R113, R117). -/
  | startPending (c : TripNo) (hp : s.trip.pending = some c) (idle : ∀ d, (s.code d).state.isRunning = false) :
      Owns s (State.startedRun c { s with trip := { s.trip with pending := none } })
  /-- A member of a GROUP entry of the running code joins (R110). -/
  | suppress (c : TripNo) (n : PointNo) (e : EntryNo) (g : Group) (last notify : Bool) (hr : (s.code c).state.isRunning)
      (he : s.tripEntry e = .group g last notify) (hj : s.memberOutcome c g n = .joins) : Owns s (s.suppress c n)
  /-- The running code comes to a WAIT entry, or leaves it (R111). -/
  | wait (c : TripNo) (e : EntryNo) (d : Option Deadline) (hr : (s.code c).state.isRunning) :
      Owns s (s.modCode c fun r => { r with state := .running e d })
  /-- The running code comes to its LAST entry (R113). -/
  | done (c : TripNo) (d : Option Deadline) (hr : (s.code c).state.isRunning) :
      Owns s (s.modCode c fun r => { r with state := .holding d })
  /-- The running code meets a fault (R114). -/
  | fault (c : TripNo) (e : EntryNo) (hr : (s.code c).state.isRunning) : Owns s (s.faultedAt c e)
  /-- A code leaves a point's suppression set in a release of it (R117 step 2), which takes it out of all of them. -/
  | release (c : TripNo) : Owns s ((s.unsuppressAll c).1.modCode c TripCode.released)

/-- Owners' changes, and what the rest of an event leaves, one after another. -/
inductive State.Moves (s : State) : State → Prop
  | refl : Moves s s
  | leaves {t u : State} (h : Moves s t) (k : t.Leaves u) : Moves s u
  | owns {t u : State} (h : Moves s t) (k : t.Owns u) : Moves s u

theorem State.Leaves.moves (h : s.Leaves t) : s.Moves t := .leaves .refl h

theorem State.Owns.moves (h : s.Owns t) : s.Moves t := .owns .refl h

theorem State.Moves.trans (h : s.Moves t) (k : t.Moves u) : s.Moves u := by
  induction k with
  | refl => exact h
  | leaves _ k ih => exact ih.leaves k
  | owns _ k ih => exact ih.owns k

theorem State.Moves.notify (h : s.Moves t) (k : NoticeKind) : s.Moves (t.notify k) := h.leaves (t.notify_leaves k)

/-- The end of an event whose owner's changes move the part so. -/
theorem State.Moves.finish {w : Work} (h : s.Moves w.s) (after : List NoticeKind) : s.Moves (w.finish after) :=
  h.leaves (w.finish_leaves after)

/-- An invariant that both kinds of change keep is kept by all of them. -/
theorem State.Moves.keeps {P : State → Prop} (leaves : ∀ s t, P s → s.Leaves t → P t) (owns : ∀ s t, P s → s.Owns t → P t)
    (h : s.Moves t) (hs : P s) : P t := by
  induction h with
  | refl => exact hs
  | leaves _ k ih => exact leaves _ _ ih k
  | owns _ k ih => exact owns _ _ ih k

/-! ### Requests -/

/-- A next state that the answer gives satisfies `P`. -/
def Answer.Gives (P : State → Prop) : Answer → Prop
  | .ok (t, _) => P t
  | .error _ => True

theorem Answer.Gives.withOperator {P : State → Prop} {act : Operator → Answer} (h : ∀ o, (act o).Gives P)
    (r : Except Status Operator) : (withOperator r act).Gives P := by
  cases r with
  | error e => trivial
  | ok o => exact h o

theorem checkRequest_gives {α : Type} {P : State → Prop} {parsed : Option α} {m : TakenIn} {act : State → α → Answer}
    (h : ∀ x, parsed = some x → m.refusal s.mode = none → (act s x).Gives P) : (checkRequest parsed m act s).Gives P := by
  unfold checkRequest
  split
  · trivial
  · split
    · trivial
    · exact h _ rfl ‹_›

/-- The reply to a request whose answer moves the part so. -/
theorem State.answer_moves {kind tag : Byte} {r : Answer} (h : r.Gives s.Moves) : s.Moves (s.answer kind tag r) := by
  unfold State.answer
  split
  · exact (s.send_leaves _).moves
  · exact .leaves h (State.send_leaves _ _)

/-- A request with no acting console moves the part as its owner does. -/
theorem hostRequest_moves {α : Type} {kind tag : Byte} {p : List Byte} {parse : List Byte → Option α} {m : TakenIn}
    {act : State → α → Answer} (h : ∀ u x, parse p = some x → (act u x).Gives u.Moves) (s : State) :
    ∃ t, hostRequest kind tag p parse m act s = .next t ∧ s.Moves t := by
  unfold hostRequest
  split
  · exact ⟨s, rfl, .refl⟩
  · exact ⟨_, rfl, (State.take_leaves ‹_›).moves.trans (State.answer_moves (checkRequest_gives fun x hx _ => h _ x hx))⟩

/-- A request with an acting console: its activity, then what its owner does. -/
theorem consoleRequest_moves {α : Type} {kind tag : Byte} {p : List Byte} {parse : List Byte → Option α}
    {act : State → α → Answer} (h : ∀ u x, (act u x).Gives u.Moves) (s : State) :
    ∃ t, consoleRequest kind tag p parse act s = .next t ∧ s.Moves t := by
  unfold consoleRequest
  split
  · exact ⟨s, rfl, .refl⟩
  · exact ⟨_, rfl, ((State.take_leaves ‹_›).trans (State.noteActivity_leaves p _)).moves.trans
      (State.answer_moves (checkRequest_gives fun x _ _ => h _ x))⟩

end Sys2Proof.Machine

/-!
Every command but the five that set the configuration as a whole moves the part (`State.Moves`): one lemma per owner's answer,
and `exec_moves` for all of them.
-/

namespace Sys2Proof.Machine

variable {s t u : State}

/-! ### The trip unit -/

theorem State.GroupChanges.state (h : s.GroupChanges t) (c : TripNo) : (t.code c).state = (s.code c).state := by
  rw [h.code c]

theorem State.GroupChanges.tripEntry (h : s.GroupChanges t) (e : EntryNo) : t.tripEntry e = s.tripEntry e := by
  rw [h.rest]; rfl

/-- The members of a GROUP entry of the running code join one after another (R110). -/
theorem State.runMembers_moves {c : TripNo} {e : EntryNo} {g : Group} {last notify : Bool} (l : List (Fin 32))
    (hr : (s.code c).state.isRunning) (he : s.tripEntry e = .group g last notify) : s.Moves (s.runMembers c g l).1 := by
  induction l generalizing s with
  | nil => exact .refl
  | cons i l ih =>
    unfold State.runMembers
    split
    · split
      · exact .refl
      · rename_i n _
        have hc := s.suppress_changes c n
        split
        · exact .refl
        · rename_i hj
          exact (State.Owns.suppress c n e g last notify hr he hj).moves.trans
            (ih (by rw [hc.state]; exact hr) (by rw [hc.tripEntry]; exact he))
        · exact ih hr he
        · exact ih hr he
    · exact ih hr he

theorem State.runGroup_moves {c : TripNo} {e : EntryNo} {g : Group} {last notify faulty : Bool}
    (hr : (s.code c).state.isRunning) (he : s.tripEntry e = .group g last notify) (h : s.runGroup c g = (t, faulty)) :
    s.Moves t := by
  have := s.runMembers_moves (List.finRange 32) hr he
  rwa [show s.runMembers c g (List.finRange 32) = (t, faulty) from h] at this

theorem State.steppedAt_leaves (c : TripNo) (e : EntryNo) (notify : Bool) (s : State) :
    s.Leaves (s.steppedAt c e notify) := by
  unfold State.steppedAt
  split
  · exact s.notify_leaves _
  · exact .refl s

theorem State.steppedAt_code (c d : TripNo) (e : EntryNo) (notify : Bool) (s : State) :
    (s.steppedAt c e notify).code d = s.code d := by
  simp only [State.code, (s.steppedAt_leaves c e notify).trip]

/-- The processing of a running code's list (R110 to R114). -/
theorem State.RunsTo.moves {c : TripNo} {i : Nat} (h : State.RunsTo c i s t) (hr : (s.code c).state.isRunning) :
    s.Moves t := by
  induction h with
  | beyond s => exact (State.Owns.fault c 511 hr).moves
  | empty e s h => exact (State.Owns.fault c e hr).moves
  | wait e seconds last notify s h =>
    exact (s.steppedAt_leaves c e notify).moves.owns (.wait c e _ (by rw [State.steppedAt_code]; exact hr))
  | fault e g last notify s t h run =>
    exact (State.runGroup_moves hr h run).owns (.fault c e (by rw [(State.runGroup_changes run).state]; exact hr))
  | last e g notify s t h run =>
    refine .notify (.owns ((State.runGroup_moves hr h run).leaves (t.steppedAt_leaves c e notify)) ?_) _
    exact .done c _ (by rw [State.steppedAt_code, (State.runGroup_changes run).state]; exact hr)
  | next e g notify s t u h run more ih =>
    refine ((State.runGroup_moves hr h run).leaves (t.steppedAt_leaves c e notify)).trans (ih ?_)
    rw [State.steppedAt_code, (State.runGroup_changes run).state]; exact hr

theorem State.startedRun_running (c : TripNo) (s : State) : ((s.startedRun c).code c).state.isRunning := by
  have h := congrArg (·.codes[c]) (State.notify_trip (.tripTaken c) (s.modCode c fun r => { r with
    state := .running r.start none, takenAt := some s.now, faulted := false
    suppressed := if r.state = .idle then 0 else r.suppressed }))
  have h' := s.code_modCode c c fun r => { r with
    state := .running r.start none, takenAt := some s.now, faulted := false
    suppressed := if r.state = .idle then 0 else r.suppressed }
  rw [if_pos rfl] at h'
  unfold State.startedRun
  simp only [State.code] at h h' ⊢
  rw [h, h']
  rfl

theorem State.PendingTaken.moves (h : s.PendingTaken t) : s.Moves t := by
  cases h with
  | empty | waits => exact .refl
  | runs _ d hp idle run =>
    exact (State.Owns.startPending d hp idle).moves.trans (run.moves (State.startedRun_running d _))

theorem State.tripEvent_leaves (s : State) : s.Leaves s.tripEvent :=
  (Work.tripsChanged_leaves { s }).trans (Work.finish_leaves _ _)

/-- The end of a trip event: the pending code is taken, and the areas' TRIP reasons follow. -/
theorem State.Moves.endTrip (h : s.Moves t) : s.Moves t.takePending.tripEvent :=
  (h.trans t.takePending_taken.moves).leaves (State.tripEvent_leaves _)

theorem State.startRun_moves {c : TripNo} (idle : ∀ d, (s.code d).state.isRunning = false) (hl : s.trip.latch = false) :
    s.Moves (s.startRun c) := by
  obtain ⟨t, h⟩ := State.exists_runsTo c (Nat.le_of_lt (s.code c).start.isLt) (s.startedRun c)
  rw [State.startRun_eq, State.runFrom_runsTo h]
  exact (State.Owns.start c idle hl).moves.trans (h.moves (State.startedRun_running c s))

/-- The taking of a delivered code (R108). -/
theorem State.deliver_moves (c : TripNo) (s : State) : s.Moves (s.deliver c) := by
  unfold State.deliver
  split
  · exact (s.notify_leaves _).moves
  · have hl : s.trip.latch = false := by simpa using ‹¬s.trip.latch = true›
    split
    · exact (s.notify_leaves _).moves
    · split
      · exact (State.startRun_moves (State.runningCode_eq_none.1 ‹_›) hl).trans (State.takePending_taken _).moves
      · rename_i r hr
        have running : (s.code r).state.isRunning := by simpa using List.find?_some hr
        split
        · exact .refl
        · split
          · exact (State.Owns.pend c r running hl).moves
          · exact (s.notify_leaves _).moves

theorem State.modTrip_owns (f : TripUnit → TripUnit) (hc : (f s.trip).codes = s.trip.codes)
    (hp : (f s.trip).pending = s.trip.pending) (hl : (f s.trip).latch = s.trip.latch)
    (he : (f s.trip).store = s.trip.store) : s.Owns (s.modTrip f) :=
  .tripUnit f hc hp (fun h => hl ▸ h) fun e g last notify h => .inl (by rw [he] at h; exact h)

theorem execTripQualifyTimerExpiry_moves (s : State) : ∃ t, execTripQualifyTimerExpiry s = .next t ∧ s.Moves t := by
  unfold execTripQualifyTimerExpiry
  split
  · exact ⟨_, rfl, ((State.modTrip_owns (fun x => { x with qualifier := .settling false }) rfl rfl rfl rfl).moves.trans
      (State.deliver_moves _ _)).leaves (State.tripEvent_leaves _)⟩
  all_goals exact ⟨s, rfl, .refl⟩

theorem execTripReleaseTimerExpiry_moves (s : State) : ∃ t, execTripReleaseTimerExpiry s = .next t ∧ s.Moves t := by
  unfold execTripReleaseTimerExpiry
  split
  · exact ⟨_, rfl, (State.modTrip_owns (fun x => { x with qualifier := .ready }) rfl rfl rfl rfl).moves⟩
  all_goals exact ⟨s, rfl, .refl⟩

theorem execTripLinesChange_moves (lines : Fin 16) (s : State) :
    ∃ t, execTripLinesChange lines s = .next t ∧ s.Moves t := by
  unfold execTripLinesChange
  split
  · exact ⟨s, rfl, .refl⟩
  · exact ⟨_, rfl, (State.modTrip_owns (fun x => { x with
      lines, qualifier := if s.mode = .run then x.qualifier.change (shownCode lines) else x.qualifier })
      rfl rfl rfl rfl).moves⟩

/-- What a run does behind a WAIT entry (R111). -/
theorem State.waitBehind_moves (c : TripNo) (k : EntryNo) (hr : (t.code c).state.isRunning) :
    t.Moves (match s.tripEntry k with
      | .wait _ true _ => t.tripDone c
      | .wait _ false _ | .group _ _ _ | .empty => t.runFrom c (512 - (k.val + 1)) (k.val + 1)) := by
  obtain ⟨v, h⟩ := State.exists_runsTo c (show k.val + 1 ≤ 512 by omega) t
  have goes : t.Moves (t.runFrom c (512 - (k.val + 1)) (k.val + 1)) := by
    rw [State.runFrom_runsTo h]; exact h.moves hr
  split
  · have e : t.holdCode c false = t.modCode c fun r => { r with state := .holding (t.holdDeadline (t.code c)) } :=
      State.modCode_congr _ (by simp)
    unfold State.tripDone
    rw [e]
    exact (State.Owns.done c _ hr).moves.notify _
  all_goals exact goes

theorem execWaitDeadline_moves (c : TripNo) (s : State) : ∃ t, execWaitDeadline c s = .next t ∧ s.Moves t := by
  unfold execWaitDeadline
  split
  · rename_i k d hc
    split
    · refine ⟨_, rfl, State.Moves.endTrip ?_⟩
      have hr : (s.code c).state.isRunning := by rw [hc]; rfl
      exact (State.Owns.wait c k none hr).moves.trans (State.waitBehind_moves c k (by simp [TripState.isRunning]))
    · exact ⟨s, rfl, .refl⟩
  all_goals exact ⟨s, rfl, .refl⟩

/-- The release of a code (R117). -/
theorem State.release_moves (c : TripNo) (source : ReleaseSource) (s : State) : s.Moves (s.release c source).1 := by
  have h (x : State × Nat) (hx : s.unsuppressAll c = x) : s.Moves (x.1.modCode c TripCode.released) :=
    hx ▸ (State.Owns.release c).moves
  unfold State.release
  rcases hx : s.unsuppressAll c with ⟨t, new⟩
  have h := ((h _ hx).notify (.tripReleased c source)).endTrip
  dsimp only at h ⊢
  exact h

theorem releaseAnswer_gives (c : TripNo) (source : ReleaseSource) (s : State) :
    (releaseAnswer s c source).Gives s.Moves := by
  unfold releaseAnswer
  split
  · trivial
  · have h := s.release_moves c source
    rcases hx : s.release c source with ⟨t, new⟩
    rw [hx] at h
    exact h

theorem actReleaseTrip_gives (x : Option ConsoleNo × TripNo) (s : State) : (actReleaseTrip s x).Gives s.Moves := by
  unfold actReleaseTrip
  split
  · exact releaseAnswer_gives _ _ s
  · exact .withOperator (fun _ => releaseAnswer_gives _ _ s) _

theorem execTripHoldDeadline_moves (c : TripNo) (s : State) : ∃ t, execTripHoldDeadline c s = .next t ∧ s.Moves t := by
  unfold execTripHoldDeadline
  split
  · split
    · exact ⟨_, rfl, s.release_moves c .expiry⟩
    · exact ⟨s, rfl, .refl⟩
  all_goals exact ⟨s, rfl, .refl⟩

end Sys2Proof.Machine


namespace Sys2Proof.Machine

variable {s t u : State}

theorem State.Moves.pointChanged {w : Work} (h : s.Moves w.s) (p : Point) : s.Moves (w.pointChanged p).s :=
  h.leaves (w.pointChanged_leaves p)

theorem State.Moves.reconsider {w : Work} (h : s.Moves w.s) (a : AreaNo) (f : StepKind → Bool) :
    s.Moves (w.reconsider a f).s :=
  h.leaves (w.reconsider_leaves a f)

/-! ### The trip loads -/

theorem within_ge {lo hi k n : Nat} (h : within lo hi k = some n) : lo ≤ n := by
  unfold within at h
  split at h
  · cases h; omega
  · cases h

/-- A carried GROUP entry that is read spares at least priority 1 (R106). -/
theorem parseTripList_spare {n : Nat} {bs : List Byte} {es : List (TripEntry × Bool)} (h : parseTripList n bs = some es)
    {x : TripEntry × Bool} (hx : x ∈ es) {g : Group} {last notify : Bool} (hg : x.1 = .group g last notify) :
    1 ≤ g.spare := by
  induction n generalizing bs es with
  | zero =>
    cases bs with
    | nil => cases h; cases hx
    | cons => cases h
  | succ n ih =>
    cases bs with
    | nil => cases h; cases hx
    | cons k rest =>
      unfold parseTripList at h
      split at h
      · simp only [Option.bind_eq_bind, Option.bind_eq_some_iff, Option.some.injEq] at h
        obtain ⟨l, hl, rfl⟩ := h
        rcases List.mem_cons.mp hx with rfl | hx
        · cases hg
        · exact ih hl hx
      · split at h
        · split at h
          · simp only [Option.bind_eq_bind, Option.bind_eq_some_iff, Option.some.injEq] at h
            obtain ⟨base, -, spare, hs, active, -, last, -, notify, -, l, hl, rfl⟩ := h
            rcases List.mem_cons.mp hx with rfl | hx
            · cases hg
              exact within_ge hs
            · exact ih hl hx
          · cases h
        · split at h
          · split at h
            · simp only [Option.bind_eq_bind, Option.bind_eq_some_iff, Option.some.injEq] at h
              obtain ⟨last, -, notify, -, l, hl, rfl⟩ := h
              rcases List.mem_cons.mp hx with rfl | hx
              · cases hg
              · exact ih hl hx
            · cases h
          · cases h

theorem parseTripEntries_spare {p : List Byte} {x : Nat × List TripEntry × Bool} (h : parseTripEntries p = some x)
    {g : Group} {last notify : Bool} (hg : .group g last notify ∈ x.2.1) : 1 ≤ g.spare := by
  unfold parseTripEntries at h
  split at h
  · simp only [Option.bind_eq_bind, Option.bind_eq_some_iff] at h
    obtain ⟨es, hes, h⟩ := h
    split at h
    · cases h
      obtain ⟨e, he, hg⟩ := List.mem_map.mp hg
      exact parseTripList_spare hes he hg
    · cases h
  · cases h

/-- An entry of the store after a load is carried, or stood there before. -/
theorem storeTripEntries_mem (first : Nat) (es : List TripEntry) (v : Vector TripEntry 512) (e : EntryNo) :
    (storeTripEntries first es v)[e] ∈ es ∨ (storeTripEntries first es v)[e] = v[e] := by
  induction es generalizing first v with
  | nil => exact .inr rfl
  | cons x es ih =>
    unfold storeTripEntries
    rcases ih (first + 1) (v.setIfInBounds first x) with h | h
    · exact .inl (List.mem_cons_of_mem x h)
    · rw [h]
      by_cases hf : first = e.val
      · left; simp [hf]
      · right; simp [hf]

theorem actLoadTripEntries_gives {p : List Byte} {x : Nat × List TripEntry × Bool} (h : parseTripEntries p = some x)
    (s : State) : (actLoadTripEntries s x).Gives s.Moves := by
  unfold actLoadTripEntries
  split
  · trivial
  · refine (State.Owns.tripUnit (fun t => { t with store := storeTripEntries x.1 x.2.1 t.store }) rfl rfl id ?_).moves
    intro e g last notify hg
    rcases storeTripEntries_mem x.1 x.2.1 s.trip.store e with hm | hm
    · exact .inr (parseTripEntries_spare h (hg ▸ hm))
    · exact .inl (hm.symm.trans hg)

theorem actLoadTripCode_gives (x : TripNo × TripConfig) (s : State) : (actLoadTripCode s x).Gives s.Moves := by
  unfold actLoadTripCode
  split
  · trivial
  · exact (State.Owns.tripCode x.1 _ fun _ => by exact ⟨rfl, rfl⟩).moves

/-! ### Points -/

theorem State.setMeter_leaves (a : AreaNo) (l : Nat) (s : State) : s.Leaves (s.setMeter a l) := by
  unfold State.setMeter
  dsimp only
  split
  · refine .trans ?_ (State.notify_leaves _ _)
    exact .modArea a _ s fun _ => by rfl
  · split
    · refine .trans ?_ (State.notify_leaves _ _)
      exact .modArea a _ s fun _ => by rfl
    · exact .modArea a _ s fun _ => by rfl

theorem actRaise_gives (n : PointNo) (s : State) : (actRaise s n).Gives s.Moves := by
  unfold actRaise
  dsimp only
  split
  · trivial
  · split
    · trivial
    · split
      · exact (State.Owns.raiseHidden n ‹_›).moves
      · have h := (State.Owns.raise n (by simpa using ‹¬(s.point n).hidden = true›)).moves.leaves
          (State.setMeter_leaves (s.point n).area (raisedMeter ((s.becomeNew n false ((s.point n).raised s.now)).area
            (s.point n).area).meter) _)
        show s.Moves (s.raiseInView n)
        unfold State.raiseInView
        dsimp only
        split
        · exact .finish (.reconsider (w := { s := _ }) h _ _) []
        · exact .finish h []

theorem actClear_gives (n : PointNo) (s : State) : (actClear s n).Gives s.Moves := by
  unfold actClear
  dsimp only
  split
  · trivial
  · split
    · trivial
    · rename_i hc
      have active : (s.point n).condition = .active := by cases h : (s.point n).condition <;> simp_all
      split
      · exact (State.Owns.clearHidden n ‹_›).moves
      · have h := (State.Owns.clear n (by simpa using ‹¬(s.point n).hidden = true›) active).moves
        refine State.Moves.finish ?_ []
        split
        · exact .pointChanged (w := { s := _ }) h _
        · exact h

theorem actTakeOut_gives (x : ConsoleNo × PointNo) (s : State) : (actTakeOut s x).Gives s.Moves := by
  refine .withOperator (fun _ => ?_) _
  split
  · trivial
  · split
    · trivial
    · exact .finish (.pointChanged (w := { s := _, sheets := _ }) (State.Owns.takeOut x.2).moves _) []

theorem actReturn_gives (x : ConsoleNo × PointNo) (s : State) : (actReturn s x).Gives s.Moves := by
  refine .withOperator (fun _ => ?_) _
  split
  · trivial
  · split
    · trivial
    · exact .finish (.pointChanged (w := { s := _ }) (State.Owns.putBack x.2).moves _) []

theorem execDecayStep_moves (a : AreaNo) (s : State) : ∃ t, execDecayStep a s = .next t ∧ s.Moves t := by
  unfold execDecayStep
  dsimp only
  split
  · have h := (s.setMeter_leaves a ((s.area a).meter - decrement (s.area a).meter (s.area a).config.decay)).moves
    split
    · exact ⟨_, rfl, h⟩
    · exact ⟨_, rfl, .finish (.reconsider (w := { s := _ }) h _ _) []⟩
  · exact ⟨s, rfl, .refl⟩

/-! ### Acknowledgement and keys -/

theorem State.ackEvent_moves (n : PointNo) (o : Nat) (after : List NoticeKind) (s : State) :
    s.Moves (s.ackEvent n o after) :=
  .finish (.pointChanged (w := { s := _ }) (State.Owns.acknowledge n o).moves _) after

theorem actAck_gives (x : ConsoleNo × PointNo) (s : State) : (actAck s x).Gives s.Moves := by
  refine .withOperator (fun o => ?_) _
  dsimp only
  split
  · trivial
  · split
    · trivial
    · exact s.ackEvent_moves x.2 o.number []

theorem actAckHead_gives (x : ConsoleNo × Option PointNo) (s : State) : (actAckHead s x).Gives s.Moves := by
  refine .withOperator (fun _ => ?_) _
  split
  · trivial
  · refine .withOperator (fun o => ?_) _
    split
    · trivial
    · exact s.ackEvent_moves _ o.number []

theorem State.acknowledgeAll_moves (o : Nat) (ns : List PointNo) (s : State) :
    s.Moves (ns.foldl (fun s n => s.acknowledge n o) s) := by
  induction ns generalizing s with
  | nil => exact .refl
  | cons n ns ih => exact (State.Owns.acknowledge n o).moves.trans (ih _)

theorem actAckArea_gives (x : ConsoleNo × AreaNo × Nat) (s : State) : (actAckArea s x).Gives s.Moves := by
  unfold actAckArea
  refine .withOperator (fun o => ?_) _
  dsimp only
  generalize s.ackSelection x.2.1 x.2.2 = ns
  split
  · exact .refl
  · exact .finish (w := { s := _ }) (s.acknowledgeAll_moves o.number ns) []

theorem State.silence_leaves (c : ConsoleNo) (source : SilenceSource) (s : State) : s.Leaves (s.silence c source) := by
  unfold State.silence
  refine .trans (.trans ?_ (State.driveOutputs_leaves _)) (State.notify_leaves _ _)
  dsimp only
  split
  · exact .ofAreas rfl rfl rfl rfl rfl rfl
  · exact s.modConsole_leaves c _

theorem actSilence_gives (x : ConsoleNo × Bool) (s : State) : (actSilence s x).Gives s.Moves := by
  refine .withOperator (fun _ => ?_) _
  exact (s.silence_leaves x.1 _).moves

theorem State.setKey_leaves (c : ConsoleNo) (k : KeyName) (x : Key) (s : State) : s.Leaves (s.setKey c k x) :=
  s.modConsole_leaves c _

theorem State.ackPress_moves (c : ConsoleNo) (s : State) : s.Moves (s.ackPress c) := by
  unfold State.ackPress
  split
  · exact (s.notify_leaves _).moves
  · split
    · exact (s.notify_leaves _).moves
    · split
      · exact (s.notify_leaves _).moves
      · exact s.ackEvent_moves _ _ _

theorem State.silencePress_leaves (c : ConsoleNo) (s : State) : s.Leaves (s.silencePress c) := by
  unfold State.silencePress
  split
  · exact s.notify_leaves _
  · exact s.silence_leaves c .key

theorem State.keyAction_moves (c : ConsoleNo) (k : KeyName) (s : State) : s.Moves (s.keyAction c k) := by
  cases k with
  | ack => exact (s.activity_leaves c).moves.trans (State.ackPress_moves c _)
  | silence => exact ((s.activity_leaves c).trans (State.silencePress_leaves c _)).moves

theorem execKeyQualifyTimerExpiry_moves (c : ConsoleNo) (k : KeyName) (s : State) :
    ∃ t, execKeyQualifyTimerExpiry c k s = .next t ∧ s.Moves t := by
  unfold execKeyQualifyTimerExpiry
  dsimp only
  split
  · exact ⟨_, rfl, (s.setKey_leaves c k _).moves.trans (State.keyAction_moves c k _)⟩
  · exact ⟨s, rfl, .refl⟩

/-! ### Shelves -/

theorem actShelve_gives (x : ConsoleNo × PointNo × ShelveFor) (s : State) : (actShelve s x).Gives s.Moves := by
  refine .withOperator (fun o => ?_) _
  dsimp only
  split
  · trivial
  · split
    · trivial
    · split
      · trivial
      · split
        · trivial
        · split
          · trivial
          · split
            · trivial
            · refine State.Moves.finish (w := { s := _, sheets := true }) ?_ []
              exact (State.Owns.shelve (s.newShelf x.1 x.2.1 o.number x.2.2) ‹_›
                (Bool.eq_false_iff.mpr ‹_›) (Bool.eq_false_iff.mpr ‹_›)
                (Nat.lt_of_not_le ‹_›) (Nat.lt_of_not_le ‹_›)).moves

theorem State.shelfEnded_leaves (r : Shelf) (s t : State) : t.Leaves (s.shelfEnded r t) :=
  (Work.pointChanged_leaves (s.point r.point) { s := t, sheets := true }).trans (Work.finish_leaves _ _)

theorem actUnshelve_gives (x : ConsoleNo × PointNo) (s : State) : (actUnshelve s x).Gives s.Moves := by
  refine .withOperator (fun _ => ?_) _
  split
  · trivial
  · split
    · trivial
    · exact (State.Owns.unshelve x.2 _ ‹_›).moves.leaves (s.shelfEnded_leaves _ _)

theorem execShelfExpired_moves (n : PointNo) (s : State) : ∃ t, execShelfExpired n s = .next t ∧ s.Moves t := by
  unfold execShelfExpired
  split
  · split
    · exact ⟨_, rfl, ((State.Owns.unshelve n _ ‹_›).moves.notify _).leaves (s.shelfEnded_leaves _ _)⟩
    · exact ⟨s, rfl, .refl⟩
  · exact ⟨s, rfl, .refl⟩

end Sys2Proof.Machine


namespace Sys2Proof.Machine

variable {s t u : State}

/-! ### The loads and the settings -/

/-- The areas' records change, none of them its shelved count. -/
theorem State.mapAreas_leaves (f : Area → Area) (m : Mill) (s : State)
    (h : ∀ r : Area, (f r).shelvedCount = r.shelvedCount) : s.Leaves { s with mill := m, areas := s.areas.map f } :=
  State.SameShelves.leaves ⟨rfl, rfl, rfl, fun a => by simp [State.area, h]⟩ rfl rfl

theorem State.modDraft_leaves (a : AreaNo) (f : Draft → Draft) (s : State) : s.Leaves (s.modDraft a f) :=
  .modArea a _ s fun _ => by rfl

theorem State.modOperator_leaves (n : Nat) (f : Operator → Operator) (s : State) : s.Leaves (s.modOperator n f) :=
  .ofAreas rfl rfl rfl rfl rfl rfl

theorem State.storeOperator_leaves (o : Operator) (s : State) : s.Leaves (s.storeOperator o) := by
  unfold State.storeOperator
  split
  · exact s.modOperator_leaves _ _
  · exact .ofAreas rfl rfl rfl rfl rfl rfl

theorem actLoadOperator_gives (x : OperatorLoad) (s : State) : (actLoadOperator s x).Gives s.Moves := by
  unfold actLoadOperator
  split
  · split
    · trivial
    · split
      · trivial
      · exact (s.storeOperator_leaves _).moves
  · split
    · trivial
    · split
      · trivial
      · exact State.Leaves.moves (.ofAreas rfl rfl rfl rfl rfl rfl)

theorem actLoadOrder_gives (x : OrderNo × Order) (s : State) : (actLoadOrder s x).Gives s.Moves := by
  unfold actLoadOrder
  split
  · trivial
  · exact State.Leaves.moves (.ofAreas rfl rfl rfl rfl rfl rfl)

theorem actSetTiming_gives (x : Setting × Nat) (s : State) : (actSetTiming s x).Gives s.Moves := by
  show s.Moves (s.storeSetting x.1 (x.1.clamped x.2))
  unfold State.storeSetting
  dsimp only
  split <;> exact State.Leaves.moves (.ofAreas rfl rfl rfl rfl rfl rfl)

theorem actSetShift_gives (x : Nat × Crew) (s : State) : (actSetShift s x).Gives s.Moves :=
  (s.mapAreas_leaves (fun r => { r with duty := x.2 }) _ fun _ => rfl).moves

theorem actLoadArea_gives (x : AreaNo × AreaConfig) (s : State) : (actLoadArea s x).Gives s.Moves :=
  (State.Leaves.modArea x.1 (fun r => { r with config := x.2 }) s fun _ => rfl).moves

/-! ### Seats -/

theorem State.seat_leaves (c : ConsoleNo) (n : Nat) (s : State) : s.Leaves (s.seat c n) := s.modConsole_leaves c _

theorem actSignOn_gives (x : ConsoleNo × Nat) (s : State) : (actSignOn s x).Gives s.Moves := by
  unfold actSignOn
  split
  · trivial
  · split
    · trivial
    · split
      · trivial
      · split
        · trivial
        · split
          · trivial
          · refine State.Moves.finish (State.Leaves.moves ?_) []
            refine .trans ?_ (Work.seatsChanged_leaves _ _)
            exact (s.seat_leaves x.1 x.2).trans (State.modOperator_leaves _ _ _)

theorem State.releaseLocks_leaves (c : ConsoleNo) (s : State) : s.Leaves (s.releaseLocks c) :=
  s.mapAreas_leaves (fun r => if r.draft.lock = some c then { r with draft := { r.draft with lock := none } } else r)
    s.mill fun _ => by dsimp only; split <;> rfl

theorem State.signOff_leaves (c : ConsoleNo) (s : State) : s.Leaves (s.signOff c) := by
  unfold State.signOff
  refine .trans ?_ (Work.finish_leaves _ _)
  refine .trans ?_ (Work.seatsChanged_leaves _ _)
  refine .trans (.trans ?_ (State.modConsole_leaves c _ _)) (State.releaseLocks_leaves c _)
  unfold State.unseat
  split
  · exact s.modOperator_leaves _ _
  · exact .refl s

theorem actSignOff_gives (x : Option ConsoleNo × ConsoleNo) (s : State) : (actSignOff s x).Gives s.Moves := by
  unfold actSignOff
  split
  · trivial
  · split
    · trivial
    · exact (s.signOff_leaves x.2).moves

theorem execPresenceDeadline_moves (c : ConsoleNo) (s : State) : ∃ t, execPresenceDeadline c s = .next t ∧ s.Moves t := by
  unfold execPresenceDeadline
  split
  · rename_i n d _
    split
    · have h := (s.modConsole_leaves c fun r => { r with seat := .absent n }).moves.notify (.consoleAbsent c)
      exact ⟨_, rfl, .finish (w := { s := _, cover := true }) h []⟩
    · exact ⟨s, rfl, .refl⟩
  all_goals exact ⟨s, rfl, .refl⟩

/-! ### Sheets -/

theorem actLockDraft_gives (x : ConsoleNo × AreaNo) (s : State) : (actLockDraft s x).Gives s.Moves := by
  refine .withOperator (fun _ => ?_) _
  dsimp only
  split
  · trivial
  · split
    · trivial
    · exact (s.modDraft_leaves x.2 _).moves

theorem actUnlockDraft_gives (x : ConsoleNo × AreaNo) (s : State) : (actUnlockDraft s x).Gives s.Moves := by
  refine .withOperator (fun _ => ?_) _
  dsimp only
  split
  · trivial
  · split
    · trivial
    · exact (s.modDraft_leaves x.2 _).moves

theorem State.addItem_leaves (a : AreaNo) (i : SlotNo) (k : ItemKind) (o : Nat) (s : State) :
    s.Leaves (s.addItem a i k o) := by
  unfold State.addItem
  refine .trans ?_ (State.modDraft_leaves _ _ _)
  exact .ofAreas rfl rfl rfl rfl rfl rfl

theorem actAddItem_gives (x : ConsoleNo × AreaNo × ItemKind) (s : State) : (actAddItem s x).Gives s.Moves := by
  refine .withOperator (fun _ => ?_) _
  dsimp only
  split
  · trivial
  · split
    · trivial
    · split
      · trivial
      · split
        · trivial
        · exact State.Moves.finish (w := { s := _, sheets := true }) (s.addItem_leaves _ _ _ _).moves []

theorem actRemoveItem_gives (x : ConsoleNo × AreaNo × Nat) (s : State) : (actRemoveItem s x).Gives s.Moves := by
  refine .withOperator (fun _ => ?_) _
  dsimp only
  split
  · trivial
  · split
    · trivial
    · refine State.Moves.finish (w := { s := _, sheets := true }) (State.Leaves.moves ?_) []
      refine .trans (s.modDraft_leaves x.2.1 fun d => { d with items := d.items.eraseIdx x.2.2 }) ?_
      exact .ofAreas rfl rfl rfl rfl rfl rfl

theorem actPost_gives (x : ConsoleNo × AreaNo) (s : State) : (actPost s x).Gives s.Moves := by
  refine .withOperator (fun _ => ?_) _
  split
  · trivial
  · exact .finish (w := { s := _, sheets := true }) (s.modDraft_leaves x.2 _).moves []

theorem actReviewItem_gives (x : ConsoleNo × AreaNo × Nat) (s : State) : (actReviewItem s x).Gives s.Moves := by
  refine .withOperator (fun o => ?_) _
  dsimp only
  split
  · trivial
  · split
    · trivial
    · split
      · trivial
      · split
        · trivial
        · refine State.Moves.finish (State.Leaves.moves ?_) []
          refine .trans ?_ (Work.examine_leaves _ _ _)
          exact .ofAreas rfl rfl rfl rfl rfl rfl

/-! ### Handovers -/

theorem actBeginHandover_gives (k : Crew) (s : State) : (actBeginHandover s k).Gives s.Moves := by
  unfold actBeginHandover
  split
  · trivial
  · split
    · trivial
    · refine State.Moves.finish (State.Leaves.moves ?_) []
      refine .trans ?_ (Work.foldl_begin_leaves _ _)
      exact .ofAreas rfl rfl rfl rfl rfl rfl

theorem State.closeHandover_leaves (s : State) : s.Leaves s.closeHandover :=
  s.mapAreas_leaves (fun r => { r with handover := .steady }) _ fun _ => rfl

theorem actCancelHandover_gives (x : Unit) (s : State) : (actCancelHandover s x).Gives s.Moves := by
  unfold actCancelHandover
  split
  · trivial
  · split
    · trivial
    · exact .finish (w := { s := _, cover := true, sheets := true }) s.closeHandover_leaves.moves []

theorem State.request_leaves (a : AreaNo) (b : Bool) (s : State) : s.Leaves (s.request a b) :=
  (Work.setReasons_leaves a _ { s }).trans (Work.finish_leaves _ _)

theorem actSuspendArea_gives (a : AreaNo) (s : State) : (actSuspendArea s a).Gives s.Moves := by
  unfold actSuspendArea
  dsimp only
  split
  · trivial
  · split
    · trivial
    · split
      · trivial
      · exact (s.request_leaves a true).moves

theorem actResumeArea_gives (a : AreaNo) (s : State) : (actResumeArea s a).Gives s.Moves := by
  unfold actResumeArea
  dsimp only
  split
  · trivial
  · split
    · trivial
    · split
      · trivial
      · exact (s.request_leaves a false).moves

theorem actConfirmStep_gives (x : ConsoleNo × AreaNo) (s : State) : (actConfirmStep s x).Gives s.Moves := by
  refine .withOperator (fun _ => ?_) _
  split
  · trivial
  · exact ((Work.completeStep_leaves x.2 { s, sheets := true }).trans (Work.finish_leaves _ _)).moves

theorem execHandoverHoldDeadline_moves (a : AreaNo) (s : State) :
    ∃ t, execHandoverHoldDeadline a s = .next t ∧ s.Moves t := by
  unfold execHandoverHoldDeadline
  split
  · split
    · exact ⟨_, rfl, ((Work.completeStep_leaves a { s, sheets := true }).trans (Work.finish_leaves _ _)).moves⟩
    · exact ⟨s, rfl, .refl⟩
  all_goals exact ⟨s, rfl, .refl⟩

theorem State.halted_leaves (a : AreaNo) (why : AbortReason) (s : State) : s.Leaves (Work.halt a why { s }).finish :=
  (Work.halt_leaves a why { s }).trans (Work.finish_leaves _ _)

theorem execStepTimeout_moves (a : AreaNo) (s : State) : ∃ t, execStepTimeout a s = .next t ∧ s.Moves t := by
  unfold execStepTimeout
  split
  · split
    · exact ⟨_, rfl, (s.halted_leaves a .stepTimeout).moves⟩
    · exact ⟨s, rfl, .refl⟩
  all_goals exact ⟨s, rfl, .refl⟩

theorem actAbortArea_gives (a : AreaNo) (s : State) : (actAbortArea s a).Gives s.Moves := by
  unfold actAbortArea
  dsimp only
  split
  · trivial
  · split
    · trivial
    · split
      · trivial
      · exact (s.halted_leaves a .hostAbort).moves

theorem actClearAbort_gives (a : AreaNo) (s : State) : (actClearAbort s a).Gives s.Moves := by
  unfold actClearAbort
  split
  · trivial
  · exact (State.Leaves.modArea a (fun r => { r with abort := none }) s fun _ => rfl).moves

theorem actRestartArea_gives (x : ConsoleNo × AreaNo) (s : State) : (actRestartArea s x).Gives s.Moves := by
  refine .withOperator (fun _ => ?_) _
  split
  · trivial
  · exact ((Work.begin_leaves x.2 { s }).trans (Work.finish_leaves _ _)).moves

/-! ### Keys, timers and the line -/

theorem execKeyContactChange_moves (c : ConsoleNo) (k : KeyName) (closed : Bool) (s : State) :
    ∃ t, execKeyContactChange c k closed s = .next t ∧ s.Moves t := by
  unfold execKeyContactChange
  dsimp only
  split
  · exact ⟨s, rfl, .refl⟩
  · split <;> exact ⟨_, rfl, (s.setKey_leaves c k _).moves⟩

theorem execKeyReleaseTimerExpiry_moves (c : ConsoleNo) (k : KeyName) (s : State) :
    ∃ t, execKeyReleaseTimerExpiry c k s = .next t ∧ s.Moves t := by
  unfold execKeyReleaseTimerExpiry
  dsimp only
  split
  · exact ⟨_, rfl, (s.setKey_leaves c k _).moves⟩
  · exact ⟨s, rfl, .refl⟩

theorem execStuckTimerExpiry_moves (c : ConsoleNo) (k : KeyName) (s : State) :
    ∃ t, execStuckTimerExpiry c k s = .next t ∧ s.Moves t := by
  unfold execStuckTimerExpiry
  dsimp only
  split
  · exact ⟨_, rfl, (s.setKey_leaves c k _).moves.notify _⟩
  · exact ⟨s, rfl, .refl⟩

theorem execP1ResoundDeadline_moves (c : ConsoleNo) (s : State) :
    ∃ t, execP1ResoundDeadline c s = .next t ∧ s.Moves t := by
  unfold execP1ResoundDeadline
  split
  · split
    · exact ⟨_, rfl, ((s.modConsole_leaves c _).trans (State.driveOutputs_leaves _)).moves⟩
    · exact ⟨s, rfl, .refl⟩
  · exact ⟨s, rfl, .refl⟩

theorem execGapTimerExpiry_moves (s : State) : ∃ t, execGapTimerExpiry s = .next t ∧ s.Moves t := by
  unfold execGapTimerExpiry
  split
  · exact ⟨s, rfl, .refl⟩
  all_goals exact ⟨_, rfl, (s.link_leaves _).moves⟩

theorem execLinkError_moves (s : State) : ∃ t, execLinkError s = .next t ∧ s.Moves t := by
  unfold execLinkError
  split
  · exact ⟨_, rfl, ((s.link_leaves _).trans (State.send_leaves _ _)).moves⟩
  all_goals exact ⟨s, rfl, .refl⟩

theorem execBadKind_moves (kind tag : Byte) (p : List Byte) (s : State) :
    ∃ t, execBadKind kind tag p s = .next t ∧ s.Moves t := by
  unfold execBadKind
  split
  · exact ⟨s, rfl, .refl⟩
  · split
    · exact ⟨s, rfl, .refl⟩
    · exact ⟨_, rfl, ((State.take_leaves ‹_›).trans (State.send_leaves _ _)).moves⟩

/-! ### Every command -/

/-- The command changes the configuration of points, or the operating state with all that hangs on it: it is HARD_RESET,
RESTART, START, LOAD_POINTS or SET_POINT. -/
def rewritesPoints : Instr → Bool
  | .hardReset _ | .restart _ _ | .start _ _ | .loadPoints _ _ | .setPoint _ _ => true
  | _ => false

/-- A request that only reads moves nothing. -/
theorem query_moves {α : Type} {kind tag : Byte} {p : List Byte} {parse : List Byte → Option α} {m : TakenIn}
    {act : State → α → Answer} (h : ∀ u x, match act u x with | .ok (v, _) => v = u | .error _ => True) (s : State) :
    ∃ t, hostRequest kind tag p parse m act s = .next t ∧ s.Moves t := by
  refine hostRequest_moves (fun u x _ => ?_) s
  have := h u x
  cases hr : act u x with
  | error e => trivial
  | ok v => obtain ⟨v, d⟩ := v; rw [hr] at this; exact this ▸ .refl

theorem execClearTripFault_moves (tag : Byte) (p : List Byte) (s : State) :
    ∃ t, execClearTripFault tag p s = .next t ∧ s.Moves t := by
  refine hostRequest_moves (fun u x _ => ?_) s
  split
  · exact (State.Owns.tripUnit (fun t => { t with latch := false }) rfl rfl (fun h => by cases h)
      fun e g last notify h => .inl h).moves
  · trivial

theorem exec_moves {c : Instr} (h : rewritesPoints c = false) (s : State) : ∃ t, exec c s = .next t ∧ s.Moves t := by
  cases c with
  | hardReset | restart | start | loadPoints | setPoint => cases h
  | receiveCharacter b => exact ⟨_, rfl, (s.link_leaves _).moves⟩
  | gapTimerExpiry => exact execGapTimerExpiry_moves s
  | linkError => exact execLinkError_moves s
  | badKind => exact execBadKind_moves _ _ _ s
  | clockSecond => exact ⟨_, rfl, State.Leaves.moves (.ofAreas rfl rfl rfl rfl rfl rfl)⟩
  | identify | queryPoint | listStanding | queryMeters => exact query_moves (fun _ _ => rfl) s
  | queryOperator => exact query_moves (fun u n => by cases u.operator? n <;> trivial) s
  | queryConsole | queryTrip | queryHandover => exact query_moves (fun _ x => by cases x <;> rfl) s
  | listShelves | readSheet => exact query_moves (fun _ _ => rfl) s
  | setClock =>
    refine hostRequest_moves (fun u x _ => ?_) s
    exact (State.Owns.clock x).moves
  | fetchNotices =>
    refine hostRequest_moves (fun u x _ => ?_) s
    exact State.Leaves.moves (.ofAreas rfl rfl rfl rfl rfl rfl)
  | loadRole =>
    refine hostRequest_moves (fun u x _ => ?_) s
    exact State.Leaves.moves (.ofAreas rfl rfl rfl rfl rfl rfl)
  | loadSteps =>
    refine hostRequest_moves (fun u x _ => ?_) s
    exact State.Leaves.moves (.ofAreas rfl rfl rfl rfl rfl rfl)
  | loadConsole =>
    refine hostRequest_moves (fun u x _ => ?_) s
    exact (u.modConsole_leaves x.1 _).moves
  | setTiming => exact hostRequest_moves (fun u x _ => actSetTiming_gives x u) s
  | setShift => exact hostRequest_moves (fun u x _ => actSetShift_gives x u) s
  | loadArea => exact hostRequest_moves (fun u x _ => actLoadArea_gives x u) s
  | loadOperator | loadOperatorRemove => exact hostRequest_moves (fun u x _ => actLoadOperator_gives x u) s
  | loadTripCode => exact hostRequest_moves (fun u x _ => actLoadTripCode_gives x u) s
  | loadTripEntries => exact hostRequest_moves (fun u _ h => actLoadTripEntries_gives h u) s
  | loadOrder => exact hostRequest_moves (fun u x _ => actLoadOrder_gives x u) s
  | raise => exact hostRequest_moves (fun u x _ => actRaise_gives x u) s
  | clear => exact hostRequest_moves (fun u x _ => actClear_gives x u) s
  | signOn => exact consoleRequest_moves (fun u x => actSignOn_gives x u) s
  | signOff => exact consoleRequest_moves (fun u x => actSignOff_gives x u) s
  | silence => exact consoleRequest_moves (fun u x => actSilence_gives x u) s
  | ack => exact consoleRequest_moves (fun u x => actAck_gives x u) s
  | ackHead => exact consoleRequest_moves (fun u x => actAckHead_gives x u) s
  | ackArea => exact consoleRequest_moves (fun u x => actAckArea_gives x u) s
  | shelve => exact consoleRequest_moves (fun u x => actShelve_gives x u) s
  | unshelve => exact consoleRequest_moves (fun u x => actUnshelve_gives x u) s
  | takeOut => exact consoleRequest_moves (fun u x => actTakeOut_gives x u) s
  | returnPoint => exact consoleRequest_moves (fun u x => actReturn_gives x u) s
  | releaseTrip => exact consoleRequest_moves (fun u x => actReleaseTrip_gives x u) s
  | lockDraft => exact consoleRequest_moves (fun u x => actLockDraft_gives x u) s
  | unlockDraft => exact consoleRequest_moves (fun u x => actUnlockDraft_gives x u) s
  | addItem => exact consoleRequest_moves (fun u x => actAddItem_gives x u) s
  | removeItem => exact consoleRequest_moves (fun u x => actRemoveItem_gives x u) s
  | post => exact consoleRequest_moves (fun u x => actPost_gives x u) s
  | reviewItem => exact consoleRequest_moves (fun u x => actReviewItem_gives x u) s
  | confirmStep => exact consoleRequest_moves (fun u x => actConfirmStep_gives x u) s
  | restartArea => exact consoleRequest_moves (fun u x => actRestartArea_gives x u) s
  | clearTripFault => exact execClearTripFault_moves _ _ s
  | beginHandover => exact hostRequest_moves (fun u x _ => actBeginHandover_gives x u) s
  | cancelHandover => exact hostRequest_moves (fun u x _ => actCancelHandover_gives x u) s
  | suspendArea => exact hostRequest_moves (fun u x _ => actSuspendArea_gives x u) s
  | resumeArea => exact hostRequest_moves (fun u x _ => actResumeArea_gives x u) s
  | abortArea => exact hostRequest_moves (fun u x _ => actAbortArea_gives x u) s
  | clearAbort => exact hostRequest_moves (fun u x _ => actClearAbort_gives x u) s
  | keyContactChange => exact execKeyContactChange_moves _ _ _ s
  | keyQualifyTimerExpiry => exact execKeyQualifyTimerExpiry_moves _ _ s
  | keyReleaseTimerExpiry => exact execKeyReleaseTimerExpiry_moves _ _ s
  | stuckTimerExpiry => exact execStuckTimerExpiry_moves _ _ s
  | presenceDeadline => exact execPresenceDeadline_moves _ s
  | p1ResoundDeadline => exact execP1ResoundDeadline_moves _ s
  | shelfExpired => exact execShelfExpired_moves _ s
  | decayStep => exact execDecayStep_moves _ s
  | tripLinesChange => exact execTripLinesChange_moves _ s
  | tripQualifyTimerExpiry => exact execTripQualifyTimerExpiry_moves s
  | tripReleaseTimerExpiry => exact execTripReleaseTimerExpiry_moves s
  | waitDeadline => exact execWaitDeadline_moves _ s
  | tripHoldDeadline => exact execTripHoldDeadline_moves _ s
  | stepTimeout => exact execStepTimeout_moves _ s
  | handoverHoldDeadline => exact execHandoverHoldDeadline_moves _ s

end Sys2Proof.Machine

/-!
The release of a trip code from the suppression sets (R117): each point in its turn, and all of them in ascending number.
-/

namespace Sys2Proof.Machine

variable {s t : State} {c : TripNo}

/-- The record of a point without code `c` in its suppression set. -/
def Point.without (c : TripNo) (p : Point) : Point := { p with suppression := p.suppression.filter (· != c) }

/-- The record with which a point comes into view behind the suppression of code `c`, at a raise sequence number (R117). -/
def Point.backMarked (c : TripNo) (seq : Nat) (p : Point) : Point :=
  { p.without c with ann := .new, raiseSeq := some seq, acked := none, postTrip := true }

theorem Point.without_of_not_mem {p : Point} (h : c ∉ p.suppression) : p.without c = p := by
  have : p.suppression.filter (· != c) = p.suppression :=
    List.filter_eq_self.mpr fun d hd => by simpa using fun e : d = c => h (e ▸ hd)
  simp only [Point.without, this]

theorem Point.without_hidden (p : Point) :
    (p.without c).hidden = (p.shelved || p.outOfService || !p.suppression.all (· == c)) := by
  have h : (p.suppression.filter (· != c)).isEmpty = p.suppression.all (· == c) := by
    induction p.suppression with
    | nil => rfl
    | cons d l ih => by_cases hd : d = c <;> simp_all
  simp only [Point.without, Point.hidden, h]

theorem State.setPoint_self (n : PointNo) (s : State) : s.setPoint n (s.point n) = s := by
  simp [State.setPoint, State.point]

/-- One point in a release: it comes into view where nothing else hides it and it is ACTIVE, and loses the code else. -/
theorem State.unsuppress_eq (c : TripNo) (n : PointNo) (s : State) : s.unsuppress c n =
    (if s.comesBack c n then s.becomeNew n true ((s.point n).without c) else s.setPoint n ((s.point n).without c),
      s.comesBack c n) := by
  unfold State.unsuppress
  dsimp only
  by_cases h : (s.point n).suppression.contains c
  · have hidden : (s.point n).hidden := by
      unfold Point.hidden
      cases hl : (s.point n).suppression <;> simp_all
    have back : s.comesBack c n
        = (!((s.point n).without c).hidden && (s.point n).condition == .active) := by
      rw [Point.without_hidden]
      unfold State.comesBack
      simp only [h, Bool.true_and, Bool.not_or, Bool.not_not]
    rw [if_pos h, back]
    unfold State.removeReason
    simp only [hidden, Bool.true_and]
    rfl
  · have stays : s.comesBack c n = false := by
      unfold State.comesBack
      simp only [Bool.not_eq_true] at h
      simp only [h, Bool.false_and]
    rw [if_neg h, stays, Point.without_of_not_mem (by simpa using h), State.setPoint_self]
    rfl

theorem State.point_unsuppress (c : TripNo) (n m : PointNo) (s : State) : (s.unsuppress c n).1.point m =
    if m = n then if s.comesBack c n then (s.point n).backMarked c (nextSeq s.raiseCounter) else (s.point n).without c
    else s.point m := by
  rw [State.unsuppress_eq]
  dsimp only
  split
  · rw [State.point_becomeNew]; rfl
  · rw [State.point_setPoint]

theorem State.unsuppress_rest (c : TripNo) (n : PointNo) (s : State) : (s.unsuppress c n).1 =
    { s with points := (s.unsuppress c n).1.points, raiseCounter := (s.unsuppress c n).1.raiseCounter } := by
  rw [State.unsuppress_eq]
  dsimp only
  split <;> rfl

theorem State.raiseCounter_unsuppress (c : TripNo) (n : PointNo) (s : State) :
    (s.unsuppress c n).1.raiseCounter = nextSeq^[if s.comesBack c n then 1 else 0] s.raiseCounter := by
  rw [State.unsuppress_eq]
  dsimp only
  split <;> rfl

/-- The points of a list, ascending, in a release of code `c` that took the part from `s` to `t`, `new` of them coming into
view: each has lost the code, and the numbers of those that came into view rise in point order. -/
structure State.Unsuppressed (c : TripNo) (l : List PointNo) (s t : State) (new : Nat) : Prop where
  new    : new = l.countP (s.comesBack c)
  rest   : t = { s with points := t.points, raiseCounter := t.raiseCounter }
  number : t.raiseCounter = nextSeq^[l.countP (s.comesBack c)] s.raiseCounter
  others : ∀ n, n ∉ l → t.point n = s.point n
  back   : ∀ n ∈ l, s.comesBack c n → t.point n = (s.point n).backMarked c
    (nextSeq^[l.countP fun m => decide (m ≤ n) && s.comesBack c m] s.raiseCounter)
  stays  : ∀ n ∈ l, s.comesBack c n = false → t.point n = (s.point n).without c

theorem State.comesBack_congr {n : PointNo} (h : t.point n = s.point n) : t.comesBack c n = s.comesBack c n := by
  simp only [State.comesBack, h]

theorem State.Unsuppressed.cons {n : PointNo} {l : List PointNo} {k : Nat} (hn : ∀ m ∈ l, n < m)
    (h : ((s.unsuppress c n).1).Unsuppressed c l t k) :
    s.Unsuppressed c (n :: l) t ((if (s.unsuppress c n).2 then 1 else 0) + k) := by
  have other (m : PointNo) (hm : m ≠ n) : (s.unsuppress c n).1.point m = s.point m := by
    rw [State.point_unsuppress, if_neg hm]
  have same (m : PointNo) (hm : m ∈ l) : (s.unsuppress c n).1.comesBack c m = s.comesBack c m :=
    State.comesBack_congr (other m (Fin.ne_of_gt (hn m hm)))
  have counter := s.raiseCounter_unsuppress c n
  have total : l.countP ((s.unsuppress c n).1.comesBack c) = l.countP (s.comesBack c) :=
    List.countP_congr fun m hm => by rw [same m hm]
  have notin : n ∉ l := fun hm => (hn n hm).false
  obtain ⟨hnew, hrest, hnumber, hothers, hback, hstays⟩ := h
  refine ⟨?_, ?_, ?_, fun m hm => ?_, fun m hm hb => ?_, fun m hm hb => ?_⟩
  · rw [hnew, total, List.countP_cons, State.unsuppress_eq, Nat.add_comm]
  · rw [hrest, State.unsuppress_rest]
  · rw [hnumber, total, List.countP_cons, Function.iterate_add_apply, counter]
  · obtain ⟨hmn, hml⟩ : m ≠ n ∧ m ∉ l := by simpa using hm
    rw [hothers m hml, other m hmn]
  · rcases List.mem_cons.mp hm with rfl | hm
    · have none_below : l.countP (fun i => decide (i ≤ m) && s.comesBack c i) = 0 :=
        List.countP_eq_zero.mpr fun i hi => by simp [hn i hi]
      rw [hothers m notin, State.point_unsuppress, if_pos rfl, if_pos hb, List.countP_cons, none_below]
      simp [hb]
    · have hmn := Fin.ne_of_gt (hn m hm)
      rw [hback m hm (by rwa [same m hm]), other m hmn, counter, ← Function.iterate_add_apply, List.countP_cons]
      have e : l.countP (fun i => decide (i ≤ m) && (s.unsuppress c n).1.comesBack c i)
          = l.countP (fun i => decide (i ≤ m) && s.comesBack c i) :=
        List.countP_congr fun i hi => by rw [same i hi]
      rw [e, decide_eq_true (Fin.le_of_lt (hn m hm)), Bool.true_and]
  · rcases List.mem_cons.mp hm with rfl | hm
    · rw [hothers m notin, State.point_unsuppress, if_pos rfl, hb]; rfl
    · rw [hstays m hm (by rwa [same m hm]), other m (Fin.ne_of_gt (hn m hm))]

/-- The points of an ascending list in their turn, from a number `k` of points that came into view before. -/
theorem State.unsuppressed_foldl (c : TripNo) {l : List PointNo} (hl : l.Pairwise (· < ·)) (s : State) (k : Nat) :
    ∃ t new, l.foldl (fun x n => let y := x.1.unsuppress c n; (y.1, x.2 + if y.2 then 1 else 0)) (s, k) = (t, k + new) ∧
      s.Unsuppressed c l t new := by
  induction l generalizing s k with
  | nil => exact ⟨s, 0, rfl, rfl, rfl, rfl, fun _ _ => rfl, fun n hn => (List.not_mem_nil hn).elim,
      fun n hn => (List.not_mem_nil hn).elim⟩
  | cons n l ih =>
    obtain ⟨hn, hl⟩ := List.pairwise_cons.mp hl
    obtain ⟨t, new, e, h⟩ := ih hl (s.unsuppress c n).1 (k + if (s.unsuppress c n).2 then 1 else 0)
    exact ⟨t, _, by rw [List.foldl_cons, e, Nat.add_assoc], h.cons hn⟩

theorem State.unsuppressAll_spec (c : TripNo) (s : State) :
    s.Unsuppressed c (List.finRange 2048) (s.unsuppressAll c).1 (s.unsuppressAll c).2 := by
  obtain ⟨t, new, e, h⟩ := s.unsuppressed_foldl c (List.pairwise_lt_finRange 2048) 0
  rw [show s.unsuppressAll c = (t, 0 + new) from e, Nat.zero_add]
  exact h

theorem iterate_nextSeq {x k : Nat} (h : x + k ≤ Config.maxSeq) : nextSeq^[k] x = x + k := by
  induction k generalizing x with
  | zero => rfl
  | succ k ih =>
    have hx : nextSeq x = x + 1 := by unfold nextSeq; omega
    rw [Function.iterate_succ_apply, hx, ih (by omega)]
    omega

theorem iterate_nextSeq_finRange (p : PointNo → Bool) (h : s.raiseCounter + 2048 ≤ Config.maxSeq) :
    nextSeq^[(List.finRange 2048).countP p] s.raiseCounter = s.raiseCounter + (List.finRange 2048).countP p := by
  have : (List.finRange 2048).countP p ≤ 2048 := List.countP_le_length.trans_eq List.length_finRange
  exact iterate_nextSeq (by omega)

/-- Settles O45: each point in its turn, in ascending number. -/
theorem releaseUnsuppressesPoints : Obligations.ReleaseUnsuppressesPoints := by
  intro c s
  dsimp only
  obtain ⟨hnew, hrest, hnumber, -, hback, hstays⟩ := s.unsuppressAll_spec c
  refine ⟨hnew, fun hs => ?_, hrest, fun n => ⟨fun hs hb => ?_, fun hb => ?_⟩⟩
  · rw [hnumber, iterate_nextSeq_finRange _ hs]
  · rw [hback n (List.mem_finRange n) hb, iterate_nextSeq_finRange _ hs]; rfl
  · exact hstays n (List.mem_finRange n) hb

end Sys2Proof.Machine

/-!
The members of a GROUP entry (R110): which of them are examined, which join the code's suppression, and where a faulty one
stops the run (R114).
-/

namespace Sys2Proof.Machine

variable {s t : State} {c : TripNo} {g : Group}

/-- A count over a list without duplicates, where the test changes at one element. -/
theorem countP_change_one {α : Type} {l : List α} {m : α} {p q : α → Bool} (hl : l.Nodup) (hm : m ∈ l)
    (h : ∀ n, n ≠ m → p n = q n) :
    l.countP p + (if q m then 1 else 0) = l.countP q + (if p m then 1 else 0) := by
  induction l with
  | nil => cases hm
  | cons a l ih =>
    obtain ⟨ha, hl⟩ := List.nodup_cons.mp hl
    rw [List.countP_cons, List.countP_cons]
    by_cases e : a = m
    · subst e
      have : l.countP p = l.countP q := List.countP_congr fun n hn => by rw [h n fun e => ha (e ▸ hn)]
      omega
    · have := ih hl ((List.mem_cons.mp hm).resolve_left (Ne.symm e))
      rw [h a e]
      omega

theorem any_congr_mem {α : Type} {l : List α} {p q : α → Bool} (h : ∀ x ∈ l, p x = q x) : l.any p = l.any q := by
  rw [Bool.eq_iff_iff, List.any_eq_true, List.any_eq_true]
  exact exists_congr fun x => and_congr_right fun hx => by rw [h x hx]

theorem all_congr_mem {α : Type} {l : List α} {p q : α → Bool} (h : ∀ x ∈ l, p x = q x) : l.all p = l.all q := by
  rw [Bool.eq_iff_iff, List.all_eq_true, List.all_eq_true]
  exact forall_congr' fun x => imp_congr_right fun hx => by rw [h x hx]

/-! ### One member -/

/-- Member `i` of the group is selected and has the number of point `n`. -/
def Group.names (g : Group) (i : Fin 32) (n : PointNo) : Bool := g.selection.getLsbD i.val && n.val == g.base.val + i.val

/-- Member `i` of the group is selected, and is beyond the table or faulty by R110's tests. -/
def State.faultyMember (s : State) (c : TripNo) (g : Group) (i : Fin 32) : Bool :=
  g.selection.getLsbD i.val && match below 2048 (g.base.val + i.val) with
    | none => true
    | some n => s.memberOutcome c g n == .fault

/-- By R110's tests the point joins the suppression of code `c` as one that is no member yet. -/
def State.newMember (s : State) (c : TripNo) (g : Group) (n : PointNo) : Bool :=
  s.memberOutcome c g n == .joins && !(s.point n).suppression.contains c

/-- One of the listed members with no faulty one before it is point `n`, and joins. -/
def State.joinsFrom (s : State) (c : TripNo) (g : Group) (l : List (Fin 32)) (n : PointNo) : Bool :=
  (l.any fun i => g.names i n && l.all fun j => j ≥ i || !s.faultyMember c g j) && s.newMember c g n

/-- The record of a point that code `c` joins (R110, R14). -/
def Point.suppressedBy (c : TripNo) (p : Point) : Point :=
  { p with
    suppression := insertCode c p.suppression
    ann := if p.hidden then p.ann else .normal
    postTrip := if p.hidden then p.postTrip else false }

theorem below_some {n k : Nat} {m : Fin n} (h : below n k = some m) : m.val = k := by
  unfold below at h
  split at h
  · cases h; rfl
  · cases h

theorem Group.names_below {i : Fin 32} {m n : PointNo} (hm : below 2048 (g.base.val + i.val) = some m)
    (hs : g.selection.getLsbD i.val) : g.names i n = decide (n = m) := by
  have := below_some hm
  simp only [Group.names, hs, Bool.true_and, Fin.ext_iff, this]
  rfl

/-! ### One suppression -/

theorem State.point_suppress (c : TripNo) (m n : PointNo) (h : (s.point m).suppression.contains c = false) :
    (s.suppress c m).point n = if n = m then (s.point m).suppressedBy c else s.point n := by
  have e (p : Point) : (if p.hidden then { p with suppression := insertCode c p.suppression }
      else { p with suppression := insertCode c p.suppression, ann := .normal, postTrip := false })
      = p.suppressedBy c := by unfold Point.suppressedBy; split <;> rfl
  unfold State.suppress
  rw [if_neg (by simpa using h), State.addReason_eq, State.point_setPoint]
  split
  · exact e (s.point m)
  · rfl

theorem State.code_suppress (c d : TripNo) (m : PointNo) (h : (s.point m).suppression.contains c = false) :
    (s.suppress c m).code d = if d = c then { s.code c with suppressed := (s.code c).suppressed + 1 } else s.code d := by
  unfold State.suppress
  rw [if_neg (by simpa using h), State.addReason_eq, State.setPoint_code, State.code_modCode]

/-- R110's tests on a point that a group's change leaves alone. -/
theorem State.GroupChanges.memberOutcome {n : PointNo} (h : s.GroupChanges t) (hn : t.point n = s.point n) :
    t.memberOutcome c g n = s.memberOutcome c g n := by
  have areas : (t.code c).areas = (s.code c).areas := by rw [h.code c]
  have exist : t.exists? (s.point n) = s.exists? (s.point n) := by rw [h.rest]; rfl
  simp only [State.memberOutcome, hn, areas, exist]

/-! ### The members in their turn -/

/-- The members of an ascending list, in a run of a GROUP entry of code `c` that took the part from `s` to `t`. -/
structure State.Grouped (c : TripNo) (g : Group) (l : List (Fin 32)) (s t : State) (faulty : Bool) : Prop where
  faulty : faulty = l.any (s.faultyMember c g)
  points : ∀ n, t.point n = if s.joinsFrom c g l n then (s.point n).suppressedBy c else s.point n
  count  : (t.code c).suppressed = (s.code c).suppressed + (List.finRange 2048).countP (s.joinsFrom c g l)
  others : ∀ d, d ≠ c → t.code d = s.code d

theorem State.joinsFrom_cons {i : Fin 32} {l : List (Fin 32)} (hi : ∀ j ∈ l, i < j) (n : PointNo) :
    s.joinsFrom c g (i :: l) n
      = ((g.names i n && s.newMember c g n) || (!s.faultyMember c g i && s.joinsFrom c g l n)) := by
  have first : (l.all fun j => j ≥ i || !s.faultyMember c g j) = true :=
    List.all_eq_true.mpr fun j hj => by simp [Fin.le_of_lt (hi j hj)]
  have rest : (l.any fun k => g.names k n && ((i ≥ k || !s.faultyMember c g i)
        && l.all fun j => j ≥ k || !s.faultyMember c g j))
      = (!s.faultyMember c g i && l.any fun k => g.names k n && l.all fun j => j ≥ k || !s.faultyMember c g j) := by
    rw [List.and_any_distrib_left]
    refine any_congr_mem fun k hk => ?_
    rw [decide_eq_false (Fin.not_le.mpr (hi k hk)), Bool.false_or, Bool.and_left_comm]
  unfold State.joinsFrom
  simp only [List.any_cons, List.all_cons, ge_iff_le, Fin.le_refl, decide_true, Bool.true_or, Bool.true_and]
  simp only [ge_iff_le] at first rest
  rw [first, rest, Bool.and_true, Bool.and_or_distrib_right, Bool.and_assoc (!_)]

/-- Where the first member of a list does not join, the rest of the list says what joins. -/
theorem State.joinsFrom_skip {i : Fin 32} {l : List (Fin 32)} (hi : ∀ j ∈ l, i < j) (hf : s.faultyMember c g i = false)
    (hn : ∀ n, g.names i n → s.newMember c g n = false) : s.joinsFrom c g (i :: l) = s.joinsFrom c g l := by
  funext n
  have : (g.names i n && s.newMember c g n) = false := by cases h : g.names i n <;> simp [hn, h]
  rw [State.joinsFrom_cons hi, this, hf]
  rfl

theorem State.Grouped.skip {i : Fin 32} {l : List (Fin 32)} {faulty : Bool} (hi : ∀ j ∈ l, i < j)
    (hf : s.faultyMember c g i = false) (hn : ∀ n, g.names i n → s.newMember c g n = false)
    (h : s.Grouped c g l t faulty) : s.Grouped c g (i :: l) t faulty := by
  obtain ⟨hfaulty, hpoints, hcount, hothers⟩ := h
  have e := s.joinsFrom_skip hi hf hn
  exact ⟨by rw [hfaulty, List.any_cons, hf, Bool.false_or], by simpa only [e] using hpoints, by rw [e]; exact hcount, hothers⟩

/-- A faulty member stops the run (R114). -/
theorem State.Grouped.stop {i : Fin 32} {l : List (Fin 32)} (hi : ∀ j ∈ l, i < j) (hf : s.faultyMember c g i)
    (hn : ∀ n, g.names i n → s.newMember c g n = false) : s.Grouped c g (i :: l) s true := by
  have e : s.joinsFrom c g (i :: l) = fun _ => false := by
    funext n
    have : (g.names i n && s.newMember c g n) = false := by cases h : g.names i n <;> simp [hn, h]
    rw [State.joinsFrom_cons hi, this, hf]
    rfl
  exact ⟨by rw [List.any_cons, hf, Bool.true_or], fun n => by simp [e], by simp [e], fun _ _ => rfl⟩

theorem Group.names_other {i j : Fin 32} {n : PointNo} (hij : i ≠ j) (h : g.names i n) : g.names j n = false := by
  have hn : n.val = g.base.val + i.val := by
    simp only [Group.names, Bool.and_eq_true, beq_iff_eq] at h; exact h.2
  have : n.val ≠ g.base.val + j.val := fun e => hij (Fin.ext (by omega))
  simp [Group.names, this]

/-- A member that joins: the tests of the later members are on other points. -/
theorem State.Grouped.join {i : Fin 32} {l : List (Fin 32)} {m : PointNo} {faulty : Bool} (hi : ∀ j ∈ l, i < j)
    (hs : g.selection.getLsbD i.val) (hm : below 2048 (g.base.val + i.val) = some m)
    (hj : s.memberOutcome c g m = .joins) (hc : (s.point m).suppression.contains c = false)
    (h : (s.suppress c m).Grouped c g l t faulty) : s.Grouped c g (i :: l) t faulty := by
  obtain ⟨hfaulty, hpoints, hcount, hothers⟩ := h
  have other (n : PointNo) (hn : n ≠ m) : (s.suppress c m).point n = s.point n := by
    rw [State.point_suppress c m n hc, if_neg hn]
  have named : g.names i m := by simp [Group.names_below hm hs]
  have unnamed (j : Fin 32) (h : j ∈ l) : g.names j m = false := Group.names_other (Fin.ne_of_lt (hi j h)) named
  have sound : s.faultyMember c g i = false := by simp [State.faultyMember, hs, hm, hj]
  have new : s.newMember c g m := by simp only [State.newMember, hj, hc]; rfl
  have tests (j : Fin 32) (h : j ∈ l) : (s.suppress c m).faultyMember c g j = s.faultyMember c g j := by
    unfold State.faultyMember
    cases hsj : g.selection.getLsbD j.val with
    | false => rfl
    | true =>
      cases hb : below 2048 (g.base.val + j.val) with
      | none => rfl
      | some n =>
        have : n ≠ m := fun e => by
          have := unnamed j h
          rw [Group.names_below hb hsj, e] at this
          simp at this
        dsimp only
        rw [(s.suppress_changes c m).memberOutcome (other n this)]
  have absent (u : State) : u.joinsFrom c g l m = false := by
    have : (l.any fun k => g.names k m && l.all fun j => j ≥ k || !u.faultyMember c g j) = false :=
      List.any_eq_false.mpr fun j hj => by simp [unnamed j hj]
    rw [State.joinsFrom, this, Bool.false_and]
  have later : (s.suppress c m).joinsFrom c g l = s.joinsFrom c g l := by
    funext n
    by_cases hn : n = m
    · rw [hn, absent, absent]
    · have member : (s.suppress c m).newMember c g n = s.newMember c g n := by
        simp only [State.newMember, (s.suppress_changes c m).memberOutcome (other n hn), other n hn]
      have before (k : Fin 32) : (l.all fun j => j ≥ k || !(s.suppress c m).faultyMember c g j)
          = l.all fun j => j ≥ k || !s.faultyMember c g j :=
        all_congr_mem fun j hj => by rw [tests j hj]
      simp only [State.joinsFrom, member, before]
  have cons (n : PointNo) : s.joinsFrom c g (i :: l) n = (decide (n = m) || s.joinsFrom c g l n) := by
    rw [State.joinsFrom_cons hi, sound, Group.names_below hm hs]
    by_cases hn : n = m
    · simp [hn, new]
    · simp [hn]
  refine ⟨?_, fun n => ?_, ?_, fun d hd => ?_⟩
  · rw [hfaulty, List.any_cons, sound, Bool.false_or]
    exact any_congr_mem fun j hj => tests j hj
  · rw [hpoints, later, cons]
    by_cases hn : n = m
    · rw [hn, absent, State.point_suppress c m m hc]; simp
    · rw [other n hn]; simp [hn]
  · have := countP_change_one (p := s.joinsFrom c g (i :: l)) (q := s.joinsFrom c g l) (List.nodup_finRange 2048)
      (List.mem_finRange m) fun n hn => by rw [cons]; simp [hn]
    rw [absent, cons, absent] at this
    rw [hcount, later, State.code_suppress c c m hc]
    simp only [decide_true, Bool.true_or, if_true, Bool.false_eq_true, if_false] at this ⊢
    omega
  · rw [hothers d hd, State.code_suppress c d m hc, if_neg hd]

theorem State.runMembers_spec (c : TripNo) (g : Group) {l : List (Fin 32)} (hl : l.Pairwise (· < ·)) (s : State) :
    s.Grouped c g l (s.runMembers c g l).1 (s.runMembers c g l).2 := by
  induction l generalizing s with
  | nil => exact ⟨rfl, fun _ => rfl, by simp [State.runMembers, State.joinsFrom], fun _ _ => rfl⟩
  | cons i l ih =>
    obtain ⟨hi, hl⟩ := List.pairwise_cons.mp hl
    unfold State.runMembers
    split
    · rename_i hs
      split
      · rename_i hb
        refine .stop hi (by simp [State.faultyMember, hs, hb]) fun n hn => ?_
        have := n.isLt
        unfold below at hb
        simp only [Group.names, Bool.and_eq_true, beq_iff_eq] at hn
        split at hb
        · cases hb
        · omega
      · rename_i m hb
        have notNew (h : s.newMember c g m = false) (n : PointNo) (hn : g.names i n) : s.newMember c g n = false := by
          rw [Group.names_below hb hs, decide_eq_true_eq] at hn
          rw [hn, h]
        split
        · rename_i ho
          exact .stop hi (by simp [State.faultyMember, hs, hb, ho]) (notNew (by simp [State.newMember, ho]))
        · rename_i ho
          cases hc : (s.point m).suppression.contains c with
          | false => exact .join hi hs hb ho hc (ih hl _)
          | true =>
            rw [show s.suppress c m = s by unfold State.suppress; rw [if_pos hc]]
            exact .skip hi (by simp [State.faultyMember, hs, hb, ho]) (notNew (by simp only [State.newMember, hc]; simp))
              (ih hl s)
        all_goals
          rename_i ho
          exact .skip hi (by simp [State.faultyMember, hs, hb, ho]) (notNew (by simp [State.newMember, ho])) (ih hl s)
    · rename_i hs
      simp only [Bool.not_eq_true] at hs
      exact .skip hi (by simp only [State.faultyMember, hs, Bool.false_and])
        (fun n hn => by simp only [Group.names, hs, Bool.false_and, Bool.false_eq_true] at hn) (ih hl s)

theorem State.runGroup_spec {faulty : Bool} (h : s.runGroup c g = (t, faulty)) :
    s.Grouped c g (List.finRange 32) t faulty := by
  have := s.runMembers_spec c g (List.pairwise_lt_finRange 32)
  rwa [show s.runMembers c g (List.finRange 32) = (t, faulty) from h] at this

/-! ### R110's tests, as the statement spells them -/

/-- The point exists and is in service. -/
def State.inService (s : State) (n : PointNo) : Bool := s.exists? (s.point n) && !(s.point n).outOfService

theorem State.inService_false {n : PointNo} : (!s.exists? (s.point n) || (s.point n).outOfService) = !s.inService n := by
  simp only [State.inService, Bool.not_and, Bool.not_not]

theorem State.memberOutcome_fault (c : TripNo) (g : Group) (n : PointNo) (s : State) :
    (s.memberOutcome c g n == .fault) = (s.inService n && !inSet (s.code c).areas (s.point n).area) := by
  unfold State.memberOutcome
  dsimp only
  rw [State.inService_false]
  cases s.inService n with
  | false => rfl
  | true =>
    cases inSet (s.code c).areas (s.point n).area with
    | false => rfl
    | true =>
      simp only [Bool.not_true, Bool.false_eq_true, if_false, Bool.and_false]
      split
      · rfl
      · split <;> rfl

theorem State.memberOutcome_joins (c : TripNo) (g : Group) (n : PointNo) (s : State) :
    (s.memberOutcome c g n == .joins) = (s.inService n && inSet (s.code c).areas (s.point n).area
      && g.spare < (s.point n).priority.num
      && (g.activeToo || (s.point n).condition != .active || (s.point n).hidden)) := by
  unfold State.memberOutcome
  dsimp only
  rw [State.inService_false]
  cases s.inService n with
  | false => rfl
  | true =>
    cases inSet (s.code c).areas (s.point n).area with
    | false => rfl
    | true =>
      simp only [Bool.not_true, Bool.false_eq_true, if_false, Bool.true_and]
      split
      · rename_i h
        rw [decide_eq_false (by omega)]
        rfl
      · rename_i h
        rw [decide_eq_true (by omega)]
        cases g.activeToo <;> cases (s.point n).condition <;> cases (s.point n).hidden <;> rfl

/-- Settles O43: the members in their turn, each with R110's tests. -/
theorem groupSuppressesMembers : Obligations.GroupSuppressesMembers := by
  intro c g faulty s t h inService covered isFault examined joins
  have fault (i : Fin 32) : s.faultyMember c g i = isFault i := by
    unfold State.faultyMember
    simp only [State.memberOutcome_fault]
    rfl
  have from_ (n : PointNo) : s.joinsFrom c g (List.finRange 32) n = joins n := by
    have named : ((List.finRange 32).any fun i => g.names i n
          && (List.finRange 32).all fun j => j ≥ i || !s.faultyMember c g j)
        = (List.finRange 32).any fun i => examined i && n.val == g.base.val + i.val := by
      refine any_congr_mem fun i _ => ?_
      simp only [examined, Group.names, fault]
      rw [Bool.and_right_comm]
    unfold State.joinsFrom State.newMember
    rw [named, State.memberOutcome_joins]
    simp only [joins, Bool.and_assoc]
    rfl
  obtain ⟨hfaulty, hpoints, hcount, hothers⟩ := State.runGroup_spec h
  have rest := (State.runGroup_changes h).rest
  refine ⟨?_, fun n => ?_, ?_, hothers, rest⟩
  · rw [hfaulty]; exact any_congr_mem fun i _ => fault i
  · rw [hpoints n, from_ n]; rfl
  · rw [hcount, show s.joinsFrom c g (List.finRange 32) = joins from funext from_]

end Sys2Proof.Machine

/-!
The trip unit's rules (R103, R106, R108) through every change that the owners make.
-/

namespace Sys2Proof.Machine

variable {s t : State}

/-! ### What the shared operations write -/

/-- The record of a point from which `f` removes a hiding reason: an ACTIVE point that nothing hides any more becomes NEW with
the raise sequence number (R15). -/
def Point.lessReason (f : Point → Point) (marked : Bool) (seq : Nat) (p : Point) : Point :=
  if p.hidden && !(f p).hidden && p.condition == .active
  then { f p with ann := .new, raiseSeq := some seq, acked := none, postTrip := marked } else f p

/-- The record of a point to which `f` adds a hiding reason (R14). -/
def Point.moreReason (f : Point → Point) (p : Point) : Point :=
  if p.hidden then f p else { f p with ann := .normal, postTrip := false }

theorem State.point_removeReason (n m : PointNo) (f : Point → Point) (marked : Bool) (s : State) :
    (s.removeReason n f marked).point m
      = if m = n then (s.point n).lessReason f marked (nextSeq s.raiseCounter) else s.point m := by
  unfold State.removeReason Point.lessReason
  dsimp only
  split
  · rw [State.point_becomeNew]
  · rw [State.point_setPoint]

theorem State.point_addReason (n m : PointNo) (f : Point → Point) (s : State) :
    (s.addReason n f).point m = if m = n then (s.point n).moreReason f else s.point m := by
  rw [State.addReason_eq, State.point_setPoint]
  rfl

theorem Point.suppression_lessReason (f : Point → Point) (marked : Bool) (seq : Nat) (p : Point) :
    (p.lessReason f marked seq).suppression = (f p).suppression := by unfold Point.lessReason; split <;> rfl

theorem Point.suppression_moreReason (f : Point → Point) (p : Point) :
    (p.moreReason f).suppression = (f p).suppression := by unfold Point.moreReason; split <;> rfl

theorem State.trip_removeReason (n : PointNo) (f : Point → Point) (marked : Bool) (s : State) :
    (s.removeReason n f marked).trip = s.trip := by
  obtain ⟨p, seq, e⟩ := s.removeReason_rest n f marked
  rw [e]; rfl

theorem State.trip_addReason (n : PointNo) (f : Point → Point) (s : State) : (s.addReason n f).trip = s.trip := by
  rw [State.addReason_eq]; rfl

theorem State.trip_dropShelfOf (n : PointNo) (s : State) : (s.dropShelfOf n).trip = s.trip := by
  unfold State.dropShelfOf; split <;> rfl

theorem State.point_dropShelfOf (n m : PointNo) (s : State) : (s.dropShelfOf n).point m = s.point m := by
  unfold State.dropShelfOf; split <;> rfl

/-! ### The suppression sets -/

/-- The two states have the same codes in every suppression set. -/
def State.SameSets (s t : State) : Prop := ∀ n, (t.point n).suppression = (s.point n).suppression

theorem State.SameSets.ofPoint {n : PointNo} {p : Point} (hp : p.suppression = (s.point n).suppression)
    (h : ∀ m, t.point m = if m = n then p else s.point m) : s.SameSets t := fun m => by
  rw [h m]
  split
  · rename_i e; rw [e, hp]
  · rfl

theorem State.setPoint_sets {n : PointNo} {p : Point} (hp : p.suppression = (s.point n).suppression) :
    s.SameSets (s.setPoint n p) := .ofPoint hp fun _ => State.point_setPoint ..

theorem State.becomeNew_sets {n : PointNo} {p : Point} {marked : Bool} (hp : p.suppression = (s.point n).suppression) :
    s.SameSets (s.becomeNew n marked p) := .ofPoint (n := n) (p := { p with
      ann := .new, raiseSeq := some (nextSeq s.raiseCounter), acked := none, postTrip := marked }) hp fun _ =>
    State.point_becomeNew ..

theorem State.removeReason_sets {n : PointNo} {f : Point → Point} {marked : Bool}
    (hf : (f (s.point n)).suppression = (s.point n).suppression) : s.SameSets (s.removeReason n f marked) :=
  .ofPoint ((Point.suppression_lessReason ..).trans hf) fun m => s.point_removeReason n m f marked

theorem State.addReason_sets {n : PointNo} {f : Point → Point}
    (hf : (f (s.point n)).suppression = (s.point n).suppression) : s.SameSets (s.addReason n f) :=
  .ofPoint ((Point.suppression_moreReason ..).trans hf) fun m => s.point_addReason n m f

theorem State.endShelf_sets (r : Shelf) (s : State) : s.SameSets (s.endShelf r) :=
  State.removeReason_sets (s := s.dropShelf r) rfl

theorem State.trip_endShelf (r : Shelf) (s : State) : (s.endShelf r).trip = s.trip := State.trip_removeReason ..

theorem State.Expires.sets (h : s.Expires t) : s.SameSets t := by
  induction h with
  | refl => exact fun _ => rfl
  | same _ k ih => exact fun n => by rw [k.point n, ih n]
  | counts _ ih => exact ih
  | ends _ r _ ih => exact fun n => (State.endShelf_sets r _ n).trans (ih n)

/-! ### The rules kept -/

/-- The rules speak of the trip unit and the suppression sets alone. -/
theorem State.TripsSound.same (h : s.TripsSound) (ht : t.trip = s.trip) (hp : s.SameSets t) : t.TripsSound := by
  have code (c : TripNo) : t.code c = s.code c := by simp only [State.code, ht]
  have entry (e : EntryNo) : t.tripEntry e = s.tripEntry e := by simp only [State.tripEntry, ht]
  exact {
    single := by simpa only [code] using h.single
    latched := by simpa only [code, ht] using h.latched
    count := by simpa only [code, hp _] using h.count
    idle := by simpa only [code, hp _] using h.idle
    ordered := by simpa only [hp _] using h.ordered
    spare := by simpa only [entry] using h.spare }

theorem State.TripsSound.leaves (h : s.TripsSound) (k : s.Leaves t) : t.TripsSound := h.same k.trip k.expires.sets

/-- The rules where the trip unit changes and no suppression set does: the codes' counts and which of them are IDLE stand, and
the running codes, the latch, the pending slot and the entries obey theirs. -/
theorem State.TripsSound.trip (h : s.TripsSound) (hp : s.SameSets t)
    (count : ∀ c, (t.code c).suppressed = (s.code c).suppressed)
    (idle : ∀ c, (t.code c).state = .idle → (s.code c).state = .idle)
    (single : ∀ c d, (t.code c).state.isRunning → (t.code d).state.isRunning → c = d)
    (latched : t.trip.latch → (∀ c, (t.code c).state.isRunning = false) ∧ t.trip.pending = none)
    (spare : ∀ e g last notify, t.tripEntry e = .group g last notify → 1 ≤ g.spare) : t.TripsSound where
  single := single
  latched := latched
  count c := by simpa only [count, hp _] using h.count c
  idle c hc n := by simpa only [hp _] using h.idle c (idle c hc) n
  ordered n := by simpa only [hp _] using h.ordered n
  spare := spare

/-- One code's record changes in its state alone. -/
theorem State.TripsSound.modState (h : s.TripsSound) {c : TripNo} {f : TripCode → TripCode}
    (hf : (f (s.code c)).suppressed = (s.code c).suppressed) (ht : ∀ d, t.code d = (s.modCode c f).code d)
    (hp : s.SameSets t) (idle : (f (s.code c)).state = .idle → (s.code c).state = .idle)
    (single : (f (s.code c)).state.isRunning → ∀ d, (s.code d).state.isRunning → d = c)
    (latched : t.trip.latch → (∀ d, (t.code d).state.isRunning = false) ∧ t.trip.pending = none)
    (store : t.trip.store = s.trip.store) : t.TripsSound := by
  have code (d : TripNo) : t.code d = if d = c then f (s.code c) else s.code d := by rw [ht, State.code_modCode]
  refine h.trip hp (fun d => ?_) (fun d => ?_) (fun d e hd he => ?_) latched fun e => ?_
  · rw [code]; split
    · rename_i hd; rw [hd, hf]
    · rfl
  · rw [code]; split
    · rename_i hd; rw [hd]; exact idle
    · exact id
  · rw [code] at hd he
    split at hd <;> split at he
    · rename_i hdc hec; rw [hdc, hec]
    · rename_i hdc _; rw [hdc, single hd e he]
    · rename_i hec; rw [hec, single he d hd]
    · exact h.single d e hd he
  · have : t.tripEntry e = s.tripEntry e := by simp only [State.tripEntry, store]
    rw [this]; exact h.spare e

/-! ### A code joins a set -/

theorem mem_insertCode {c d : TripNo} {l : List TripNo} : d ∈ insertCode c l ↔ d = c ∨ d ∈ l := by
  induction l with
  | nil => simp [insertCode]
  | cons e l ih =>
    unfold insertCode
    split
    · simp
    · split
      · rename_i h; simp [h]
      · rw [List.mem_cons, ih, List.mem_cons]; tauto

theorem insertCode_pairwise {c : TripNo} {l : List TripNo} (h : l.Pairwise (· < ·)) :
    (insertCode c l).Pairwise (· < ·) := by
  induction l with
  | nil => exact List.pairwise_singleton _ _
  | cons e l ih =>
    obtain ⟨he, hl⟩ := List.pairwise_cons.mp h
    unfold insertCode
    split
    · rename_i hc
      refine List.pairwise_cons.mpr ⟨fun d hd => ?_, h⟩
      rcases List.mem_cons.mp hd with rfl | hd
      exacts [hc, lt_trans hc (he d hd)]
    · rename_i hc
      split
      · exact h
      · rename_i hne
        refine List.pairwise_cons.mpr ⟨fun d hd => ?_, ih hl⟩
        rcases mem_insertCode.mp hd with rfl | hd
        · exact lt_of_le_of_ne (not_lt.mp hc) (Ne.symm hne)
        · exact he d hd

/-- A code that runs joins the set of a point that has not got it, which counts one more (R110). -/
theorem State.TripsSound.suppress (h : s.TripsSound) (c : TripNo) (n : PointNo) (hr : (s.code c).state.isRunning) :
    (s.suppress c n).TripsSound := by
  cases hc : (s.point n).suppression.contains c with
  | true => rw [show s.suppress c n = s by unfold State.suppress; rw [if_pos hc]]; exact h
  | false =>
    have point (m : PointNo) := State.point_suppress c n m hc
    have code (d : TripNo) := State.code_suppress c d n hc
    have state (d : TripNo) : ((s.suppress c n).code d).state = (s.code d).state := (s.suppress_changes c n).state d
    have rest := (s.suppress_changes c n).rest
    refine ⟨by simpa only [state] using h.single, fun hl => ?_, fun d => ?_, fun d hd m hm => ?_, fun m => ?_, fun e => ?_⟩
    · rw [rest] at hl ⊢
      exact ⟨fun d => by rw [← rest, state]; exact (h.latched hl).1 d, (h.latched hl).2⟩
    · have := countP_change_one (p := fun m => ((s.suppress c n).point m).suppression.contains d)
        (q := fun m => (s.point m).suppression.contains d) (List.nodup_finRange 2048) (List.mem_finRange n)
        fun m hm => by simp only [point, if_neg hm]
      have count := h.count d
      have hn : ((s.suppress c n).point n).suppression.contains d = (decide (d = c) || (s.point n).suppression.contains d) := by
        rw [point, if_pos rfl, Bool.eq_iff_iff]
        simp [Point.suppressedBy, mem_insertCode]
      simp only [hn] at this
      rw [code]
      by_cases hd : d = c
      · subst hd
        simp only [hc, decide_true, Bool.or_false, if_true, Bool.false_eq_true, if_false] at this ⊢
        omega
      · simp only [hd, decide_false, Bool.false_or, if_false] at this ⊢
        omega
    · rw [state] at hd
      rw [point] at hm
      split at hm
      · rcases mem_insertCode.mp hm with rfl | hm
        · rw [hd] at hr; cases hr
        · exact h.idle d hd n hm
      · exact h.idle d hd m hm
    · rw [point]; split
      · exact insertCode_pairwise (h.ordered n)
      · exact h.ordered m
    · have : (s.suppress c n).tripEntry e = s.tripEntry e := by rw [rest]; rfl
      rw [this]; exact h.spare e

/-! ### Codes leave a set -/

theorem State.code_uncountSuppressed (cs : List TripNo) (s : State) (d : TripNo) :
    (s.uncountSuppressed cs).code d = { s.code d with suppressed := (s.code d).suppressed - cs.count d } := by
  induction cs generalizing s with
  | nil => rfl
  | cons c cs ih =>
    unfold State.uncountSuppressed at ih ⊢
    rw [List.foldl_cons, ih, State.code_modCode]
    by_cases hd : d = c
    · subst hd
      simp only [if_true, List.count_cons_self, Nat.sub_sub, Nat.add_comm]
    · rw [if_neg hd, List.count_cons_of_ne (Ne.symm hd)]

theorem State.uncountSuppressed_rest (cs : List TripNo) (s : State) :
    s.uncountSuppressed cs = { s with trip := { s.trip with codes := (s.uncountSuppressed cs).trip.codes } } := by
  unfold State.uncountSuppressed
  induction cs generalizing s with
  | nil => rfl
  | cons c cs ih => rw [List.foldl_cons, ih]; rfl

/-- A point goes out of service: its set is emptied, and each of its codes counts one less (R18). -/
theorem State.TripsSound.takeOut (h : s.TripsSound) (n : PointNo) : (s.outOfServiceAt n).TripsSound := by
  have nodup : (s.point n).suppression.Nodup := (h.ordered n).imp ne_of_lt
  have trip : (s.outOfServiceAt n).trip = ((s.dropShelfOf n).uncountSuppressed (s.point n).suppression).trip :=
    State.trip_addReason ..
  have code (d : TripNo) : (s.outOfServiceAt n).code d = { s.code d with
      suppressed := (s.code d).suppressed - if (s.point n).suppression.contains d then 1 else 0 } := by
    simp only [State.code, trip]
    refine ((s.dropShelfOf n).code_uncountSuppressed (s.point n).suppression d).trans ?_
    rw [nodup.count]
    simp only [State.code, State.trip_dropShelfOf, List.contains_iff_mem]
  have points (m : PointNo) : ((s.outOfServiceAt n).point m).suppression
      = if m = n then [] else (s.point m).suppression := by
    unfold State.outOfServiceAt
    rw [State.point_addReason]
    split
    · exact Point.suppression_moreReason ..
    · rw [State.uncountSuppressed_rest]
      exact congrArg Point.suppression (s.point_dropShelfOf n m)
  have rest : (s.outOfServiceAt n).trip = { s.trip with codes := (s.outOfServiceAt n).trip.codes } := by
    rw [trip, State.uncountSuppressed_rest, State.trip_dropShelfOf]
  refine ⟨by simpa only [code] using h.single, fun hl => ?_, fun d => ?_, fun d hd m hm => ?_, fun m => ?_, fun e => ?_⟩
  · rw [rest] at hl ⊢
    exact ⟨fun d => by rw [code]; exact (h.latched hl).1 d, (h.latched hl).2⟩
  · have := countP_change_one (p := fun m => ((s.outOfServiceAt n).point m).suppression.contains d)
      (q := fun m => (s.point m).suppression.contains d) (List.nodup_finRange 2048) (List.mem_finRange n)
      fun m hm => by simp only [points, if_neg hm]
    have count := h.count d
    simp only [points, if_true, List.contains_nil, Bool.false_eq_true, if_false] at this
    rw [code]
    simp only [points]
    omega
  · rw [code] at hd
    rw [points] at hm
    split at hm
    · cases hm
    · exact h.idle d hd m hm
  · rw [points]; split
    · exact .nil
    · exact h.ordered m
  · have : (s.outOfServiceAt n).tripEntry e = s.tripEntry e := by unfold State.tripEntry; rw [rest]
    rw [this]; exact h.spare e

/-- A code is released: it leaves every set and is IDLE (R117). -/
theorem State.TripsSound.release (h : s.TripsSound) {c : TripNo} {new : Nat}
    (hu : s.Unsuppressed c (List.finRange 2048) t new) : (t.modCode c TripCode.released).TripsSound := by
  obtain ⟨-, rest, -, -, back, stays⟩ := hu
  have points (n : PointNo) : (t.point n).suppression = (s.point n).suppression.filter (· != c) := by
    cases hb : s.comesBack c n with
    | true => rw [back n (List.mem_finRange n) hb]; rfl
    | false => rw [stays n (List.mem_finRange n) hb]; rfl
  have trip : t.trip = s.trip := by rw [rest]
  have code (d : TripNo) : (t.modCode c TripCode.released).code d = if d = c then (s.code c).released else s.code d := by
    rw [State.code_modCode]; simp only [State.code, trip]
  have running {d : TripNo} (hd : ((t.modCode c TripCode.released).code d).state.isRunning) :
      (s.code d).state.isRunning := by
    rw [code] at hd
    split at hd
    · cases hd
    · exact hd
  refine ⟨fun d e hd he => h.single d e (running hd) (running he), fun hl => ?_, fun d => ?_, fun d hd n hn => ?_,
    fun n => ?_, fun e => ?_⟩
  · have := h.latched (trip ▸ hl)
    refine ⟨fun d => ?_, (congrArg TripUnit.pending trip).trans this.2⟩
    cases hd : ((t.modCode c TripCode.released).code d).state.isRunning with
    | false => rfl
    | true => rw [← this.1 d, running hd]
  · have sets (n : PointNo) : ((t.modCode c TripCode.released).point n).suppression
        = (s.point n).suppression.filter (· != c) := points n
    simp only [sets]
    rw [code]
    split
    · rename_i hd
      subst hd
      rw [List.countP_eq_zero.mpr fun n _ => by simp]
      rfl
    · rename_i hd
      rw [h.count d]
      refine List.countP_congr fun n _ => ?_
      simp [hd]
  · have hn : d ∈ (s.point n).suppression.filter (· != c) := points n ▸ hn
    obtain ⟨hn, hdc⟩ := List.mem_filter.mp hn
    rw [code, if_neg (by simpa using hdc)] at hd
    exact h.idle d hd n hn
  · exact (points n ▸ (h.ordered n).filter _ : (t.point n).suppression.Pairwise (· < ·))
  · have : (t.modCode c TripCode.released).tripEntry e = s.tripEntry e := by
      simp only [State.tripEntry, State.modCode, trip]
    rw [this]; exact h.spare e

/-! ### Every owner's change -/

theorem TripState.isRunning_mapDeadline (f : Deadline → Deadline) (x : TripState) :
    (x.mapDeadline f).isRunning = x.isRunning := by cases x <;> rfl

theorem TripState.idle_mapDeadline {f : Deadline → Deadline} {x : TripState} (h : x.mapDeadline f = .idle) : x = .idle := by
  cases x with
  | idle => rfl
  | running => cases h
  | holding => cases h

theorem State.TripsSound.setClock (h : s.TripsSound) (n : Nat) : (s.setClock n).TripsSound := by
  have code (c : TripNo) : (s.setClock n).code c = { s.code c with
      state := (s.code c).state.mapDeadline (Deadline.move s.now n s.clock.timebase) } := by
    simp [State.setClock, State.mapDeadlines, State.code]
  refine h.trip (fun _ => rfl) (fun c => by rw [code]) (fun c hc => ?_) (fun c d hc hd => ?_) (fun hl => ⟨fun c => ?_, ?_⟩)
    h.spare
  · rw [code] at hc; exact TripState.idle_mapDeadline hc
  · rw [code, TripState.isRunning_mapDeadline] at hc hd; exact h.single c d hc hd
  · rw [code, TripState.isRunning_mapDeadline]; exact (h.latched hl).1 c
  · exact (h.latched hl).2

/-- A run that starts, with the pending slot emptied or as it was (R109). -/
theorem State.TripsSound.start (h : s.TripsSound) {c : TripNo} (idle : ∀ d, (s.code d).state.isRunning = false)
    (hl : s.trip.latch = false) : (s.startedRun c).TripsSound := by
  refine State.TripsSound.same (s := s.modCode c fun r => { r with
    state := .running r.start none, takenAt := some s.now, faulted := false
    suppressed := if r.state = .idle then 0 else r.suppressed }) ?_ (State.notify_trip _ _)
    (fun n => congrArg Point.suppression ((State.notify_sameShelves _ _).point n))
  refine h.trip (fun _ => rfl) (fun d => ?_) (fun d hd => ?_) (fun d e hd he => ?_) (fun hs => ?_) h.spare
  · rw [State.code_modCode]
    split
    · rename_i hd
      subst hd
      dsimp only
      split
      · rename_i hi
        rw [h.count, List.countP_eq_zero.mpr fun n _ => by simpa using h.idle d hi n]
      · rfl
    · rfl
  · rw [State.code_modCode] at hd
    split at hd
    · cases hd
    · exact hd
  · rw [State.code_modCode] at hd he
    split at hd <;> split at he
    · rename_i hdc hec; rw [hdc, hec]
    · rw [idle e] at he; cases he
    · rw [idle d] at hd; cases hd
    · rw [idle d] at hd; cases hd
  · rw [show s.trip.latch = true from hs] at hl; cases hl

theorem State.TripsSound.fault (h : s.TripsSound) {c : TripNo} (e : EntryNo) (hr : (s.code c).state.isRunning) :
    (s.faultedAt c e).TripsSound := by
  have only (d : TripNo) (hd : d ≠ c) : (s.code d).state.isRunning = false := by
    cases hx : (s.code d).state.isRunning with
    | false => rfl
    | true => exact absurd (h.single d c hx hr) hd
  have code (d : TripNo) : (s.faultedAt c e).code d
      = (s.modCode c fun r => { r with state := .holding (s.holdUntil c), faulted := true }).code d := by
    unfold State.faultedAt
    dsimp only
    split <;> simp only [State.code, State.notify_trip, State.modTrip]
  have pending : (s.faultedAt c e).trip.pending = none := by
    unfold State.faultedAt
    dsimp only
    split
    · rw [State.notify_trip]; rfl
    · rename_i hp
      rw [State.notify_trip]; exact hp
  have store : (s.faultedAt c e).trip.store = s.trip.store := by
    unfold State.faultedAt
    dsimp only
    split <;> simp only [State.modTrip, State.modCode, State.notify_trip]
  have sets : s.SameSets (s.faultedAt c e) := by
    intro n
    unfold State.faultedAt
    dsimp only
    split
    · rw [(State.notify_sameShelves _ _).point]
      exact congrArg Point.suppression ((State.notify_sameShelves _ _).point n)
    · rw [(State.notify_sameShelves _ _).point]; rfl
  refine h.modState (f := fun r => { r with state := .holding (s.holdUntil c), faulted := true }) rfl code sets
    (fun hx => by cases hx) (fun hx => by cases hx) (fun _ => ⟨fun d => ?_, pending⟩) store
  rw [code, State.code_modCode]
  split
  · rfl
  · rename_i hd; exact only d hd

theorem State.acknowledge_sets (n : PointNo) (o : Nat) (s : State) : s.SameSets (s.acknowledge n o) := by
  refine State.setPoint_sets ?_
  unfold Point.acknowledge
  rfl

theorem State.TripsSound.owns (h : s.TripsSound) (k : s.Owns t) : t.TripsSound := by
  cases k with
  | clock n => exact h.setClock n
  | tripCode c f hf =>
    have code (d : TripNo) : ((s.modCode c f).code d).state = (s.code d).state
        ∧ ((s.modCode c f).code d).suppressed = (s.code d).suppressed := by
      rw [State.code_modCode]
      split
      · rename_i hd; rw [hd]; exact hf _
      · exact ⟨rfl, rfl⟩
    exact h.trip (fun _ => rfl) (fun d => (code d).2) (fun d hd => (code d).1 ▸ hd)
      (by simpa only [code] using h.single) (fun hl => ⟨fun d => by rw [(code d).1]; exact (h.latched hl).1 d,
        (h.latched hl).2⟩) h.spare
  | tripUnit f hc hp hl he =>
    have code (d : TripNo) : (s.modTrip f).code d = s.code d := State.code_modTrip _ _ _ hc
    exact h.trip (fun _ => rfl) (fun d => by rw [code]) (fun d hd => code d ▸ hd) (by simpa only [code] using h.single)
      (fun hx => ⟨fun d => by rw [code]; exact (h.latched (hl hx)).1 d, hp.trans (h.latched (hl hx)).2⟩)
      fun e g last notify hg => (he e g last notify hg).elim (h.spare e g last notify) id
  | raiseHidden n => exact h.same rfl (State.setPoint_sets rfl)
  | raise n => exact h.same rfl (State.becomeNew_sets rfl)
  | clearHidden n => exact h.same rfl (State.setPoint_sets rfl)
  | clear n => exact h.same rfl (State.setPoint_sets rfl)
  | acknowledge n o => exact h.same rfl (s.acknowledge_sets n o)
  | shelve r => exact h.same (State.trip_addReason ..) (State.addReason_sets rfl)
  | unshelve n r => exact h.same (s.trip_endShelf r) (s.endShelf_sets r)
  | takeOut n => exact h.takeOut n
  | putBack n => exact h.same (State.trip_removeReason ..) (State.removeReason_sets rfl)
  | pend c r hr hl =>
    exact h.trip (fun _ => rfl) (fun _ => rfl) (fun _ => id) h.single
      (fun hx => by rw [show s.trip.latch = true from hx] at hl; cases hl) h.spare
  | start c idle hl => exact h.start idle hl
  | startPending c hp idle =>
    have hl : s.trip.latch = false := by
      cases hx : s.trip.latch with
      | false => rfl
      | true => rw [(h.latched hx).2] at hp; cases hp
    have : State.TripsSound { s with trip := { s.trip with pending := none } } :=
      h.trip (fun _ => rfl) (fun _ => rfl) (fun _ => id) h.single
        (fun hx => by rw [show s.trip.latch = true from hx] at hl; cases hl) h.spare
    exact this.start idle hl
  | suppress c n e g last notify hr => exact h.suppress c n hr
  | wait c e d hr =>
    exact h.modState rfl (fun _ => rfl) (fun _ => rfl) (fun hx => by cases hx) (fun _ d hd => h.single d c hd hr)
      (fun hl => by rw [(h.latched hl).1 c] at hr; cases hr) rfl
  | done c d hr =>
    exact h.modState rfl (fun _ => rfl) (fun _ => rfl) (fun hx => by cases hx) (fun hx => by cases hx)
      (fun hl => by rw [(h.latched hl).1 c] at hr; cases hr) rfl
  | fault c e hr => exact h.fault e hr
  | release c => exact h.release (s.unsuppressAll_spec c)

/-! ### The commands that rewrite the points -/

/-- What a request leads to from a rule that the link does not bear on. -/
theorem hostRequest_leads {P Q : State → Prop} {α : Type} {kind tag : Byte} {p : List Byte}
    {parse : List Byte → Option α} {m : TakenIn} {act : State → α → Answer} (hP : ∀ u l, P u → P { u with link := l })
    (hQ : ∀ u l, Q u → Q { u with link := l }) (hPQ : ∀ u, P u → Q u)
    (h : ∀ u x, m.refusal u.mode = none → P u → (act u x).Gives Q) (hs : P s)
    (e : hostRequest kind tag p parse m act s = .next t) : Q t := by
  have answer (u : State) (r : Answer) (hu : P u) (hr : r.Gives Q) : Q (u.answer kind tag r) := by
    unfold State.answer
    split
    · exact hQ _ _ (hPQ u hu)
    · exact hQ _ _ hr
  unfold hostRequest at e
  split at e
  · cases e; exact hPQ s hs
  · rename_i u hu
    have hu : P u := State.take_eq hu ▸ hP _ _ hs
    cases e
    exact answer u _ hu (checkRequest_gives fun x _ hm => h u x hm hu)

/-- A rule that the link does not bear on is kept by a request whose taking keeps it. -/
theorem hostRequest_keeps {P : State → Prop} {α : Type} {kind tag : Byte} {p : List Byte} {parse : List Byte → Option α}
    {m : TakenIn} {act : State → α → Answer} (hlink : ∀ u l, P u → P { u with link := l })
    (h : ∀ u x, m.refusal u.mode = none → P u → (act u x).Gives P) (hs : P s)
    (e : hostRequest kind tag p parse m act s = .next t) : P t :=
  hostRequest_leads hlink hlink (fun _ => id) h hs e

theorem State.TripsSound.idle_all (code : ∀ c, (s.code c).state = .idle ∧ (s.code c).suppressed = 0)
    (point : ∀ n, (s.point n).suppression = []) (latch : s.trip.latch = false)
    (spare : ∀ e g last notify, s.tripEntry e = .group g last notify → 1 ≤ g.spare) : s.TripsSound where
  single c d hc := by rw [(code c).1] at hc; cases hc
  latched hl := by rw [latch] at hl; cases hl
  count c := by
    rw [(code c).2, List.countP_eq_zero.mpr fun n _ => by simp [point]]
  idle c _ n := by simp [point]
  ordered n := by rw [point]; exact .nil
  spare := spare

theorem State.hardReset_trips (strapLow : Bool) (s : State) : (s.hardReset strapLow).TripsSound := by
  refine .idle_all (fun c => ?_) (fun n => ?_) rfl fun e g last notify h => ?_
  · simp [State.code, State.hardReset, TripUnit.reset, TripCode.reset]
  · simp [State.point, State.hardReset, State.reset, Point.reset]
  · simp [State.tripEntry, State.hardReset, TripUnit.reset] at h

theorem State.TripsSound.restart (h : s.TripsSound) : s.restart.TripsSound := by
  refine .idle_all (fun c => ?_) (fun n => ?_) rfl h.spare
  · simp [State.code, State.restart, State.deriveAttention, TripUnit.restart, TripCode.restart, TripCode.reset]
  · simp [State.point, State.restart, State.deriveAttention, Point.restart, Point.reset]

theorem State.storePoints_rest (first : Nat) (es : List PointEntry) (s : State) :
    s.storePoints first es = { s with points := (s.storePoints first es).points } := by
  induction es generalizing first s with
  | nil => rfl
  | cons e es ih =>
    unfold State.storePoints
    rw [ih]
    split <;> rfl

theorem State.storePoints_sets (first : Nat) (es : List PointEntry) (s : State) : s.SameSets (s.storePoints first es) := by
  induction es generalizing first s with
  | nil => exact fun _ => rfl
  | cons e es ih =>
    unfold State.storePoints
    intro n
    rw [ih]
    split
    · refine State.setPoint_sets ?_ n
      rfl
    · rfl

theorem exec_tripsSound {c : Instr} (h : s.TripsSound) (e : exec c s = .next t) : t.TripsSound := by
  have link (u : State) (l : Link) (hu : u.TripsSound) : State.TripsSound { u with link := l } := hu.same rfl fun _ => rfl
  cases hc : rewritesPoints c with
  | false =>
    obtain ⟨u, hu, k⟩ := exec_moves hc s
    cases hu.symm.trans e
    exact k.keeps (fun _ _ hs hl => hs.leaves hl) (fun _ _ hs ho => hs.owns ho) h
  | true =>
    cases c with
    | hardReset strap => cases e; exact s.hardReset_trips strap
    | restart =>
      refine hostRequest_keeps link (fun u _ _ hu => ?_) h e
      exact hu.restart
    | start =>
      refine hostRequest_keeps link (fun u x _ hu => ?_) h e
      unfold actStart
      split
      · trivial
      · exact hu.trip (fun _ => rfl) (fun _ => rfl) (fun _ => id) hu.single hu.latched hu.spare
    | loadPoints =>
      refine hostRequest_keeps link (fun u x _ hu => ?_) h e
      exact hu.same (by rw [State.storePoints_rest]) (State.storePoints_sets x.1 x.2 u)
    | setPoint =>
      refine hostRequest_keeps link (fun u x _ hu => ?_) h e
      unfold actSetPoint
      dsimp only
      split
      · trivial
      · split
        · trivial
        · split
          · trivial
          · exact hu.same rfl (State.setPoint_sets rfl)
    | _ => cases hc

/-- What every command keeps, the queue of commands aside, every step keeps. -/
theorem step_keeps {P Q : State → Prop} (hq : ∀ u l, P u → P { u with pending := l }) (hs : P s)
    (idle : Q s) (h : ∀ c u v, P u → exec c u = .next v → Q v) (e : step s = .next t) : Q t := by
  unfold step at e
  split at e
  · cases e; exact idle
  · exact h _ _ _ (hq _ _ hs) e

/-- Settles O6: the rules are kept by every owner's change and by what else an event does. -/
theorem tripRulesKept : Obligations.TripRulesKept := fun _ _ h e =>
  step_keeps (P := State.TripsSound) (fun _ _ hu => hu.same rfl fun _ => rfl) h h (fun _ _ _ hu he => exec_tripsSound hu he) e

end Sys2Proof.Machine

/-!
The points' combinations (R3, R11 to R13, R4) and the matching of shelf records with shelved points (R79) through every change
that the owners make.
-/

namespace Sys2Proof.Machine

variable {s t u : State} {p q : Point} {k k' : Nat}

/-! ### One point -/

/-- What `State.PointsSound` says of one point, the counter standing at `k`. -/
structure Point.Sound (k : Nat) (p : Point) : Prop where
  hidden    : p.hidden → p.ann = .normal
  active    : p.hidden = false → p.condition = .active → p.ann = .new ∨ p.ann = .acked
  clear     : p.condition = .clear → p.ann = .normal ∨ p.ann = .faded
  emergency : p.priority = .p1 → p.shelved = false ∧ p.suppression = []
  service   : p.outOfService → p.shelved = false ∧ p.suppression = []
  marked    : p.postTrip → p.ann = .new
  unacked   : p.ann = .new → p.acked = none
  acked     : p.ann = .acked → p.acked ≠ none
  seen      : p.ann ≠ .normal → p.raiseSeq ≠ none
  number    : ∀ x, p.raiseSeq = some x → 1 ≤ x ∧ x ≤ k

theorem State.pointsSound_iff :
    s.PointsSound ↔ (∀ n, (s.point n).Sound s.raiseCounter) ∧ s.raiseCounter ≤ Config.maxSeq :=
  ⟨fun h => ⟨fun n => ⟨h.hidden n, h.active n, h.clear n, h.emergency n, h.service n, h.marked n, h.unacked n, h.acked n,
      h.seen n, h.number n⟩, h.counter⟩,
    fun h => ⟨fun n => (h.1 n).hidden, fun n => (h.1 n).active, fun n => (h.1 n).clear, fun n => (h.1 n).emergency,
      fun n => (h.1 n).service, fun n => (h.1 n).marked, fun n => (h.1 n).unacked, fun n => (h.1 n).acked,
      fun n => (h.1 n).seen, fun n => (h.1 n).number, h.2⟩⟩

theorem Point.Sound.mono (h : p.Sound k) (hk : k ≤ k') : p.Sound k' :=
  { h with number := fun x hx => ⟨(h.number x hx).1, (h.number x hx).2.trans hk⟩ }

theorem nextSeq_le (k : Nat) : nextSeq k ≤ Config.maxSeq := Nat.min_le_right _ _

theorem le_nextSeq (h : k ≤ Config.maxSeq) : k ≤ nextSeq k := by unfold nextSeq; omega

theorem nextSeq_pos (k : Nat) : 1 ≤ nextSeq k := by unfold nextSeq Config.maxSeq; omega

/-- An unhidden ACTIVE point that becomes NEW with a number up to the counter (R4, R11, R12). -/
theorem Point.Sound.becomesNew {seq : Nat} (marked : Bool) (hh : q.hidden = false) (ha : q.condition = .active)
    (hs : 1 ≤ seq ∧ seq ≤ k) :
    Point.Sound k { q with ann := .new, raiseSeq := some seq, acked := none, postTrip := marked } := by
  have reasons : q.shelved = false ∧ q.outOfService = false ∧ q.suppression = [] := by
    simpa [Point.hidden, and_assoc] using hh
  obtain ⟨shelved, service, set⟩ := reasons
  exact {
    hidden := fun h => by rw [show q.hidden = true from h] at hh; cases hh
    active := fun _ _ => .inl rfl
    clear := fun h => by rw [show q.condition = .clear from h] at ha; cases ha
    emergency := fun _ => ⟨shelved, set⟩
    service := fun _ => ⟨shelved, set⟩
    marked := fun _ => rfl
    unacked := fun _ => rfl
    acked := fun h => by cases h
    seen := fun _ h => by cases h
    number := fun x h => by cases h; exact hs }

/-- `q` is the point `p` but for its hiding reasons, of which those of an emergency point and of one out of service are as
R13 and R18 say. -/
structure Point.Rehidden (p q : Point) : Prop where
  rest      : q = { p with shelved := q.shelved, outOfService := q.outOfService, suppression := q.suppression }
  emergency : q.priority = .p1 → q.shelved = false ∧ q.suppression = []
  service   : q.outOfService → q.shelved = false ∧ q.suppression = []

theorem Point.Rehidden.ann (h : p.Rehidden q) : q.ann = p.ann := by rw [h.rest]

theorem Point.Rehidden.condition (h : p.Rehidden q) : q.condition = p.condition := by rw [h.rest]

/-- Fewer reasons leave a point's record sound where it is hidden still, was in view before, or is CLEAR. -/
theorem Point.Sound.unhide (h : p.Sound k) (r : p.Rehidden q) (hh : q.hidden → p.hidden)
    (hc : q.hidden = false → p.hidden → p.condition = .clear) : q.Sound k where
  hidden hq := r.ann.trans (h.hidden (hh hq))
  active hq ha := by
    rw [r.ann]
    cases hp : p.hidden with
    | false => exact h.active hp (r.condition ▸ ha)
    | true => rw [r.condition, hc hq hp] at ha; cases ha
  clear hq := by rw [r.ann]; exact h.clear (r.condition ▸ hq)
  emergency := r.emergency
  service := r.service
  marked hq := by rw [r.ann]; rw [r.rest] at hq; exact h.marked hq
  unacked hq := by rw [r.rest]; exact h.unacked (r.ann ▸ hq)
  acked hq := by rw [r.rest]; exact h.acked (r.ann ▸ hq)
  seen hq := by rw [r.rest]; exact h.seen (r.ann ▸ hq)
  number x hq := by rw [r.rest] at hq; exact h.number x hq

/-- A point to which a hiding reason is added (R14). -/
theorem Point.Sound.moreReason {f : Point → Point} (h : p.Sound k) (r : p.Rehidden (f p)) (hh : (f p).hidden) :
    (p.moreReason f).Sound k := by
  unfold Point.moreReason
  split
  · rename_i hp
    exact h.unhide r (fun _ => hp) fun hq => by rw [hq] at hh; cases hh
  · exact {
      hidden := fun _ => rfl
      active := fun hq => by rw [show (f p).hidden = false from hq] at hh; cases hh
      clear := fun _ => .inl rfl
      emergency := r.emergency
      service := r.service
      marked := fun hq => by cases hq
      unacked := fun hq => by cases hq
      acked := fun hq => by cases hq
      seen := fun hq => (hq rfl).elim
      number := fun x hq => by
        have : (f p).raiseSeq = p.raiseSeq := by rw [r.rest]
        exact h.number x (this ▸ hq) }

/-- A hidden point is raised (R6). -/
theorem Point.Sound.raised (h : p.Sound k) (hh : p.hidden) (now : Nat) : (p.raised now).Sound k :=
  { h with
    active := fun hq => by rw [show p.hidden = false from hq] at hh; cases hh
    clear := fun hq => by cases hq }

/-- A hidden point is cleared (R9). -/
theorem Point.Sound.clearedHidden (h : p.Sound k) (hh : p.hidden) : Point.Sound k { p with condition := .clear } :=
  { h with
    active := fun _ hq => by cases hq
    clear := fun _ => .inl (h.hidden hh) }

/-- An unhidden ACTIVE point is cleared (R9, R12). -/
theorem Point.Sound.cleared (h : p.Sound k) (hh : p.hidden = false) (ha : p.condition = .active) : p.cleared.Sound k := by
  have ann : p.ann.cleared = .normal ∨ p.ann.cleared = .faded := by
    rcases h.active hh ha with e | e <;> rw [e] <;> simp [Annunciation.cleared]
  have seen (hq : p.ann.cleared ≠ .normal) : p.raiseSeq ≠ none := h.seen fun e => hq (by rw [e]; rfl)
  exact { h with
    hidden := fun hq => by rw [show p.hidden = true from hq] at hh; cases hh
    active := fun _ hq => by cases hq
    clear := fun _ => ann
    marked := fun hq => by cases hq
    unacked := fun hq => by rcases ann with e | e <;> rw [show p.ann.cleared = .new from hq] at e <;> cases e
    acked := fun hq => by rcases ann with e | e <;> rw [show p.ann.cleared = .acked from hq] at e <;> cases e
    seen := seen }

/-- A point is acknowledged (R71, R11, R12). -/
theorem Point.Sound.acknowledge (h : p.Sound k) (o now : Nat) : (p.acknowledge o now).Sound k := by
  have ann (hq : p.ann.acknowledged = .new) : False := by cases hp : p.ann <;> rw [hp] at hq <;> cases hq
  exact { h with
    hidden := fun hq => by
      show p.ann.acknowledged = .normal
      rw [h.hidden hq]; rfl
    active := fun hq ha => .inr (by
      show p.ann.acknowledged = .acked
      rcases h.active hq ha with e | e <;> rw [e] <;> rfl)
    clear := fun hq => .inl (by
      show p.ann.acknowledged = .normal
      rcases h.clear hq with e | e <;> rw [e] <;> rfl)
    marked := fun hq => by cases hq
    unacked := fun hq => (ann hq).elim
    acked := fun _ hq => by cases hq
    seen := fun hq => h.seen fun e => hq (by show p.ann.acknowledged = .normal; rw [e]; rfl) }

/-! ### Every point -/

/-- One point's record changes, and the counter may rise. -/
theorem State.PointsSound.update (h : s.PointsSound) {n : PointNo} (hp : ∀ m, t.point m = if m = n then p else s.point m)
    (hk : s.raiseCounter ≤ t.raiseCounter) (hm : t.raiseCounter ≤ Config.maxSeq) (hs : p.Sound t.raiseCounter) :
    t.PointsSound := by
  obtain ⟨sound, _⟩ := State.pointsSound_iff.mp h
  refine State.pointsSound_iff.mpr ⟨fun m => ?_, hm⟩
  rw [hp]
  split
  · exact hs
  · exact (sound m).mono hk

theorem State.PointsSound.at (h : s.PointsSound) (n : PointNo) : (s.point n).Sound s.raiseCounter :=
  (State.pointsSound_iff.mp h).1 n

theorem State.PointsSound.setPoint (h : s.PointsSound) {n : PointNo} (hp : p.Sound s.raiseCounter) :
    (s.setPoint n p).PointsSound := h.update (fun _ => State.point_setPoint ..) (Nat.le_refl _) h.counter hp

theorem State.PointsSound.becomeNew (h : s.PointsSound) {n : PointNo} (marked : Bool) (hh : p.hidden = false)
    (ha : p.condition = .active) : (s.becomeNew n marked p).PointsSound :=
  h.update (fun _ => State.point_becomeNew ..) (le_nextSeq h.counter) (nextSeq_le _)
    (.becomesNew marked hh ha ⟨nextSeq_pos _, Nat.le_refl _⟩)

theorem State.PointsSound.removeReason (h : s.PointsSound) {n : PointNo} {f : Point → Point} {marked : Bool}
    (r : (s.point n).Rehidden (f (s.point n))) (hh : (f (s.point n)).hidden → (s.point n).hidden) :
    (s.removeReason n f marked).PointsSound := by
  unfold State.removeReason
  dsimp only
  split
  · rename_i hn
    simp only [Bool.and_eq_true, Bool.not_eq_true', beq_iff_eq] at hn
    obtain ⟨⟨_, hidden⟩, active⟩ := hn
    exact h.becomeNew marked hidden (r.condition.trans active)
  · rename_i hn
    refine h.setPoint ((h.at n).unhide r hh fun hq hp => ?_)
    cases hc : (s.point n).condition with
    | clear => rfl
    | active => simp [hq, hp, hc] at hn

theorem State.PointsSound.addReason (h : s.PointsSound) {n : PointNo} {f : Point → Point}
    (r : (s.point n).Rehidden (f (s.point n))) (hh : (f (s.point n)).hidden) : (s.addReason n f).PointsSound := by
  rw [State.addReason_eq]
  exact h.setPoint ((h.at n).moreReason r hh)

/-- The rules speak of the points and the counter alone. -/
theorem State.PointsSound.same (h : s.PointsSound) (hp : t.points = s.points) (hc : t.raiseCounter = s.raiseCounter) :
    t.PointsSound := by
  have point (n : PointNo) : t.point n = s.point n := by simp only [State.point, hp]
  obtain ⟨sound, max⟩ := State.pointsSound_iff.mp h
  exact State.pointsSound_iff.mpr ⟨fun n => by rw [point, hc]; exact sound n, by rw [hc]; exact max⟩

end Sys2Proof.Machine

/-!
The shelf list (R79) through every change that the owners make, and the points and the shelf list together.
-/

namespace Sys2Proof.Machine

variable {s t u : State} {f : PointNo → Bool}

/-- The shelf list is sound for the points that `f` says are shelved. -/
structure State.ListsShelves (s : State) (f : PointNo → Bool) : Prop where
  once    : (s.shelves.map (·.point)).Nodup
  shelved : ∀ n, f n ↔ n ∈ s.shelves.map (·.point)
  count   : ∀ a, (s.area a).shelvedCount = s.shelves.countP (·.area == a)
  perArea : ∀ a, (s.area a).shelvedCount ≤ Config.shelvesPerArea
  size    : s.shelves.length ≤ Config.shelfListSize

theorem State.ShelvesSound.lists (h : s.ShelvesSound) : s.ListsShelves fun n => (s.point n).shelved :=
  ⟨h.once, h.shelved, h.count, h.perArea, h.size⟩

theorem State.ListsShelves.sound (h : s.ListsShelves f) (hs : t.shelves = s.shelves)
    (hc : ∀ a, (t.area a).shelvedCount = (s.area a).shelvedCount) (hf : ∀ n, (t.point n).shelved = f n) :
    t.ShelvesSound where
  once := hs ▸ h.once
  shelved n := by rw [hf, hs]; exact h.shelved n
  count a := by rw [hc, hs]; exact h.count a
  perArea a := by rw [hc]; exact h.perArea a
  size := hs ▸ h.size

theorem State.ShelvesSound.same (h : s.ShelvesSound) (hs : t.shelves = s.shelves)
    (hc : ∀ a, (t.area a).shelvedCount = (s.area a).shelvedCount) (hf : ∀ n, (t.point n).shelved = (s.point n).shelved) :
    t.ShelvesSound := h.lists.sound hs hc hf

/-- The records change in what neither their points nor their areas are. -/
theorem State.ShelvesSound.mapped (h : s.ShelvesSound) {g : Shelf → Shelf}
    (hg : ∀ r, (g r).point = r.point ∧ (g r).area = r.area) (hs : t.shelves = s.shelves.map g)
    (hc : ∀ a, (t.area a).shelvedCount = (s.area a).shelvedCount) (hp : ∀ n, t.point n = s.point n) : t.ShelvesSound := by
  have points : t.shelves.map (·.point) = s.shelves.map (·.point) := by
    rw [hs, List.map_map]
    exact List.map_congr_left fun r _ => (hg r).1
  have areas (a : AreaNo) : t.shelves.countP (·.area == a) = s.shelves.countP (·.area == a) := by
    rw [hs, List.countP_map]
    exact List.countP_congr fun r _ => by simp [(hg r).2]
  exact {
    once := points ▸ h.once
    shelved := fun n => by rw [hp, points]; exact h.shelved n
    count := fun a => by rw [hc, areas]; exact h.count a
    perArea := fun a => by rw [hc]; exact h.perArea a
    size := by rw [hs, List.length_map]; exact h.size }

/-- A record leaves the list (R79). -/
theorem State.ListsShelves.drop (h : s.ListsShelves f) {r : Shelf} (hr : r ∈ s.shelves) :
    (s.dropShelf r).ListsShelves fun n => f n && n != r.point := by
  have nodup : s.shelves.Nodup := .of_map _ h.once
  have list : (s.dropShelf r).shelves = s.shelves.erase r := by
    rw [nodup.erase_eq_filter]; rfl
  have sub : (s.shelves.erase r).Sublist s.shelves := List.erase_sublist
  have only (x : Shelf) (hx : x ∈ s.shelves) (e : x.point = r.point) : x = r :=
    List.inj_on_of_nodup_map h.once hx hr e
  have area (a : AreaNo) : ((s.dropShelf r).area a).shelvedCount
      = (s.area a).shelvedCount - if a = r.area then 1 else 0 := by
    unfold State.dropShelf
    rw [State.area_modArea]
    split
    · rename_i e; rw [e]; rfl
    · rfl
  refine ⟨?_, fun n => ?_, fun a => ?_, fun a => ?_, ?_⟩
  · rw [list]; exact h.once.sublist (sub.map _)
  · rw [list, Bool.and_eq_true, h.shelved n, bne_iff_ne, List.mem_map, List.mem_map]
    constructor
    · rintro ⟨⟨x, hx, rfl⟩, hn⟩
      exact ⟨x, (List.mem_erase_of_ne fun e => hn (congrArg Shelf.point e)).mpr hx, rfl⟩
    · rintro ⟨x, hx, rfl⟩
      exact ⟨⟨x, List.mem_of_mem_erase hx, rfl⟩, fun e =>
        (nodup.mem_erase_iff.mp hx).1 (only x (List.mem_of_mem_erase hx) e)⟩
  · rw [area, list, List.countP_erase, h.count]
    simp only [hr, true_and, beq_iff_eq]
    congr 2
    exact propext eq_comm
  · rw [area]; exact (Nat.sub_le _ _).trans (h.perArea a)
  · rw [list]; exact sub.length_le.trans h.size

theorem State.shelfOf?_some {n : PointNo} {r : Shelf} (h : s.shelfOf? n = some r) : r ∈ s.shelves ∧ r.point = n :=
  ⟨List.mem_of_find?_eq_some h, by simpa using List.find?_some h⟩

theorem State.ListsShelves.dropOf (h : s.ListsShelves f) (n : PointNo) :
    (s.dropShelfOf n).ListsShelves fun m => f m && m != n := by
  unfold State.dropShelfOf
  split
  · rename_i r hr
    obtain ⟨mem, rfl⟩ := State.shelfOf?_some hr
    exact h.drop mem
  · rename_i hn
    have absent : n ∉ s.shelves.map (·.point) := by
      simpa [State.shelfOf?, List.find?_eq_none] using hn
    refine { h with shelved := fun m => ?_ }
    rw [Bool.and_eq_true, h.shelved m, bne_iff_ne]
    exact ⟨And.left, fun hm => ⟨hm, fun e => absent (e ▸ hm)⟩⟩

/-- A record joins the list within the bounds (R79, R82). -/
theorem State.ShelvesSound.add (h : s.ShelvesSound) {r : Shelf} (hs : (s.point r.point).shelved = false)
    (ha : (s.area r.area).shelvedCount < Config.shelvesPerArea) (hl : s.shelves.length < Config.shelfListSize) :
    (s.addShelf r).ShelvesSound := by
  have list : (s.addShelf r).shelves = s.shelves ++ [r] := by unfold State.addShelf; rw [State.addReason_eq]; rfl
  have area (a : AreaNo) : ((s.addShelf r).area a).shelvedCount
      = (s.area a).shelvedCount + if a = r.area then 1 else 0 := by
    unfold State.addShelf
    rw [State.addReason_eq, State.setPoint_area, State.area_modArea]
    split
    · rename_i e; rw [e]; rfl
    · rfl
  have point (n : PointNo) : ((s.addShelf r).point n).shelved = ((s.point n).shelved || n == r.point) := by
    unfold State.addShelf
    rw [State.point_addReason]
    split
    · rename_i e
      rw [e, beq_self_eq_true, Bool.or_true]
      unfold Point.moreReason
      split <;> rfl
    · rename_i e
      rw [beq_false_of_ne e, Bool.or_false]; rfl
  have absent : r.point ∉ s.shelves.map (·.point) := fun hm => by
    rw [(h.shelved r.point).mpr hm] at hs; cases hs
  refine ⟨?_, fun n => ?_, fun a => ?_, fun a => ?_, ?_⟩
  · rw [list, List.map_append]
    exact h.once.append (List.nodup_singleton _) (by simpa using absent)
  · rw [point, list, List.map_append, List.mem_append, Bool.or_eq_true, h.shelved n]
    simp
  · rw [area, list, List.countP_append, h.count a]
    simp only [List.countP_singleton, beq_iff_eq]
    congr 2
    exact propext eq_comm
  · rw [area]
    split
    · rename_i e; rw [e]; omega
    · exact h.perArea a
  · rw [list, List.length_append]
    exact hl

/-! ### Points and shelves together -/

/-- What `State.ShelvesSound` and `State.PointsSound` say together. -/
structure State.ViewsSound (s : State) : Prop where
  shelves : s.ShelvesSound
  points  : s.PointsSound

/-- A record of the list ends (R83 to R85). -/
theorem State.ViewsSound.endShelf (h : s.ViewsSound) {r : Shelf} (hr : r ∈ s.shelves) : (s.endShelf r).ViewsSound := by
  have shelved : (s.point r.point).shelved := (h.shelves.shelved r.point).mpr (List.mem_map_of_mem hr)
  have points : (s.dropShelf r).PointsSound := h.points.same rfl rfl
  have rehidden : (s.point r.point).Rehidden { s.point r.point with shelved := false } :=
    ⟨rfl, fun hp => ⟨rfl, (h.points.emergency r.point hp).2⟩, fun hp => ⟨rfl, (h.points.service r.point hp).2⟩⟩
  refine ⟨(h.shelves.lists.drop hr).sound (State.shelves_endShelf r s) (fun a => ?_) fun n => ?_, ?_⟩
  · unfold State.endShelf
    obtain ⟨p, seq, e⟩ := (s.dropShelf r).removeReason_rest r.point (fun p => { p with shelved := false }) false
    rw [e]; rfl
  · unfold State.endShelf
    rw [State.point_removeReason]
    split
    · rename_i e
      rw [e, bne_self_eq_false, Bool.and_false]
      unfold Point.lessReason
      split <;> rfl
    · rename_i e
      rw [bne_iff_ne.mpr e, Bool.and_true]; rfl
  · exact points.removeReason rehidden fun _ => by
      show (s.point r.point).hidden
      simp [Point.hidden, shelved]

theorem State.ViewsSound.same (h : s.ViewsSound) (k : s.SameShelves t) : t.ViewsSound :=
  ⟨h.shelves.same k.shelves k.count fun n => by rw [k.point], h.points.same k.points k.counter⟩

theorem Shelf.countDown_area (r : Shelf) : r.countDown.area = r.area := by unfold Shelf.countDown; split <;> rfl

theorem State.ViewsSound.expires (h : s.ViewsSound) (k : s.Expires t) : t.ViewsSound := by
  induction k with
  | refl => exact h
  | same _ k ih => exact ih.same k
  | counts _ ih =>
    exact ⟨ih.shelves.mapped (fun r => ⟨r.countDown_point, r.countDown_area⟩) rfl (fun _ => rfl) fun _ => rfl,
      ih.points.same rfl rfl⟩
  | ends _ r hr ih => exact ih.endShelf (hr h.shelves.once)

/-- One point's record changes, its shelf flag aside. -/
theorem State.ViewsSound.ofPoints (h : s.ViewsSound) (hp : t.PointsSound) (hs : t.shelves = s.shelves)
    (ha : t.areas = s.areas) (hf : ∀ n, (t.point n).shelved = (s.point n).shelved) : t.ViewsSound :=
  ⟨h.shelves.same hs (fun a => by simp only [State.area, ha]) hf, hp⟩

theorem Point.shelved_lessReason (f : Point → Point) (marked : Bool) (seq : Nat) (p : Point) :
    (p.lessReason f marked seq).shelved = (f p).shelved := by unfold Point.lessReason; split <;> rfl

theorem Point.shelved_moreReason (f : Point → Point) (p : Point) : (p.moreReason f).shelved = (f p).shelved := by
  unfold Point.moreReason; split <;> rfl

/-- A point's record is written with its shelf flag as it was. -/
theorem State.shelved_setPoint {n : PointNo} {p : Point} (hp : p.shelved = (s.point n).shelved) (m : PointNo) :
    ((s.setPoint n p).point m).shelved = (s.point m).shelved := by
  rw [State.point_setPoint]
  split
  · rename_i e; rw [e, hp]
  · rfl

theorem State.ViewsSound.setPoint (h : s.ViewsSound) {n : PointNo} {p : Point} (hp : p.Sound s.raiseCounter)
    (hf : p.shelved = (s.point n).shelved) : (s.setPoint n p).ViewsSound :=
  h.ofPoints (h.points.setPoint hp) rfl rfl (State.shelved_setPoint hf)

theorem State.ViewsSound.becomeNew (h : s.ViewsSound) {n : PointNo} {p : Point} (marked : Bool) (hh : p.hidden = false)
    (ha : p.condition = .active) (hf : p.shelved = (s.point n).shelved) : (s.becomeNew n marked p).ViewsSound := by
  refine h.ofPoints (h.points.becomeNew marked hh ha) rfl rfl fun m => ?_
  rw [State.point_becomeNew]
  split
  · rename_i e; rw [e]; exact hf
  · rfl

theorem State.ViewsSound.takeOut (h : s.ViewsSound) (n : PointNo) : (s.outOfServiceAt n).ViewsSound := by
  have views : ((s.dropShelfOf n).uncountSuppressed (s.point n).suppression).points = s.points
      ∧ ((s.dropShelfOf n).uncountSuppressed (s.point n).suppression).raiseCounter = s.raiseCounter := by
    rw [State.uncountSuppressed_rest]
    unfold State.dropShelfOf
    split <;> exact ⟨rfl, rfl⟩
  have point (m : PointNo) : ((s.dropShelfOf n).uncountSuppressed (s.point n).suppression).point m = s.point m := by
    exact congrArg (·[m]) views.1
  refine ⟨(h.shelves.lists.dropOf n).sound ?_ (fun a => ?_) fun m => ?_, ?_⟩
  · unfold State.outOfServiceAt
    rw [State.addReason_eq, State.uncountSuppressed_rest]; rfl
  · unfold State.outOfServiceAt
    rw [State.addReason_eq, State.uncountSuppressed_rest]; rfl
  · unfold State.outOfServiceAt
    rw [State.point_addReason]
    split
    · rename_i e
      rw [e, bne_self_eq_false, Bool.and_false, Point.shelved_moreReason]
    · rename_i e
      rw [bne_iff_ne.mpr e, Bool.and_true, point]
  · refine (h.points.same views.1 views.2).addReason ⟨rfl, fun _ => ⟨rfl, rfl⟩, fun _ => ⟨rfl, rfl⟩⟩ ?_
    simp [Point.hidden]

theorem iterate_nextSeq_le (i : Nat) {k : Nat} (h : k ≤ Config.maxSeq) :
    k ≤ nextSeq^[i] k ∧ nextSeq^[i] k ≤ Config.maxSeq := by
  induction i generalizing k with
  | zero => exact ⟨Nat.le_refl _, h⟩
  | succ i ih =>
    obtain ⟨low, high⟩ := ih (nextSeq_le k)
    exact ⟨(le_nextSeq h).trans low, high⟩

theorem iterate_nextSeq_mono {i j k : Nat} (hij : i ≤ j) (h : k ≤ Config.maxSeq) : nextSeq^[i] k ≤ nextSeq^[j] k := by
  obtain ⟨d, rfl⟩ := Nat.exists_eq_add_of_le' hij
  rw [Function.iterate_add_apply]
  exact (iterate_nextSeq_le d (iterate_nextSeq_le i h).2).1

theorem iterate_nextSeq_pos {i : Nat} (k : Nat) (h : i ≠ 0) : 1 ≤ nextSeq^[i] k := by
  obtain ⟨i, rfl⟩ := Nat.exists_eq_succ_of_ne_zero h
  rw [Function.iterate_succ_apply']
  exact nextSeq_pos _

/-- A release: the points that come into view take numbers up to the counter's (R117). -/
theorem State.ViewsSound.release (h : s.ViewsSound) {c : TripNo} {new : Nat}
    (hu : s.Unsuppressed c (List.finRange 2048) t new) : (t.modCode c TripCode.released).ViewsSound := by
  obtain ⟨-, rest, number, -, back, stays⟩ := hu
  have shelved (n : PointNo) : (t.point n).shelved = (s.point n).shelved := by
    cases hb : s.comesBack c n with
    | true => rw [back n (List.mem_finRange n) hb]; rfl
    | false => rw [stays n (List.mem_finRange n) hb]; rfl
  have points : t.PointsSound := by
    refine State.pointsSound_iff.mpr ⟨fun n => ?_, by rw [number]; exact (iterate_nextSeq_le _ h.points.counter).2⟩
    have hidden := Point.without_hidden (c := c) (s.point n)
    cases hb : s.comesBack c n with
    | true =>
      rw [back n (List.mem_finRange n) hb, number]
      simp only [State.comesBack, Bool.and_eq_true, Bool.not_eq_true', beq_iff_eq] at hb
      obtain ⟨⟨⟨⟨mem, shelved⟩, service⟩, all⟩, active⟩ := hb
      refine .becomesNew true ?_ active ⟨iterate_nextSeq_pos _ ?_, iterate_nextSeq_mono ?_ h.points.counter⟩
      · rw [hidden, shelved, service, all]; rfl
      · refine (List.countP_pos_iff.mpr ⟨n, List.mem_finRange n, ?_⟩).ne'
        simp only [State.comesBack, mem, shelved, service, all, active]
        simp
      · refine List.countP_mono_left fun m _ hm => ?_
        exact (Bool.and_eq_true_iff.mp hm).2
    | false =>
      rw [stays n (List.mem_finRange n) hb, number]
      refine ((h.points.at n).unhide (q := (s.point n).without c) ⟨rfl, fun hp => ?_, fun hp => ?_⟩ (fun hq => ?_)
        fun hq hp => ?_).mono (iterate_nextSeq_le _ h.points.counter).1
      · obtain ⟨shelved, set⟩ := h.points.emergency n hp
        exact ⟨shelved, by simp [Point.without, set]⟩
      · obtain ⟨shelved, set⟩ := h.points.service n hp
        exact ⟨shelved, by simp [Point.without, set]⟩
      · by_contra hp
        simp only [Point.hidden, Bool.not_eq_true, Bool.or_eq_false_iff, Bool.not_eq_false', List.isEmpty_iff] at hp
        obtain ⟨⟨shelved, service⟩, set⟩ := hp
        simp [hidden, shelved, service, set] at hq
      · rw [hidden] at hq
        simp only [Bool.or_eq_false_iff, Bool.not_eq_false'] at hq
        obtain ⟨⟨shelved, service⟩, all⟩ := hq
        have mem : (s.point n).suppression.contains c := by
          cases hl : (s.point n).suppression with
          | nil => simp [Point.hidden, shelved, service, hl] at hp
          | cons d l => simp [hl] at all ⊢; exact .inl all.1.symm
        cases hc : (s.point n).condition with
        | clear => rfl
        | active => simp only [State.comesBack, mem, shelved, service, all, hc] at hb; cases hb
  refine h.ofPoints (points.same rfl rfl) ?_ ?_ shelved
  · show t.shelves = s.shelves
    rw [rest]
  · show t.areas = s.areas
    rw [rest]

/-- A member of a GROUP entry joins: it is in service, and no emergency point (R110, R13). -/
theorem State.ViewsSound.suppress (h : s.ViewsSound) {c : TripNo} {n : PointNo} {g : Group} (spare : 1 ≤ g.spare)
    (hj : s.memberOutcome c g n = .joins) : (s.suppress c n).ViewsSound := by
  unfold State.suppress
  split
  · exact h
  · have joins := State.memberOutcome_joins c g n s
    rw [hj, eq_comm] at joins
    simp only [beq_self_eq_true, Bool.and_eq_true, decide_eq_true_eq, State.inService, Bool.not_eq_true'] at joins
    obtain ⟨⟨⟨⟨_, service⟩, _⟩, num⟩, _⟩ := joins
    have rehidden : (s.point n).Rehidden { s.point n with suppression := insertCode c (s.point n).suppression } := by
      refine ⟨rfl, fun hp => ?_, fun hp => ?_⟩
      · rw [show (s.point n).priority = .p1 from hp] at num
        simp only [Priority.num] at num
        omega
      · rw [show (s.point n).outOfService = true from hp] at service; cases service
    have hidden : Point.hidden { s.point n with suppression := insertCode c (s.point n).suppression } := by
      have : insertCode c (s.point n).suppression ≠ [] := List.ne_nil_of_mem (mem_insertCode.mpr (.inl rfl))
      simp [Point.hidden, this]
    have points : (s.modCode c fun r => { r with suppressed := r.suppressed + 1 }).PointsSound := h.points.same rfl rfl
    refine h.ofPoints (points.addReason rehidden hidden) ?_ ?_ fun m => ?_
    · rw [State.addReason_eq]; rfl
    · rw [State.addReason_eq]; rfl
    · rw [State.point_addReason]
      split
      · rename_i e; rw [e]; exact Point.shelved_moreReason ..
      · rfl

theorem State.faultedAt_leaves (c : TripNo) (e : EntryNo) (s : State) : s.SameShelves (s.faultedAt c e) := by
  unfold State.faultedAt
  dsimp only
  have fault : s.SameShelves (((s.modCode c fun r => { r with state := .holding (s.holdUntil c), faulted := true }).modTrip
      fun x => { x with latch := true }).notify (.tripFault c e)) := by
    refine .trans ?_ (State.notify_sameShelves _ _)
    exact .ofAreas rfl rfl rfl rfl
  split
  · refine fault.trans (.trans ?_ (State.notify_sameShelves _ _))
    exact .ofAreas rfl rfl rfl rfl
  · exact fault

theorem State.startedRun_leaves (c : TripNo) (s : State) : s.SameShelves (s.startedRun c) := by
  refine .trans ?_ (State.notify_sameShelves _ _)
  exact .ofAreas rfl rfl rfl rfl

theorem State.ViewsSound.setClock (h : s.ViewsSound) (n : Nat) : (s.setClock n).ViewsSound := by
  refine ⟨h.shelves.mapped (g := fun r => { r with
    ending := r.ending.mapDeadline (Deadline.move s.now n s.clock.timebase) }) (fun r => ⟨rfl, rfl⟩) rfl (fun a => ?_)
    fun _ => rfl, h.points.same rfl rfl⟩
  simp [State.area, State.setClock, State.mapDeadlines]

theorem State.ViewsSound.owns (h : s.ViewsSound) (ht : s.TripsSound) (k : s.Owns t) : t.ViewsSound := by
  cases k with
  | clock n => exact h.setClock n
  | tripCode | tripUnit | pend | wait | done => exact h.same (.ofAreas rfl rfl rfl rfl)
  | raiseHidden n hh => exact h.setPoint ((h.points.at n).raised hh _) rfl
  | raise n hh => exact h.becomeNew false hh rfl rfl
  | clearHidden n hh => exact h.setPoint ((h.points.at n).clearedHidden hh) rfl
  | clear n hh ha => exact h.setPoint ((h.points.at n).cleared hh ha) rfl
  | acknowledge n o => exact h.setPoint ((h.points.at n).acknowledge o _) rfl
  | shelve r hp ho hs ha hl =>
    have points : (State.modArea r.area (fun x => { x with shelvedCount := x.shelvedCount + 1 })
        { s with shelves := s.shelves ++ [r] }).PointsSound := h.points.same rfl rfl
    refine ⟨h.shelves.add hs ha hl, points.addReason ⟨rfl, fun hq => ?_, fun hq => ?_⟩ ?_⟩
    · exact absurd hq hp
    · exact absurd (show (s.point r.point).outOfService = true from hq) (by simp [ho])
    · simp [Point.hidden]
  | unshelve n r hr => exact h.endShelf (State.shelfOf?_some hr).1
  | takeOut n => exact h.takeOut n
  | putBack n =>
    have hidden : Point.hidden { s.point n with outOfService := false } → (s.point n).hidden := by
      simp only [Point.hidden, Bool.or_false, Bool.or_eq_true]
      exact fun hq => hq.elim (fun a => .inl (.inl a)) .inr
    refine h.ofPoints (h.points.removeReason ⟨rfl, h.points.emergency n, fun hq => by cases hq⟩ hidden) ?_ ?_ fun m => ?_
    · obtain ⟨p, seq, e⟩ := s.removeReason_rest n (fun q => { q with outOfService := false }) false
      rw [e]; rfl
    · obtain ⟨p, seq, e⟩ := s.removeReason_rest n (fun q => { q with outOfService := false }) false
      rw [e]; rfl
    · rw [State.point_removeReason]
      split
      · rename_i e; rw [e]; exact Point.shelved_lessReason ..
      · rfl
  | start c => exact h.same (s.startedRun_leaves c)
  | startPending c =>
    refine h.same (.trans ?_ (State.startedRun_leaves c _))
    exact .ofAreas rfl rfl rfl rfl
  | suppress c n e g last notify hr he hj => exact h.suppress (ht.spare e g last notify he) hj
  | fault c e => exact h.same (s.faultedAt_leaves c e)
  | release c => exact h.release (s.unsuppressAll_spec c)

/-! ### The commands that rewrite the points -/

/-- Points at rest, with nothing shelved and no number taken. -/
theorem Point.Sound.reset {p : Point} (k : Nat) (h : p.hidden = false) (hc : p.condition = .clear) (ha : p.ann = .normal)
    (hm : p.postTrip = false) (hn : ∀ x, p.raiseSeq = some x → 1 ≤ x ∧ x ≤ k) : p.Sound k := by
  have reasons : p.shelved = false ∧ p.outOfService = false ∧ p.suppression = [] := by
    simpa [Point.hidden, and_assoc] using h
  obtain ⟨shelved, _, set⟩ := reasons
  exact {
    hidden := fun _ => ha
    active := fun _ hq => by rw [hc] at hq; cases hq
    clear := fun _ => .inl ha
    emergency := fun _ => ⟨shelved, set⟩
    service := fun _ => ⟨shelved, set⟩
    marked := fun hq => by rw [hm] at hq; cases hq
    unacked := fun hq => by rw [ha] at hq; cases hq
    acked := fun hq => by rw [ha] at hq; cases hq
    seen := fun hq => absurd ha hq
    number := hn }

theorem State.ViewsSound.ofReset (hp : ∀ n, ∃ p : Point, s.point n
      = { Point.reset with configured := p.configured, area := p.area, priority := p.priority })
    (hc : s.raiseCounter = 0) (hs : s.shelves = []) (ha : ∀ a, (s.area a).shelvedCount = 0) : s.ViewsSound := by
  refine ⟨⟨by simp [hs], fun n => ?_, fun a => by simp [ha, hs], fun a => by simp [ha], by simp [hs]⟩,
    State.pointsSound_iff.mpr ⟨fun n => ?_, by simp [hc]⟩⟩
  · obtain ⟨p, e⟩ := hp n
    simp [e, hs, Point.reset]
  · obtain ⟨p, e⟩ := hp n
    rw [e]
    exact .reset _ rfl rfl rfl rfl fun x hx => by cases hx

theorem State.hardReset_views (strapLow : Bool) (s : State) : (s.hardReset strapLow).ViewsSound := by
  refine .ofReset (fun n => ⟨Point.reset, ?_⟩) rfl rfl fun a => ?_
  · simp [State.point, State.hardReset, State.reset, Point.reset]
  · simp [State.area, State.hardReset, State.reset, Area.reset]

theorem State.restart_views (s : State) : s.restart.ViewsSound := by
  refine .ofReset (fun n => ⟨s.point n, ?_⟩) rfl rfl fun a => ?_
  · simp [State.point, State.restart, State.deriveAttention, Point.restart]
  · simp [State.area, State.restart, State.deriveAttention, Area.restart, Area.reset]

theorem State.enterRun_sameShelves (s : State) : s.SameShelves s.enterRun :=
  ⟨rfl, rfl, rfl, fun a => by simp [State.area, State.enterRun, Area.enterRun]⟩

/-- A point at rest is sound whatever its configuration. -/
theorem Point.Sound.reconfigured {p : Point} {k : Nat} (h : p.Sound k) (r : p.atRest) (configured : Bool) (area : AreaNo)
    (priority : Priority) : Point.Sound k { p with configured, area, priority } := by
  simp only [Point.atRest, Bool.and_eq_true, beq_iff_eq, Bool.not_eq_true'] at r
  obtain ⟨⟨clear, normal⟩, hidden⟩ := r
  refine .reset k hidden clear normal ?_ h.number
  cases hm : p.postTrip with
  | false => rfl
  | true => rw [h.marked hm] at normal; cases normal

theorem State.ViewsSound.storePoints (h : s.ViewsSound) (rest : ∀ n, (s.point n).atRest) (first : Nat)
    (es : List PointEntry) : (s.storePoints first es).ViewsSound := by
  induction es generalizing first s with
  | nil => exact h
  | cons e es ih =>
    unfold State.storePoints
    split
    · rename_i n _
      refine ih (h.setPoint ((h.points.at n).reconfigured (rest n) e.configured e.area e.priority) rfl) (fun m => ?_) _
      rw [State.point_setPoint]
      split
      · exact rest n
      · exact rest m
    · exact ih h rest _

/-- SET_POINT in CONFIG finds the point at rest, and in RUN out of service (R20). -/
theorem actSetPoint_views (h : s.ViewsSound) (hr : s.ConfigSound) (x : PointNo × AreaNo × Priority) :
    (actSetPoint s x).Gives State.ViewsSound := by
  unfold actSetPoint
  dsimp only
  split
  · trivial
  · split
    · trivial
    · rename_i service
      split
      · trivial
      · refine h.setPoint ?_ rfl
        cases hm : s.mode with
        | config => exact (h.points.at x.1).reconfigured ((hr hm).points x.1) _ x.2.1 x.2.2
        | run =>
          have out : (s.point x.1).outOfService := by simpa [hm] using service
          have reasons := (h.points.at x.1).service out
          exact { h.points.at x.1 with emergency := fun _ => reasons }

/-- What stands in CONFIG speaks of these blocks alone. -/
theorem State.AtRest.same (h : s.AtRest) (hp : t.points = s.points) (hc : t.consoles = s.consoles) (hroom : t.room = s.room)
    (ha : t.areas = s.areas) (hs : t.shelves = s.shelves) (ht : t.trip = s.trip) (hmill : t.mill = s.mill) : t.AtRest := by
  obtain ⟨points, consoles, room, areas, shelves, codes, qualifier, mill⟩ := h
  exact ⟨fun n => by simpa only [State.point, hp] using points n, fun c => by simpa only [State.console, hc] using consoles c,
    hroom ▸ room, fun a => by simpa only [State.area, ha] using areas a, hs ▸ shelves,
    fun c => by simpa only [State.code, ht] using codes c, ht ▸ qualifier, hmill ▸ mill⟩

theorem State.ConfigSound.same (h : s.ConfigSound) (hm : t.mode = s.mode) (hp : t.points = s.points)
    (hc : t.consoles = s.consoles) (hroom : t.room = s.room) (ha : t.areas = s.areas) (hs : t.shelves = s.shelves)
    (ht : t.trip = s.trip) (hmill : t.mill = s.mill) : t.ConfigSound :=
  fun hq => (h (hm ▸ hq)).same hp hc hroom ha hs ht hmill

theorem exec_viewsSound {c : Instr} (hr : s.ConfigSound) (ht : s.TripsSound) (h : s.ViewsSound) (e : exec c s = .next t) :
    t.ViewsSound := by
  cases hc : rewritesPoints c with
  | false =>
    obtain ⟨u, hu, k⟩ := exec_moves hc s
    cases hu.symm.trans e
    exact (k.keeps (P := fun u => u.TripsSound ∧ u.ViewsSound)
      (fun _ _ hs hl => ⟨hs.1.leaves hl, hs.2.expires hl.expires⟩) (fun _ _ hs ho => ⟨hs.1.owns ho, hs.2.owns hs.1 ho⟩)
      ⟨ht, h⟩).2
  | true =>
    have config (u : State) (l : Link) (hu : u.ConfigSound ∧ u.ViewsSound) :
        State.ConfigSound { u with link := l } ∧ State.ViewsSound { u with link := l } :=
      ⟨hu.1.same rfl rfl rfl rfl rfl rfl rfl rfl, hu.2.same (.ofAreas rfl rfl rfl rfl)⟩
    have link (u : State) (l : Link) (hu : u.ViewsSound) : State.ViewsSound { u with link := l } :=
      hu.same (.ofAreas rfl rfl rfl rfl)
    cases c with
    | hardReset strap => cases e; exact s.hardReset_views strap
    | restart =>
      refine hostRequest_keeps link (fun u _ _ _ => ?_) h e
      exact u.restart_views
    | start =>
      refine hostRequest_keeps link (fun u x _ hu => ?_) h e
      unfold actStart
      split
      · trivial
      · exact hu.same u.enterRun_sameShelves
    | loadPoints =>
      refine hostRequest_leads config link (fun _ => And.right) (fun u x hm hu => ?_) ⟨hr, h⟩ e
      have mode : u.mode = .config := by cases hq : u.mode <;> simp [hq, TakenIn.refusal] at hm; rfl
      exact hu.2.storePoints (hu.1 mode).points x.1 x.2
    | setPoint =>
      exact hostRequest_leads config link (fun _ => And.right) (fun u x _ hu => actSetPoint_views hu.2 hu.1 x) ⟨hr, h⟩ e
    | _ => cases hc

/-- Settles O8: with the trip unit's rules, the points' and the shelf list's are kept by every owner's change and by what else
an event does. -/
theorem pointAndShelfRulesKept : Obligations.PointAndShelfRulesKept := by
  intro s t hr ht hs hp e
  have h : t.ViewsSound := step_keeps (P := fun u => u.ConfigSound ∧ u.TripsSound ∧ u.ViewsSound)
    (fun u l hu => ⟨hu.1.same rfl rfl rfl rfl rfl rfl rfl rfl, hu.2.1.same rfl fun _ => rfl,
      hu.2.2.same (.ofAreas rfl rfl rfl rfl)⟩) ⟨hr, ht, hs, hp⟩ ⟨hs, hp⟩
    (fun c u v hu he => exec_viewsSound hu.1 hu.2.1 hu.2.2 he) e
  exact ⟨h.shelves, h.points⟩

end Sys2Proof.Machine

/-!
CONFIG (R172): no command but START leaves it, and while the part is in it nothing moves what is at rest.
-/

namespace Sys2Proof.Machine

variable {s t u : State}

/-- The part is in CONFIG, and at rest. -/
def State.Rests (s : State) : Prop := s.mode = .config ∧ s.AtRest

theorem State.Rests.same (h : s.Rests) (hm : t.mode = s.mode) (hp : t.points = s.points) (hc : t.consoles = s.consoles)
    (hroom : t.room = s.room) (ha : t.areas = s.areas) (hs : t.shelves = s.shelves) (ht : t.trip = s.trip)
    (hmill : t.mill = s.mill) : t.Rests := ⟨hm.trans h.1, h.2.same hp hc hroom ha hs ht hmill⟩

theorem State.Rests.link (u : State) (l : Link) (h : u.Rests) : State.Rests { u with link := l } :=
  h.same rfl rfl rfl rfl rfl rfl rfl rfl

theorem State.Rests.send (h : s.Rests) (f : Frame) : (s.send f).Rests := State.Rests.link _ _ h

/-! ### The records at rest -/

theorem Console.atRest_iff {r : Console} : r.atRest ↔ r.seat = .vacant ∧ r.resound = none ∧ r.ackKey.state = .idle
    ∧ r.silenceKey.state = .idle ∧ r.head = none ∧ r.horn = .off ∧ r.beacon = .off := by
  simp [Console.atRest, and_assoc]

theorem Area.atRest_iff {r : Area} :
    r.atRest ↔ r.meter = 0 ∧ r.flooded = false ∧ r.covered = false ∧ r.handover = .steady := by
  simp [Area.atRest, and_assoc]

theorem State.AtRest.seat (h : s.AtRest) (c : ConsoleNo) : (s.console c).seat = .vacant :=
  (Console.atRest_iff.mp (h.consoles c)).1

theorem State.AtRest.resound (h : s.AtRest) (c : ConsoleNo) : (s.console c).resound = none :=
  (Console.atRest_iff.mp (h.consoles c)).2.1

theorem State.AtRest.key (h : s.AtRest) (c : ConsoleNo) (k : KeyName) : ((s.console c).key k).state = .idle := by
  obtain ⟨-, -, ack, silence, -⟩ := Console.atRest_iff.mp (h.consoles c)
  cases k <;> assumption

theorem State.AtRest.handover (h : s.AtRest) (a : AreaNo) : (s.area a).handover = .steady :=
  (Area.atRest_iff.mp (h.areas a)).2.2.2

/-! ### What a load or an input changes -/

theorem State.Rests.modArea (h : s.Rests) (a : AreaNo) (f : Area → Area)
    (hf : (f (s.area a)).meter = (s.area a).meter ∧ (f (s.area a)).flooded = (s.area a).flooded
      ∧ (f (s.area a)).covered = (s.area a).covered ∧ (f (s.area a)).handover = (s.area a).handover) :
    (s.modArea a f).Rests := by
  refine ⟨h.1, { h.2 with areas := fun b => ?_ }⟩
  rw [State.area_modArea]
  split
  · obtain ⟨meter, flooded, covered, handover⟩ := hf
    have := h.2.areas a
    rwa [Area.atRest, meter, flooded, covered, handover]
  · exact h.2.areas b

theorem State.Rests.modConsole (h : s.Rests) (c : ConsoleNo) (f : Console → Console) (hf : (f (s.console c)).atRest) :
    (s.modConsole c f).Rests := by
  refine ⟨h.1, { h.2 with consoles := fun d => ?_ }⟩
  rw [State.console_modConsole]
  split
  · exact hf
  · exact h.2.consoles d

theorem State.Rests.setClock (h : s.Rests) (n : Nat) : (s.setClock n).Rests := by
  obtain ⟨mode, rest⟩ := h
  refine ⟨mode, { rest with consoles := fun c => ?_, areas := fun a => ?_, shelves := ?_, codes := fun c => ?_ }⟩
  · obtain ⟨seat, resound, more⟩ := Console.atRest_iff.mp (rest.consoles c)
    have e : (s.setClock n).console c = s.console c := by
      simp only [State.setClock, State.mapDeadlines, State.console, Fin.getElem_fin, Vector.getElem_map] at seat resound ⊢
      rw [seat, resound, Seat.mapDeadline, Option.map_none, ← seat, ← resound]
    rw [e]; exact rest.consoles c
  · have steady := rest.handover a
    have e : (s.setClock n).area a = s.area a := by
      simp only [State.setClock, State.mapDeadlines, State.area, Fin.getElem_fin, Vector.getElem_map] at steady ⊢
      rw [steady, Handover.mapDeadline, ← steady]
    rw [e]; exact rest.areas a
  · show s.shelves.map _ = []
    rw [rest.shelves]; rfl
  · have idle := rest.codes c
    simp only [State.setClock, State.mapDeadlines, State.code, Fin.getElem_fin, Vector.getElem_map] at idle ⊢
    rw [idle]; rfl

theorem State.Rests.setShift (h : s.Rests) (n : Nat) (k : Crew) : State.Rests { s with
    mill := { s.mill with shift := n, duty := k }, areas := s.areas.map fun r => { r with duty := k } } := by
  refine ⟨h.1, { h.2 with areas := fun a => ?_ }⟩
  have := h.2.areas a
  simpa [State.area, Area.atRest] using this

theorem State.Rests.modCode (h : s.Rests) (c : TripNo) (f : TripCode → TripCode) (hf : (f (s.code c)).state = (s.code c).state) :
    (s.modCode c f).Rests := by
  refine ⟨h.1, { h.2 with codes := fun d => ?_ }⟩
  rw [State.code_modCode]
  split
  · rw [hf]; exact h.2.codes c
  · exact h.2.codes d

theorem State.Rests.modTrip (h : s.Rests) (f : TripUnit → TripUnit) (hc : (f s.trip).codes = s.trip.codes)
    (hq : (f s.trip).qualifier = s.trip.qualifier) : (s.modTrip f).Rests := by
  refine ⟨h.1, { h.2 with codes := fun d => ?_, qualifier := hq.trans h.2.qualifier }⟩
  rw [State.code_modTrip _ _ _ hc]
  exact h.2.codes d

theorem State.Rests.setPoint (h : s.Rests) {n : PointNo} {p : Point} (hp : p.atRest) : (s.setPoint n p).Rests := by
  refine ⟨h.1, { h.2 with points := fun m => ?_ }⟩
  rw [State.point_setPoint]
  split
  · exact hp
  · exact h.2.points m

theorem State.Rests.storePoints (h : s.Rests) (first : Nat) (es : List PointEntry) : (s.storePoints first es).Rests := by
  induction es generalizing first s with
  | nil => exact h
  | cons e es ih =>
    unfold State.storePoints
    split
    · rename_i n _
      refine ih (h.setPoint ?_) _
      exact h.2.points n
    · exact ih h _

/-! ### Requests -/

/-- A request that is taken in RUN alone changes nothing here but the link. -/
theorem hostRequest_run_rests {α : Type} {kind tag : Byte} {p : List Byte} {parse : List Byte → Option α}
    {act : State → α → Answer} (h : s.Rests) (e : hostRequest kind tag p parse .run act s = .next t) : t.Rests :=
  hostRequest_keeps State.Rests.link (fun u _ hm hu => by rw [hu.1] at hm; cases hm) h e

/-- Nothing is activity at a console that is VACANT. -/
theorem State.Rests.noteActivity (h : s.Rests) (p : List Byte) : s.noteActivity p = s := by
  unfold State.noteActivity
  split
  · unfold State.activity
    rw [h.2.seat]
  · rfl

theorem consoleRequest_rests {α : Type} {kind tag : Byte} {p : List Byte} {parse : List Byte → Option α}
    {act : State → α → Answer} (h : s.Rests) (e : consoleRequest kind tag p parse act s = .next t) : t.Rests := by
  unfold consoleRequest at e
  split at e
  · cases e; exact h
  · rename_i u hu
    have hu : u.Rests := State.take_eq hu ▸ State.Rests.link _ _ h
    rw [hu.noteActivity] at e
    cases e
    unfold checkRequest
    split
    · exact hu.send _
    · rw [hu.1]; exact hu.send _

/-- A request that only reads. -/
theorem query_rests {α : Type} {kind tag : Byte} {p : List Byte} {parse : List Byte → Option α} {m : TakenIn}
    {act : State → α → Answer} (h : s.Rests) (hr : ∀ u x, match act u x with | .ok (v, _) => v = u | .error _ => True)
    (e : hostRequest kind tag p parse m act s = .next t) : t.Rests := by
  refine hostRequest_keeps State.Rests.link (fun u x _ hu => ?_) h e
  have := hr u x
  cases ha : act u x with
  | error e => trivial
  | ok v => obtain ⟨v, d⟩ := v; rw [ha] at this; exact this ▸ hu

theorem actLoadOperator_rests (h : s.Rests) (x : OperatorLoad) : (actLoadOperator s x).Gives State.Rests := by
  unfold actLoadOperator
  split
  · split
    · trivial
    · split
      · trivial
      · unfold State.storeOperator
        split <;> exact h.same rfl rfl rfl rfl rfl rfl rfl rfl
  · split
    · trivial
    · split
      · trivial
      · exact h.same rfl rfl rfl rfl rfl rfl rfl rfl

theorem actSetPoint_rests (h : s.Rests) (x : PointNo × AreaNo × Priority) : (actSetPoint s x).Gives State.Rests := by
  unfold actSetPoint
  dsimp only
  split
  · trivial
  · split
    · trivial
    · split
      · trivial
      · refine h.setPoint ?_
        exact h.2.points x.1

/-! ### Every command -/

theorem State.hardReset_rests (strapLow : Bool) (s : State) : (s.hardReset strapLow).Rests := by
  refine ⟨rfl, fun n => ?_, fun c => ?_, rfl, fun a => ?_, rfl, fun c => ?_, rfl, rfl⟩
  · simp [State.point, State.hardReset, State.reset, Point.reset, Point.atRest, Point.hidden]
  · simp [State.console, State.hardReset, Console.hardReset, Console.reset, Console.atRest, Key.rest]
  · simp [State.area, State.hardReset, State.reset, Area.reset, Area.atRest]
  · simp [State.code, State.hardReset, TripUnit.reset, TripCode.reset]

theorem State.restart_rests (s : State) : s.restart.Rests := by
  refine ⟨rfl, fun n => ?_, fun c => ?_, rfl, fun a => ?_, rfl, fun c => ?_, rfl, rfl⟩
  · simp [State.point, State.restart, State.deriveAttention, Point.restart, Point.reset, Point.atRest, Point.hidden]
  · simp [State.console, State.restart, State.deriveAttention, Console.restart, Console.hardReset, Console.reset,
      Console.atRest, Key.rest]
  · simp [State.area, State.restart, State.deriveAttention, Area.restart, Area.reset, Area.atRest]
  · simp [State.code, State.restart, State.deriveAttention, TripUnit.restart, TripCode.restart, TripCode.reset]

theorem execKeyContactChange_rests {c : ConsoleNo} {k : KeyName} {closed : Bool} (h : s.Rests)
    (e : execKeyContactChange c k closed s = .next t) : t.Rests := by
  unfold execKeyContactChange at e
  dsimp only at e
  split at e
  · cases e; exact h
  · rw [if_neg (by rw [h.1]; exact Mode.noConfusion)] at e
    cases e
    refine h.modConsole c _ ?_
    have := h.2.consoles c
    cases k <;> exact this

/-- No event has an effect in CONFIG but on the line, the clock, the levels of the contacts and of the trip lines. -/
theorem exec_rests {c : Instr} (h : s.Rests) (hc : rewritesPoints c = false) (e : exec c s = .next t) : t.Rests := by
  have run (hm : s.mode = .run) : False := by rw [h.1] at hm; cases hm
  cases c with
  | hardReset | restart | start | loadPoints | setPoint => cases hc
  | receiveCharacter => cases e; exact State.Rests.link _ _ h
  | gapTimerExpiry =>
    dsimp only [exec, execGapTimerExpiry] at e
    split at e <;> cases e
    exacts [h, State.Rests.link _ _ h, State.Rests.link _ _ h]
  | linkError =>
    dsimp only [exec, execLinkError] at e
    split at e <;> cases e
    exacts [State.Rests.send (State.Rests.link _ _ h) _, h, h]
  | badKind =>
    dsimp only [exec, execBadKind] at e
    split at e
    · cases e; exact h
    · split at e
      · cases e; exact h
      · rename_i hu
        cases e
        exact State.Rests.send (State.take_eq hu ▸ State.Rests.link _ _ h) _
  | clockSecond => cases e; exact h.same rfl rfl rfl rfl rfl rfl rfl rfl
  | identify | queryPoint | listStanding | queryMeters => exact query_rests h (fun _ _ => rfl) e
  | queryOperator => exact query_rests h (fun u n => by cases u.operator? n <;> trivial) e
  | queryConsole | queryTrip | queryHandover => exact query_rests h (fun _ x => by cases x <;> rfl) e
  | listShelves | readSheet => exact query_rests h (fun _ _ => rfl) e
  | setClock => exact hostRequest_keeps State.Rests.link (fun u x _ hu => by exact hu.setClock x) h e
  | fetchNotices | loadRole | loadSteps =>
    refine hostRequest_keeps State.Rests.link (fun u x _ hu => ?_) h e
    exact hu.same rfl rfl rfl rfl rfl rfl rfl rfl
  | loadConsole =>
    refine hostRequest_keeps State.Rests.link (fun u x _ hu => ?_) h e
    exact hu.modConsole x.1 (fun r => { r with config := x.2 }) (hu.2.consoles x.1)
  | setTiming =>
    refine hostRequest_keeps State.Rests.link (fun u x _ hu => ?_) h e
    show (u.storeSetting _ _).Rests
    unfold State.storeSetting
    dsimp only
    split <;> exact hu.same rfl rfl rfl rfl rfl rfl rfl rfl
  | setShift => exact hostRequest_keeps State.Rests.link (fun u x _ hu => by exact hu.setShift x.1 x.2) h e
  | loadArea =>
    refine hostRequest_keeps State.Rests.link (fun u x _ hu => ?_) h e
    exact hu.modArea x.1 (fun r => { r with config := x.2 }) ⟨rfl, rfl, rfl, rfl⟩
  | loadOperator | loadOperatorRemove =>
    exact hostRequest_keeps State.Rests.link (fun u x _ hu => actLoadOperator_rests hu x) h e
  | loadTripCode =>
    refine hostRequest_keeps State.Rests.link (fun u x _ hu => ?_) h e
    unfold actLoadTripCode
    split
    · trivial
    · exact hu.modCode x.1 _ rfl
  | loadTripEntries =>
    refine hostRequest_keeps State.Rests.link (fun u x _ hu => ?_) h e
    unfold actLoadTripEntries
    split
    · trivial
    · exact hu.modTrip _ rfl rfl
  | loadOrder =>
    refine hostRequest_keeps State.Rests.link (fun u x _ hu => ?_) h e
    unfold actLoadOrder
    split
    · trivial
    · exact hu.same rfl rfl rfl rfl rfl rfl rfl rfl
  | clearTripFault =>
    refine hostRequest_keeps State.Rests.link (fun u x _ hu => ?_) h e
    split
    · exact hu.modTrip (fun t => { t with latch := false }) rfl rfl
    · trivial
  | clearAbort =>
    refine hostRequest_keeps State.Rests.link (fun u x _ hu => ?_) h e
    unfold actClearAbort
    split
    · trivial
    · exact hu.modArea x (fun r => { r with abort := none }) ⟨rfl, rfl, rfl, rfl⟩
  | raise | clear | beginHandover | cancelHandover | suspendArea | resumeArea | abortArea =>
    exact hostRequest_run_rests h e
  | signOn | signOff | silence | ack | ackHead | ackArea | shelve | unshelve | takeOut | returnPoint | releaseTrip | lockDraft
  | unlockDraft | addItem | removeItem | post | reviewItem | confirmStep | restartArea => exact consoleRequest_rests h e
  | keyContactChange => exact execKeyContactChange_rests h e
  | keyQualifyTimerExpiry =>
    dsimp only [exec, execKeyQualifyTimerExpiry] at e
    rw [if_neg fun hq => run hq.1] at e
    cases e; exact h
  | keyReleaseTimerExpiry =>
    dsimp only [exec, execKeyReleaseTimerExpiry] at e
    rw [if_neg (by rw [h.2.key]; simp)] at e
    cases e; exact h
  | stuckTimerExpiry =>
    dsimp only [exec, execStuckTimerExpiry] at e
    rw [if_neg (by rw [h.2.key]; simp)] at e
    cases e; exact h
  | presenceDeadline =>
    dsimp only [exec, execPresenceDeadline] at e
    rw [h.2.seat] at e
    cases e; exact h
  | p1ResoundDeadline =>
    dsimp only [exec, execP1ResoundDeadline] at e
    rw [h.2.resound] at e
    cases e; exact h
  | shelfExpired =>
    dsimp only [exec, execShelfExpired, State.shelfOf?] at e
    rw [h.2.shelves] at e
    cases e; exact h
  | decayStep =>
    dsimp only [exec, execDecayStep] at e
    rw [if_neg fun hq => run hq.1] at e
    cases e; exact h
  | tripLinesChange =>
    dsimp only [exec, execTripLinesChange] at e
    split at e
    · cases e; exact h
    · cases e
      exact h.modTrip _ rfl rfl
  | tripQualifyTimerExpiry =>
    dsimp only [exec, execTripQualifyTimerExpiry] at e
    rw [h.2.qualifier] at e
    cases e; exact h
  | tripReleaseTimerExpiry =>
    dsimp only [exec, execTripReleaseTimerExpiry] at e
    rw [h.2.qualifier] at e
    cases e; exact h
  | waitDeadline =>
    dsimp only [exec, execWaitDeadline] at e
    rw [h.2.codes] at e
    cases e; exact h
  | tripHoldDeadline =>
    dsimp only [exec, execTripHoldDeadline] at e
    rw [h.2.codes] at e
    cases e; exact h
  | stepTimeout =>
    dsimp only [exec, execStepTimeout] at e
    rw [h.2.handover] at e
    cases e; exact h
  | handoverHoldDeadline =>
    dsimp only [exec, execHandoverHoldDeadline] at e
    rw [h.2.handover] at e
    cases e; exact h

theorem State.Unsuppressed.mode {c : TripNo} {l : List PointNo} {new : Nat} (h : s.Unsuppressed c l t new) :
    t.mode = s.mode := by rw [h.rest]

/-- No owner's change, and nothing else in an event, moves the operating state. -/
theorem State.Moves.mode (h : s.Moves t) : t.mode = s.mode := by
  refine h.keeps (P := fun u => u.mode = s.mode) (fun _ _ hs hl => hl.mode.trans hs) (fun u v hs ho => ?_) rfl
  rw [← hs]
  cases ho with
  | clock | tripCode | tripUnit | raiseHidden | raise | clearHidden | clear | acknowledge | pend | wait | done => rfl
  | shelve => unfold State.addShelf; rw [State.addReason_eq]; rfl
  | unshelve n r =>
    obtain ⟨p, seq, e⟩ := (u.dropShelf r).removeReason_rest r.point (fun p => { p with shelved := false }) false
    unfold State.endShelf
    rw [e]; rfl
  | takeOut n =>
    unfold State.outOfServiceAt
    rw [State.addReason_eq, State.uncountSuppressed_rest]
    unfold State.dropShelfOf
    split <;> rfl
  | putBack n =>
    obtain ⟨p, seq, e⟩ := u.removeReason_rest n (fun q => { q with outOfService := false }) false
    rw [e]; rfl
  | start c => exact (State.notify_frames _ _).mode
  | startPending c => exact (State.notify_frames _ _).mode
  | suppress c n => rw [(u.suppress_changes c n).rest]
  | fault c e =>
    unfold State.faultedAt
    dsimp only
    split
    · exact (State.notify_frames _ _).mode.trans (State.notify_frames (.tripFault c e) _).mode
    · exact (State.notify_frames _ _).mode
  | release c => rw [State.modCode_mode]; exact (u.unsuppressAll_spec c).mode

theorem exec_configSound {c : Instr} (h : s.ConfigSound) (e : exec c s = .next t) : t.ConfigSound := by
  cases hc : rewritesPoints c with
  | false =>
    obtain ⟨u, hu, k⟩ := exec_moves hc s
    cases hu.symm.trans e
    exact fun hm => (exec_rests ⟨k.mode.symm.trans hm, h (k.mode.symm.trans hm)⟩ hc e).2
  | true =>
    have link (u : State) (l : Link) (hu : u.ConfigSound) : State.ConfigSound { u with link := l } :=
      hu.same rfl rfl rfl rfl rfl rfl rfl rfl
    cases c with
    | hardReset strap => cases e; exact fun _ => (s.hardReset_rests strap).2
    | restart =>
      refine hostRequest_keeps link (fun u _ _ _ => ?_) h e
      exact fun _ => u.restart_rests.2
    | start =>
      refine hostRequest_keeps link (fun u x _ hu => ?_) h e
      unfold actStart
      split
      · trivial
      · exact fun hm => by cases hm
    | loadPoints =>
      refine hostRequest_keeps link (fun u x hm hu => ?_) h e
      have mode : u.mode = .config := by cases hq : u.mode <;> simp [hq, TakenIn.refusal] at hm; rfl
      exact fun _ => (State.Rests.storePoints ⟨mode, hu mode⟩ x.1 x.2).2
    | setPoint =>
      refine hostRequest_keeps link (fun u x hm hu => ?_) h e
      cases hq : u.mode with
      | config =>
        have := actSetPoint_rests ⟨hq, hu hq⟩ x
        cases ha : actSetPoint u x with
        | error => trivial
        | ok v => obtain ⟨v, d⟩ := v; rw [ha] at this; exact fun _ => this.2
      | run =>
        unfold actSetPoint
        dsimp only
        split
        · trivial
        · split
          · trivial
          · split
            · trivial
            · exact fun hm => by rw [State.setPoint_mode, hq] at hm; cases hm
    | _ => cases hc

/-- Settles O9: in CONFIG what may move leaves everything at rest, and every command but the resets leaves the operating
state. -/
theorem configStaysAtRest : Obligations.ConfigStaysAtRest := fun _ _ h e =>
  step_keeps (P := State.ConfigSound) (fun _ _ hu => hu.same rfl rfl rfl rfl rfl rfl rfl rfl) h h
    (fun _ _ _ hu he => exec_configSound hu he) e

end Sys2Proof.Machine

/-!
The state after reset meets every rule that the steps keep, and what RESTART and a hard reset leave (R177).
-/

namespace Sys2Proof.Machine

/-! ### The records after reset -/

@[simp] theorem State.point_reset (n : PointNo) : State.reset.point n = Point.reset := by simp [State.point, State.reset]
@[simp] theorem State.area_reset (a : AreaNo) : State.reset.area a = Area.reset := by simp [State.area, State.reset]
@[simp] theorem State.console_reset (c : ConsoleNo) : State.reset.console c = Console.reset := by
  simp [State.console, State.reset]
@[simp] theorem State.code_reset (c : TripNo) : State.reset.code c = TripCode.reset := by
  simp [State.code, State.reset, TripUnit.reset]
@[simp] theorem State.tripEntry_reset (e : EntryNo) : State.reset.tripEntry e = .empty := by
  simp [State.tripEntry, State.reset, TripUnit.reset]
@[simp] theorem State.item_reset (i : SlotNo) : State.reset.item i = none := by simp [State.item, State.reset]

theorem State.listed_reset : State.reset.listed = [] := by
  simp [State.listed, State.framed, Area.reset, Draft.reset, Posted.reset]

/-! ### The rules after reset -/

theorem State.reset_queueSound : State.reset.QueueSound :=
  ⟨Nat.zero_le _, fun _ => Nat.zero_le _, rfl⟩

theorem State.reset_tripsSound : State.reset.TripsSound :=
  .idle_all (fun c => by rw [State.code_reset]; exact ⟨rfl, rfl⟩) (fun n => by rw [State.point_reset]; rfl) rfl
    fun e g last notify h => by rw [State.tripEntry_reset] at h; cases h

theorem State.reset_poolSound : State.reset.PoolSound :=
  ⟨by rw [State.listed_reset]; rfl, by rw [State.listed_reset]; exact .nil, fun i => by simp [State.listed_reset]⟩

theorem State.reset_viewsSound : State.reset.ViewsSound :=
  .ofReset (fun n => ⟨Point.reset, State.point_reset n⟩) rfl rfl fun a => by rw [State.area_reset]; rfl

theorem State.reset_atRest : State.reset.AtRest where
  points n := by rw [State.point_reset]; rfl
  consoles c := by rw [State.console_reset]; rfl
  room := rfl
  areas a := by rw [State.area_reset]; rfl
  shelves := rfl
  codes c := by rw [State.code_reset]; rfl
  qualifier := rfl
  mill := rfl

theorem State.reset_seatsSound : State.reset.SeatsSound where
  once := .nil
  console c n h := by rw [State.console_reset] at h; cases h
  operator o h := nomatch h
  configured c _ := by rw [State.console_reset]; rfl
  deadline c n d h := by rw [State.console_reset] at h; cases h

theorem State.reset_outputsSound : State.reset.OutputsSound where
  heads c := by
    rw [State.console_reset]
    rintro n ⟨exist, -⟩
    simp [State.exists?, Point.reset] at exist
  horns c := by
    unfold State.HornIs
    rw [if_neg (fun h => by cases h.1), State.console_reset]; rfl
  beacons c := by
    unfold State.BeaconIs
    dsimp only
    rw [if_neg (fun h => by cases h.1), State.console_reset]; rfl
  room := by
    unfold State.RoomHornIs
    rw [if_neg (fun h => by cases h)]; rfl
  covered h := nomatch h

theorem State.reset_handover (a : AreaNo) : (State.reset.area a).handover = .steady := by rw [State.area_reset]; rfl

theorem State.reset_handoversSound : State.reset.HandoversSound where
  running a p x y h := by rw [State.reset_handover] at h; cases h
  suspended a p x y r h := by rw [State.reset_handover] at h; cases h

theorem State.reset_stepsSound : State.reset.StepsSound where
  start h := nomatch h
  current a p h := by rw [State.reset_handover] at h; cases h
  waits a p x y h := by rw [State.reset_handover] at h; cases h

theorem State.reset_dutiesSound : State.reset.DutiesSound where
  closed _ := ⟨rfl, State.reset_handover⟩
  opened h := (h rfl).elim
  steady a _ := State.reset_handover a
  done a p k h := by rw [State.reset_handover] at h; cases h
  duty a _ := by rw [State.area_reset]; rfl

theorem State.reset_sheetsSound : State.reset.SheetsSound where
  config _ a := by rw [State.area_reset]; rfl
  waits a h := by rw [State.area_reset] at h; cases h

theorem State.reset_seatStepsSound : State.reset.SeatStepsSound :=
  fun a p x y h => by rw [State.reset_handover] at h; cases h

/-- Settles O4: each rule is met by records at their reset values. -/
theorem resetIsSound : Obligations.ResetIsSound :=
  ⟨State.reset_queueSound, State.reset_tripsSound, State.reset_poolSound, State.reset_viewsSound.shelves,
    fun _ => State.reset_atRest, State.reset_seatsSound, State.reset_outputsSound, State.reset_handoversSound,
    State.reset_stepsSound, State.reset_seatStepsSound, State.reset_viewsSound.points,
    State.reset_dutiesSound, State.reset_sheetsSound⟩

/-! ### What the resets leave -/

theorem rolesReset_eq (r : Role) (k : ActionClass) : (rolesReset[r.index])[k.index] =
    match r, k with
    | .supervisor, _ => true
    | .lead, k => k != .restart
    | .board, k => k != .service && k != .release && k != .restart
    | .trainee, k => k == .ack || k == .silence || k == .review := by
  cases r <;> cases k <;> rfl

/-- What a hard reset leaves of each block. -/
theorem hardReset_restores (strapLow : Bool) (s : State) : ∃ t : State, exec (.hardReset strapLow) s = .next t ∧
    t.mode = .config ∧ t.clock = ⟨0, 0⟩ ∧ t.raiseCounter = 0 ∧ t.roster = [] ∧ t.shelves = [] ∧ t.freeCount = 1024 ∧
    t.room = { mark := 0, horn := .off } ∧ t.link = { slow := strapLow, receiver := .hunting, order := [], sent := [] } ∧
    t.queue = { records := [], overflow := false, attention := false } ∧
    t.settings = Settings.reset ∧ t.mill = Mill.reset ∧
    (∀ n, t.point n = Point.reset) ∧ (∀ a, t.area a = Area.reset) ∧ (∀ i, t.item i = none) ∧
    (∀ i : OrderNo, t.orders[i] = Order.reset) ∧ (∀ i, t.stepEntry i = StepEntry.reset) ∧
    (∀ k, t.code k = TripCode.reset) ∧ (∀ i, t.tripEntry i = .empty) ∧ t.trip.pending = none ∧ t.trip.latch = false ∧
    t.trip.qualifier = .settling false ∧ t.trip.lines = s.trip.lines ∧
    (∀ c, t.console c = (s.console c).hardReset) ∧ t.roles = rolesReset := by
  refine ⟨s.hardReset strapLow, rfl, rfl, rfl, rfl, rfl, rfl, rfl, rfl, rfl, rfl, rfl, rfl, State.point_reset, State.area_reset,
    State.item_reset, fun i => ?_, fun i => ?_, State.code_reset, State.tripEntry_reset, rfl, rfl, rfl, rfl, fun c => ?_, rfl⟩
  · simp [State.hardReset, State.reset]
  · simp [State.stepEntry, State.hardReset, State.reset]
  · simp [State.console, State.hardReset]

/-- Settles O59: each block's record by its reset value. -/
theorem resetsRestoreState : Obligations.ResetsRestoreState := by
  refine ⟨fun tag s u h => ?_, fun strapLow s => ?_⟩
  · refine ⟨u.restart, hostRequest_read h rfl (refusal_both _), rfl, rfl, rfl, rfl, rfl, rfl, rfl, rfl, rfl, rfl, rfl,
      fun i => ?_, rfl, ?_, rfl, fun n => ?_, fun c => ?_, fun a => ?_, fun k => ?_, rfl⟩
    · simp [State.item, State.restart, State.deriveAttention]
    · simp [State.restart, State.deriveAttention, attentionFor]
    · simp [State.point, State.restart, State.deriveAttention, Point.restart]
    · simp [State.console, State.restart, State.deriveAttention, Console.restart, Console.hardReset, Console.reset, Key.rest]
    · simp [State.area, State.restart, State.deriveAttention, Area.restart]
    · simp [State.code, State.restart, State.deriveAttention, TripUnit.restart, TripCode.restart, TripCode.reset]
  · obtain ⟨t, run, mode, clock, counter, roster, shelves, free, room, link, queue, settings, mill, point, area, item, order,
      step, code, entry, pending, latch, qualifier, lines, console, roles⟩ := hardReset_restores strapLow s
    exact ⟨t, run, mode, clock, counter, roster, shelves, free, room, link, queue, settings, mill, point, area, item, order,
      step, code, entry, pending, latch, qualifier, lines, console, fun r k => by rw [roles]; exact rolesReset_eq r k⟩

end Sys2Proof.Machine

/-!
The requests of alarm points (chapter 1): RAISE, CLEAR, LOAD_POINTS and SET_POINT.
-/

namespace Sys2Proof.Machine

variable {s u : State} {n : PointNo}

/-! ### The rate meter -/

/-- The flood test that a meter's new value makes is that of R96. -/
theorem State.setMeter_eq_metered (a : AreaNo) (l : Nat) (s : State) : s.setMeter a l = s.metered a l := by
  have same (f : Bool) (h : f = (s.area a).flooded) :
      s.modArea a (fun x => { x with meter := l }) = s.modArea a fun x => { x with meter := l, flooded := f } :=
    State.modArea_congr _ (by rw [h])
  unfold State.setMeter State.metered AreaConfig.floodTest
  dsimp only
  cases hf : (s.area a).flooded with
  | false =>
    by_cases hl : (s.area a).config.floodOn ≤ l
    · simp [hl]
    · simp [hl, same false hf.symm]
  | true =>
    by_cases hl : l ≤ (s.area a).config.floodOff
    · simp [hl]
    · simp [hl, same true hf.symm]

/-- A shared end of an event whose owner has done all its own work. -/
theorem State.settles_finish (d : State) (sheets : Bool := false) : d.Settles (Work.finish { s := d, sheets }) :=
  (Work.Of.start d false false sheets).finish

/-- The end of an event that tells the handover unit of a point's change. -/
theorem State.settles_pointChanged (p : Point) (d : State) (sheets : Bool := false) :
    d.Settles (Work.pointChanged p { s := d, sheets }).finish :=
  (Work.pointChanged_of p d false false sheets).finish

/-! ### RAISE -/

/-- The whole event of an annunciated raise, behind the point's and the meter's own changes (R5, R92, R96). -/
theorem State.raiseInView_settles (n : PointNo) (s : State) :
    State.Settles ((s.becomeNew n false ((s.point n).raised s.now)).metered (s.point n).area
      (raisedMeter (s.area (s.point n).area).meter)) (s.raiseInView n) := by
  unfold State.raiseInView
  dsimp only
  rw [State.setMeter_eq_metered]
  split
  · exact (Work.reconsider_of ..).finish
  · exact State.settles_finish _

/-- A RAISE that the handler takes in RUN is answered by the point table. -/
theorem exec_raise {tag : Byte} (h : s.take { kind := 0x20, tag, payload := be16 n.val } = some u) (hm : u.mode = .run) :
    exec (.raise tag (be16 n.val)) s = .next (u.answer 0x20 tag (actRaise u n)) :=
  hostRequest_read h (parsePoint_be16 n) (by rw [hm]; rfl)

theorem actRaise_noSuch (h : s.exists? (s.point n) = false) : actRaise s n = refuse .noSuch := by simp [actRaise, h]

theorem actRaise_already (h : s.exists? (s.point n)) (hc : (s.point n).condition = .active) :
    actRaise s n = refuse .already := by simp [actRaise, h, hc]

theorem actRaise_hidden (h : s.exists? (s.point n)) (hc : (s.point n).condition = .clear) (hh : (s.point n).hidden) :
    actRaise s n = taken (s.setPoint n ((s.point n).raised s.now)) := by simp [actRaise, h, hc, hh]

theorem actRaise_inView (h : s.exists? (s.point n)) (hc : (s.point n).condition = .clear)
    (hh : (s.point n).hidden = false) : actRaise s n = taken (s.raiseInView n) := by simp [actRaise, h, hc, hh]

/-- Settles O21, by the branches of RAISE. -/
theorem raiseActsByView : Obligations.RaiseActsByView := by
  refine ⟨fun tag n s u h hm he hh hc => ?_, fun tag n s u h hm => ⟨fun he hh hc => ?_, fun he hc => ?_, fun he => ?_⟩⟩
  · refine ⟨u.raiseInView n, ?_, u.raiseInView_settles n⟩
    rw [exec_raise h hm, actRaise_inView he hc hh, State.answer_taken]
  · rw [exec_raise h hm, actRaise_hidden he hc hh, State.answer_taken]; rfl
  · rw [exec_raise h hm, actRaise_already he hc, State.answer_refuse]
  · rw [exec_raise h hm, actRaise_noSuch he, State.answer_refuse]

/-! ### CLEAR -/

theorem exec_clear {tag : Byte} (h : s.take { kind := 0x21, tag, payload := be16 n.val } = some u) (hm : u.mode = .run) :
    exec (.clear tag (be16 n.val)) s = .next (u.answer 0x21 tag (actClear u n)) :=
  hostRequest_read h (parsePoint_be16 n) (by rw [hm]; rfl)

theorem actClear_noSuch (h : s.exists? (s.point n) = false) : actClear s n = refuse .noSuch := by simp [actClear, h]

theorem actClear_already (h : s.exists? (s.point n)) (hc : (s.point n).condition = .clear) :
    actClear s n = refuse .already := by simp [actClear, h, hc]

theorem actClear_hidden (h : s.exists? (s.point n)) (hc : (s.point n).condition = .active) (hh : (s.point n).hidden) :
    actClear s n = taken (s.setPoint n { s.point n with condition := .clear }) := by simp [actClear, h, hc, hh]

theorem actClear_inView (h : s.exists? (s.point n)) (hc : (s.point n).condition = .active)
    (hh : (s.point n).hidden = false) : ∃ t, actClear s n = taken t ∧ (s.setPoint n (s.point n).cleared).Settles t := by
  refine ⟨_, by simp [actClear, h, hc, hh]; rfl, ?_⟩
  split
  · exact State.settles_pointChanged _ _
  · exact State.settles_finish _

/-- Settles O22, by the branches of CLEAR. -/
theorem clearFadesOrSettlesPoint : Obligations.ClearFadesOrSettlesPoint := by
  refine fun tag n s u h hm => ⟨fun he hc => ⟨fun hh => ?_, fun after ha hh => ?_⟩, fun he hc => ?_, fun he => ?_⟩
  · rw [exec_clear h hm, actClear_hidden he hc hh, State.answer_taken]
  · obtain ⟨t, act, settles⟩ := actClear_inView he hc hh
    have ann : (u.point n).ann.cleared = after := by
      rcases ha with ⟨hn, rfl⟩ | ⟨hn, rfl⟩ <;> rw [hn] <;> rfl
    refine ⟨t, by rw [exec_clear h hm, act, State.answer_taken], ?_⟩
    rw [← ann]
    exact settles
  · rw [exec_clear h hm, actClear_already he hc, State.answer_refuse]
  · rw [exec_clear h hm, actClear_noSuch he, State.answer_refuse]

/-! ### Configuration -/

/-- The bytes of a LOAD_POINTS entry (R2). -/
def PointEntry.bytes (e : PointEntry) : List Byte := [flagByte e.configured, byte e.area.val, byte e.priority.num]

theorem parsePointEntries_bytes (es : List PointEntry) : parsePointEntries (es.flatMap PointEntry.bytes) = some es := by
  induction es with
  | nil => rfl
  | cons e es ih => simp [PointEntry.bytes, parsePointEntries, ih]

theorem parsePoints_bytes {first : Nat} {es : List PointEntry} (h : 1 ≤ es.length) (h' : es.length ≤ 80)
    (hl : first + es.length ≤ 2048) :
    parsePoints (be16 first ++ byte es.length :: es.flatMap PointEntry.bytes) = some (first, es) := by
  have hn : (byte es.length).toNat = es.length := byte_toNat (by omega)
  have hf : num16 (byte (first / 256)) (byte first) = first := num16_be16 (by omega)
  simp [be16, parsePoints, parsePointEntries_bytes, hn, hf, h, h', hl]

/-- A run of entries: the named points take the configuration fields, and no other point changes (R2). -/
theorem State.point_storePoints {first : Nat} {es : List PointEntry} (h : first + es.length ≤ 2048) (n : PointNo)
    (s : State) : (s.storePoints first es).point n = match if first ≤ n.val then es[n.val - first]? else none with
      | some e => { s.point n with configured := e.configured, area := e.area, priority := e.priority }
      | none => s.point n := by
  induction es generalizing first s with
  | nil => simp [State.storePoints]
  | cons e es ih =>
    have hl : first < 2048 := by simp only [List.length_cons] at h; omega
    unfold State.storePoints
    rw [ih (by simp only [List.length_cons] at h; omega), show below 2048 first = some ⟨first, hl⟩ from dif_pos hl]
    dsimp only
    rw [State.point_setPoint]
    rcases Nat.lt_trichotomy n.val first with hn | hn | hn
    · have other : n ≠ ⟨first, hl⟩ := Fin.ne_of_lt hn
      rw [if_neg other, if_neg (Nat.not_le.mpr (by omega)), if_neg (Nat.not_le.mpr hn)]
    · have this : n = ⟨first, hl⟩ := Fin.ext hn
      rw [if_pos this, if_neg (Nat.not_le.mpr (by omega)), if_pos hn.ge, hn, Nat.sub_self, this]
      rfl
    · have other : n ≠ ⟨first, hl⟩ := Fin.ne_of_gt hn
      have next : n.val - first = n.val - (first + 1) + 1 := by omega
      rw [if_neg other, if_pos (show first + 1 ≤ n.val from hn), if_pos hn.le, next, List.getElem?_cons_succ]

theorem parseSetPoint_bad {x y a q : Byte}
    (h : 2047 < x.toNat * 256 + y.toNat ∨ 31 < a.toNat ∨ q = 0 ∨ 4 < q.toNat) : parseSetPoint [x, y, a, q] = none := by
  have point (hx : 2047 < x.toNat * 256 + y.toNat) : pointOf x y = none := dif_neg (by unfold num16; omega)
  have area (ha : 31 < a.toNat) : areaOf a = none := dif_neg (by omega)
  have priority (hq : q = 0 ∨ 4 < q.toNat) : priorityOf q = none := by
    unfold priorityOf
    rcases hq with rfl | hq
    · rfl
    · have other (k : Byte) (hk : k.toNat ≤ 4) : q ≠ k := fun e => by rw [e] at hq; omega
      rw [if_neg (other 1 (by decide)), if_neg (other 2 (by decide)), if_neg (other 3 (by decide)),
        if_neg (other 4 (by decide))]
  rcases h with h | h | h
  · simp [parseSetPoint, point h]
  · simp [parseSetPoint, area h]
  · simp [parseSetPoint, priority h]

/-- A payload that is not read is BAD_FIELD (R164 steps 2 and 3). -/
theorem hostRequest_unread {α : Type} {kind tag : Byte} {p : List Byte} {parse : List Byte → Option α} {m : TakenIn}
    {act : State → α → Answer} (ht : s.take { kind, tag, payload := p } = some u) (hp : parse p = none) :
    hostRequest kind tag p parse m act s = .next (u.send (replyFrame kind tag .badField [])) := by
  simp [hostRequest, ht, hp, checkRequest]

/-- Settles O24, by the entries of LOAD_POINTS in their turn and the refusals of SET_POINT in R20's order. -/
theorem pointsAreConfigured : Obligations.PointsAreConfigured := by
  refine ⟨?_, ?_, fun tag x y a q s u ht hbad => ?_⟩
  · intro tag first es s u h h' hl p ht hm
    refine ⟨(u.storePoints first es).points, ?_, fun n => State.point_storePoints hl n u⟩
    rw [← State.storePoints_rest]
    exact hostRequest_read ht (parsePoints_bytes h h' hl) (by rw [hm]; rfl)
  · intro tag n a q s u p ht
    refine (hostRequest_read ht (parseSetPoint_bytes n a q) (refusal_both _)).trans ?_
    unfold actSetPoint
    simp only [Bool.not_eq_true']
    split
    · rfl
    · split
      · rfl
      · split <;> rfl
  · exact hostRequest_unread ht (parseSetPoint_bad hbad)

end Sys2Proof.Machine

/-!
Service, acknowledgement and shelving (chapters 1 and 4): TAKE_OUT and RETURN, ACK and ACK_HEAD, SHELVE, UNSHELVE and the
expiry of a shelf.
-/

namespace Sys2Proof.Machine

variable {s t u : State} {n : PointNo} {c : ConsoleNo} {o : Operator}

/-! ### TAKE_OUT and RETURN -/

theorem filter_bne_eq (r : Shelf) (l : List Shelf) : l.filter (· != r) = l.filter fun x => x ≠ r :=
  List.filter_congr fun x _ => by by_cases h : x = r <;> simp [h]

/-- The record of a point that goes out of service (R18). -/
def Point.takenOut (p : Point) : Point :=
  { p with
    shelved := false, suppression := [], outOfService := true
    ann := if p.hidden then p.ann else .normal
    postTrip := if p.hidden then p.postTrip else false }

/-- The codes' records with one point less for each code of a set (R18). -/
def State.codesWithout (s : State) (set : List TripNo) : Vector TripCode 15 :=
  .ofFn fun k => { s.code k with suppressed := (s.code k).suppressed - set.count k }

theorem State.codes_uncountSuppressed (set : List TripNo) (s : State) :
    (s.uncountSuppressed set).trip.codes = s.codesWithout set := by
  refine Vector.ext fun i hi => ?_
  unfold State.codesWithout
  rw [Vector.getElem_ofFn]
  exact s.code_uncountSuppressed set ⟨i, hi⟩

theorem Point.moreReason_eq (p : Point) : p.moreReason (fun q => { q with
    shelved := false, suppression := [], outOfService := true }) = p.takenOut := by
  unfold Point.moreReason Point.takenOut
  split <;> rfl

/-- What TAKE_OUT makes of the part before its neighbours are told (R18). -/
theorem State.outOfServiceAt_eq (n : PointNo) (s : State) : s.outOfServiceAt n = State.setPoint n (s.point n).takenOut
    { s.dropShelfOf n with trip := { s.trip with codes := s.codesWithout (s.point n).suppression } } := by
  have codes : (s.dropShelfOf n).codesWithout (s.point n).suppression = s.codesWithout (s.point n).suppression := by
    simp only [State.codesWithout, State.code, State.trip_dropShelfOf]
  have drop : (s.dropShelfOf n).uncountSuppressed (s.point n).suppression
      = { s.dropShelfOf n with trip := { s.trip with codes := s.codesWithout (s.point n).suppression } } := by
    rw [State.uncountSuppressed_rest, State.codes_uncountSuppressed, codes, State.trip_dropShelfOf]
  have point : (s.dropShelfOf n).point n = s.point n := s.point_dropShelfOf n n
  unfold State.outOfServiceAt
  rw [State.addReason_eq, drop, ← Point.moreReason_eq, ← point]
  rfl

theorem exec_takeOut {tag : Byte} (ht : s.takesAt c { kind := 0x48, tag, payload := byte c.val :: be16 n.val } = some u)
    (hm : u.mode = .run) (hp : u.permitPoint c .service n false = .ok o) (hb : u.tripCovers (u.point n).area = false)
    (ho : (u.point n).outOfService = false) :
    exec (.takeOut tag (byte c.val :: be16 n.val)) s = .next ((u.takeOut n).replyDone 0x48 tag []) := by
  refine (consoleRequest_at ht (parseConsolePoint_bytes c n) hm).trans ?_
  simp [actTakeOut, hp, hb, ho]

theorem State.takeOut_settles (n : PointNo) (s : State) : (s.outOfServiceAt n).Settles (s.takeOut n) :=
  State.settles_pointChanged (s.point n) (s.outOfServiceAt n) (s.shelfOf? n).isSome

theorem exec_return {tag : Byte} (ht : s.takesAt c { kind := 0x49, tag, payload := byte c.val :: be16 n.val } = some u)
    (hm : u.mode = .run) (hp : u.permitPoint c .service n false = .ok o) (hb : u.tripCovers (u.point n).area = false)
    (ho : (u.point n).outOfService) :
    exec (.returnPoint tag (byte c.val :: be16 n.val)) s = .next ((u.putBack n).replyDone 0x49 tag []) := by
  refine (consoleRequest_at ht (parseConsolePoint_bytes c n) hm).trans ?_
  simp [actReturn, hp, hb, ho]

/-- A point hidden by the out-of-service reason alone comes into view (R19, R15). -/
theorem State.putBack_settles (ho : (s.point n).outOfService) (hs : (s.point n).shelved = false)
    (hc : (s.point n).suppression = []) : State.Settles
      (if (s.point n).condition = .active then s.becomeNew n false { s.point n with outOfService := false }
        else s.setPoint n { s.point n with outOfService := false }) (s.putBack n) := by
  have e : s.removeReason n (fun q => { q with outOfService := false }) false
      = if (s.point n).condition = .active then s.becomeNew n false { s.point n with outOfService := false }
        else s.setPoint n { s.point n with outOfService := false } := by
    simp [State.removeReason, Point.hidden, ho, hs, hc]
  rw [← e]
  exact State.settles_pointChanged (s.point n) _

/-- Settles O25. -/
theorem serviceTakesPointOutAndBack : Obligations.ServiceTakesPointOutAndBack := by
  intro tag c n o s u p hm hp hb
  refine ⟨fun ht ho => ⟨u.takeOut n, exec_takeOut ht hm hp hb ho, ?_⟩, fun ht ho hs hc =>
    ⟨u.putBack n, exec_return ht hm hp hb ho, State.putBack_settles ho hs hc⟩⟩
  have settles := u.takeOut_settles n
  rw [State.outOfServiceAt_eq] at settles
  unfold State.dropShelfOf State.dropShelf at settles
  dsimp only
  cases hr : u.shelfOf? n with
  | none => rw [hr] at settles; exact settles
  | some r => rw [hr] at settles; simp only [filter_bne_eq] at settles; exact settles

/-! ### ACK and ACK_HEAD -/

theorem State.mem_insertRanked {x y : PointNo × Point} {l : List (PointNo × Point)} :
    y ∈ insertRanked x l ↔ y = x ∨ y ∈ l := by
  induction l with
  | nil => simp [insertRanked]
  | cons z l ih =>
    unfold insertRanked
    split
    · simp
    · rw [List.mem_cons, ih, List.mem_cons]; tauto

theorem State.mem_ranked {y : PointNo × Point} {l : List (PointNo × Point)} : y ∈ ranked l ↔ y ∈ l := by
  induction l with
  | nil => simp [ranked]
  | cons z l ih => rw [ranked, State.mem_insertRanked, ih, List.mem_cons]

/-- The points in the annunciation order of a console (R50). -/
theorem State.mem_orderOf {x : PointNo × Point} : x ∈ s.orderOf c ↔ x.2 = s.point x.1 ∧ s.InOrder c x.1 := by
  unfold State.orderOf State.inView State.ordered State.InOrder
  rw [State.mem_ranked, List.mem_filter, List.mem_filter, State.mem_numbered]
  constructor
  · rintro ⟨⟨e, hv⟩, ho⟩
    rw [e] at hv ho
    simp only [Bool.and_eq_true, Bool.not_eq_true', Bool.or_eq_true, beq_iff_eq] at hv ho
    obtain ⟨⟨exist, ann⟩, routed⟩ := ho
    exact ⟨e, exist, hv.1, ann, routed⟩
  · rintro ⟨e, exist, hidden, ann, routed⟩
    rw [e]
    simp only [Bool.and_eq_true, Bool.not_eq_true', Bool.or_eq_true, beq_iff_eq, bne_iff_ne]
    exact ⟨⟨trivial, hidden, by rcases ann with h | h <;> rw [h] <;> nofun⟩, ⟨exist, ann⟩, routed⟩

theorem State.bannerOf_inOrder (h : s.bannerOf c = some n) : s.InOrder c n := by
  unfold State.bannerOf at h
  obtain ⟨x, hx, rfl⟩ := Option.map_eq_some_iff.mp h
  exact (State.mem_orderOf.mp (List.mem_of_mem_head? hx)).2

/-- The annunciation state after an acknowledgement of a point that awaits one (R71). -/
theorem Annunciation.acknowledged_eq {x : Annunciation} (h : x = .new ∨ x = .faded) :
    x.acknowledged = if x = .new then .acked else .normal := by
  rcases h with rfl | rfl <;> rfl

theorem State.acknowledge_eq (h : (s.point n).ann = .new ∨ (s.point n).ann = .faded) (k : Nat) : s.acknowledge n k
    = s.setPoint n { s.point n with
        ann := if (s.point n).ann = .new then .acked else .normal, acked := some ⟨k, s.now⟩, postTrip := false } := by
  unfold State.acknowledge Point.acknowledge
  rw [Annunciation.acknowledged_eq h]

theorem State.ackEvent_settles (n : PointNo) (k : Nat) (s : State) : (s.acknowledge n k).Settles (s.ackEvent n k []) :=
  State.settles_pointChanged (s.point n) (s.acknowledge n k)

theorem actAck_taken (hp : s.permitPoint c .ack n true = .ok o) (hh : (s.point n).hidden = false)
    (ha : (s.point n).ann = .new ∨ (s.point n).ann = .faded) :
    actAck s (c, n) = taken (s.ackEvent n o.number []) (ackData n (s.point n)) := by
  have : ¬ ((s.point n).ann = .acked ∨ (s.point n).ann = .normal) := by rcases ha with h | h <;> simp [h]
  simp [actAck, hp, hh, this]

theorem actAckHead_taken {expected : Option PointNo} (he : expected = none ∨ expected = some n)
    (hb : s.bannerOf c = some n) (ha : s.actor c .ack = .ok o) (hp : s.permitBanner c n o = .ok o) :
    actAckHead s (c, expected) = taken (s.ackEvent n o.number []) (ackData n (s.point n)) := by
  rcases he with rfl | rfl <;> simp [actAckHead, ha, hb, hp]

/-- Settles O38: of the named point, and of the banner, which is in the console's order. -/
theorem ackAcknowledgesPoint : Obligations.AckAcknowledgesPoint := by
  intro tag c n o s u hm after d data
  have ends (h : (u.point n).ann = .new ∨ (u.point n).ann = .faded) :
      d.Settles (u.ackEvent n o.number []) ∧ ackData n (u.point n) = data := by
    have := u.ackEvent_settles n o.number
    rw [State.acknowledge_eq h] at this
    exact ⟨this, by unfold ackData; rw [Annunciation.acknowledged_eq h]⟩
  refine ⟨fun ht hp hh ha => ⟨u.ackEvent n o.number [], ?_, (ends ha).1⟩, fun expected he ht hb ha hp =>
    ⟨u.ackEvent n o.number [], ?_, (ends (State.bannerOf_inOrder hb).2.2.1).1⟩⟩
  · refine (consoleRequest_at ht (parseConsolePoint_bytes c n) hm).trans ?_
    rw [actAck_taken hp hh ha, State.answer_taken, (ends ha).2]
  · have parsed : ∃ x, parseAckHead (byte c.val :: expected) = some (c, x) ∧ (x = none ∨ x = some n) := by
      rcases he with rfl | rfl
      · exact ⟨some n, parseAckHead_some c n, .inr rfl⟩
      · exact ⟨none, parseAckHead_none c, .inl rfl⟩
    obtain ⟨x, hx, hn⟩ := parsed
    refine (consoleRequest_at ht hx hm).trans ?_
    rw [actAckHead_taken hn hb ha hp, State.answer_taken, (ends (State.bannerOf_inOrder hb).2.2.1).2]

end Sys2Proof.Machine

/-!
SHELVE, UNSHELVE and the expiry of a shelf (R80 to R84).
-/

namespace Sys2Proof.Machine

variable {s t u : State} {n : PointNo} {c : ConsoleNo} {o : Operator}

/-- The points, the shelf list, the areas and the mill record stand. -/
def State.StandsTo (s t : State) : Prop :=
  t.points = s.points ∧ t.shelves = s.shelves ∧ t.areas = s.areas ∧ t.mill = s.mill

/-- The end of a shelf-list event with no committed draft and no coverage to re-derive. -/
theorem Work.finish_stands (d : State) (sheets : Bool) (h : d.noCommits) : d.StandsTo (Work.finish { s := d, sheets }) := by
  have q := Work.finish_quiet { s := d, sheets } [] rfl h
  exact ⟨q.points, q.shelves, q.areas rfl, q.mill⟩

/-! ### The end of a shelf -/

/-- The end of a shelf makes of the part what R79 and R15 say. -/
theorem State.endShelf_eq {r : Shelf} (h : r.point = n) (s : State) : s.endShelf r = s.unshelved n r := by
  have point (m : PointNo) : (s.dropShelf r).point m = s.point m := rfl
  unfold State.endShelf State.removeReason State.unshelved
  rw [h]
  dsimp only
  rw [point n]
  simp only [Bool.and_eq_true, Bool.not_eq_true', beq_iff_eq, and_assoc]
  unfold State.dropShelf
  simp only [filter_bne_eq]
  rfl

theorem State.unshelved_rest (n : PointNo) (r : Shelf) (s : State) :
    (s.unshelved n r).mill = s.mill ∧ ∀ a, ((s.unshelved n r).area a).draft = (s.area a).draft := by
  have area (a : AreaNo) : ((State.modArea r.area (fun x => { x with shelvedCount := x.shelvedCount - 1 })
      { s with shelves := s.shelves.filter fun x => x ≠ r }).area a).draft = (s.area a).draft := by
    rw [State.area_modArea]
    split
    · rename_i h; rw [h]; rfl
    · rfl
  unfold State.unshelved
  dsimp only
  split <;> exact ⟨rfl, area⟩

theorem State.noCommits_unshelved (r : Shelf) (h : s.noCommits) : (s.unshelved n r).noCommits := fun a => by
  rw [(s.unshelved_rest n r).2 a]; exact h a

/-- The neighbours' share of the end of a shelf, told of a point that is not priority 1 (R16). -/
theorem State.shelfEnded_stands {r : Shelf} (hn : r.point = n) (d : State) (h : d.noCommits)
    (hp : (s.point n).priority ≠ .p1) : d.StandsTo (s.shelfEnded r d) := by
  unfold State.shelfEnded Work.pointChanged
  rw [hn, if_neg hp]
  exact Work.finish_stands d true h

theorem State.shelfEnded_settles (r : Shelf) (s d : State) : d.Settles (s.shelfEnded r d) :=
  State.settles_pointChanged (s.point r.point) d true

theorem exec_unshelve {tag : Byte} {r : Shelf}
    (ht : s.takesAt c { kind := 0x47, tag, payload := byte c.val :: be16 n.val } = some u) (hm : u.mode = .run)
    (hp : u.permitPoint c .shelve n false = .ok o) (hb : u.tripCovers (u.point n).area = false)
    (hr : u.shelfOf? n = some r) :
    exec (.unshelve tag (byte c.val :: be16 n.val)) s
      = .next ((u.shelfEnded r (u.unshelved n r)).replyDone 0x47 tag []) := by
  refine (consoleRequest_at ht (parseConsolePoint_bytes c n) hm).trans ?_
  rw [← State.endShelf_eq (State.shelfOf?_some hr).2]
  simp [actUnshelve, hp, hb, hr]

theorem exec_shelfExpired {r : Shelf} {e : Deadline} (hr : s.shelfOf? n = some r) (he : r.ending = .minutes e)
    (ht : e.time ≤ s.clock.count) (hs : e.since ≤ s.clock.timebase) :
    exec (.shelfExpired n) s = .next (s.shelfEnded r ((s.unshelved n r).notify (.shelfExpired n))) := by
  have due : s.due e := by simp [State.due, State.now, ht, hs]
  rw [← State.endShelf_eq (State.shelfOf?_some hr).2]
  show execShelfExpired n s = _
  simp [execShelfExpired, hr, Shelf.expiry?, he, due]

/-! ### SHELVE -/

/-- The record of a point that is shelved (R82, R14). -/
def Point.putAway (p : Point) : Point :=
  { p with shelved := true, ann := if p.hidden then p.ann else .normal, postTrip := if p.hidden then p.postTrip else false }

theorem State.addShelf_eq (r : Shelf) (s : State) : s.addShelf r =
    (State.modArea r.area (fun x => { x with shelvedCount := x.shelvedCount + 1 })
      { s with shelves := s.shelves ++ [r] }).setPoint r.point (s.point r.point).putAway := by
  have put (p : Point) : p.moreReason (fun q => { q with shelved := true }) = p.putAway := by
    unfold Point.moreReason Point.putAway
    split <;> rfl
  unfold State.addShelf
  rw [State.addReason_eq, ← put]
  rfl

theorem State.noCommits_addShelf (r : Shelf) (h : s.noCommits) : (s.addShelf r).noCommits := fun a => by
  rw [State.addShelf_eq, State.setPoint_area, State.area_modArea]
  split
  · exact h r.area
  · exact h a

theorem exec_shelve {tag : Byte} {p : List Byte} {x : ShelveFor}
    (ht : s.takesAt c { kind := 0x46, tag, payload := byte c.val :: p } = some u)
    (hx : parseShelve (byte c.val :: p) = some (c, n, x)) (hm : u.mode = .run)
    (hp : u.permitPoint c .shelve n false = .ok o) (hq : (u.point n).priority ≠ .p1)
    (hb : u.tripCovers (u.point n).area = false) (ho : (u.point n).outOfService = false)
    (hs : (u.point n).shelved = false) (ha : (u.area (u.point n).area).shelvedCount < 8) (hl : u.shelves.length < 128) :
    exec (.shelve tag (byte c.val :: p)) s
      = .next ((Work.finish { s := u.addShelf (u.newShelf c n o.number x), sheets := true }).replyDone 0x46 tag
        (u.shelfEnd x).bytes) := by
  refine (consoleRequest_at ht hx hm).trans ?_
  have area : ¬ Config.shelvesPerArea ≤ (u.area (u.point n).area).shelvedCount := Nat.not_le.mpr ha
  have list : ¬ Config.shelfListSize ≤ u.shelves.length := Nat.not_le.mpr hl
  simp [actShelve, hp, hq, hb, ho, hs, area, list]
  rfl

/-- Settles O40: the shelf's own changes, then the end of the event. -/
theorem shelfHidesAndBringsBack : Obligations.ShelfHidesAndBringsBack := by
  refine ⟨?_, ?_, ?_⟩
  · intro tag c n minutes v o s u hv hv' p ht hm hp q hq hb ho hs ha hl ending r d
    have parsed := parseShelve_bytes c n minutes hv hv'
    have run := exec_shelve ht parsed hm hp hq hb ho hs ha hl
    have shelf : u.newShelf c n o.number (if minutes then .minutes v else .shifts v) = r := by
      cases minutes <;> rfl
    have made : u.addShelf r = d := State.addShelf_eq r u
    have data : (u.shelfEnd (if minutes then .minutes v else .shifts v)).bytes
        = be32 (if minutes then min (u.now + 60 * v) 4294967295 else v) := by cases minutes <;> rfl
    rw [shelf, data] at run
    refine ⟨_, run, made ▸ State.settles_finish (u.addShelf r) true, fun h => ?_⟩
    exact made ▸ Work.finish_stands (u.addShelf r) true (State.noCommits_addShelf r h)
  · intro tag c n r o s u p ht hm hp hb hr
    refine ⟨_, exec_unshelve ht hm hp hb hr, State.shelfEnded_settles .., fun h hq => ?_⟩
    exact State.shelfEnded_stands (State.shelfOf?_some hr).2 _ (State.noCommits_unshelved r h) hq
  · intro n r s e hr he ht hs
    refine ⟨_, exec_shelfExpired hr he ht hs, State.shelfEnded_settles .., fun h hq => ?_⟩
    have told : ((s.unshelved n r).notify (.shelfExpired n)).noCommits := by
      rw [State.notify_eq]; exact State.noCommits_unshelved r h
    have stands := State.shelfEnded_stands (State.shelfOf?_some hr).2 _ told hq
    rw [State.notify_eq] at stands ⊢
    exact stands

end Sys2Proof.Machine

/-!
The queries: what they read, and that they change nothing.
-/

namespace Sys2Proof.Machine

variable {s u : State}

/-! ### Their payloads -/

theorem optionOf_selector (x : Option AreaNo) : optionOf areaOf (selector x) = some x := by
  cases x with
  | none => rfl
  | some a => exact optionOf_area a

theorem selector_of {sel : Byte} (h : sel = 0xFF ∨ ∃ b : AreaNo, sel = byte b.val) : ∃ x, sel = selector x := by
  rcases h with rfl | ⟨b, rfl⟩
  exacts [⟨none, rfl⟩, ⟨some b, rfl⟩]

theorem parseStanding_bytes (x : Option AreaNo) (n : PointNo) : parseStanding (selector x :: be16 n.val) = some (x, n) := by
  simp [be16, parseStanding, optionOf_selector]

theorem parseShelves_bytes (x : Option AreaNo) {pos : Nat} (h : pos ≤ 127) :
    parseShelves [selector x, byte pos] = some (x, pos) := by
  simp [parseShelves, optionOf_selector, byte_toNat (show pos < 256 by omega), within_self (Nat.zero_le pos) h]

theorem parseSheet_bytes (a : AreaNo) (posted : Bool) {pos : Nat} (h : pos ≤ 31) :
    parseSheet [byte a.val, flagByte posted, byte pos] = some (a, posted, pos) := by
  simp [parseSheet, byte_toNat (show pos < 256 by omega), within_self (Nat.zero_le pos) h]

theorem parseMeters_bytes (a : AreaNo) {count : Nat} (h : 1 ≤ count) (h' : count ≤ 16) (ha : a.val + count ≤ 32) :
    parseMeters [byte a.val, byte count] = some (a.val, count) := by
  simp [parseMeters, byte_toNat (show count < 256 by omega), byte_toNat (show a.val < 256 by omega), h, h', ha]

theorem parseConsoleOrRoom_byte (c : ConsoleNo) : parseConsoleOrRoom [byte c.val] = some (some c) := by
  simp [parseConsoleOrRoom]

theorem parseOperatorNumber_bytes {q : Nat} (h : 1 ≤ q) (h' : q ≤ 9999) : parseOperatorNumber (be16 q) = some q := by
  simp [be16, parseOperatorNumber, operatorOf_be16 h h']

theorem parseTripQuery_byte (k : TripNo) : parseTripQuery [byte (k.val + 1)] = some (some k) := by
  have : byte (k.val + 1) ≠ 0 := mt (byte_eq_zero (by omega)).mp (by omega)
  rw [parseTripQuery, if_neg this, codeOf_byte]
  rfl

theorem parseAreaOrAll_selector (x : Option AreaNo) : parseAreaOrAll [selector x] = some x := by
  simp [parseAreaOrAll, optionOf_selector]

/-! ### Their answers -/

/-- A request that is read and answered DONE with the state as it was. -/
theorem query_done {α : Type} {kind tag : Byte} {p : List Byte} {parse : List Byte → Option α} {act : State → α → Answer}
    {x : α} {data : List Byte} (ht : s.take { kind, tag, payload := p } = some u) (hp : parse p = some x)
    (ha : act u x = taken u data) : hostRequest kind tag p parse .both act s = .next (u.replyDone kind tag data) := by
  rw [hostRequest_read ht hp (refusal_both _), ha, State.answer_taken]

theorem actQueryHandover_done (x : Option AreaNo) (s : State) : ∃ data, actQueryHandover s x = taken s data := by
  cases x <;> exact ⟨_, rfl⟩

/-- Settles O26, query by query. -/
theorem queriesChangeNothing : Obligations.QueriesChangeNothing := by
  intro tag a c k n sel posted i s u hsel hi kind payload hf ht
  obtain ⟨x, rfl⟩ := selector_of hsel
  have frame {y : Byte × Byte × List Byte} (hy : i.frame? = some y) : (kind, tag, payload) = y :=
    Option.some.inj (hf.symm.trans hy)
  rcases hi with rfl | rfl | rfl | rfl | rfl | ⟨q, o, hq, low, high, rfl⟩ | ⟨pos, hpos, rfl⟩ | ⟨count, low, high, last, rfl⟩
    | rfl | rfl | ⟨pos, hpos, rfl⟩ | rfl <;> cases frame rfl
  · exact ⟨_, query_done ht rfl rfl⟩
  · exact ⟨_, query_done ht (parsePoint_be16 n) rfl⟩
  · exact ⟨_, query_done ht (parseStanding_bytes x n) rfl⟩
  · exact ⟨_, query_done ht (parseConsoleOrRoom_byte c) rfl⟩
  · exact ⟨_, query_done ht rfl rfl⟩
  · have known : u.operator? q = some o := by rw [State.take_eq ht]; exact hq
    exact ⟨_, query_done ht (parseOperatorNumber_bytes low high) (by rw [known])⟩
  · exact ⟨_, query_done ht (parseShelves_bytes x hpos) rfl⟩
  · exact ⟨_, query_done ht (parseMeters_bytes a low high last) rfl⟩
  · exact ⟨_, query_done ht (parseTripQuery_byte k) rfl⟩
  · exact ⟨_, query_done ht rfl rfl⟩
  · exact ⟨_, query_done ht (parseSheet_bytes a posted hpos) rfl⟩
  · obtain ⟨data, done⟩ := actQueryHandover_done x u
    exact ⟨data, query_done ht (parseAreaOrAll_selector x) done⟩

end Sys2Proof.Machine

/-!
The replies of the listing queries, byte by byte (R180 to R182).
-/

namespace Sys2Proof.Machine

variable {s u : State}

/-! ### Fields -/

theorem indications_eq (a b c d : Bool) : indications a b c d = bits a b c d := by
  cases a <;> cases b <;> cases c <;> cases d <;> rfl

theorem Point.states_eq (p : Point) : [byte p.condition.code, byte p.ann.code] = p.states := by
  unfold Point.states
  cases p.condition <;> cases p.ann <;> rfl

theorem isEmpty_eq_beq_nil {α : Type} [BEq α] [LawfulBEq α] (l : List α) : (!l.isEmpty) = (l != []) := by
  cases l <;> rfl

/-! ### QUERY_POINT -/

/-- The QUERY_POINT reply in the layout of R182. -/
theorem Point.bytes_eq (n : PointNo) (p : Point) (counter : Nat) : p.bytes n counter =
    be16 n.val ++ [flagByte p.configured, byte p.area.val, byte p.priority.num] ++ p.states
      ++ [bits p.shelved p.outOfService p.hidden p.postTrip, byte p.occurrences]
      ++ present 6 be48 p.raiseSeq ++ present 4 be32 p.raisedAt ++ present 6 Stamp.bytes p.acked
      ++ be48 counter ++ byte p.suppression.length :: p.suppression.map fun c => byte (c.val + 1) := by
  unfold Point.bytes
  rw [indications_eq, ← Point.states_eq]
  simp only [List.append_assoc, List.cons_append, List.nil_append, tripCodeOf]

theorem exec_queryPoint {tag : Byte} {n : PointNo} (ht : s.take { kind := 0x28, tag, payload := be16 n.val } = some u) :
    exec (.queryPoint tag (be16 n.val)) s = .next (u.replyDone 0x28 tag ((u.point n).bytes n u.raiseCounter)) :=
  query_done ht (parsePoint_be16 n) rfl

/-! ### IDENTIFY -/

theorem revision_ne_zero : byte (Config.siliconRevision.val + 1) ≠ 0 :=
  mt (byte_eq_zero (by omega)).mp (by omega)

theorem State.identity_eq (s : State) : s.identity =
    be16 4120 ++ [byte (Config.siliconRevision.val + 1), (if s.mode = .run then 1 else 0), (if s.link.slow then 1 else 0)]
      ++ be32 s.clock.count ++ be16 2048 ++ [128, 8, 32, 128, 15] ++ be16 512 ++ be16 1024 ++ [64] ++ be16 256 ++ [64] := by
  have mode : byte s.mode.code = if s.mode = .run then 1 else 0 := by cases s.mode <;> rfl
  unfold State.identity capacityBytes
  rw [mode]
  simp only [List.append_assoc]
  rw [show Config.partNumber = 4120 from rfl, show s.now = s.clock.count from rfl,
    show flagByte s.link.slow = (if s.link.slow then 1 else 0) from rfl]

/-! ### LIST_STANDING -/

theorem State.numbered_eq (s : State) : s.numbered = (List.finRange 2048).map fun n => (n, s.point n) :=
  List.ext_getElem (by simp [State.numbered]) fun i h h' => by simp [State.numbered, State.point]

/-- The standing points of a selection, ascending (R22). -/
theorem State.standing_eq (sel : Option AreaNo) (first : PointNo) (s : State) : s.standing sel first =
    ((List.finRange 2048).filter fun n => first ≤ n && (s.point n).configured
      && ((s.point n).condition == .active || (s.point n).ann == .faded)
      && (sel == none || sel == some (s.point n).area)).map fun n => (n, s.point n) := by
  unfold State.standing
  rw [State.numbered_eq, List.filter_map]
  refine congrArg _ (List.filter_congr fun n _ => ?_)
  have all : sel.isNone = (sel == none) := by cases sel <;> rfl
  simp only [Function.comp, Point.standing, all, Bool.and_assoc]

theorem standingContinuation_map (s : State) (l : List PointNo) :
    standingContinuation (l.map fun n => (n, s.point n)) = match l.getLast? with
      | some n => if l.length < 40 ∨ n = 2047 then 0xFFFF else n.val + 1
      | none => 0xFFFF := by
  unfold standingContinuation
  rw [List.getLast?_map]
  cases l.getLast? with
  | none => rfl
  | some n => simp only [Option.map_some, List.length_map, Fin.ext_iff]; rfl

theorem Point.standingBytes_eq (n : PointNo) (p : Point) : p.standingBytes n = be16 n.val ++ byte p.priority.num :: p.states
    ++ [bits p.shelved p.outOfService (p.suppression != []) p.postTrip] := by
  unfold Point.standingBytes
  rw [indications_eq, ← Point.states_eq, isEmpty_eq_beq_nil]
  rfl

theorem actListStanding_listed {area : Option AreaNo} {first : PointNo} {l : List PointNo}
    (h : (s.standing area first).take 40 = l.map fun n => (n, s.point n)) : actListStanding s (area, first) =
      taken s (byte l.length :: l.flatMap (fun n => (s.point n).standingBytes n)
        ++ be16 (standingContinuation (l.map fun n => (n, s.point n)))) := by
  unfold actListStanding
  dsimp only
  rw [h, List.length_map, List.flatMap_map]

/-! ### LIST_SHELVES -/

/-- The chosen records stand in the order of their positions. -/
theorem zipIdx_pairwise {α : Type} (l : List α) (k : Nat) : (l.zipIdx k).Pairwise (·.2 < ·.2) := by
  induction l generalizing k with
  | nil => exact .nil
  | cons x l ih =>
    rw [List.zipIdx_cons]
    refine List.pairwise_cons.mpr ⟨fun y hy => ?_, ih (k + 1)⟩
    exact Nat.lt_of_succ_le (List.mem_zipIdx hy).1

theorem zipIdx_any_after {α : Type} (l : List α) (k : Nat) : (l.zipIdx.any fun y => k < y.2) = decide (k + 1 < l.length) := by
  rw [Bool.eq_iff_iff, List.any_eq_true, decide_eq_true_eq]
  constructor
  · rintro ⟨y, hy, hk⟩
    have := (List.mem_zipIdx hy).2.1
    simp only [decide_eq_true_eq] at hk
    omega
  · intro h
    exact ⟨(l[k + 1], k + 1), List.mem_zipIdx_iff_getElem?.mpr (by simp [h]), by simp⟩

/-- The last of a sorted list stands behind none of it. -/
theorem not_after_getLast {α : Type} {l : List (α × Nat)} (h : l.Pairwise (·.2 < ·.2)) {x y : α × Nat}
    (hx : l.getLast? = some x) (hy : y ∈ l) : ¬ x.2 < y.2 := by
  induction l with
  | nil => cases hy
  | cons z l ih =>
    obtain ⟨hz, hl⟩ := List.pairwise_cons.mp h
    cases l with
    | nil =>
      simp only [List.getLast?_singleton, Option.some.injEq] at hx
      rw [List.mem_singleton.mp hy, hx]
      exact Nat.lt_irrefl _
    | cons w l =>
      rw [List.getLast?_cons_cons] at hx
      rcases List.mem_cons.mp hy with rfl | hy
      · exact Nat.not_lt.mpr (hz x (List.mem_of_mem_getLast? hx)).le
      · exact ih hl hx hy

/-- LIST_SHELVES is complete where no record of the selection follows (R88). A reply is full only of every area's records, as
no area has 15 (R79). -/
theorem shelfContinuation_eq (h : s.ShelvesSound) (area : Option AreaNo) (first : Nat) :
    let chosen := s.shelves.zipIdx.filter fun x => area == none || area == some x.1.area
    let listed := (chosen.filter fun x => first ≤ x.2).take 15
    byte (shelfContinuation s.shelves.length listed) = match listed.getLast? with
      | some x => if chosen.any fun y => x.2 < y.2 then byte (x.2 + 1) else 0xFF
      | none => 0xFF := by
  intro chosen listed
  have sorted : chosen.Pairwise (·.2 < ·.2) := (zipIdx_pairwise s.shelves 0).filter _
  unfold shelfContinuation
  cases hx : listed.getLast? with
  | none => rfl
  | some x =>
    dsimp only
    by_cases full : listed.length < 15
    · have whole : listed = chosen.filter fun x => first ≤ x.2 := by
        refine List.take_of_length_le (Nat.le_of_not_lt fun hlt => ?_)
        have : listed.length = 15 := by rw [List.length_take]; omega
        omega
      have last : (chosen.any fun y => x.2 < y.2) = false := by
        refine List.any_eq_false.mpr fun y hy hlt => ?_
        rw [whole] at hx
        have hf := (List.mem_filter.mp (List.mem_of_mem_getLast? hx)).2
        simp only [decide_eq_true_eq] at hlt hf
        exact not_after_getLast (sorted.filter _) hx (List.mem_filter.mpr ⟨hy, by simp; omega⟩) hlt
      rw [if_pos (.inl full), last]
      rfl
    · have every : area = none := by
        cases area with
        | none => rfl
        | some a =>
          have few : chosen.length ≤ 8 := by
            have : chosen.length = s.shelves.countP (·.area == a) := by
              rw [← List.countP_eq_length_filter]
              conv_rhs => rw [← List.zipIdx_map_fst 0 s.shelves, List.countP_map]
              exact List.countP_congr fun x _ => by simp [@eq_comm _ a x.1.area]
            rw [this, ← h.count a]
            exact h.perArea a
          have : listed.length ≤ chosen.length := (List.length_take_le' _ _).trans (List.length_filter_le _ _)
          omega
      have all : chosen = s.shelves.zipIdx := List.filter_eq_self.mpr fun y _ => by simp [every]
      rw [all, zipIdx_any_after]
      by_cases hl : s.shelves.length ≤ x.2 + 1
      · rw [if_pos (.inr hl), decide_eq_false (Nat.not_lt.mpr hl)]; rfl
      · rw [if_neg (not_or.mpr ⟨full, hl⟩), decide_eq_true (Nat.lt_of_not_le hl)]; rfl

theorem State.shelfSelection_eq (sel : Option AreaNo) (s : State) : s.shelfSelection sel =
    s.shelves.zipIdx.filter fun x => sel == none || sel == some x.1.area := by
  unfold State.shelfSelection
  have : sel.isNone = (sel == none) := by cases sel <;> rfl
  rw [this]

/-! ### READ_SHEET -/

theorem ItemKind.wire_eq (k : ItemKind) : k.wire = (byte k.code, k.reference) := by
  cases k with
  | shelf p e => cases e <;> rfl
  | _ => rfl

theorem ItemKind.captured_iff (x : Item) : x.captured = decide (3 ≤ x.kind.wire.1.toNat) := by
  rw [ItemKind.wire_eq]
  unfold Item.captured
  cases x.kind <;> rfl

/-- An item record in the layout of R182. -/
theorem Item.bytes_eq (position : Nat) (slot : SlotNo) (x : Item) : x.bytes position slot = x.wire position slot := by
  have captured : flagByte x.captured = if 3 ≤ x.kind.wire.1.toNat then 1 else 0 := by
    rw [ItemKind.captured_iff]
    unfold flagByte
    simp only [decide_eq_true_eq]
  unfold Item.bytes Item.wire
  rw [captured, ItemKind.wire_eq]
  cases x.author <;> cases x.reviewed <;> rfl

/-- The frame's items, each with the slot that holds it. -/
def State.Holds (s : State) (items : List (SlotNo × Item)) : Prop := ∀ x ∈ items, s.item x.1 = some x.2

theorem State.Holds.captured {items : List (SlotNo × Item)} (h : s.Holds items) :
    (items.map Prod.fst).countP s.isCaptured = items.countP fun x => 3 ≤ x.2.kind.wire.1.toNat := by
  rw [List.countP_map]
  refine List.countP_congr fun x hx => ?_
  rw [Function.comp, State.isCaptured, h x hx, Option.any_some, ItemKind.captured_iff]

theorem State.Holds.unreviewed {items : List (SlotNo × Item)} (h : s.Holds items) :
    s.unreviewed (items.map Prod.fst) = items.countP fun x => x.2.reviewed = none := by
  unfold State.unreviewed
  rw [List.countP_map]
  refine List.countP_congr fun x hx => ?_
  rw [Function.comp, State.reviewed, h x hx]
  show (!x.2.reviewed.isSome) = true ↔ _
  cases x.2.reviewed <;> simp

theorem take_zipIdx {α : Type} (n k : Nat) (l : List α) : (l.zipIdx k).take n = (l.take n).zipIdx k := by
  induction l generalizing n k with
  | nil => simp
  | cons x l ih => cases n <;> simp [List.zipIdx_cons, ih]

/-- The items listed from a start position, with their positions (R136). -/
theorem listedItems_eq (items : List SlotNo) (first : Nat) :
    listedItems items first = ((items.drop first).take 7).zipIdx first := by
  have from_ (l : List SlotNo) (k : Nat) :
      ((l.zipIdx k).filter fun x => first ≤ x.2) = (l.drop (first - k)).zipIdx (max first k) := by
    induction l generalizing k with
    | nil => simp
    | cons x l ih =>
      rw [List.zipIdx_cons, List.filter_cons, ih (k + 1)]
      by_cases hk : first ≤ k
      · have e : first - k = 0 := by omega
        have e' : first - (k + 1) = 0 := by omega
        simp [hk, e, e', Nat.max_eq_right (Nat.le_succ_of_le hk)]
      · have e : first - k = first - (k + 1) + 1 := by omega
        simp only [hk, decide_false, Bool.false_eq_true, if_false, e, List.drop_succ_cons]
        rw [Nat.max_eq_left (by omega), Nat.max_eq_left (by omega)]
  unfold listedItems
  rw [from_, Nat.sub_zero, Nat.max_eq_left (Nat.zero_le _), take_zipIdx]

theorem zipIdx_map_fst_eq (items : List (SlotNo × Item)) (k : Nat) :
    (items.map Prod.fst).zipIdx k = (items.zipIdx k).map fun x => (x.1.1, x.2) := by
  induction items generalizing k with
  | nil => rfl
  | cons x l ih => simp [List.zipIdx_cons, ih]

/-- The item records of a READ_SHEET reply. -/
theorem State.Holds.itemBytes {items : List (SlotNo × Item)} (h : s.Holds items) (first : Nat) :
    (listedItems (items.map Prod.fst) first).flatMap s.itemBytes
      = (((items.drop first).take 7).zipIdx first).flatMap fun x => x.1.2.wire x.2 x.1.1 := by
  rw [listedItems_eq, ← List.map_drop, ← List.map_take, zipIdx_map_fst_eq, List.flatMap_map]
  refine List.flatMap_congr fun x hx => ?_
  have mem : x.1 ∈ items := by
    obtain ⟨-, -, e⟩ := List.mem_zipIdx hx
    rw [e]
    exact List.mem_of_mem_drop (List.mem_of_mem_take (List.getElem_mem _))
  simp only [State.itemBytes, h _ mem, Item.bytes_eq]

theorem length_listedItems (items : List (SlotNo × Item)) (first : Nat) :
    (listedItems (items.map Prod.fst) first).length = (((items.drop first).take 7).zipIdx first).length := by
  rw [listedItems_eq, ← List.map_drop, ← List.map_take, zipIdx_map_fst_eq, List.length_map]

/-- The posted frame's own header fields (R136, R182). -/
theorem State.postedBytes_eq {items : List (SlotNo × Item)} (h : s.Holds items) {p : Posted}
    (hp : p.items = items.map Prod.fst) : s.postedBytes p =
      [byte (items.length - items.countP fun x => 3 ≤ x.2.kind.wire.1.toNat),
        byte (items.countP fun x => 3 ≤ x.2.kind.wire.1.toNat)]
      ++ (present 7 (fun g : Posting => be16 g.shift ++ byte g.crew.code :: be32 g.time) p.posting
        ++ present 30 (fun g : Posting => g.summary.wire) p.posting)
      ++ [byte (items.countP fun x => x.2.reviewed = none)] := by
  unfold State.postedBytes
  dsimp only
  rw [hp, h.captured, h.unreviewed, List.length_map, List.append_assoc (_ ++ _)]
  simp only [List.append_assoc]
  rfl

/-- The reply of READ_SHEET, its header's own fields aside (R136, R182). -/
theorem actReadSheet_eq {items : List (SlotNo × Item)} {a : AreaNo} {posted : Bool} {first : Nat} (h : s.Holds items)
    (hf : (if posted then (s.area a).posted.items else (s.area a).draft.items) = items.map Prod.fst) :
    actReadSheet s (a, posted, first) = taken s
      ([flagByte (s.area a).config.configured, byte (s.area a).config.posting.code, flagByte posted] ++ be16 s.freeCount
        ++ byte items.length :: (if posted then s.postedBytes (s.area a).posted else (s.area a).draft.bytes)
        ++ byte (((items.drop first).take 7).zipIdx first).length
          :: (((items.drop first).take 7).zipIdx first).flatMap (fun x => x.1.2.wire x.2 x.1.1)
        ++ [if items.length ≤ first + 7 then 0xFF else byte (first + 7)]) := by
  have next : byte (sheetContinuation (items.map Prod.fst) first)
      = if items.length ≤ first + 7 then 0xFF else byte (first + 7) := by
    unfold sheetContinuation
    rw [List.length_map]
    split <;> rfl
  unfold actReadSheet State.sheetHeader
  dsimp only
  rw [hf, List.length_map, h.itemBytes, length_listedItems, next]
  simp only [List.append_assoc, List.cons_append, List.nil_append]

/-! ### The replies together -/

/-- Settles O27, reply by reply. -/
theorem reportedRecordLayouts : Obligations.ReportedRecordLayouts := by
  refine ⟨?_, ?_, ?_, ?_, ?_⟩
  · intro tag n s u ht p
    rw [exec_queryPoint ht, Point.bytes_eq]
    dsimp only [p]
    cases (u.point n).raiseSeq <;> cases (u.point n).raisedAt <;> cases (u.point n).acked <;> rfl
  · intro tag s u ht
    refine ⟨_, revision_ne_zero, ?_⟩
    rw [← State.identity_eq]
    exact query_done ht rfl rfl
  · intro tag area first s u q ht listed
    have selected : (u.standing area first).take 40 = listed.map fun n => (n, u.point n) := by
      rw [State.standing_eq, ← List.map_take]
    clear_value listed
    refine (query_done ht (parseStanding_bytes area first) (actListStanding_listed selected)).trans ?_
    rw [standingContinuation_map]
    simp only [Point.standingBytes_eq] <;> rfl
  · intro tag area first s u hf sound q ht chosen listed next
    have soundU : u.ShelvesSound := sound.same (by rw [State.take_eq ht]) (fun a => by rw [State.take_eq ht]; rfl)
      fun n => by rw [State.take_eq ht]; rfl
    refine (query_done ht (parseShelves_bytes area hf) rfl).trans ?_
    rw [State.shelfSelection_eq, shelfContinuation_eq soundU]
    rfl
  · intro tag a posted first items s u hf q ht r hframe hitems captured own listed
    have holds : u.Holds items := hitems
    have fields : (if posted then u.postedBytes (u.area a).posted else (u.area a).draft.bytes) = own := by
      cases posted with
      | false =>
        show (u.area a).draft.bytes = own
        unfold Draft.bytes
        dsimp only [own, r]
        cases (u.area a).draft.lock <;> cases (u.area a).draft.commit <;> rfl
      | true =>
        show u.postedBytes (u.area a).posted = own
        rw [State.postedBytes_eq holds hframe]
        dsimp only [own, r]
        cases (u.area a).posted.posting with
        | none => rfl
        | some g => simp only [present, List.append_assoc, List.cons_append]; rfl
    refine (query_done ht (parseSheet_bytes a posted hf) (actReadSheet_eq holds hframe)).trans ?_
    rw [fields]

end Sys2Proof.Machine

/-!
What the derived terms mean: routing, duty, coverage, banners, horns, beacons, the queue's taking of a notice, and the
permission check (chapters 2, 3, 8 and 9).
-/

namespace Sys2Proof.Machine

variable {s : State} {c : ConsoleNo} {a : AreaNo} {o : Operator}

/-! ### Routing, duty and coverage -/

theorem Pair.matches_iff (q : Pair) (a : AreaNo) : q.matches a ↔ q.covers a := beq_iff_eq

theorem Operator.qualified_iff (o : Operator) (a : AreaNo) : o.qualified a ↔ ∃ q ∈ o.quals, q.covers a := by
  unfold Operator.qualified
  simp only [List.any_eq_true, Pair.matches_iff]

theorem Seat.not_isSeated_iff (x : Seat) : x.isSeated = false ↔ x = .vacant ∨ ∃ n, x = .absent n := by
  cases x <;> simp [Seat.isSeated]

theorem State.routes_iff : s.routes c a ↔ s.Routed c a := by
  unfold State.routes State.Routed Console.ownRouting
  simp only [Bool.and_eq_true, Bool.or_eq_true, List.any_eq_true, Pair.matches_iff, Bool.not_eq_true', beq_iff_eq,
    Seat.not_isSeated_iff, and_assoc]
  exact and_congr_right fun _ => or_congr_right (exists_congr fun d => and_iff_right (List.mem_finRange d))

theorem Handover.inProgress_iff (h : Handover) :
    h.inProgress ↔ (∃ p x y, h = .running p x y) ∨ ∃ p x y r, h = .suspended p x y r := by
  cases h <;> simp [Handover.inProgress]

theorem State.dutyAck_iff {k : Crew} : s.dutyAck k a ↔ s.OnDuty k a := by
  unfold State.dutyAck State.OnDuty
  rw [Bool.or_eq_true, Bool.and_eq_true, beq_iff_eq, beq_iff_eq, Handover.inProgress_iff]

theorem State.dutyArea_iff {k : Crew} : s.dutyArea k a ↔ k = (s.area a).duty := beq_iff_eq

theorem State.coveredBy_iff : s.coveredBy a c ↔ ∃ n d o, (s.console c).seat = .seated n d ∧ s.operator? n = some o ∧
    s.routes c a ∧ o.qualified a ∧ s.OnDuty o.crew a := by
  unfold State.coveredBy
  constructor
  · intro h
    split at h
    · rename_i n d seat
      split at h
      · rename_i o known
        rw [Bool.and_eq_true, Bool.and_eq_true, State.dutyAck_iff] at h
        exact ⟨n, d, o, seat, known, h.1.1, h.1.2, h.2⟩
      · cases h
    all_goals cases h
  · rintro ⟨n, d, o, seat, known, routed, qualified, duty⟩
    simp [seat, known, routed, qualified, State.dutyAck_iff.mpr duty]

theorem State.coveredNow_iff (h : (s.area a).config.configured) : s.coveredNow a ↔ s.Covered a := by
  unfold State.coveredNow State.Covered
  rw [h, Bool.true_and, List.any_eq_true]
  exact exists_congr fun c => (and_iff_right (List.mem_finRange c)).trans State.coveredBy_iff

/-! ### Points in view -/

theorem Point.hidden_iff (p : Point) : p.hidden ↔ p.shelved ∨ p.outOfService ∨ p.suppression ≠ [] := by
  unfold Point.hidden
  cases p.suppression <;> simp

theorem State.exists_iff {p : Point} : s.exists? p ↔ p.configured ∧ (s.area p.area).config.configured :=
  Bool.and_eq_true_iff

/-- A test of the points in view is one of the unhidden points in an annunciation state. -/
theorem State.any_inView (f : PointNo × Point → Bool) : s.inView.any f ↔
    ∃ n, (s.point n).hidden = false ∧ (s.point n).ann ≠ .normal ∧ f (n, s.point n) := by
  unfold State.inView
  simp only [List.any_filter, List.any_eq_true, Bool.and_eq_true, Bool.not_eq_true', bne_iff_ne]
  constructor
  · rintro ⟨x, hx, ⟨hidden, ann⟩, hf⟩
    have e := State.mem_numbered.mp hx
    rw [e] at hidden ann
    rw [← Prod.mk.eta (p := x), e] at hf
    exact ⟨x.1, hidden, ann, hf⟩
  · rintro ⟨n, hidden, ann, hf⟩
    exact ⟨(n, s.point n), State.mem_numbered.mpr rfl, ⟨hidden, ann⟩, hf⟩

theorem Point.sounding_iff (p : Point) : p.sounding ↔ p.hidden = false ∧ p.ann = .new := by
  unfold Point.sounding
  rw [Bool.and_eq_true, Bool.not_eq_true', beq_iff_eq]

/-- What asks for a sounding point needs no test that the point is in view. -/
theorem State.any_inView_sounding (f : PointNo × Point → Bool) (h : ∀ x, f x → x.2.sounding) :
    s.inView.any f ↔ ∃ n, f (n, s.point n) := by
  rw [State.any_inView]
  refine exists_congr fun n => ⟨fun hn => hn.2.2, fun hn => ?_⟩
  obtain ⟨hidden, ann⟩ := (Point.sounding_iff _).mp (h _ hn)
  exact ⟨hidden, by rw [ann]; nofun, hn⟩

theorem State.p1Standing_iff : s.p1Standing c ↔ ∃ n, (s.point n).hidden = false ∧ (s.point n).ann = .new ∧
    (s.point n).priority = .p1 ∧ s.routes c (s.point n).area := by
  unfold State.p1Standing
  rw [State.any_inView_sounding _ fun x hx => (Bool.and_eq_true_iff.mp (Bool.and_eq_true_iff.mp hx).1).1]
  simp only [Bool.and_eq_true, Point.sounding_iff, beq_iff_eq, and_assoc]

/-! ### The banner -/

/-- R50's keys of a numbered point. -/
def rankKeysOf (x : PointNo × Point) : List Nat :=
  [if x.2.ann = .faded then 1 else 0, x.2.priority.num, if x.2.postTrip then 1 else 0, x.2.raiseSeq.getD 0, x.1.val]

theorem State.rankKeys_eq (n : PointNo) : s.rankKeys n = rankKeysOf (n, s.point n) := rfl

theorem ranksBefore_iff (x y : PointNo × Point) : ranksBefore x y ↔ rankKeysOf x < rankKeysOf y := by
  unfold ranksBefore rankKeysOf
  simp only [List.cons_lt_cons_iff, List.lt_irrefl, and_false, or_false]
  by_cases fx : x.2.ann = .faded <;> by_cases fy : y.2.ann = .faded <;> simp [fx, fy]
  all_goals
    by_cases hp : x.2.priority.num = y.2.priority.num
    · cases x.2.postTrip <;> cases y.2.postTrip <;> simp [hp]
      all_goals
        by_cases hr : x.2.raiseSeq.getD 0 = y.2.raiseSeq.getD 0 <;> simp [hr]
    · simp [hp]

/-- The first point of a ranked list is before all others. -/
theorem head_ranked_le {l : List (PointNo × Point)} {x y : PointNo × Point} (hx : (ranked l).head? = some x) (hy : y ∈ l) :
    rankKeysOf x ≤ rankKeysOf y := by
  induction l generalizing x with
  | nil => cases hy
  | cons z l ih =>
    rw [ranked] at hx
    cases hl : ranked l with
    | nil =>
      have : y = z := by
        rcases List.mem_cons.mp hy with e | e
        · exact e
        · exact absurd (State.mem_ranked.mpr e) (by rw [hl]; exact List.not_mem_nil)
      rw [hl, insertRanked] at hx
      cases hx
      rw [this]
    | cons w ws =>
      have least := ih (x := w) (by rw [hl]; rfl)
      rw [hl, insertRanked] at hx
      split at hx
      · rename_i hz
        cases hx
        rcases List.mem_cons.mp hy with rfl | e
        · exact le_rfl
        · exact ((ranksBefore_iff _ _).mp hz).le.trans (least e)
      · rename_i hz
        cases hx
        rcases List.mem_cons.mp hy with rfl | e
        · exact not_lt.mp fun h => hz ((ranksBefore_iff _ _).mpr h)
        · exact least e

theorem State.head_orderOf_le {x y : PointNo × Point} (hx : (s.orderOf c).head? = some x) (hy : y ∈ s.orderOf c) :
    rankKeysOf x ≤ rankKeysOf y := by
  unfold State.orderOf at hx hy
  exact head_ranked_le hx (State.mem_ranked.mp hy)

theorem rankKeysOf_ne {x y : PointNo × Point} (h : x.1 ≠ y.1) : rankKeysOf x ≠ rankKeysOf y := by
  intro e
  simp only [rankKeysOf, List.cons.injEq, and_true] at e
  obtain ⟨-, -, -, -, number⟩ := e
  exact h (Fin.ext number)

theorem State.mem_annunciationOrder {n : PointNo} : (n, s.point n) ∈ s.orderOf c ↔ s.InOrder c n :=
  State.mem_orderOf.trans (and_iff_right rfl)

theorem State.bannerOf_is (s : State) (c : ConsoleNo) : s.BannerIs c (s.bannerOf c) := by
  cases h : s.bannerOf c with
  | none =>
    intro n hn
    have empty : s.orderOf c = [] := by simpa [State.bannerOf] using h
    exact absurd (State.mem_annunciationOrder.mpr hn) (by rw [empty]; exact List.not_mem_nil)
  | some n =>
    refine ⟨State.bannerOf_inOrder h, fun m hm hne => ?_⟩
    obtain ⟨x, hx, rfl⟩ := Option.map_eq_some_iff.mp h
    have record := (State.mem_orderOf.mp (List.mem_of_mem_head? hx)).1
    have le : rankKeysOf x ≤ rankKeysOf (m, s.point m) :=
      State.head_orderOf_le hx (State.mem_annunciationOrder.mpr hm)
    rw [State.rankKeys_eq, State.rankKeys_eq, ← record]
    exact lt_of_le_of_ne le (rankKeysOf_ne (x := x) (y := (m, s.point m)) (Ne.symm hne))

/-! ### Horns and beacons -/

/-- The horn for the points of a list that satisfy `f` is at the cadence of the best priority among them. -/
theorem State.hornFor_is {f : Point → Bool} {eligible : PointNo → Prop} {xs : List (PointNo × Point)}
    (has : ∀ q, (xs.any fun x => x.2.priority == q && f x.2) ↔ ∃ n, eligible n ∧ (s.point n).priority = q) :
    s.CadenceIs eligible (hornFor f xs) := by
  have out {n : PointNo} {q : Priority} (hq : ¬ (xs.any fun x => x.2.priority == q && f x.2)) (hn : eligible n) :
      (s.point n).priority ≠ q := fun e => hq ((has q).mpr ⟨n, hn, e⟩)
  unfold hornFor
  dsimp only
  split
  · rename_i h1
    exact ⟨(has .p1).mp h1, fun n _ => by cases (s.point n).priority <;> decide⟩
  split
  · rename_i h1 h2
    refine ⟨(has .p2).mp h2, fun n hn => ?_⟩
    have := out h1 hn
    revert this
    cases (s.point n).priority <;> decide
  split
  · rename_i h1 h2 h3
    refine ⟨(has .p3).mp h3, fun n hn => ?_⟩
    have := And.intro (out h1 hn) (out h2 hn)
    revert this
    cases (s.point n).priority <;> decide
  split
  · rename_i h1 h2 h3 h4
    refine ⟨(has .p4).mp h4, fun n hn => ?_⟩
    have := And.intro (out h1 hn) (And.intro (out h2 hn) (out h3 hn))
    revert this
    cases (s.point n).priority <;> decide
  · rename_i h1 h2 h3 h4
    intro n hn
    cases e : (s.point n).priority
    exacts [out h1 hn e, out h2 hn e, out h3 hn e, out h4 hn e]

/-- A test for a priority among points that sound. -/
theorem State.any_priority_iff {f : Point → Bool} {eligible : PointNo → Prop} (hf : ∀ p, f p → p.sounding)
    (he : ∀ n, f (s.point n) ↔ eligible n) (q : Priority) :
    (s.inView.any fun x => x.2.priority == q && f x.2) ↔ ∃ n, eligible n ∧ (s.point n).priority = q := by
  rw [State.any_inView_sounding _ fun x hx => hf _ (Bool.and_eq_true_iff.mp hx).2]
  refine exists_congr fun n => ?_
  rw [Bool.and_eq_true, beq_iff_eq, he, and_comm]

theorem Point.above_iff (p : Point) (mark : Nat) : p.above mark ↔ ∃ x, p.raiseSeq = some x ∧ mark < x := by
  unfold Point.above
  cases p.raiseSeq <;> simp

theorem Priority.isLow_iff (q : Priority) : (q == .p3 || q == .p4) ↔ 3 ≤ q.num := by
  cases q <;> decide

theorem State.hornEligible_iff (n : PointNo) : s.hornEligible c (s.point n) ↔ s.SoundsAt c n := by
  unfold State.hornEligible State.SoundsAt
  simp only [Bool.and_eq_true, Point.sounding_iff, Bool.not_eq_true', Bool.or_eq_true (Point.above _ _), Point.above_iff,
    and_assoc, ← Bool.not_eq_true (_ && _), Priority.isLow_iff, beq_iff_eq]
  refine and_congr_right fun _ => and_congr_right fun _ => and_congr_right fun _ => and_congr_right fun _ =>
    and_congr_right fun _ => ?_
  constructor
  · rintro (⟨x, e, h⟩ | ⟨q, x, e, h⟩)
    exacts [⟨x, e, .inl h⟩, ⟨x, e, .inr ⟨q, h⟩⟩]
  · rintro ⟨x, e, h | ⟨q, h⟩⟩
    exacts [.inl ⟨x, e, h⟩, .inr ⟨q, x, e, h⟩]

theorem State.hornOf_is (s : State) (c : ConsoleNo) : s.HornIs c (s.hornOf c) := by
  have run : (s.mode == .run && (s.console c).config.configured && (s.console c).seat != .vacant) ↔
      s.mode = .run ∧ (s.console c).config.configured ∧ (s.console c).seat ≠ .vacant := by
    rw [Bool.and_eq_true, Bool.and_eq_true, beq_iff_eq, bne_iff_ne, and_assoc]
  unfold State.HornIs State.hornOf
  by_cases h : s.mode = .run ∧ (s.console c).config.configured ∧ (s.console c).seat ≠ .vacant
  · rw [if_pos h, if_pos (run.mpr h)]
    have has := State.any_priority_iff (fun p hp => (Point.sounding_iff p).mpr ?_) (State.hornEligible_iff (s := s) (c := c))
    generalize s.inView = xs at has ⊢
    exact State.hornFor_is has
    simp only [State.hornEligible, Bool.and_eq_true, Point.sounding_iff] at hp
    obtain ⟨⟨⟨⟨sounding, -⟩, -⟩, -⟩, -⟩ := hp
    exact sounding
  · rw [if_neg h, if_neg fun e => h (run.mp e)]

theorem State.roomEligible_iff (n : PointNo) : s.roomEligible (s.point n) ↔ s.SoundsInRoom n := by
  unfold State.roomEligible State.SoundsInRoom
  simp only [Bool.and_eq_true, Point.sounding_iff, Bool.not_eq_true', Point.above_iff, and_assoc]

theorem State.roomHornOf_is (s : State) : s.RoomHornIs s.roomHornOf := by
  unfold State.RoomHornIs State.roomHornOf
  by_cases h : s.mode = .run
  · rw [if_pos h, if_pos (beq_iff_eq.mpr h)]
    have has := State.any_priority_iff (fun p hp => ?_) (State.roomEligible_iff (s := s))
    generalize s.inView = xs at has ⊢
    exact State.hornFor_is has
    simp only [State.roomEligible, Bool.and_eq_true] at hp
    obtain ⟨⟨⟨sounding, -⟩, -⟩, -⟩ := hp
    exact sounding
  · rw [if_neg h, if_neg fun e => h (beq_iff_eq.mp e)]

theorem Annunciation.stands_iff (x : Annunciation) (h : x ≠ .new) : x ≠ .normal ↔ x = .acked ∨ x = .faded := by
  cases x <;> simp at h ⊢

theorem isEmpty_eq_not_any {α : Type} (l : List α) : l.isEmpty = !l.any fun _ => true := by cases l <;> rfl

theorem State.beaconOf_is (s : State) (c : ConsoleNo) : s.BeaconIs c (s.beaconOf c) := by
  have run : (s.mode == .run && (s.console c).config.configured) ↔ s.mode = .run ∧ (s.console c).config.configured := by
    rw [Bool.and_eq_true, beq_iff_eq]
  have new : ((s.inView.filter fun x => s.routes c x.2.area).any (·.2.ann == .new)) ↔
      ∃ n, ((s.point n).hidden = false ∧ s.routes c (s.point n).area) ∧ (s.point n).ann = .new := by
    rw [List.any_filter, State.any_inView]
    refine exists_congr fun n => ?_
    simp only [Bool.and_eq_true, beq_iff_eq]
    constructor
    · rintro ⟨hidden, -, routed, ann⟩; exact ⟨⟨hidden, routed⟩, ann⟩
    · rintro ⟨⟨hidden, routed⟩, ann⟩; exact ⟨hidden, by rw [ann]; nofun, routed, ann⟩
  have routed : (s.inView.filter fun x => s.routes c x.2.area).isEmpty = false ↔
      ∃ n, ((s.point n).hidden = false ∧ s.routes c (s.point n).area) ∧ (s.point n).ann ≠ .normal := by
    rw [isEmpty_eq_not_any, Bool.not_eq_false', List.any_filter, State.any_inView]
    refine exists_congr fun n => ?_
    rw [Bool.and_true]
    exact ⟨fun ⟨hidden, ann, hr⟩ => ⟨⟨hidden, hr⟩, ann⟩, fun ⟨⟨hidden, hr⟩, ann⟩ => ⟨hidden, ann, hr⟩⟩
  have stands (n : PointNo) (h : (s.point n).ann = .acked ∨ (s.point n).ann = .faded) : (s.point n).ann ≠ .normal := by
    rcases h with h | h <;> rw [h] <;> nofun
  unfold State.BeaconIs State.beaconOf
  dsimp only
  generalize (s.inView.filter fun x => s.routes c x.2.area) = xs at new routed ⊢
  by_cases h : s.mode = .run ∧ (s.console c).config.configured
  · rw [if_pos h, if_pos (run.mpr h)]
    by_cases hn : xs.any (·.2.ann == .new)
    · rw [if_pos hn]
      exact new.mp hn
    · rw [if_neg hn]
      cases he : xs.isEmpty with
      | true =>
        rw [if_pos rfl]
        refine ⟨fun h => hn (new.mpr h), fun ⟨n, hn, ann⟩ => ?_⟩
        exact absurd (routed.mpr ⟨n, hn, stands n ann⟩) (by rw [he]; nofun)
      | false =>
        rw [if_neg nofun]
        obtain ⟨n, hr, ann⟩ := routed.mp he
        exact ⟨fun h => hn (new.mpr h), n, hr, (Annunciation.stands_iff _ fun e => hn (new.mpr ⟨n, hr, e⟩)).mp ann⟩
  · rw [if_neg h, if_neg fun e => h (run.mp e)]

/-! ### Running trips, suspension reasons and suppression sets -/

theorem State.tripCovers_iff : s.tripCovers a ↔ s.tripped a := by
  unfold State.tripCovers State.tripped
  rw [List.any_eq_true]
  refine exists_congr fun k => ?_
  rw [Bool.and_eq_true]
  exact and_iff_right (List.mem_finRange k)

theorem State.reasonsNow_of (s : State) (a : AreaNo) (request : Bool) : s.ReasonsOf a (s.reasonsNow a request) := by
  have p1 : s.p1In a (· == .new) ↔ s.emergency a := by
    rw [State.p1In_iff]
    simp only [beq_iff_eq, State.emergency]
  have trip := State.tripCovers_iff (s := s) (a := a)
  unfold State.reasonsNow
  generalize s.p1In a (· == .new) = x at p1 ⊢
  generalize s.tripCovers a = y at trip ⊢
  exact ⟨p1, rfl, trip⟩

/-- A code takes its place in an ascending suppression set that has not got it (R13, R21). -/
theorem insertCode_eq (k : TripNo) {l : List TripNo} (h : l.Pairwise (· < ·)) :
    insertCode k l = if k ∈ l then l else l.filter (· < k) ++ k :: l.filter (k < ·) := by
  induction l with
  | nil => rfl
  | cons d l ih =>
    obtain ⟨above, hl⟩ := List.pairwise_cons.mp h
    unfold insertCode
    rcases lt_trichotomy k d with lt | rfl | gt
    · have all : ∀ e ∈ d :: l, k < e := fun e he => by
        rcases List.mem_cons.mp he with rfl | he
        exacts [lt, lt.trans (above e he)]
      rw [if_pos lt, if_neg fun hm => lt_irrefl k (all k hm),
        List.filter_eq_nil_iff.mpr fun e he => by simpa using (all e he).le,
        List.filter_eq_self.mpr fun e he => by simpa using all e he, List.nil_append]
    · rw [if_neg (lt_irrefl k), if_pos rfl, if_pos List.mem_cons_self]
    · rw [if_neg gt.asymm, if_neg gt.ne', ih hl]
      by_cases hm : k ∈ l
      · rw [if_pos hm, if_pos (List.mem_cons_of_mem d hm)]
      · rw [if_neg hm, if_neg fun e => (List.mem_cons.mp e).elim gt.ne' hm, List.filter_cons_of_pos (by simpa using gt),
          List.filter_cons_of_neg (by simpa using gt.le), List.cons_append]

/-! ### The notice queue -/

theorem NoticeKind.urgent_iff (k : NoticeKind) :
    k.urgent ↔ (∃ c e, k = .tripFault c e) ∨ (∃ a, k = .areaUncovered a) ∨ ∃ c x, k = .keyStuck c x := by
  cases k <;> simp [NoticeKind.urgent]

/-- The attention output of a queue (R170). -/
theorem attentionFor_eq (trigger : Nat) (l : List Notice) :
    attentionFor trigger l = decide (trigger ≤ l.length ∨ ∃ n ∈ l, n.kind.urgent) := by
  unfold attentionFor
  rw [Bool.decide_or]
  refine congrArg (_ || ·) ?_
  rw [Bool.eq_iff_iff, List.any_eq_true, decide_eq_true_iff]

/-- The queue with a notice appended, or lost where 64 records stand (R167). -/
def State.queueAppended (s : State) (k : NoticeKind) : NoticeQueue :=
  if s.queue.records.length < 64 then
    { records := s.queue.records ++ [⟨k, s.clock.count⟩], overflow := s.queue.overflow
      attention := s.settings.trigger ≤ s.queue.records.length + 1 ∨
        ∃ n ∈ s.queue.records ++ [⟨k, s.clock.count⟩], n.kind.urgent }
  else { s.queue with overflow := true }

theorem State.append_eq (k : NoticeKind) : s.append k = { s with queue := s.queueAppended k } := by
  unfold State.append State.queueAppended
  split
  · rename_i room
    have room : s.queue.records.length < 64 := room
    simp only [if_pos room, State.deriveAttention, attentionFor_eq, List.length_append, List.length_singleton, State.now]
  · rename_i full
    have full : ¬ s.queue.records.length < 64 := full
    rw [if_neg full]

/-- A notice of another kind than BANNER is appended. -/
theorem State.queueWith_of_not_banner {k : NoticeKind} (h : ∀ c x, k ≠ .banner c x) :
    s.queueWith k = s.queueAppended k := by
  unfold State.queueWith State.queueAppended
  cases k with
  | banner c x => exact absurd rfl (h c x)
  | _ => simp

/-- The queue with `new` in the place of the records that `mine` names, and `other` where there is none (R168). -/
def State.queueMerging (s : State) (mine : Notice → Bool) (new : Notice) (other : NoticeQueue) : NoticeQueue :=
  if s.queue.records.any mine then
    { s.queue with records := s.queue.records.map fun n => if mine n then new else n }
  else other

theorem State.queueMerging_congr (s : State) {f g : Notice → Bool} (h : ∀ n, f n = g n) (new : Notice)
    (other : NoticeQueue) : s.queueMerging f new other = s.queueMerging g new other := by
  rw [show f = g from funext h]

/-- A BANNER notice takes the place of the console's record, or is appended (R168). -/
theorem State.queueWith_banner (x : Option PointNo) : s.queueWith (.banner c x) =
    s.queueMerging (·.isBannerOf c) ⟨.banner c x, s.clock.count⟩ (s.queueAppended (.banner c x)) := by
  refine s.queueMerging_congr (fun n => ?_) _ _
  unfold Notice.isBannerOf
  cases n.kind with
  | banner d _ => exact Bool.eq_iff_iff.mpr (by rw [decide_eq_true_iff, beq_iff_eq, @eq_comm _ c d])
  | _ => rfl

theorem State.notify_queueWith (k : NoticeKind) : s.notify k = { s with queue := s.queueWith k } := by
  unfold State.notify
  split
  · rw [State.queueWith_banner, State.queueMerging, apply_ite (fun q => ({ s with queue := q } : State)), State.append_eq]
    rfl
  · rename_i h
    rw [State.append_eq, State.queueWith_of_not_banner h]

theorem State.derivesAsRuled (s : State) : s.DerivesAsRuled where
  hidden    := Point.hidden_iff
  exist     := fun _ => State.exists_iff
  routed    := fun _ _ => State.routes_iff
  qualified := Operator.qualified_iff
  onDuty    := fun _ _ => State.dutyAck_iff
  covered   := fun _ => State.coveredNow_iff
  banner    := @State.bannerOf_is s
  horn      := s.hornOf_is
  beacon    := s.beaconOf_is
  room      := s.roomHornOf_is
  standing  := fun _ => State.p1Standing_iff
  trips     := fun _ => State.tripCovers_iff
  reasons   := fun a request => ⟨s.reasonsNow_of a request, rfl⟩
  deadline  := fun _ => rfl
  notice    := fun _ => State.notify_queueWith _
  urgent    := NoticeKind.urgent_iff
  code      := fun k _ => insertCode_eq k

/-! ### The permission check -/

theorem targetTest_ok {exist routed duty : Bool} {o p : Operator} : targetTest o a exist routed duty = .ok p ↔
    exist ∧ routed ∧ o.qualified a ∧ duty ∧ o = p := by
  unfold targetTest
  cases exist <;> cases routed <;> cases o.qualified a <;> cases duty <;> simp

theorem State.actor_ok {k : ActionClass} : s.actor c k = .ok o ↔ (s.console c).config.configured ∧
    (∃ n, (s.console c).seat.operator? = some n ∧ s.operator? n = some o) ∧ (s.roles[o.role.index])[k.index] := by
  have known : (∃ n, (s.console c).seat.operator? = some n ∧ s.operator? n = some o) ↔
      (s.console c).seat.operator?.bind s.operator? = some o := Option.bind_eq_some_iff.symm
  rw [known]
  unfold State.actor
  cases (s.console c).config.configured with
  | false => simp
  | true =>
    cases (s.console c).seat.operator?.bind s.operator? with
    | none => simp
    | some p =>
      dsimp only [Bool.not_true]
      rw [if_neg (by decide), Option.some.injEq]
      split
      · rename_i permitted
        rw [Except.ok.injEq]
        exact ⟨fun e => ⟨rfl, e, e ▸ permitted⟩, fun h => h.2.1⟩
      · rename_i refused
        exact ⟨nofun, fun ⟨_, e, permitted⟩ => absurd (e ▸ permitted) refused⟩

theorem dutyTest_iff {k : Crew} (sense : Bool) : (if sense then s.dutyAck k a else s.dutyArea k a) = true ↔
    if sense then s.OnDuty k a else k = (s.area a).duty := by
  cases sense
  exacts [State.dutyArea_iff, State.dutyAck_iff]

theorem State.permitPoint_ok {k : ActionClass} {n : PointNo} {sense : Bool} : s.permitPoint c k n sense = .ok o ↔
    s.actor c k = .ok o ∧ s.exists? (s.point n) ∧ s.routes c (s.point n).area ∧ o.qualified (s.point n).area ∧
      if sense then s.OnDuty o.crew (s.point n).area else o.crew = (s.area (s.point n).area).duty := by
  unfold State.permitPoint
  cases s.actor c k with
  | error e => simp
  | ok p =>
    dsimp only
    rw [targetTest_ok, dutyTest_iff, Except.ok.injEq]
    constructor
    · rintro ⟨exist, routed, qualified, duty, rfl⟩; exact ⟨rfl, exist, routed, qualified, duty⟩
    · rintro ⟨rfl, exist, routed, qualified, duty⟩; exact ⟨exist, routed, qualified, duty, rfl⟩

theorem State.permitBanner_ok {n : PointNo} {p : Operator} : s.permitBanner c n o = .ok p ↔
    s.exists? (s.point n) ∧ s.routes c (s.point n).area ∧ o.qualified (s.point n).area ∧
      s.OnDuty o.crew (s.point n).area ∧ o = p := by
  unfold State.permitBanner
  rw [targetTest_ok, State.dutyAck_iff]

theorem State.permitArea_ok {k : ActionClass} {routing sense : Bool} : s.permitArea c k a routing sense = .ok o ↔
    s.actor c k = .ok o ∧ (s.area a).config.configured ∧ (routing → s.routes c a) ∧ o.qualified a ∧
      if sense then s.OnDuty o.crew a else o.crew = (s.area a).duty := by
  have needed : (!routing || s.routes c a) = true ↔ (routing → s.routes c a) := by cases routing <;> simp
  unfold State.permitArea
  cases s.actor c k with
  | error e => simp
  | ok p =>
    dsimp only
    rw [targetTest_ok, dutyTest_iff, needed, Except.ok.injEq]
    constructor
    · rintro ⟨exist, routed, qualified, duty, rfl⟩; exact ⟨rfl, exist, routed, qualified, duty⟩
    · rintro ⟨rfl, exist, routed, qualified, duty⟩; exact ⟨exist, routed, qualified, duty, rfl⟩

theorem State.permitSilence_ok : s.permitSilence c = .ok o ↔
    s.actor c .silence = .ok o ∧ (o.crew = s.mill.duty ∨ s.mill.incoming = some o.crew) := by
  unfold State.permitSilence
  cases s.actor c .silence with
  | error e => simp
  | ok p =>
    have duty : s.dutySilence p.crew ↔ p.crew = s.mill.duty ∨ s.mill.incoming = some p.crew := by
      unfold State.dutySilence
      rw [Bool.or_eq_true, beq_iff_eq, beq_iff_eq]
    dsimp only
    rw [Except.ok.injEq]
    split
    · rename_i h
      rw [Except.ok.injEq]
      exact ⟨fun e => ⟨e, e ▸ duty.mp h⟩, And.left⟩
    · rename_i h
      exact ⟨nofun, fun ⟨e, hd⟩ => absurd (duty.mpr (e ▸ hd)) h⟩

theorem State.permitRelease_ok {k : TripNo} : s.permitRelease c k = .ok o ↔ s.actor c .release = .ok o ∧
    ∃ a, inSet (s.code k).areas a ∧ o.qualified a ∧ o.crew = (s.area a).duty := by
  unfold State.permitRelease
  cases s.actor c .release with
  | error e => simp
  | ok p =>
    have duty : ((allAreas.filter fun a => inSet (s.code k).areas a && p.qualified a).any fun a => s.dutyArea p.crew a) ↔
        ∃ a, inSet (s.code k).areas a ∧ p.qualified a ∧ p.crew = (s.area a).duty := by
      simp only [List.any_filter, List.any_eq_true, Bool.and_eq_true, State.dutyArea_iff, and_assoc]
      exact exists_congr fun a => and_iff_right (mem_allAreas a)
    dsimp only
    generalize (allAreas.filter fun a => inSet (s.code k).areas a && p.qualified a) = mine at duty ⊢
    rw [Except.ok.injEq]
    split
    · rename_i empty
      refine ⟨nofun, fun ⟨e, h⟩ => ?_⟩
      have := duty.mpr (e ▸ h)
      rw [List.isEmpty_iff.mp empty] at this
      cases this
    · split
      · rename_i h
        rw [Except.ok.injEq]
        exact ⟨fun e => ⟨e, e ▸ duty.mp h⟩, And.left⟩
      · rename_i h
        exact ⟨nofun, fun ⟨e, hd⟩ => absurd (duty.mpr (e ▸ hd)) h⟩

theorem State.permitsAsRuled (s : State) : s.PermitsAsRuled where
  actor   := fun _ _ _ => State.actor_ok
  point   := fun _ _ _ _ _ => State.permitPoint_ok
  banner  := fun c n o => by rw [State.permitBanner_ok]; simp only [and_true]
  area    := fun _ _ _ _ _ _ => State.permitArea_ok
  silence := fun _ _ => State.permitSilence_ok
  release := fun _ _ _ => State.permitRelease_ok

/-- Settles O12: each term by the lemma that says what it means. -/
theorem derivedTermsMeanTheirRules : Obligations.DerivedTermsMeanTheirRules :=
  fun s => ⟨s.derivesAsRuled, s.permitsAsRuled⟩

end Sys2Proof.Machine

/-!
The outputs and the coverage at their derived values (`State.Shown`): what the derivations read, and the operations of the
annunciator that bring every output to its value (R44, R46, R51, R55, R62).
-/

namespace Sys2Proof.Machine

variable {s t u : State} {c : ConsoleNo} {a : AreaNo}

/-! ### What the derivations read -/

/-- What effective routing is read from stands: the consoles' configurations and who is seated where (R38). A SEATED
console's presence deadline has no part in it. -/
def State.SameRouting (s t : State) : Prop :=
  ∀ c, (t.console c).config = (s.console c).config ∧ (t.console c).seat.operator? = (s.console c).seat.operator?
    ∧ (t.console c).seat.isSeated = (s.console c).seat.isSeated

theorem State.SameRouting.refl (s : State) : s.SameRouting s := fun _ => ⟨rfl, rfl, rfl⟩

theorem State.SameRouting.trans (h : s.SameRouting t) (k : t.SameRouting u) : s.SameRouting u := fun c => by
  obtain ⟨h1, h2, h3⟩ := h c
  obtain ⟨k1, k2, k3⟩ := k c
  exact ⟨k1.trans h1, k2.trans h2, k3.trans h3⟩

theorem State.SameRouting.ofConsoles (h : t.consoles = s.consoles) : s.SameRouting t := fun c => by
  simp only [State.console, h, and_self]

theorem State.SameRouting.config (h : s.SameRouting t) (c : ConsoleNo) : (t.console c).config = (s.console c).config := (h c).1

theorem State.SameRouting.operator (h : s.SameRouting t) (c : ConsoleNo) :
    (t.console c).seat.operator? = (s.console c).seat.operator? := (h c).2.1

theorem State.SameRouting.seated (h : s.SameRouting t) (c : ConsoleNo) :
    (t.console c).seat.isSeated = (s.console c).seat.isSeated := (h c).2.2

theorem State.routes_congr (h : s.SameRouting t) (c : ConsoleNo) (a : AreaNo) : t.routes c a = s.routes c a := by
  simp only [State.routes, Console.ownRouting, h.config, h.seated]

theorem Seat.ne_vacant (x : Seat) : (x != .vacant) = x.operator?.isSome := by cases x <;> rfl

/-- Coverage by one console, read from who is seated there. -/
theorem State.coveredBy_eq (s : State) (a : AreaNo) (c : ConsoleNo) : s.coveredBy a c =
    ((s.console c).seat.isSeated && ((s.console c).seat.operator?.bind s.operator?).any fun o =>
      s.routes c a && o.qualified a && s.dutyAck o.crew a) := by
  unfold State.coveredBy
  split
  · rename_i n d h
    rw [h]
    cases ho : s.operator? n <;> simp [Seat.isSeated, Seat.operator?, ho]
  · rename_i h; rw [h]; rfl
  · rename_i h; rw [h]; rfl

/-- What coverage is read from stands: the seats, the seated operators, the duty crews and the progress of the handovers
(R44). -/
structure State.SameCover (s t : State) : Prop where
  routing    : s.SameRouting t
  operators  : ∀ c n, (s.console c).seat.operator? = some n → t.operator? n = s.operator? n
  incoming   : t.mill.incoming = s.mill.incoming
  config     : ∀ a, (t.area a).config = (s.area a).config
  duty       : ∀ a, (t.area a).duty = (s.area a).duty
  inProgress : ∀ a, (t.area a).handover.inProgress = (s.area a).handover.inProgress

theorem State.operator?_congr (h : t.roster = s.roster) (n : Nat) : t.operator? n = s.operator? n := by
  simp only [State.operator?, h]

theorem State.SameCover.refl (s : State) : s.SameCover s :=
  ⟨.refl s, fun _ _ _ => rfl, rfl, fun _ => rfl, fun _ => rfl, fun _ => rfl⟩

theorem State.SameCover.trans (h : s.SameCover t) (k : t.SameCover u) : s.SameCover u where
  routing := h.routing.trans k.routing
  operators c n e := (k.operators c n ((h.routing.operator c).trans e)).trans (h.operators c n e)
  incoming := k.incoming.trans h.incoming
  config a := (k.config a).trans (h.config a)
  duty a := (k.duty a).trans (h.duty a)
  inProgress a := (k.inProgress a).trans (h.inProgress a)

theorem State.coveredNow_congr (h : s.SameCover t) (a : AreaNo) : t.coveredNow a = s.coveredNow a := by
  have seated (c : ConsoleNo) : (s.console c).seat.operator?.bind t.operator? = (s.console c).seat.operator?.bind s.operator? := by
    cases e : (s.console c).seat.operator? with
    | none => rfl
    | some n => exact h.operators c n e
  have covers : t.coveredBy a = s.coveredBy a := funext fun c => by
    simp only [State.coveredBy_eq, h.routing.seated, h.routing.operator, seated, State.dutyAck, h.incoming, h.duty,
      h.inProgress, State.routes_congr h.routing]
  simp only [State.coveredNow, h.config, covers]

theorem State.bannerOf_congr (hr : s.SameRouting t) (hv : t.inView = s.inView)
    (ha : ∀ a, (t.area a).config = (s.area a).config) (c : ConsoleNo) : t.bannerOf c = s.bannerOf c := by
  have order : t.ordered c = s.ordered c := funext fun x => by
    simp only [State.ordered, State.exists?, ha, State.routes_congr hr]
  simp only [State.bannerOf, State.orderOf, hv, order]

theorem State.inView_congr (h : t.points = s.points) : t.inView = s.inView := by
  simp only [State.inView, State.numbered, h]

/-- What the horns and beacons are read from stands: the points in view, routing, floods, coverage and the silence marks. -/
structure State.SameView (s t : State) : Prop where
  routing : s.SameRouting t
  mode    : t.mode = s.mode
  view    : t.inView = s.inView
  marks   : ∀ c, (t.console c).generalMark = (s.console c).generalMark ∧ (t.console c).p1Mark = (s.console c).p1Mark
  mark    : t.room.mark = s.room.mark
  config  : ∀ a, (t.area a).config = (s.area a).config
  flooded : ∀ a, (t.area a).flooded = (s.area a).flooded
  covered : ∀ a, (t.area a).covered = (s.area a).covered

theorem State.SameView.hornOf (h : s.SameView t) (c : ConsoleNo) : t.hornOf c = s.hornOf c := by
  have eligible : t.hornEligible c = s.hornEligible c := funext fun p => by
    simp only [State.hornEligible, State.routes_congr h.routing, h.flooded, (h.marks c).1, (h.marks c).2]
  simp only [State.hornOf, h.mode, h.routing.config, Seat.ne_vacant, h.routing.operator, h.view, eligible]

theorem State.SameView.beaconOf (h : s.SameView t) (c : ConsoleNo) : t.beaconOf c = s.beaconOf c := by
  simp only [State.beaconOf, h.mode, h.routing.config, h.view, State.routes_congr h.routing]

theorem State.SameView.roomHornOf (h : s.SameView t) : t.roomHornOf = s.roomHornOf := by
  have eligible : t.roomEligible = s.roomEligible := funext fun p => by
    simp only [State.roomEligible, h.covered, h.mark]
  simp only [State.roomHornOf, h.mode, h.view, eligible]

theorem State.SameView.bannerOf (h : s.SameView t) (c : ConsoleNo) : t.bannerOf c = s.bannerOf c :=
  State.bannerOf_congr h.routing h.view h.config c

/-! ### The outputs as derived -/

/-- Every banner is the first point of its console's order (R51). -/
def State.HeadsRight (s : State) : Prop := ∀ c, (s.console c).head = s.bannerOf c

/-- In RUN every configured area's covered flag says whether the area is covered (R44). -/
def State.CoveredRight (s : State) : Prop :=
  s.mode = .run → ∀ a, (s.area a).config.configured → (s.area a).covered = s.coveredNow a

/-- Every output and covered flag is at its derived value. -/
structure State.Shown (s : State) : Prop where
  heads   : s.HeadsRight
  horns   : ∀ c, (s.console c).horn = s.hornOf c
  beacons : ∀ c, (s.console c).beacon = s.beaconOf c
  room    : s.room.horn = s.roomHornOf
  covered : s.CoveredRight

theorem State.HeadsRight.congr (h : s.HeadsRight) (hr : s.SameRouting t) (hv : t.inView = s.inView)
    (ha : ∀ a, (t.area a).config = (s.area a).config) (hh : ∀ c, (t.console c).head = (s.console c).head) :
    t.HeadsRight := fun c => by rw [hh, h c, State.bannerOf_congr hr hv ha]

theorem State.CoveredRight.congr (h : s.CoveredRight) (k : s.SameCover t) (hm : t.mode = s.mode)
    (hc : ∀ a, (t.area a).covered = (s.area a).covered) : t.CoveredRight := fun run a ha => by
  rw [hc, State.coveredNow_congr k]
  exact h (hm ▸ run) a (k.config a ▸ ha)

/-- Outputs that stand are right where nothing that they are read from has changed. -/
theorem State.Shown.congr (h : s.Shown) (v : s.SameView t) (k : s.SameCover t)
    (ho : ∀ c, (t.console c).head = (s.console c).head ∧ (t.console c).horn = (s.console c).horn
      ∧ (t.console c).beacon = (s.console c).beacon) (hr : t.room.horn = s.room.horn) : t.Shown where
  heads := h.heads.congr v.routing v.view v.config fun c => (ho c).1
  horns c := by rw [(ho c).2.1, h.horns, v.hornOf]
  beacons c := by rw [(ho c).2.2, h.beacons, v.beaconOf]
  room := by rw [hr, h.room, v.roomHornOf]
  covered := h.covered.congr k v.mode v.covered

/-- A banner that follows the rule may be named by any function that agrees with it. -/
theorem State.BannerIs.all_of_eq {f g : ConsoleNo → Option PointNo} (hf : ∀ c, s.BannerIs c (f c)) (e : ∀ c, g c = f c)
    (c : ConsoleNo) : s.BannerIs c (g c) := by
  rw [e]
  exact hf c

theorem State.Shown.outputsSound (h : s.Shown) : s.OutputsSound where
  heads := State.BannerIs.all_of_eq (@State.bannerOf_is s) h.heads
  horns c := by rw [h.horns c]; exact s.hornOf_is c
  beacons c := by rw [h.beacons c]; exact s.beaconOf_is c
  room := by rw [h.room]; exact s.roomHornOf_is
  covered run a ha := by rw [h.covered run a ha]; exact State.coveredNow_iff ha

/-! ### The rules determine the outputs -/

theorem State.BannerIs.unique {x y : Option PointNo} (hx : s.BannerIs c x) (hy : s.BannerIs c y) : x = y := by
  cases x with
  | none =>
    cases y with
    | none => rfl
    | some m => exact absurd hy.1 (hx m)
  | some n =>
    cases y with
    | none => exact absurd hx.1 (hy n)
    | some m =>
      by_contra hne
      have hnm : n ≠ m := fun e => hne (by rw [e])
      exact absurd (hx.2 m hy.1 hnm.symm) (lt_asymm (hy.2 n hx.1 hnm))

theorem State.BannerIs.unique_all {f g : ConsoleNo → Option PointNo} (hf : ∀ c, s.BannerIs c (f c))
    (hg : ∀ c, s.BannerIs c (g c)) (c : ConsoleNo) : f c = g c := (hf c).unique (hg c)

theorem Priority.num_injective {p q : Priority} (h : p.num = q.num) : p = q := by
  cases p <;> cases q <;> simp_all [Priority.num]

theorem State.CadenceIs.unique {eligible : PointNo → Prop} {x y : Horn} (hx : s.CadenceIs eligible x)
    (hy : s.CadenceIs eligible y) : x = y := by
  cases x with
  | off =>
    cases y with
    | off => rfl
    | cadence q => obtain ⟨⟨n, hn, -⟩, -⟩ := hy; exact absurd hn (hx n)
  | cadence p =>
    obtain ⟨⟨n, hn, rfl⟩, hp⟩ := hx
    cases y with
    | off => exact absurd hn (hy n)
    | cadence q =>
      obtain ⟨⟨m, hm, rfl⟩, hq⟩ := hy
      exact congrArg Horn.cadence (Priority.num_injective (Nat.le_antisymm (hp m hm) (hq n hn)))

theorem State.HornIs.unique {x y : Horn} (hx : s.HornIs c x) (hy : s.HornIs c y) : x = y := by
  unfold State.HornIs at hx hy
  split at hx
  · rw [if_pos ‹_›] at hy; exact hx.unique hy
  · rw [if_neg ‹_›] at hy; exact hx.trans hy.symm

theorem State.RoomHornIs.unique {x y : Horn} (hx : s.RoomHornIs x) (hy : s.RoomHornIs y) : x = y := by
  unfold State.RoomHornIs at hx hy
  split at hx
  · rw [if_pos ‹_›] at hy; exact hx.unique hy
  · rw [if_neg ‹_›] at hy; exact hx.trans hy.symm

theorem State.BeaconIs.unique {x y : Beacon} (hx : s.BeaconIs c x) (hy : s.BeaconIs c y) : x = y := by
  unfold State.BeaconIs at hx hy
  dsimp only at hx hy
  split at hx
  · rw [if_pos ‹_›] at hy
    generalize (∃ n, _ ∧ (s.point n).ann = .new) = new at hx hy
    generalize (∃ n, _ ∧ ((s.point n).ann = .acked ∨ _)) = standing at hx hy
    cases x <;> cases y <;> simp_all
  · rw [if_neg ‹_›] at hy; exact hx.trans hy.symm

/-- The outputs follow the rules exactly where they are at their derived values. -/
theorem State.OutputsSound.shown (h : s.OutputsSound) : s.Shown where
  heads := State.BannerIs.unique_all h.heads (@State.bannerOf_is s)
  horns c := (h.horns c).unique (s.hornOf_is c)
  beacons c := (h.beacons c).unique (s.beaconOf_is c)
  room := h.room.unique s.roomHornOf_is
  covered run a ha := Bool.eq_iff_iff.mpr ((h.covered run a ha).trans (State.coveredNow_iff ha).symm)

/-! ### The annunciator -/

theorem State.HeadsRight.queue (h : s.HeadsRight) (q : NoticeQueue) : State.HeadsRight { s with queue := q } := h

theorem State.CoveredRight.queue (h : s.CoveredRight) (q : NoticeQueue) : State.CoveredRight { s with queue := q } := h

theorem State.Shown.queue (h : s.Shown) (q : NoticeQueue) : State.Shown { s with queue := q } :=
  ⟨h.heads, h.horns, h.beacons, h.room, h.covered⟩

theorem State.HeadsRight.notify (h : s.HeadsRight) (k : NoticeKind) : (s.notify k).HeadsRight := by
  rw [State.notify_eq]; exact h.queue _

theorem State.HeadsRight.notifyAll (h : s.HeadsRight) (ks : List NoticeKind) : (s.notifyAll ks).HeadsRight := by
  rw [State.notifyAll_eq]; exact h.queue _

theorem State.CoveredRight.notify (h : s.CoveredRight) (k : NoticeKind) : (s.notify k).CoveredRight := by
  rw [State.notify_eq]; exact h.queue _

theorem State.CoveredRight.notifyAll (h : s.CoveredRight) (ks : List NoticeKind) : (s.notifyAll ks).CoveredRight := by
  rw [State.notifyAll_eq]; exact h.queue _

theorem State.Shown.notify (h : s.Shown) (k : NoticeKind) : (s.notify k).Shown := by
  rw [State.notify_eq]; exact h.queue _

theorem State.Shown.notifyAll (h : s.Shown) (ks : List NoticeKind) : (s.notifyAll ks).Shown := by
  rw [State.notifyAll_eq]; exact h.queue _

theorem State.setBanners_routing (s : State) : s.SameRouting s.setBanners := fun c => by simp

theorem State.driveOutputs_routing (s : State) : s.SameRouting s.driveOutputs := fun c => by simp

theorem State.driveOutputs_view (s : State) : s.SameView s.driveOutputs where
  routing := s.driveOutputs_routing
  mode := State.driveOutputs_mode s
  view := State.inView_congr (State.driveOutputs_points s)
  marks c := by simp
  mark := by simp
  config a := by simp
  flooded a := by simp
  covered a := by simp

theorem State.driveOutputs_cover (s : State) : s.SameCover s.driveOutputs where
  routing := s.driveOutputs_routing
  operators _ n _ := State.operator?_congr (State.driveOutputs_roster s) n
  incoming := by simp
  config a := by simp
  duty a := by simp
  inProgress a := by simp

theorem State.HeadsRight.driveOutputs (h : s.HeadsRight) : s.driveOutputs.HeadsRight :=
  h.congr s.driveOutputs_routing s.driveOutputs_view.view s.driveOutputs_view.config fun c => by simp

/-- Outputs driven are right, where the banners and the coverage are. -/
theorem State.driveOutputs_shown (hh : s.HeadsRight) (hc : s.CoveredRight) : s.driveOutputs.Shown where
  heads := hh.driveOutputs
  horns c := by rw [s.driveOutputs_view.hornOf]; simp
  beacons c := by rw [s.driveOutputs_view.beaconOf]; simp
  room := by rw [s.driveOutputs_view.roomHornOf]; simp
  covered := hc.congr s.driveOutputs_cover (State.driveOutputs_mode s) fun a => by simp

theorem State.compareBanners_heads (s : State) : s.compareBanners.HeadsRight := by
  have right : s.setBanners.HeadsRight := fun c => by
    rw [State.bannerOf_congr s.setBanners_routing (State.inView_congr (State.setBanners_points s)) (fun a => by simp)]
    simp
  exact right.notifyAll _

theorem State.CoveredRight.compareBanners (h : s.CoveredRight) : s.compareBanners.CoveredRight := by
  have right : s.setBanners.CoveredRight :=
    h.congr ⟨s.setBanners_routing, fun _ n _ => State.operator?_congr (by simp) n, by simp, fun a => by simp, fun a => by simp, fun a => by simp⟩ (by simp)
      fun a => by simp
  exact right.notifyAll _

/-- The annunciator brings every output to its value, where the coverage is right. -/
theorem State.annunciate_shown (h : s.CoveredRight) : s.annunciate.Shown :=
  State.driveOutputs_shown s.compareBanners_heads h.compareBanners

theorem State.annunciate_heads (s : State) : s.annunciate.HeadsRight := s.compareBanners_heads.driveOutputs

/-- Coverage re-derived is right. -/
theorem State.rederiveCoverage_covered (s : State) : s.rederiveCoverage.CoveredRight := by
  have right : s.setCoverage.CoveredRight := fun _ a _ => by
    have same : s.SameCover s.setCoverage :=
      ⟨.ofConsoles (by simp), fun _ n _ => State.operator?_congr (by simp) n, by simp, fun a => by simp, fun a => by simp, fun a => by simp⟩
    rw [State.coveredNow_congr same, s.area_setCoverage]
  exact right.notifyAll _

theorem State.HeadsRight.rederiveCoverage (h : s.HeadsRight) : s.rederiveCoverage.HeadsRight := by
  have right : s.setCoverage.HeadsRight :=
    h.congr (.ofConsoles (by simp)) (State.inView_congr (State.setCoverage_points s)) (fun a => by simp) fun c => by simp
  exact right.notifyAll _

end Sys2Proof.Machine

/-!
What an owner's change leaves of the records that the outputs hang on, and what it tells of the outputs: the seats and the
configuration stand (`State.Reports`), the coverage stands (`State.SameDuty`), or nothing is told at all (`State.Calm`).
-/

namespace Sys2Proof.Machine

variable {s t u : State} {c : ConsoleNo} {a : AreaNo} {ks : List NoticeKind}

/-- The notice tells of a banner or of coverage. -/
def NoticeKind.tellsOutput : NoticeKind → Bool
  | .banner _ _ | .areaCovered _ | .areaUncovered _ => true
  | _ => false

theorem NoticeKind.coverage?_of_quiet {k : NoticeKind} (h : k.tellsOutput = false) (a : AreaNo) : k.coverage? a = none := by
  cases k with
  | banner | areaCovered | areaUncovered => cases h
  | _ => rfl

theorem NoticeKind.head?_of_quiet {k : NoticeKind} (h : k.tellsOutput = false) (c : ConsoleNo) : k.head? c = none := by
  cases k with
  | banner | areaCovered | areaUncovered => cases h
  | _ => rfl

/-- Seats, operators, configuration and the clock stand, the line has answered nothing, and every covered flag and banner that
changes is told of. -/
structure State.Reports (s t : State) : Prop where
  mode     : t.mode = s.mode
  clock    : t.clock = s.clock
  settings : t.settings = s.settings
  roster   : t.roster = s.roster
  link     : t.link = s.link
  seats    : ∀ c, (t.console c).config = (s.console c).config ∧ (t.console c).seat = (s.console c).seat
  config   : ∀ a, (t.area a).config = (s.area a).config
  told     : ∃ ks, s.TellsOutputs t ks

theorem State.TellsOutputs.trans {ls : List NoticeKind} (h : s.TellsOutputs t ks) (k : t.TellsOutputs u ls)
    (hc : t.clock = s.clock) (hs : t.settings = s.settings) (ha : ∀ a, (t.area a).config = (s.area a).config) :
    s.TellsOutputs u (ks ++ ls) where
  queue := h.queue.trans k.queue hc hs
  covered a := by
    have h1 := h.covered a
    have h2 := k.covered a
    rw [ha] at h2
    rw [List.filterMap_append]
    split
    · rw [if_pos ‹_›] at h1 h2; exact h1.trans h2
    · rw [if_neg ‹_›] at h1 h2; rw [h1, h2]; rfl
  heads c := by rw [List.filterMap_append]; exact (h.heads c).trans (k.heads c)

/-- Notices of other kinds tell of no output. -/
theorem State.TellsOutputs.quiet (hk : ∀ k ∈ ks, k.tellsOutput = false) (hq : s.Hands t ks)
    (hc : ∀ a, (t.area a).covered = (s.area a).covered) (hh : ∀ c, (t.console c).head = (s.console c).head) :
    s.TellsOutputs t ks where
  queue := hq
  covered a := by
    rw [filterMap_none fun k h => NoticeKind.coverage?_of_quiet (hk k h) a, hc]
    split <;> rfl
  heads c := by
    rw [filterMap_none fun k h => NoticeKind.head?_of_quiet (hk k h) c, hh]
    rfl

theorem State.Reports.trans (h : s.Reports t) (k : t.Reports u) : s.Reports u where
  mode := k.mode.trans h.mode
  clock := k.clock.trans h.clock
  settings := k.settings.trans h.settings
  roster := k.roster.trans h.roster
  link := k.link.trans h.link
  seats c := ⟨(k.seats c).1.trans (h.seats c).1, (k.seats c).2.trans (h.seats c).2⟩
  config a := (k.config a).trans (h.config a)
  told := by
    obtain ⟨ks, hks⟩ := h.told
    obtain ⟨ls, hls⟩ := k.told
    exact ⟨ks ++ ls, hks.trans hls h.clock h.settings h.config⟩

/-- The neighbours' share of an event tells of every output that it changes. -/
theorem State.Settles.reports {own : AreaNo → Option (List NoticeKind × Handover)} (h : s.Settles t own) : s.Reports t where
  mode := h.mode
  clock := h.clock
  settings := h.settings
  roster := h.roster
  link := h.link
  seats c := by rw [h.console c]; exact ⟨rfl, rfl⟩
  config := h.config
  told := by
    obtain ⟨ks, hks, -⟩ := h.told
    exact ⟨ks, hks.queue, hks.covered, hks.heads⟩

/-- What coverage is read from beside the seats stands, and the covered flags do. -/
structure State.SameDuty (s t : State) : Prop where
  incoming   : t.mill.incoming = s.mill.incoming
  duty       : ∀ a, (t.area a).duty = (s.area a).duty
  inProgress : ∀ a, (t.area a).handover.inProgress = (s.area a).handover.inProgress
  covered    : ∀ a, (t.area a).covered = (s.area a).covered

theorem State.SameDuty.refl (s : State) : s.SameDuty s := ⟨rfl, fun _ => rfl, fun _ => rfl, fun _ => rfl⟩

theorem State.SameDuty.trans (h : s.SameDuty t) (k : t.SameDuty u) : s.SameDuty u :=
  ⟨k.incoming.trans h.incoming, fun a => (k.duty a).trans (h.duty a), fun a => (k.inProgress a).trans (h.inProgress a),
    fun a => (k.covered a).trans (h.covered a)⟩

theorem State.Reports.routing (h : s.Reports t) : s.SameRouting t := fun c => by
  obtain ⟨config, seat⟩ := h.seats c
  exact ⟨config, by rw [seat], by rw [seat]⟩

theorem State.Reports.sameCover (h : s.Reports t) (k : s.SameDuty t) : s.SameCover t :=
  ⟨h.routing, fun _ n _ => State.operator?_congr h.roster n, k.incoming, h.config, k.duty, k.inProgress⟩

theorem State.CoveredRight.kept (h : s.CoveredRight) (k : s.Reports t) (d : s.SameDuty t) : t.CoveredRight :=
  h.congr (k.sameCover d) k.mode d.covered

/-- Every field that the outputs hang on stands, but for the points, the marks and the floods, and no notice is given. -/
structure State.Calm (s t : State) : Prop where
  mode     : t.mode = s.mode
  clock    : t.clock = s.clock
  settings : t.settings = s.settings
  roster   : t.roster = s.roster
  link     : t.link = s.link
  queue    : t.queue = s.queue
  incoming : t.mill.incoming = s.mill.incoming
  console  : ∀ c, (t.console c).config = (s.console c).config ∧ (t.console c).seat = (s.console c).seat
    ∧ (t.console c).head = (s.console c).head
  area     : ∀ a, (t.area a).config = (s.area a).config ∧ (t.area a).covered = (s.area a).covered
    ∧ (t.area a).duty = (s.area a).duty ∧ (t.area a).handover.inProgress = (s.area a).handover.inProgress

theorem State.Calm.refl (s : State) : s.Calm s :=
  ⟨rfl, rfl, rfl, rfl, rfl, rfl, rfl, fun _ => ⟨rfl, rfl, rfl⟩, fun _ => ⟨rfl, rfl, rfl, rfl⟩⟩

theorem State.Calm.trans (h : s.Calm t) (k : t.Calm u) : s.Calm u where
  mode := k.mode.trans h.mode
  clock := k.clock.trans h.clock
  settings := k.settings.trans h.settings
  roster := k.roster.trans h.roster
  link := k.link.trans h.link
  queue := k.queue.trans h.queue
  incoming := k.incoming.trans h.incoming
  console c := by
    obtain ⟨h1, h2, h3⟩ := h.console c
    obtain ⟨k1, k2, k3⟩ := k.console c
    exact ⟨k1.trans h1, k2.trans h2, k3.trans h3⟩
  area a := by
    obtain ⟨h1, h2, h3, h4⟩ := h.area a
    obtain ⟨k1, k2, k3, k4⟩ := k.area a
    exact ⟨k1.trans h1, k2.trans h2, k3.trans h3, k4.trans h4⟩

theorem State.Calm.foldl {α : Type} {f : State → α → State} (h : ∀ (s : State) x, s.Calm (f s x)) (l : List α) (s : State) :
    s.Calm (l.foldl f s) := by
  induction l generalizing s with
  | nil => exact .refl s
  | cons x l ih => exact (h s x).trans (ih _)

theorem State.Calm.reports (h : s.Calm t) : s.Reports t where
  mode := h.mode
  clock := h.clock
  settings := h.settings
  roster := h.roster
  link := h.link
  seats c := ⟨(h.console c).1, (h.console c).2.1⟩
  config a := (h.area a).1
  told := ⟨[], .quiet nofun h.queue (fun a => (h.area a).2.1) fun c => (h.console c).2.2⟩

theorem State.Calm.sameDuty (h : s.Calm t) : s.SameDuty t :=
  ⟨h.incoming, fun a => (h.area a).2.2.1, fun a => (h.area a).2.2.2, fun a => (h.area a).2.1⟩

/-- A change that leaves the areas' and the consoles' records. -/
theorem State.Calm.ofRecords (hm : t.mode = s.mode) (hc : t.clock = s.clock) (hs : t.settings = s.settings)
    (hr : t.roster = s.roster) (hl : t.link = s.link) (hq : t.queue = s.queue) (hi : t.mill.incoming = s.mill.incoming)
    (hk : t.consoles = s.consoles) (ha : t.areas = s.areas) : s.Calm t :=
  ⟨hm, hc, hs, hr, hl, hq, hi, fun c => by simp only [State.console, hk, and_self],
    fun a => by simp only [State.area, ha, and_self]⟩

theorem State.modArea_calm (a : AreaNo) (f : Area → Area) (s : State)
    (h : (f (s.area a)).config = (s.area a).config ∧ (f (s.area a)).covered = (s.area a).covered
      ∧ (f (s.area a)).duty = (s.area a).duty ∧ (f (s.area a)).handover.inProgress = (s.area a).handover.inProgress) :
    s.Calm (s.modArea a f) :=
  ⟨rfl, rfl, rfl, rfl, rfl, rfl, rfl, fun _ => ⟨rfl, rfl, rfl⟩, fun b => by
    rw [State.area_modArea]
    split
    · rename_i e; subst e; exact h
    · exact ⟨rfl, rfl, rfl, rfl⟩⟩

theorem State.modConsole_calm (c : ConsoleNo) (f : Console → Console) (s : State)
    (h : (f (s.console c)).config = (s.console c).config ∧ (f (s.console c)).seat = (s.console c).seat
      ∧ (f (s.console c)).head = (s.console c).head) : s.Calm (s.modConsole c f) :=
  ⟨rfl, rfl, rfl, rfl, rfl, rfl, rfl, fun d => by
    rw [State.console_modConsole]
    split
    · rename_i e; subst e; exact h
    · exact ⟨rfl, rfl, rfl⟩, fun _ => ⟨rfl, rfl, rfl, rfl⟩⟩

/-- A change of an owner's, and its notices of other kinds than the outputs', that leaves what coverage is read from. -/
structure State.Quiet (s t : State) : Prop where
  reports : s.Reports t
  duty    : s.SameDuty t

theorem State.Calm.quiet (h : s.Calm t) : s.Quiet t := ⟨h.reports, h.sameDuty⟩

theorem State.Quiet.refl (s : State) : s.Quiet s := (State.Calm.refl s).quiet

theorem State.Quiet.trans (h : s.Quiet t) (k : t.Quiet u) : s.Quiet u := ⟨h.reports.trans k.reports, h.duty.trans k.duty⟩

theorem State.notifyAll_quiet (h : ∀ k ∈ ks, k.tellsOutput = false) (s : State) : s.Quiet (s.notifyAll ks) := by
  have eq := s.notifyAll_eq ks
  have hands : s.Hands (s.notifyAll ks) ks := rfl
  rw [eq] at hands ⊢
  exact ⟨⟨rfl, rfl, rfl, rfl, rfl, fun _ => ⟨rfl, rfl⟩, fun _ => rfl, ks, .quiet h hands (fun _ => rfl) fun _ => rfl⟩,
    rfl, fun _ => rfl, fun _ => rfl, fun _ => rfl⟩

theorem State.notify_quiet {k : NoticeKind} (h : k.tellsOutput = false) (s : State) : s.Quiet (s.notify k) :=
  State.notifyAll_quiet (ks := [k]) (fun _ hk => List.mem_singleton.mp hk ▸ h) s

theorem State.Quiet.notify (h : s.Quiet t) {k : NoticeKind} (hk : k.tellsOutput = false) : s.Quiet (t.notify k) :=
  h.trans (State.notify_quiet hk t)

theorem State.Quiet.foldl {α : Type} {f : State → α → State} (h : ∀ (s : State) x, s.Quiet (f s x)) (l : List α) (s : State) :
    s.Quiet (l.foldl f s) := by
  induction l generalizing s with
  | nil => exact .refl s
  | cons x l ih => exact (h s x).trans (ih _)

/-- What an event does that leaves the seats and the configuration: it tells of the outputs that it changes, and leaves them
right where they were. -/
structure State.Shows (s t : State) : Prop where
  reports : s.Reports t
  shown   : s.Shown → t.Shown

theorem State.Shows.refl (s : State) : s.Shows s := ⟨(State.Quiet.refl s).reports, id⟩

theorem State.Shows.trans (h : s.Shows t) (k : t.Shows u) : s.Shows u :=
  ⟨h.reports.trans k.reports, fun x => k.shown (h.shown x)⟩

/-- A quiet change that leaves what the horns and beacons are read from, and the outputs. -/
theorem State.Quiet.shows (h : s.Quiet t) (hv : t.inView = s.inView) (hm : t.room = s.room)
    (hc : ∀ c, t.console c = { s.console c with ackKey := (t.console c).ackKey, silenceKey := (t.console c).silenceKey })
    (hf : ∀ a, (t.area a).flooded = (s.area a).flooded) : s.Shows t where
  reports := h.reports
  shown x := x.congr
    ⟨h.reports.routing, h.reports.mode, hv, fun c => by rw [hc]; exact ⟨rfl, rfl⟩, by rw [hm], h.reports.config, hf,
      h.duty.covered⟩
    (h.reports.sameCover h.duty) (fun c => by rw [hc]; exact ⟨rfl, rfl, rfl⟩) (by rw [hm])

end Sys2Proof.Machine

/-!
The end of an event leaves every output at its derived value (R44, R46, R51, R55, R62), provided that coverage is re-derived
wherever it could have changed (`Work.Covers`).
-/

namespace Sys2Proof.Machine

variable {s t u d : State} {c : ConsoleNo} {a : AreaNo} {w w' w'' : Work}

/-! ### Coverage during the handover unit's work -/

/-- The work in progress leaves what coverage hangs on, or has it re-derived (R45). -/
def Work.Keeps (w w' : Work) : Prop := w'.cover = false → w.cover = false ∧ w.s.Calm w'.s

/-- Coverage is right, or is to be re-derived. -/
def Work.Covers (w : Work) : Prop := w.cover = false → w.s.CoveredRight

theorem Work.Keeps.refl (w : Work) : w.Keeps w := fun h => ⟨h, .refl _⟩

theorem Work.Keeps.trans (h : w.Keeps w') (k : w'.Keeps w'') : w.Keeps w'' := fun e => by
  obtain ⟨e', k⟩ := k e
  obtain ⟨e'', h⟩ := h e'
  exact ⟨e'', h.trans k⟩

theorem Work.Keeps.covers (h : w.Keeps w') (k : w.Covers) : w'.Covers := fun e => by
  obtain ⟨e', calm⟩ := h e
  exact (k e').kept calm.reports calm.sameDuty

theorem Work.Keeps.ofCover (h : w'.cover = true) : w.Keeps w' := fun e => by rw [h] at e; cases e

theorem Work.say_keeps (k : NoticeKind) (w : Work) : w.Keeps (w.say k) := fun h => ⟨h, .refl _⟩

theorem State.handover_calm {h : Handover} (e : h.inProgress = (s.area a).handover.inProgress) :
    s.Calm (s.modArea a fun r => { r with handover := h }) :=
  State.modArea_calm a (fun r => { r with handover := h }) s ⟨rfl, rfl, rfl, e⟩

theorem Work.setHandover_keeps {h : Handover} (e : h.inProgress = (w.s.area a).handover.inProgress) :
    w.Keeps (w.setHandover a h) :=
  fun hc => ⟨hc, State.handover_calm e⟩

theorem State.entering_inProgress (s : State) (p : Position) (r : Reasons) : (s.entering p r).inProgress = true := by
  unfold State.entering
  dsimp only
  split <;> rfl

theorem Work.advance_keeps (n : Nat) (a : AreaNo) (w : Work) : w.Keeps (Work.advance n a w) := by
  induction n generalizing w with
  | zero => exact .refl w
  | succ n ih =>
    unfold Work.advance
    split
    case h_1 p step hold hr =>
      have said : w.Keeps (if (w.s.stepEntry p.index).notify then w.say (.stepDone a p.ordinal) else w)
          ∧ (if (w.s.stepEntry p.index).notify then w.say (.stepDone a p.ordinal) else w).s = w.s := by
        split
        · exact ⟨w.say_keeps _, rfl⟩
        · exact ⟨.refl w, rfl⟩
      dsimp only
      generalize (if (w.s.stepEntry p.index).notify then w.say (.stepDone a p.ordinal) else w) = v at said ⊢
      obtain ⟨hv, hs⟩ := said
      split
      · exact .ofCover rfl
      · have entered (q : Position) : v.Keeps (v.setHandover a (v.s.entering q Reasons.none)) :=
          setHandover_keeps (by rw [State.entering_inProgress, hs, hr]; rfl)
        split
        · exact (hv.trans (entered _)).trans (ih _)
        · exact hv.trans (entered _)
    all_goals exact .refl w

theorem Work.examine_keeps (a : AreaNo) (f : StepKind → Bool) (w : Work) : w.Keeps (w.examine a f) := by
  unfold Work.examine
  split
  case h_1 =>
    dsimp only
    split
    · exact w.advance_keeps _ a
    · exact .refl w
  all_goals exact .refl w

/-- An area that begins its list has coverage re-derived. -/
theorem Work.begin_keeps (a : AreaNo) (w : Work) : w.Keeps (w.begin a) := by
  unfold Work.begin
  dsimp only
  split
  · exact Work.Keeps.trans (.ofCover rfl) (Work.examine_keeps a _ _)
  · exact .ofCover rfl

theorem Work.setReasons_keeps (a : AreaNo) (r : Reasons) (w : Work) : w.Keeps (w.setReasons a r) := by
  unfold Work.setReasons
  split
  case h_1 hr =>
    split
    · exact .refl w
    · refine Work.Keeps.trans ?_ (Work.say_keeps _ _)
      exact setHandover_keeps (by rw [hr]; rfl)
  case h_2 hr =>
    split
    · refine Work.Keeps.trans (.trans ?_ (Work.say_keeps _ _)) (Work.examine_keeps a _ _)
      exact setHandover_keeps (by rw [hr]; rfl)
    · exact fun hc => ⟨hc, State.handover_calm (by rw [hr]; rfl)⟩
  all_goals exact .refl w

theorem Work.reconsider_keeps (a : AreaNo) (f : StepKind → Bool) (w : Work) : w.Keeps (w.reconsider a f) := by
  unfold Work.reconsider
  split
  · exact (w.setReasons_keeps a _).trans (Work.examine_keeps a f _)
  · exact .refl w

theorem Work.pointChanged_keeps (p : Point) (w : Work) : w.Keeps (w.pointChanged p) := by
  unfold Work.pointChanged
  split
  · exact w.reconsider_keeps _ _
  · exact .refl w

theorem Work.foldl_keeps {g : Work → AreaNo → Work} (h : ∀ (w : Work) a, w.Keeps (g w a)) (l : List AreaNo) (w : Work) :
    w.Keeps (l.foldl g w) := by
  induction l generalizing w with
  | nil => exact .refl w
  | cons a l ih => exact (h w a).trans (ih _)

theorem Work.tripsChanged_keeps (w : Work) : w.Keeps w.tripsChanged := Work.foldl_keeps (fun w a => w.reconsider_keeps a _) _ w

theorem Work.seatsChanged_keeps (f : AreaNo → Bool) (w : Work) : w.Keeps (w.seatsChanged f) :=
  Work.foldl_keeps (fun w a => by split; exacts [w.examine_keeps a _, .refl w]) _ w

/-! ### The shift change and the exchange -/

theorem State.expireShelf_heads (r : Shelf) (s : State) : (s.expireShelf r).HeadsRight := State.annunciate_heads _

/-- The banners stay right while shelves count down and end, each end with its own comparison (R84, R85). -/
theorem State.HeadsRight.countShelves (h : s.HeadsRight) : s.countShelves.HeadsRight := by
  have ends (l : List Shelf) (t : State) (h : t.HeadsRight) : (l.foldl (fun s r => s.expireShelf r) t).HeadsRight := by
    induction l generalizing t with
    | nil => exact h
    | cons r l ih => exact ih _ (State.expireShelf_heads r t)
  refine ends _ _ (h.congr (.ofConsoles rfl) (State.inView_congr rfl) (fun _ => rfl) fun _ => rfl)

theorem State.HeadsRight.changeCrews (h : s.HeadsRight) (k : Crew) : (s.changeCrews k).HeadsRight :=
  h.congr (.ofConsoles rfl) (State.inView_congr rfl) (fun a => by simp [State.area, State.changeCrews]) fun _ => rfl

theorem State.HeadsRight.shiftChange_shown (h : s.HeadsRight) : s.shiftChange.Shown := by
  have heads := (h.changeCrews (s.mill.incoming.getD s.mill.duty)).countShelves
  exact State.driveOutputs_shown (heads.notify _).rederiveCoverage (State.rederiveCoverage_covered _)

/-- The settling of an event leaves every banner at its value, whatever becomes of coverage. -/
theorem Work.settle_heads (w : Work) : w.settle.HeadsRight := by
  have settled (s : State) : (s.annunciate.notifyAll w.out).HeadsRight := s.annunciate_heads.notifyAll w.out
  unfold Work.settle
  dsimp only
  split
  · exact (settled _).shiftChange_shown.heads
  · exact settled _

/-- The settling of an event leaves every output at its value. -/
theorem Work.Covers.settle_shown (h : w.Covers) : w.settle.Shown := by
  have covered : (if w.cover then w.s.rederiveCoverage else w.s).CoveredRight := by
    split
    · exact w.s.rederiveCoverage_covered
    · exact h (by simpa using ‹¬w.cover = true›)
  have settled := (State.annunciate_shown covered).notifyAll w.out
  unfold Work.settle
  dsimp only
  split
  · exact settled.heads.shiftChange_shown
  · exact settled

theorem State.capture_calm (a : AreaNo) (k : ItemKind) (s : State) : s.Calm (s.capture a k) := by
  unfold State.capture
  split
  · exact State.Calm.trans (t := s.placeItem _ _) (.ofRecords rfl rfl rfl rfl rfl rfl rfl rfl rfl)
      (State.modArea_calm a _ _ (by exact ⟨rfl, rfl, rfl, rfl⟩))
  · exact .refl s

theorem State.swapSheets_calm (a : AreaNo) (s : State) : s.Calm (s.swapSheets a) := by
  have free (l : List SlotNo) (t : State) : t.Calm (t.freeSlots l) :=
    .foldl (f := fun s i => s.freeSlot i) (fun _ _ => .ofRecords rfl rfl rfl rfl rfl rfl rfl rfl rfl) l t
  have clear (l : List SlotNo) (t : State) : t.Calm (t.clearReviews l) :=
    .foldl (f := fun s i => s.modItem i _) (fun _ _ => .ofRecords rfl rfl rfl rfl rfl rfl rfl rfl rfl) l t
  have swapped := State.modArea_calm a Area.swapFrames s ⟨rfl, rfl, rfl, rfl⟩
  unfold State.swapSheets
  dsimp only
  refine .trans ?_ (State.modArea_calm a _ _ (by exact ⟨rfl, rfl, rfl, rfl⟩))
  refine .trans ?_ (.foldl (fun s k => s.capture_calm a k) _ _)
  exact (swapped.trans (free _ _)).trans (clear _ _)

theorem State.CoveredRight.exchange_shown (h : s.CoveredRight) (a : AreaNo) : (s.exchange a).Shown := by
  have calm := s.swapSheets_calm a
  have covers : Work.Covers { s := (s.swapSheets a).notify (.sheetPosted a) } :=
    fun _ => (h.kept calm.reports calm.sameDuty).notify _
  exact Work.Covers.settle_shown ((Work.examine_keeps a _ _).covers covers)

theorem State.reportShort_shows (a : AreaNo) (s : State) : s.Shows (s.reportShort a) := by
  unfold State.reportShort
  split
  · exact .refl s
  · have calm := State.modArea_calm a (fun r => { r with draft := { r.draft with poolShort := true } }) s ⟨rfl, rfl, rfl, rfl⟩
    refine State.Shows.trans (calm.quiet.shows (State.inView_congr rfl) rfl (fun _ => rfl) fun b => ?_) ?_
    · rw [State.area_modArea]; split <;> simp_all
    · exact ⟨(State.notify_quiet rfl _).reports, fun x => x.notify _⟩

theorem State.Shown.examineSheet (h : s.Shown) (a : AreaNo) : (s.examineSheet a).1.Shown := by
  unfold State.examineSheet
  split
  · split
    · exact h.covered.exchange_shown a
    · exact (s.reportShort_shows a).shown h
  · exact h

theorem State.Shown.passOnce (h : s.Shown) : s.passOnce.1.Shown := by
  have pass (l : List AreaNo) (x : State × Bool) (h : x.1.Shown) :
      (l.foldl (fun x a => let y := x.1.examineSheet a; (y.1, x.2 || y.2)) x).1.Shown := by
    induction l generalizing x with
    | nil => exact h
    | cons a l ih => exact ih _ (h.examineSheet a)
  exact pass allAreas (s, false) h

theorem State.Shown.examineSheets (h : s.Shown) : s.examineSheets.Shown := by
  have pass (n : Nat) (s : State) (h : s.Shown) : (s.passes n).Shown := by
    induction n generalizing s with
    | zero => exact h
    | succ n ih =>
      unfold State.passes
      dsimp only
      split
      · exact ih _ h.passOnce
      · exact h.passOnce
  exact pass 33 s h

/-- The end of an event leaves every output at its value. -/
theorem Work.Covers.finish_shown (h : w.Covers) (after : List NoticeKind) : (w.finish after).Shown := by
  have settled := h.settle_shown.notifyAll after
  unfold Work.finish
  dsimp only
  split
  · exact settled.examineSheets
  · exact settled

/-! ### An event and its end -/

/-- An owner's change that leaves the seats and the configuration, and the end of its event. -/
theorem State.Reports.finish {own : AreaNo → Option (List NoticeKind × Handover)} (h : s.Reports d) (hw : w.Of d own)
    (hc : s.CoveredRight → w.Covers) {after : List NoticeKind} (ha : ∀ k ∈ after, k.tellsOutput = false) :
    s.Shows (w.finish after) where
  reports := by
    have settled := (h.trans hw.settles.reports).trans (State.notifyAll_quiet ha w.settle).reports
    unfold Work.finish
    dsimp only
    split
    · exact settled.trans (State.examineSheets_settles _).reports
    · exact settled
  shown x := (hc x.covered).finish_shown after

/-- A quiet change of an owner's, and the end of its event. -/
theorem State.Quiet.finish {own : AreaNo → Option (List NoticeKind × Handover)} {v : Work} (h : s.Quiet v.s)
    (hw : w.Of v.s own) (hk : v.Keeps w) {after : List NoticeKind} (ha : ∀ k ∈ after, k.tellsOutput = false := by simp) :
    s.Shows (w.finish after) :=
  h.reports.finish hw (fun x => hk.covers fun _ => x.kept h.reports h.duty) ha

end Sys2Proof.Machine

/-!
Every owner's change that leaves the seats and the configuration, with its event (`State.Shows`): one lemma per owner's answer,
those of the points, the trip unit and the keys.
-/

namespace Sys2Proof.Machine

variable {s t u : State} {c : ConsoleNo} {a : AreaNo}

/-! ### Points -/

theorem State.setPoint_calm (n : PointNo) (p : Point) (s : State) : s.Calm (s.setPoint n p) :=
  .ofRecords rfl rfl rfl rfl rfl rfl rfl rfl rfl

theorem State.becomeNew_calm (n : PointNo) (marked : Bool) (p : Point) (s : State) : s.Calm (s.becomeNew n marked p) :=
  .ofRecords rfl rfl rfl rfl rfl rfl rfl rfl rfl

theorem State.addReason_calm (n : PointNo) (f : Point → Point) (s : State) : s.Calm (s.addReason n f) := by
  rw [State.addReason_eq]
  exact s.setPoint_calm n _

theorem State.removeReason_calm (n : PointNo) (f : Point → Point) (marked : Bool) (s : State) :
    s.Calm (s.removeReason n f marked) := by
  obtain ⟨p, seq, e⟩ := s.removeReason_rest n f marked
  rw [e]
  exact .ofRecords rfl rfl rfl rfl rfl rfl rfl rfl rfl

/-- A point that stays hidden comes into no view. -/
theorem State.inView_setPoint_hidden {n : PointNo} {p : Point} (h : (s.point n).hidden) (hp : p.hidden) :
    (s.setPoint n p).inView = s.inView := by
  unfold State.inView
  rw [State.numbered_eq, State.numbered_eq, List.filter_map, List.filter_map]
  have same : (List.finRange 2048).filter ((fun x : PointNo × Point => !x.2.hidden && x.2.ann != .normal) ∘
      fun m => (m, (s.setPoint n p).point m)) = (List.finRange 2048).filter
        ((fun x : PointNo × Point => !x.2.hidden && x.2.ann != .normal) ∘ fun m => (m, s.point m)) :=
    List.filter_congr fun m _ => by
      by_cases e : m = n
      · subst e; simp [State.point_setPoint, h, hp]
      · simp [State.point_setPoint, e]
  rw [same]
  refine List.map_congr_left fun m hm => ?_
  have seen := (List.mem_filter.mp hm).2
  have e : m ≠ n := fun e => by subst e; simp [h] at seen
  rw [State.point_setPoint, if_neg e]

/-- A hidden point's change shows nowhere. -/
theorem State.setPoint_hidden_shows {n : PointNo} {p : Point} (h : (s.point n).hidden) (hp : p.hidden) :
    s.Shows (s.setPoint n p) :=
  (s.setPoint_calm n p).quiet.shows (State.inView_setPoint_hidden h hp) rfl (fun _ => rfl) fun _ => rfl

theorem State.setMeter_quiet (a : AreaNo) (l : Nat) (s : State) : s.Quiet (s.setMeter a l) := by
  have metered (b : Bool) : s.Quiet (s.modArea a fun x => { x with meter := l, flooded := b }) :=
    (State.modArea_calm a (fun x => { x with meter := l, flooded := b }) s ⟨rfl, rfl, rfl, rfl⟩).quiet
  unfold State.setMeter
  dsimp only
  split
  · exact (metered true).notify rfl
  · split
    · exact (metered false).notify rfl
    · exact (State.modArea_calm a (fun x => { x with meter := l }) s ⟨rfl, rfl, rfl, rfl⟩).quiet

theorem State.Quiet.event (h : s.Quiet t) : s.Shows (Work.finish { s := t }) := h.finish (.start t false false false) (.refl _)

theorem State.Quiet.pointEvent (h : s.Quiet t) (p : Point) (sheets : Bool) {after : List NoticeKind}
    (ha : ∀ k ∈ after, k.tellsOutput = false := by simp) :
    s.Shows (((Work.mk t [] false false sheets).pointChanged p).finish after) :=
  h.finish (Work.pointChanged_of p t false false sheets) (Work.pointChanged_keeps p _) ha

theorem State.Quiet.areaEvent (h : s.Quiet t) (a : AreaNo) (f : StepKind → Bool) :
    s.Shows (Work.reconsider a f { s := t }).finish :=
  h.finish (Work.reconsider_of a f t false false false) (Work.reconsider_keeps a f _)

/-- An event that the sheet store is told of. -/
theorem State.Quiet.sheetEvent (h : s.Quiet t) : s.Shows (Work.finish { s := t, sheets := true }) :=
  h.finish (.start t false false true) (.refl _)

theorem actRaise_shows (n : PointNo) (s : State) : (actRaise s n).Gives s.Shows := by
  unfold actRaise
  dsimp only
  split
  · trivial
  · split
    · trivial
    · split
      · exact State.setPoint_hidden_shows ‹_› ‹_›
      · have raised := (s.becomeNew_calm n false ((s.point n).raised s.now)).quiet.trans
          (State.setMeter_quiet (s.point n).area (raisedMeter ((s.becomeNew n false ((s.point n).raised s.now)).area
            (s.point n).area).meter) _)
        show s.Shows (s.raiseInView n)
        unfold State.raiseInView
        dsimp only
        split
        · exact raised.areaEvent _ _
        · exact raised.event

theorem actClear_shows (n : PointNo) (s : State) : (actClear s n).Gives s.Shows := by
  unfold actClear
  dsimp only
  split
  · trivial
  · split
    · trivial
    · split
      · exact State.setPoint_hidden_shows ‹_› ‹_›
      · have cleared := (s.setPoint_calm n (s.point n).cleared).quiet
        show s.Shows (Work.finish (if _ then _ else _))
        split
        · exact cleared.pointEvent _ false
        · exact cleared.event

theorem State.dropShelf_calm (r : Shelf) (s : State) : s.Calm (s.dropShelf r) := by
  unfold State.dropShelf
  exact .trans (t := { s with shelves := s.shelves.filter (· != r) }) (.ofRecords rfl rfl rfl rfl rfl rfl rfl rfl rfl)
    (State.modArea_calm r.area (fun a => { a with shelvedCount := a.shelvedCount - 1 }) _ ⟨rfl, rfl, rfl, rfl⟩)

theorem State.endShelf_calm (r : Shelf) (s : State) : s.Calm (s.endShelf r) :=
  (s.dropShelf_calm r).trans (State.removeReason_calm _ _ _ _)

theorem State.outOfServiceAt_calm (n : PointNo) (s : State) : s.Calm (s.outOfServiceAt n) := by
  have dropped : s.Calm (s.dropShelfOf n) := by
    unfold State.dropShelfOf
    split
    · exact s.dropShelf_calm _
    · exact .refl s
  exact (dropped.trans (.foldl (f := fun s c => s.modCode c _) (fun _ _ => .ofRecords rfl rfl rfl rfl rfl rfl rfl rfl rfl)
    _ _)).trans (State.addReason_calm _ _ _)

theorem actTakeOut_shows (x : ConsoleNo × PointNo) (s : State) : (actTakeOut s x).Gives s.Shows := by
  refine .withOperator (fun _ => ?_) _
  split
  · trivial
  · split
    · trivial
    · exact (s.outOfServiceAt_calm x.2).quiet.pointEvent _ _

theorem actReturn_shows (x : ConsoleNo × PointNo) (s : State) : (actReturn s x).Gives s.Shows := by
  refine .withOperator (fun _ => ?_) _
  split
  · trivial
  · split
    · trivial
    · exact (s.removeReason_calm x.2 _ false).quiet.pointEvent _ _

theorem State.notify_records (k : NoticeKind) (s : State) : (s.notify k).points = s.points ∧ (s.notify k).room = s.room
    ∧ (s.notify k).consoles = s.consoles ∧ ∀ a, (s.notify k).area a = s.area a := by
  rw [State.notify_eq]
  exact ⟨rfl, rfl, rfl, fun _ => rfl⟩

/-- What the flood test of a meter's new value leaves alone. -/
theorem State.setMeter_rest (a : AreaNo) (l : Nat) (s : State) :
    (s.setMeter a l).points = s.points ∧ (s.setMeter a l).room = s.room ∧ (s.setMeter a l).consoles = s.consoles
      ∧ ∀ b, b ≠ a → (s.setMeter a l).area b = s.area b := by
  have other (f : Area → Area) : ∀ b, b ≠ a → (s.modArea a f).area b = s.area b :=
    fun b e => (State.area_modArea s a b f).trans (if_neg e)
  have noticed (k : NoticeKind) (f : Area → Area) : ((s.modArea a f).notify k).points = s.points
      ∧ ((s.modArea a f).notify k).room = s.room ∧ ((s.modArea a f).notify k).consoles = s.consoles
      ∧ ∀ b, b ≠ a → ((s.modArea a f).notify k).area b = s.area b := by
    obtain ⟨points, room, consoles, areas⟩ := (s.modArea a f).notify_records k
    exact ⟨points, room, consoles, fun b e => (areas b).trans (other f b e)⟩
  unfold State.setMeter
  dsimp only
  split
  · exact noticed _ _
  · split
    · exact noticed _ _
    · exact ⟨rfl, rfl, rfl, other _⟩

theorem execDecayStep_shows (a : AreaNo) (s : State) : ∃ t, execDecayStep a s = .next t ∧ s.Shows t := by
  unfold execDecayStep
  dsimp only
  split
  · have metered := s.setMeter_quiet a ((s.area a).meter - decrement (s.area a).meter (s.area a).config.decay)
    obtain ⟨points, room, consoles, other⟩ := s.setMeter_rest a ((s.area a).meter - decrement (s.area a).meter (s.area a).config.decay)
    split
    · rename_i flooded
      refine ⟨_, rfl, metered.shows (State.inView_congr points) room (fun c => ?_) fun b => ?_⟩
      · simp only [State.console, consoles]
      · by_cases e : b = a
        · exact e ▸ flooded
        · rw [other b e]
    · exact ⟨_, rfl, metered.areaEvent _ _⟩
  · exact ⟨s, rfl, .refl s⟩

end Sys2Proof.Machine

/-!
The answers and events of the trip unit, of acknowledgement and of silence leave every output right (`State.Shows`).
-/

namespace Sys2Proof.Machine

variable {s t u : State} {c : ConsoleNo} {a : AreaNo}

/-! ### The trip unit -/

theorem State.modCode_calm (c : TripNo) (f : TripCode → TripCode) (s : State) : s.Calm (s.modCode c f) :=
  .ofRecords rfl rfl rfl rfl rfl rfl rfl rfl rfl

theorem State.modTrip_calm (f : TripUnit → TripUnit) (s : State) : s.Calm (s.modTrip f) :=
  .ofRecords rfl rfl rfl rfl rfl rfl rfl rfl rfl

theorem State.suppress_calm (c : TripNo) (n : PointNo) (s : State) : s.Calm (s.suppress c n) := by
  unfold State.suppress
  split
  · exact .refl s
  · exact (s.modCode_calm c _).trans (State.addReason_calm n _ _)

theorem State.runMembers_calm (c : TripNo) (g : Group) (l : List (Fin 32)) (s : State) : s.Calm (s.runMembers c g l).1 := by
  induction l generalizing s with
  | nil => exact .refl s
  | cons i l ih =>
    unfold State.runMembers
    split
    · split
      · exact .refl s
      · split
        · exact .refl s
        · exact (s.suppress_calm c _).trans (ih _)
        · exact ih s
        · exact ih s
    · exact ih s

theorem State.runGroup_calm (c : TripNo) (g : Group) (s : State) : s.Calm (s.runGroup c g).1 := s.runMembers_calm c g _

theorem State.tripFault_quiet (c : TripNo) (i : EntryNo) (s : State) : s.Quiet (s.tripFault c i) := by
  have dropped (t : State) : t.Quiet t.dropPending := by
    unfold State.dropPending
    split
    · exact (t.modTrip_calm _).quiet.notify rfl
    · exact .refl t
  exact (((s.modCode_calm c _).trans (State.modTrip_calm _ _)).quiet.notify rfl).trans (dropped _)

theorem State.tripStep_quiet (c : TripNo) (i : EntryNo) (notify : Bool) (s : State) : s.Quiet (s.tripStep c i notify) := by
  unfold State.tripStep
  split
  · exact State.notify_quiet rfl s
  · exact .refl s

theorem State.tripDone_quiet (c : TripNo) (s : State) : s.Quiet (s.tripDone c) := (s.modCode_calm c _).quiet.notify rfl

/-- The processing of a run gives notices of its own kinds alone (R110 to R114). -/
theorem State.runFrom_quiet (c : TripNo) (n i : Nat) (s : State) : s.Quiet (s.runFrom c n i) := by
  induction n generalizing i s with
  | zero => exact s.tripFault_quiet c 511
  | succ n ih =>
    unfold State.runFrom
    split
    · exact s.tripFault_quiet c 511
    · rename_i k _
      split
      · exact s.tripFault_quiet c k
      · rename_i notify _
        exact (s.tripStep_quiet c k notify).trans (State.modCode_calm c _ _).quiet
      · rename_i g last notify _
        have ran := (s.runGroup_calm c g).quiet
        generalize s.runGroup c g = x at ran ⊢
        obtain ⟨t, faulty⟩ := x
        dsimp only
        split
        · exact ran.trans (t.tripFault_quiet c k)
        · have stepped := ran.trans (t.tripStep_quiet c k notify)
          split
          · exact stepped.trans (State.tripDone_quiet c _)
          · exact stepped.trans (ih _ _)

theorem State.startRun_quiet (c : TripNo) (s : State) : s.Quiet (s.startRun c) :=
  ((s.modCode_calm c _).quiet.notify rfl).trans (State.runFrom_quiet c _ _ _)

theorem State.takePending_quiet (s : State) : s.Quiet s.takePending := by
  unfold State.takePending
  split
  · exact (s.modTrip_calm _).quiet.trans (State.startRun_quiet _ _)
  · exact .refl s

theorem State.deliver_quiet (c : TripNo) (s : State) : s.Quiet (s.deliver c) := by
  unfold State.deliver
  split
  · exact State.notify_quiet rfl s
  · split
    · exact State.notify_quiet rfl s
    · split
      · exact (s.startRun_quiet c).trans (State.takePending_quiet _)
      · split
        · exact .refl s
        · split
          · exact (s.modTrip_calm _).quiet
          · exact State.notify_quiet rfl s

/-- The end of a trip event. -/
theorem State.Quiet.tripEvent (h : s.Quiet t) : s.Shows t.tripEvent :=
  h.finish (Work.tripsChanged_of t) (Work.tripsChanged_keeps _)

theorem State.unsuppress_calm (c : TripNo) (n : PointNo) (s : State) : s.Calm (s.unsuppress c n).1 := by
  rw [State.unsuppress_eq]
  dsimp only
  split
  · exact s.becomeNew_calm n true _
  · exact s.setPoint_calm n _

theorem State.unsuppressAll_calm (c : TripNo) (s : State) : s.Calm (s.unsuppressAll c).1 := by
  have released (l : List PointNo) (x : State × Nat) : x.1.Calm
      (l.foldl (fun x n => let y := x.1.unsuppress c n; (y.1, x.2 + if y.2 then 1 else 0)) x).1 := by
    induction l generalizing x with
    | nil => exact .refl _
    | cons n l ih =>
      rw [List.foldl_cons]
      refine .trans ?_ (ih _)
      exact x.1.unsuppress_calm c n
  exact released _ (s, 0)

theorem State.release_shows (c : TripNo) (source : ReleaseSource) (s : State) : s.Shows (s.release c source).1 := by
  have released (x : State × Nat) (hx : s.unsuppressAll c = x) : s.Calm (x.1.modCode c TripCode.released) := by
    subst hx
    exact (s.unsuppressAll_calm c).trans (State.modCode_calm c _ _)
  unfold State.release
  rcases hx : s.unsuppressAll c with ⟨t, new⟩
  have ended := (((released _ hx).quiet.notify (k := .tripReleased c source) rfl).trans (State.takePending_quiet _)).tripEvent
  dsimp only at ended ⊢
  exact ended

theorem releaseAnswer_shows (c : TripNo) (source : ReleaseSource) (s : State) : (releaseAnswer s c source).Gives s.Shows := by
  unfold releaseAnswer
  split
  · trivial
  · have released := s.release_shows c source
    generalize s.release c source = x at released ⊢
    exact released

theorem actReleaseTrip_shows (x : Option ConsoleNo × TripNo) (s : State) : (actReleaseTrip s x).Gives s.Shows := by
  unfold actReleaseTrip
  split
  · exact releaseAnswer_shows _ _ s
  · exact .withOperator (fun _ => releaseAnswer_shows _ _ s) _

/-- A quiet change of neither points, outputs nor areas. -/
theorem State.Calm.shows (h : s.Calm t) (hp : t.points = s.points) (hr : t.room = s.room) (hc : t.consoles = s.consoles)
    (hf : ∀ a, (t.area a).flooded = (s.area a).flooded) : s.Shows t :=
  h.quiet.shows (State.inView_congr hp) hr (fun c => by simp only [State.console, hc]) hf

theorem State.modTrip_shows (f : TripUnit → TripUnit) (s : State) : s.Shows (s.modTrip f) :=
  (s.modTrip_calm f).shows rfl rfl rfl fun _ => rfl

theorem State.notify_shows {k : NoticeKind} (h : k.tellsOutput = false) (s : State) : s.Shows (s.notify k) :=
  ⟨(State.notify_quiet h s).reports, fun x => x.notify k⟩

theorem actLoadTripCode_shows (x : TripNo × TripConfig) (s : State) : (actLoadTripCode s x).Gives s.Shows := by
  unfold actLoadTripCode
  split
  · trivial
  · exact (s.modCode_calm x.1 _).shows rfl rfl rfl fun _ => rfl

theorem actLoadTripEntries_shows (x : Nat × List TripEntry × Bool) (s : State) : (actLoadTripEntries s x).Gives s.Shows := by
  unfold actLoadTripEntries
  split
  · trivial
  · exact s.modTrip_shows _

theorem execTripLinesChange_shows (lines : Fin 16) (s : State) : ∃ t, execTripLinesChange lines s = .next t ∧ s.Shows t := by
  unfold execTripLinesChange
  split
  · exact ⟨s, rfl, .refl s⟩
  · exact ⟨_, rfl, s.modTrip_shows _⟩

theorem execTripReleaseTimerExpiry_shows (s : State) : ∃ t, execTripReleaseTimerExpiry s = .next t ∧ s.Shows t := by
  unfold execTripReleaseTimerExpiry
  split
  · exact ⟨_, rfl, s.modTrip_shows _⟩
  all_goals exact ⟨s, rfl, .refl s⟩

theorem execTripQualifyTimerExpiry_shows (s : State) : ∃ t, execTripQualifyTimerExpiry s = .next t ∧ s.Shows t := by
  unfold execTripQualifyTimerExpiry
  split
  · exact ⟨_, rfl, ((s.modTrip_calm _).quiet.trans (State.deliver_quiet _ _)).tripEvent⟩
  all_goals exact ⟨s, rfl, .refl s⟩

theorem execWaitDeadline_shows (c : TripNo) (s : State) : ∃ t, execWaitDeadline c s = .next t ∧ s.Shows t := by
  unfold execWaitDeadline
  split
  · rename_i k d _
    split
    · have waited := (s.modCode_calm c fun r => { r with state := .running k none }).quiet
      refine ⟨_, rfl, State.Quiet.tripEvent (.trans (waited.trans ?_) (State.takePending_quiet _))⟩
      split
      · exact State.tripDone_quiet c _
      all_goals exact State.runFrom_quiet c _ _ _
    · exact ⟨s, rfl, .refl s⟩
  all_goals exact ⟨s, rfl, .refl s⟩

theorem execTripHoldDeadline_shows (c : TripNo) (s : State) : ∃ t, execTripHoldDeadline c s = .next t ∧ s.Shows t := by
  unfold execTripHoldDeadline
  split
  · split
    · exact ⟨_, rfl, s.release_shows c .expiry⟩
    · exact ⟨s, rfl, .refl s⟩
  all_goals exact ⟨s, rfl, .refl s⟩

/-! ### Acknowledgement, silence and keys -/

theorem State.ackEvent_shows (n : PointNo) (o : Nat) {after : List NoticeKind} (h : ∀ k ∈ after, k.tellsOutput = false)
    (s : State) : s.Shows (s.ackEvent n o after) := by
  have acknowledged := (s.setPoint_calm n ((s.point n).acknowledge o s.now)).quiet
  exact acknowledged.pointEvent (s.point n) false h

theorem State.acknowledgeAll_calm (o : Nat) (ns : List PointNo) (s : State) :
    s.Calm (ns.foldl (fun s n => s.acknowledge n o) s) :=
  .foldl (fun t n => t.setPoint_calm n _) ns s

theorem actAck_shows (x : ConsoleNo × PointNo) (s : State) : (actAck s x).Gives s.Shows := by
  refine .withOperator (fun o => ?_) _
  dsimp only
  split
  · trivial
  · split
    · trivial
    · exact State.ackEvent_shows x.2 o.number (by simp) s

theorem actAckHead_shows (x : ConsoleNo × Option PointNo) (s : State) : (actAckHead s x).Gives s.Shows := by
  refine .withOperator (fun _ => ?_) _
  split
  · trivial
  · refine .withOperator (fun o => ?_) _
    split
    · trivial
    · exact State.ackEvent_shows _ o.number (by simp) s

theorem actAckArea_shows (x : ConsoleNo × AreaNo × Nat) (s : State) : (actAckArea s x).Gives s.Shows := by
  unfold actAckArea
  refine .withOperator (fun o => ?_) _
  dsimp only
  generalize s.ackSelection x.2.1 x.2.2 = ns
  split
  · exact .refl s
  · exact (s.acknowledgeAll_calm o.number ns).quiet.event

theorem State.driveOutputs_calm (s : State) : s.Calm s.driveOutputs where
  mode := by simp
  clock := by simp
  settings := by simp
  roster := by simp
  link := by simp
  queue := by simp
  incoming := by simp
  console c := by simp
  area a := by simp

/-- Marks change, and the outputs are driven anew. -/
theorem State.Calm.driven (h : s.Calm t) (hp : t.points = s.points) : s.Shows t.driveOutputs where
  reports := (h.trans t.driveOutputs_calm).reports
  shown x := State.driveOutputs_shown
    (x.heads.congr h.reports.routing (State.inView_congr hp) h.reports.config fun c => (h.console c).2.2)
    (x.covered.kept h.reports h.sameDuty)

theorem State.silence_shows (c : ConsoleNo) (source : SilenceSource) (s : State) : s.Shows (s.silence c source) := by
  have silenced := State.modConsole_calm c (Console.silenced s.raiseCounter (s.resoundAfter c)) s ⟨rfl, rfl, rfl⟩
  unfold State.silence
  refine .trans ?_ (State.notify_shows rfl _)
  dsimp only
  split
  · exact State.Calm.driven (silenced.trans (.ofRecords rfl rfl rfl rfl rfl rfl rfl rfl rfl)) rfl
  · exact silenced.driven rfl

theorem actSilence_shows (x : ConsoleNo × Bool) (s : State) : (actSilence s x).Gives s.Shows := by
  refine .withOperator (fun _ => ?_) _
  exact s.silence_shows x.1 _

theorem execP1ResoundDeadline_shows (c : ConsoleNo) (s : State) : ∃ t, execP1ResoundDeadline c s = .next t ∧ s.Shows t := by
  unfold execP1ResoundDeadline
  split
  · split
    · exact ⟨_, rfl, (State.modConsole_calm c (fun r => { r with p1Mark := 0, resound := none }) s ⟨rfl, rfl, rfl⟩).driven rfl⟩
    · exact ⟨s, rfl, .refl s⟩
  · exact ⟨s, rfl, .refl s⟩

theorem State.console_setKey (c d : ConsoleNo) (k : KeyName) (x : Key) (s : State) : (s.setKey c k x).console d =
    { s.console d with
      ackKey := ((s.setKey c k x).console d).ackKey, silenceKey := ((s.setKey c k x).console d).silenceKey } := by
  unfold State.setKey
  rw [State.console_modConsole]
  split
  · rename_i e; subst e; cases k <;> rfl
  · rfl

theorem State.setKey_shows (c : ConsoleNo) (k : KeyName) (x : Key) (s : State) : s.Shows (s.setKey c k x) := by
  have calm : s.Calm (s.setKey c k x) :=
    ⟨rfl, rfl, rfl, rfl, rfl, rfl, rfl, fun d => by rw [State.console_setKey]; exact ⟨rfl, rfl, rfl⟩,
      fun _ => ⟨rfl, rfl, rfl, rfl⟩⟩
  exact calm.quiet.shows (State.inView_congr rfl) rfl (fun d => State.console_setKey c d k x s) fun _ => rfl

theorem execKeyContactChange_shows (c : ConsoleNo) (k : KeyName) (closed : Bool) (s : State) :
    ∃ t, execKeyContactChange c k closed s = .next t ∧ s.Shows t := by
  unfold execKeyContactChange
  dsimp only
  split
  · exact ⟨s, rfl, .refl s⟩
  · split <;> exact ⟨_, rfl, s.setKey_shows c k _⟩

theorem execKeyReleaseTimerExpiry_shows (c : ConsoleNo) (k : KeyName) (s : State) :
    ∃ t, execKeyReleaseTimerExpiry c k s = .next t ∧ s.Shows t := by
  unfold execKeyReleaseTimerExpiry
  dsimp only
  split
  · exact ⟨_, rfl, s.setKey_shows c k _⟩
  · exact ⟨s, rfl, .refl s⟩

theorem execStuckTimerExpiry_shows (c : ConsoleNo) (k : KeyName) (s : State) :
    ∃ t, execStuckTimerExpiry c k s = .next t ∧ s.Shows t := by
  unfold execStuckTimerExpiry
  dsimp only
  split
  · exact ⟨_, rfl, (s.setKey_shows c k _).trans (State.notify_shows rfl _)⟩
  · exact ⟨s, rfl, .refl s⟩

theorem State.ackPress_shows (c : ConsoleNo) (s : State) : s.Shows (s.ackPress c) := by
  unfold State.ackPress
  split
  · exact State.notify_shows rfl s
  · split
    · exact State.notify_shows rfl s
    · split
      · exact State.notify_shows rfl s
      · exact State.ackEvent_shows _ _ (fun _ h => List.mem_singleton.mp h ▸ rfl) s

theorem State.silencePress_shows (c : ConsoleNo) (s : State) : s.Shows (s.silencePress c) := by
  unfold State.silencePress
  split
  · exact State.notify_shows rfl s
  · exact s.silence_shows c .key

end Sys2Proof.Machine

/-!
The answers and events of the shelf list, the sheets and the handover unit leave every output right (`State.Shows`).
-/

namespace Sys2Proof.Machine

variable {s t u : State} {c : ConsoleNo} {a : AreaNo}

/-! ### Shelves -/

theorem State.addShelf_calm (r : Shelf) (s : State) : s.Calm (s.addShelf r) := by
  have added : s.Calm { s with shelves := s.shelves ++ [r] } := .ofRecords rfl rfl rfl rfl rfl rfl rfl rfl rfl
  exact (added.trans (State.modArea_calm r.area (fun x => { x with shelvedCount := x.shelvedCount + 1 }) _ ⟨rfl, rfl, rfl, rfl⟩)).trans
    (State.addReason_calm _ _ _)

theorem actShelve_shows (x : ConsoleNo × PointNo × ShelveFor) (s : State) : (actShelve s x).Gives s.Shows := by
  refine .withOperator (fun o => ?_) _
  dsimp only
  split
  · trivial
  · split
    · trivial
    · split
      · trivial
      · split
        · trivial
        · split
          · trivial
          · split
            · trivial
            · exact (s.addShelf_calm (s.newShelf x.1 x.2.1 o.number x.2.2)).quiet.sheetEvent

theorem actUnshelve_shows (x : ConsoleNo × PointNo) (s : State) : (actUnshelve s x).Gives s.Shows := by
  refine .withOperator (fun _ => ?_) _
  split
  · trivial
  · split
    · trivial
    · rename_i r _
      exact (s.endShelf_calm r).quiet.pointEvent (s.point r.point) true

theorem execShelfExpired_shows (n : PointNo) (s : State) : ∃ t, execShelfExpired n s = .next t ∧ s.Shows t := by
  unfold execShelfExpired
  split
  · rename_i r _
    split
    · exact ⟨_, rfl, ((s.endShelf_calm r).quiet.notify rfl).pointEvent (s.point r.point) true⟩
    · exact ⟨s, rfl, .refl s⟩
  · exact ⟨s, rfl, .refl s⟩

/-! ### Sheets -/

theorem State.modDraft_calm (a : AreaNo) (f : Draft → Draft) (s : State) : s.Calm (s.modDraft a f) :=
  State.modArea_calm a (fun r => { r with draft := f r.draft }) s ⟨rfl, rfl, rfl, rfl⟩

theorem State.modDraft_shows (a : AreaNo) (f : Draft → Draft) (s : State) : s.Shows (s.modDraft a f) :=
  (s.modDraft_calm a f).shows rfl rfl rfl fun b => by
    unfold State.modDraft
    rw [State.area_modArea]
    split
    · rename_i e; subst e; rfl
    · rfl

theorem actLockDraft_shows (x : ConsoleNo × AreaNo) (s : State) : (actLockDraft s x).Gives s.Shows := by
  refine .withOperator (fun _ => ?_) _
  dsimp only
  split
  · trivial
  · split
    · trivial
    · exact s.modDraft_shows x.2 _

theorem actUnlockDraft_shows (x : ConsoleNo × AreaNo) (s : State) : (actUnlockDraft s x).Gives s.Shows := by
  refine .withOperator (fun _ => ?_) _
  dsimp only
  split
  · trivial
  · split
    · trivial
    · exact s.modDraft_shows x.2 _

theorem State.addItem_calm (a : AreaNo) (i : SlotNo) (k : ItemKind) (o : Nat) (s : State) : s.Calm (s.addItem a i k o) := by
  refine State.Calm.trans (t := s.placeItem i _) ?_ (State.modDraft_calm a _ _)
  exact .ofRecords rfl rfl rfl rfl rfl rfl rfl rfl rfl

theorem actAddItem_shows (x : ConsoleNo × AreaNo × ItemKind) (s : State) : (actAddItem s x).Gives s.Shows := by
  refine .withOperator (fun o => ?_) _
  dsimp only
  split
  · trivial
  · split
    · trivial
    · split
      · trivial
      · split
        · trivial
        · exact (s.addItem_calm _ _ _ _).quiet.sheetEvent

theorem State.freeSlot_calm (i : SlotNo) (s : State) : s.Calm (s.freeSlot i) :=
  .ofRecords rfl rfl rfl rfl rfl rfl rfl rfl rfl

theorem actRemoveItem_shows (x : ConsoleNo × AreaNo × Nat) (s : State) : (actRemoveItem s x).Gives s.Shows := by
  refine .withOperator (fun o => ?_) _
  dsimp only
  split
  · trivial
  · split
    · trivial
    · rename_i i _
      have removed := s.modDraft_calm x.2.1 fun d => { d with items := d.items.eraseIdx x.2.2 }
      exact (removed.trans (State.freeSlot_calm i _)).quiet.sheetEvent

theorem actPost_shows (x : ConsoleNo × AreaNo) (s : State) : (actPost s x).Gives s.Shows := by
  refine .withOperator (fun o => ?_) _
  split
  · trivial
  · exact (s.modDraft_calm x.2 (Draft.commitFor o.crew)).quiet.sheetEvent

theorem State.Quiet.examineEvent (h : s.Quiet t) (a : AreaNo) (f : StepKind → Bool) (sheets : Bool) :
    s.Shows ((Work.mk t [] false false sheets).examine a f).finish :=
  h.finish (Work.examine_of a f t false false sheets) (Work.examine_keeps a f _)

theorem State.review_calm (i : SlotNo) (o : Nat) (s : State) : s.Calm (s.review i o) :=
  .ofRecords rfl rfl rfl rfl rfl rfl rfl rfl rfl

theorem actReviewItem_shows (x : ConsoleNo × AreaNo × Nat) (s : State) : (actReviewItem s x).Gives s.Shows := by
  refine .withOperator (fun o => ?_) _
  dsimp only
  split
  · trivial
  · split
    · trivial
    · split
      · trivial
      · split
        · trivial
        · exact (s.review_calm _ o.number).quiet.examineEvent _ _ _

/-! ### Handovers -/

/-- An event with coverage re-derived. -/
theorem State.Reports.covering {own : AreaNo → Option (List NoticeKind × Handover)} {w : Work} (h : s.Reports t)
    (hw : t.Settles w.finish own) (hc : w.Covers) : s.Shows w.finish :=
  ⟨h.trans hw.reports, fun _ => hc.finish_shown []⟩

theorem Work.covers_of_cover {w : Work} (h : w.cover = true) : w.Covers := fun e => by rw [h] at e; cases e

theorem actBeginHandover_shows (k : Crew) (s : State) : (actBeginHandover s k).Gives s.Shows := by
  unfold actBeginHandover
  split
  · trivial
  · split
    · trivial
    · have opened : s.Reports (s.openMill k) :=
        ⟨rfl, rfl, rfl, rfl, rfl, fun _ => ⟨rfl, rfl⟩, fun _ => rfl, [], .quiet nofun rfl (fun _ => rfl) fun _ => rfl⟩
      exact opened.covering (s.beginHandover_settles k)
        ((Work.foldl_keeps (fun w a => w.begin_keeps a) _ _).covers (Work.covers_of_cover rfl))

theorem State.closeHandover_reports (s : State) : s.Reports s.closeHandover := by
  have area (a : AreaNo) : s.closeHandover.area a = { s.area a with handover := .steady } := by
    simp [State.area, State.closeHandover]
  exact ⟨rfl, rfl, rfl, rfl, rfl, fun _ => ⟨rfl, rfl⟩, fun a => by rw [area], [], .quiet nofun rfl (fun a => by rw [area]) fun _ => rfl⟩

theorem actCancelHandover_shows (x : Unit) (s : State) : (actCancelHandover s x).Gives s.Shows := by
  unfold actCancelHandover
  split
  · trivial
  · split
    · trivial
    · exact s.closeHandover_reports.covering (Work.Of.start _ true false true).finish (Work.covers_of_cover rfl)

theorem State.request_shows (a : AreaNo) (b : Bool) (s : State) : s.Shows (s.request a b) :=
  (State.Quiet.refl s).finish (Work.Turns.of (Work.setReasons_turns a b (Work.mk s [] false false false)))
    (Work.setReasons_keeps a _ _)

theorem actSuspendArea_shows (a : AreaNo) (s : State) : (actSuspendArea s a).Gives s.Shows := by
  unfold actSuspendArea
  dsimp only
  split
  · trivial
  · split
    · trivial
    · split
      · trivial
      · exact s.request_shows a true

theorem actResumeArea_shows (a : AreaNo) (s : State) : (actResumeArea s a).Gives s.Shows := by
  unfold actResumeArea
  dsimp only
  split
  · trivial
  · split
    · trivial
    · split
      · trivial
      · exact s.request_shows a false

theorem Work.completeStep_shows {p : Position} {x y : Option Deadline} (h : (s.area a).handover = .running p x y) :
    s.Shows (Work.completeStep a { s, sheets := true }).finish :=
  (State.Quiet.refl s).finish (Work.completeStep_of h false false true) (Work.advance_keeps _ a _)

theorem actConfirmStep_shows (x : ConsoleNo × AreaNo) (s : State) : (actConfirmStep s x).Gives s.Shows := by
  refine .withOperator (fun o => ?_) _
  split
  · trivial
  · rename_i may
    have running : (s.area x.2).handover.isRunning := by
      unfold State.mayConfirm at may
      cases h : (s.area x.2).handover.isRunning <;> simp_all
    cases h : (s.area x.2).handover with
    | running p step hold => exact Work.completeStep_shows h
    | steady | suspended | halted | done => rw [h] at running; cases running

theorem execHandoverHoldDeadline_shows (a : AreaNo) (s : State) :
    ∃ t, execHandoverHoldDeadline a s = .next t ∧ s.Shows t := by
  unfold execHandoverHoldDeadline
  split
  · rename_i h
    split
    · exact ⟨_, rfl, Work.completeStep_shows h⟩
    · exact ⟨s, rfl, .refl s⟩
  all_goals exact ⟨s, rfl, .refl s⟩

theorem Work.halt_shows {p : Position} {why : AbortReason}
    (hp : (∃ x y, (s.area a).handover = .running p x y) ∨ ∃ x y r, (s.area a).handover = .suspended p x y r) :
    s.Shows (Work.halt a why { s }).finish := by
  have recorded := State.modArea_calm a (fun r => { r with abort := some (s.abortRecord a why p.ordinal) }) s ⟨rfl, rfl, rfl, rfl⟩
  refine recorded.reports.covering (Work.halt_settles hp) (Work.covers_of_cover ?_)
  unfold Work.halt
  rcases hp with ⟨x, y, h⟩ | ⟨x, y, r, h⟩ <;> rw [h]

theorem execStepTimeout_shows (a : AreaNo) (s : State) : ∃ t, execStepTimeout a s = .next t ∧ s.Shows t := by
  unfold execStepTimeout
  split
  · rename_i h
    split
    · exact ⟨_, rfl, Work.halt_shows (.inl ⟨_, _, h⟩)⟩
    · exact ⟨s, rfl, .refl s⟩
  all_goals exact ⟨s, rfl, .refl s⟩

theorem actAbortArea_shows (a : AreaNo) (s : State) : (actAbortArea s a).Gives s.Shows := by
  unfold actAbortArea
  dsimp only
  split
  · trivial
  · split
    · trivial
    · split
      · trivial
      · rename_i inProgress
        cases h : (s.area a).handover with
        | running => exact Work.halt_shows (.inl ⟨_, _, h⟩)
        | suspended => exact Work.halt_shows (.inr ⟨_, _, _, h⟩)
        | steady | halted | done => rw [h] at inProgress; simp [Handover.inProgress] at inProgress

theorem actClearAbort_shows (a : AreaNo) (s : State) : (actClearAbort s a).Gives s.Shows := by
  unfold actClearAbort
  split
  · trivial
  · refine State.Calm.shows (State.modArea_calm a (fun r => { r with abort := none }) s ⟨rfl, rfl, rfl, rfl⟩) rfl rfl rfl fun b => ?_
    rw [State.area_modArea]
    split
    · rename_i e; subst e; rfl
    · rfl

theorem actRestartArea_shows (x : ConsoleNo × AreaNo) (s : State) : (actRestartArea s x).Gives s.Shows := by
  refine .withOperator (fun o => ?_) _
  split
  · trivial
  · exact (State.Quiet.refl s).finish (Work.Turns.of (Work.begin_turns x.2 (Work.mk s [] false false false)))
      (Work.begin_keeps x.2 _)

end Sys2Proof.Machine

/-!
Seats and operators (R25, R30) through the changes that the seating rules make, and what these leave of the outputs.
-/

namespace Sys2Proof.Machine

variable {s t u d : State} {c : ConsoleNo} {n : Nat}

/-! ### Who is seated -/

theorem Seat.operator?_eq_none {x : Seat} : x.operator? = none ↔ x = .vacant := by cases x <;> simp [Seat.operator?]

/-- The rules of the seats hang on the roster, the consoles' configurations and seats, and the presence timeout alone. -/
theorem State.SeatsSound.congr (h : s.SeatsSound) (hr : t.roster = s.roster)
    (hc : ∀ c, (t.console c).config = (s.console c).config ∧ (t.console c).seat.operator? = (s.console c).seat.operator?)
    (hd : ∀ c n d, (t.console c).seat = .seated n d → (d = none ↔ t.settings.presenceTimeout = 0)) : t.SeatsSound where
  once := hr ▸ h.once
  console c n e := by rw [State.operator?_congr hr]; exact h.console c n ((hc c).2.symm.trans e)
  operator o ho c e := (hc c).2.trans (h.operator o (hr ▸ ho) c e)
  configured c e := by
    rw [← Seat.operator?_eq_none, (hc c).2, Seat.operator?_eq_none]
    exact h.configured c ((hc c).1 ▸ e)
  deadline := hd

theorem State.SeatsSound.kept (h : s.SeatsSound) (k : s.Reports t) : t.SeatsSound :=
  h.congr k.roster (fun c => ⟨(k.seats c).1, by rw [(k.seats c).2]⟩) fun c n d e => by
    rw [k.settings]
    exact h.deadline c n d ((k.seats c).2 ▸ e)

theorem State.presenceDeadline_none (s : State) : s.presenceDeadline = none ↔ s.settings.presenceTimeout = 0 := by
  unfold State.presenceDeadline
  split <;> simp_all

/-! ### What an event does to seats and outputs -/

/-- The clock, the settings and the areas' configuration stand, the rules of the seats are kept, and every covered flag and
banner that changes is told of. -/
structure State.Informs (s t : State) : Prop where
  clock    : t.clock = s.clock
  settings : t.settings = s.settings
  config   : ∀ a, (t.area a).config = (s.area a).config
  told     : ∃ ks, s.TellsOutputs t ks
  seats    : s.SeatsSound → t.SeatsSound

/-- What any event does that leaves the clock and the configuration: outputs that are right stay right. -/
structure State.Runs (s t : State) : Prop extends s.Informs t where
  shown : s.SeatsSound → s.Shown → t.Shown

theorem State.Reports.informs (h : s.Reports t) : s.Informs t :=
  ⟨h.clock, h.settings, h.config, h.told, fun x => x.kept h⟩

theorem State.Shows.runs (h : s.Shows t) : s.Runs t := ⟨h.reports.informs, fun _ => h.shown⟩

theorem State.Informs.trans (h : s.Informs t) (k : t.Informs u) : s.Informs u where
  clock := k.clock.trans h.clock
  settings := k.settings.trans h.settings
  config a := (k.config a).trans (h.config a)
  told := by
    obtain ⟨ks, hks⟩ := h.told
    obtain ⟨ls, hls⟩ := k.told
    exact ⟨ks ++ ls, hks.trans hls h.clock h.settings h.config⟩
  seats x := k.seats (h.seats x)

theorem State.Runs.refl (s : State) : s.Runs s := (State.Shows.refl s).runs

theorem State.Runs.trans (h : s.Runs t) (k : t.Runs u) : s.Runs u :=
  ⟨h.toInforms.trans k.toInforms, fun x y => k.shown (h.seats x) (h.shown x y)⟩

theorem State.Informs.ofSeats (hc : t.clock = s.clock) (hs : t.settings = s.settings)
    (ha : ∀ a, (t.area a).config = (s.area a).config ∧ (t.area a).covered = (s.area a).covered) (hq : t.queue = s.queue)
    (hh : ∀ c, (t.console c).head = (s.console c).head) (seats : s.SeatsSound → t.SeatsSound) : s.Informs t :=
  ⟨hc, hs, fun a => (ha a).1, ⟨[], .quiet nofun hq (fun a => (ha a).2) hh⟩, seats⟩

theorem State.Informs.notify (h : s.Informs t) {k : NoticeKind} (hk : k.tellsOutput = false) : s.Informs (t.notify k) :=
  h.trans (State.notify_quiet hk t).reports.informs

/-- A change of seats, and the end of its event with coverage re-derived. -/
theorem State.Informs.covering {own : AreaNo → Option (List NoticeKind × Handover)} {w : Work} (h : s.Informs d)
    (hw : d.Settles w.finish own) (hc : w.Covers) : s.Runs w.finish :=
  ⟨h.trans hw.reports.informs, fun _ _ => hc.finish_shown []⟩

theorem Work.seatsChanged_covers (f : AreaNo → Bool) (d : State) : (Work.seatsChanged f { s := d, cover := true }).Covers :=
  (Work.seatsChanged_keeps f _).covers (Work.covers_of_cover rfl)

/-! ### Presence -/

theorem State.console_seat (c b : ConsoleNo) (n : Nat) (s : State) : (s.seat c n).console b =
    if b = c then { s.console c with seat := .seated n s.presenceDeadline } else s.console b :=
  s.console_modConsole c b _

/-- The operator signed on at console `c` is there, its presence timer restarted or run out. -/
theorem State.modSeat_informs {x : Seat} (h : (s.console c).seat.operator? = x.operator?)
    (hd : ∀ n d, x = .seated n d → d = s.presenceDeadline) : s.Informs (s.modConsole c fun r => { r with seat := x }) := by
  have console (b : ConsoleNo) : (s.modConsole c fun r => { r with seat := x }).console b =
      if b = c then { s.console c with seat := x } else s.console b := s.console_modConsole c b _
  refine .ofSeats rfl rfl (fun _ => ⟨rfl, rfl⟩) rfl (fun b => ?_) fun sound => sound.congr rfl (fun b => ?_) fun b n d e => ?_
  · rw [console]
    split
    · rename_i e; rw [e]
    · rfl
  · rw [console]
    split
    · rename_i e; rw [e]; exact ⟨rfl, h.symm⟩
    · exact ⟨rfl, rfl⟩
  · rw [console] at e
    split at e
    · rw [hd n d e]; exact s.presenceDeadline_none
    · exact sound.deadline b n d e

theorem State.seat_informs (h : (s.console c).seat.operator? = some n) : s.Informs (s.seat c n) :=
  State.modSeat_informs (x := .seated n s.presenceDeadline) h fun _ _ e => by cases e; rfl

/-- A SEATED console's presence deadline restarted bears on no output. -/
theorem State.seat_runs {d : Option Deadline} (h : (s.console c).seat = .seated n d) : s.Runs (s.seat c n) := by
  have console (b : ConsoleNo) : (s.seat c n).console b = { s.console b with seat := ((s.seat c n).console b).seat } := by
    rw [State.console_seat]
    split
    · rename_i e; rw [e]
    · rfl
  have routing : s.SameRouting (s.seat c n) := fun b => by
    rw [State.console_seat]
    split
    · rename_i e; subst e; rw [h]; exact ⟨rfl, rfl, rfl⟩
    · exact ⟨rfl, rfl, rfl⟩
  refine ⟨State.seat_informs (by rw [h]; rfl), fun _ x => x.congr ⟨routing, rfl, State.inView_congr rfl, fun b => ?_, rfl,
    fun _ => rfl, fun _ => rfl, fun _ => rfl⟩ ⟨routing, fun _ _ _ => rfl, rfl, fun _ => rfl, fun _ => rfl, fun _ => rfl⟩
    (fun b => ?_) rfl⟩
  · rw [console]; exact ⟨rfl, rfl⟩
  · rw [console]; exact ⟨rfl, rfl, rfl⟩

theorem State.revive_runs (h : (s.console c).seat = .absent n) : s.Runs (s.revive c n) := by
  have revived := (State.seat_informs (s := s) (c := c) (n := n) (by rw [h]; rfl)).notify (k := .consolePresent c) rfl
  exact revived.covering (Work.seatsChanged_of _ _ true).finish (Work.seatsChanged_covers _ _)

/-- Activity at a console (R35, R37). -/
theorem State.activity_runs (c : ConsoleNo) (s : State) : s.Runs (s.activity c) := by
  unfold State.activity
  split
  · exact .refl s
  · exact State.seat_runs ‹_›
  · exact State.revive_runs ‹_›

theorem State.noteActivity_runs (p : List Byte) (s : State) : s.Runs (s.noteActivity p) := by
  unfold State.noteActivity
  split
  · exact s.activity_runs _
  · exact .refl s

theorem execPresenceDeadline_runs (c : ConsoleNo) (s : State) : ∃ t, execPresenceDeadline c s = .next t ∧ s.Runs t := by
  unfold execPresenceDeadline
  split
  · rename_i n d h
    split
    · have absent : s.Informs (s.modConsole c fun r => { r with seat := .absent n }) :=
        State.modSeat_informs (by rw [h]; rfl) nofun
      exact ⟨_, rfl, (absent.notify (k := .consoleAbsent c) rfl).covering (Work.Of.start _ true false false).finish
        (Work.covers_of_cover rfl)⟩
    · exact ⟨s, rfl, .refl s⟩
  all_goals exact ⟨s, rfl, .refl s⟩

end Sys2Proof.Machine

/-!
SIGN_ON, SIGN_OFF and LOAD_OPERATOR keep the rules of the seats (R25, R30) and leave every output right.
-/

namespace Sys2Proof.Machine

variable {s t u d : State} {c : ConsoleNo} {n : Nat} {o : Operator}

/-! ### The roster -/

theorem State.operator?_number (h : s.operator? n = some o) : o.number = n := by simpa using List.find?_some h

theorem State.map_number_modOperator (n : Nat) (f : Operator → Operator) (hf : ∀ o, o.number = n → (f o).number = n) (s : State) :
    (s.modOperator n f).roster.map (·.number) = s.roster.map (·.number) := by
  simp only [State.modOperator, List.map_map]
  refine List.map_congr_left fun o _ => ?_
  by_cases e : o.number = n
  · simp [e, hf o e]
  · simp [e]

theorem State.operator?_modOperator (n m : Nat) (f : Operator → Operator) (hf : ∀ o, o.number = n → (f o).number = n) (s : State) :
    (s.modOperator n f).operator? m = if m = n then (s.operator? m).map f else s.operator? m := by
  have number (o : Operator) : (if o.number == n then f o else o).number = o.number := by
    by_cases e : o.number = n
    · simp [e, hf o e]
    · simp [e]
  have found : (s.modOperator n f).operator? m = (s.operator? m).map fun o => if o.number == n then f o else o := by
    simp only [State.modOperator, State.operator?, List.find?_map]
    congr 2
    funext o
    simp only [Function.comp_apply, number]
  rw [found]
  cases e : s.operator? m with
  | none => split <;> rfl
  | some o =>
    have := State.operator?_number e
    split <;> simp_all

theorem State.mem_modOperator {p : Operator} {f : Operator → Operator} (h : p ∈ (s.modOperator n f).roster) :
    (∃ o ∈ s.roster, o.number = n ∧ p = f o) ∨ p ∈ s.roster ∧ p.number ≠ n := by
  obtain ⟨o, ho, rfl⟩ := List.mem_map.mp h
  by_cases e : o.number = n
  · exact .inl ⟨o, ho, e, by simp [e]⟩
  · exact .inr (by simpa [e] using ho)

/-- The operator of a console that names one is not that of another console. -/
theorem State.SeatsSound.apart (h : s.SeatsSound) {b : ConsoleNo} (hb : (s.console b).seat.operator? = some n)
    (hc : (s.console c).seat.operator? = some n) : b = c := by
  obtain ⟨o, ho, hs⟩ := h.console b n hb
  obtain ⟨p, hp, hr⟩ := h.console c n hc
  cases ho.symm.trans hp
  exact Option.some.inj (hs.symm.trans hr)

/-- An operator who is seated nowhere is named by no console. -/
theorem State.SeatsSound.unseated (h : s.SeatsSound) (hn : s.isSeated n = false) (c : ConsoleNo) :
    (s.console c).seat.operator? ≠ some n := fun e => by
  obtain ⟨o, ho, hs⟩ := h.console c n e
  simp [State.isSeated, ho, hs] at hn

/-! ### SIGN_ON and SIGN_OFF -/

/-- Operator `n` is seated at the VACANT console `c`. -/
theorem State.SeatsSound.seatOn (h : s.SeatsSound) (hc : (s.console c).config.configured)
    (hv : (s.console c).seat = .vacant) (ho : s.operator? n = some o) (hs : o.seat = none) :
    ((s.seat c n).modOperator n fun o => { o with seat := some c }).SeatsSound := by
  have unnamed : ∀ b, (s.console b).seat.operator? ≠ some n := h.unseated (by simp [State.isSeated, ho, hs])
  have found (m : Nat) : ((s.seat c n).modOperator n fun o => { o with seat := some c }).operator? m =
      if m = n then (s.operator? m).map fun o => { o with seat := some c } else s.operator? m :=
    State.operator?_modOperator n m (fun o => { o with seat := some c }) (fun _ e => e) (s.seat c n)
  constructor
  · rw [State.map_number_modOperator n (fun o => { o with seat := some c }) (fun _ e => e)]
    exact h.once
  · intro b m e
    rw [State.modOperator_console, State.console_seat] at e
    rw [found]
    split at e
    · rename_i hb
      obtain rfl : n = m := by simpa [Seat.operator?] using e
      exact ⟨_, by rw [if_pos rfl, ho]; rfl, by rw [hb]⟩
    · rw [if_neg fun x : m = n => unnamed b (x ▸ e)]
      exact h.console b m e
  · intro p hp b hb
    rw [State.modOperator_console, State.console_seat]
    rcases State.mem_modOperator hp with ⟨q, hq, e, rfl⟩ | ⟨hp, e⟩
    · obtain rfl : c = b := by simpa using hb
      rw [if_pos rfl]
      exact congrArg some e.symm
    · have named := h.operator p hp b hb
      have : b ≠ c := fun x => by rw [x, hv] at named; cases named
      rw [if_neg this]
      exact named
  · intro b e
    rw [State.modOperator_console, State.console_seat] at e ⊢
    split
    · rename_i hb
      rw [if_pos hb, hc] at e
      cases e
    · rename_i hb
      rw [if_neg hb] at e
      exact h.configured b e
  · intro b m d e
    rw [State.modOperator_console, State.console_seat] at e
    split at e
    · cases e; exact s.presenceDeadline_none
    · exact h.deadline b m d e

theorem State.signOn_runs (h : s.SeatsSound → ((s.seat c n).modOperator n fun o => { o with seat := some c }).SeatsSound) :
    s.Runs (s.signOn c n) := by
  have seated : s.Informs ((s.seat c n).modOperator n fun o => { o with seat := some c }) :=
    .ofSeats rfl rfl (fun _ => ⟨rfl, rfl⟩) rfl (fun b => by
      rw [State.modOperator_console, State.console_seat]
      split
      · rename_i e; rw [e]
      · rfl) h
  exact seated.covering (Work.seatsChanged_of _ _ true).finish (Work.seatsChanged_covers _ _)

theorem actSignOn_runs (x : ConsoleNo × Nat) (s : State) : (actSignOn s x).Gives s.Runs := by
  unfold actSignOn
  split
  · trivial
  · rename_i configured
    split
    · trivial
    · rename_i vacant
      split
      · trivial
      · split
        · trivial
        · split
          · trivial
          · rename_i o ho unseated _
            exact State.signOn_runs fun h => h.seatOn (by simpa using configured) (by simpa using vacant) ho
              (by simpa using unseated)

/-- What a SIGN_OFF changes of its own (R34). -/
def State.signedOff (c : ConsoleNo) (s : State) : State :=
  ((s.unseat (s.console c).seat.operator?).modConsole c Console.vacate).releaseLocks c

theorem State.signOff_eq (c : ConsoleNo) (s : State) :
    s.signOff c = (Work.seatsChanged (fun _ => true) { s := s.signedOff c, cover := true }).finish := rfl

theorem State.console_unseat (n : Option Nat) (b : ConsoleNo) (s : State) : (s.unseat n).console b = s.console b := by
  cases n <;> rfl

theorem State.console_signedOff (c b : ConsoleNo) (s : State) :
    (s.signedOff c).console b = if b = c then (s.console c).vacate else s.console b := by
  have same : (s.signedOff c).console b = ((s.unseat (s.console c).seat.operator?).modConsole c Console.vacate).console b := rfl
  rw [same, State.console_modConsole]
  simp only [State.console_unseat]

theorem State.area_signedOff (c : ConsoleNo) (a : AreaNo) (s : State) : (s.signedOff c).area a = { s.area a with
    draft := { (s.area a).draft with lock := ((s.signedOff c).area a).draft.lock } } := by
  have same : (s.unseat (s.console c).seat.operator?).areas = s.areas := by cases (s.console c).seat.operator? <;> rfl
  simp only [State.signedOff, State.releaseLocks, State.area, State.modConsole, Fin.getElem_fin, Vector.getElem_map, same]
  split <;> rfl

theorem State.signedOff_roster (c : ConsoleNo) (s : State) :
    (s.signedOff c).roster = (s.unseat (s.console c).seat.operator?).roster := rfl

/-- Console `c` is VACANT, and its operator seated nowhere. -/
theorem State.SeatsSound.signedOff (h : s.SeatsSound) (c : ConsoleNo) : (s.signedOff c).SeatsSound := by
  have settings : (s.signedOff c).settings = s.settings := by
    unfold State.signedOff State.unseat
    split <;> rfl
  have vacant (b : ConsoleNo) (hb : b = c) : ((s.signedOff c).console b).seat = .vacant := by
    rw [State.console_signedOff, if_pos hb]; rfl
  have other (b : ConsoleNo) (hb : b ≠ c) : (s.signedOff c).console b = s.console b := by
    rw [State.console_signedOff, if_neg hb]
  have configured (b : ConsoleNo) (e : ((s.signedOff c).console b).config.configured = false) :
      ((s.signedOff c).console b).seat = .vacant := by
    by_cases hb : b = c
    · exact vacant b hb
    · rw [other b hb] at e ⊢; exact h.configured b e
  have deadline (b : ConsoleNo) (m : Nat) (d : Option Deadline) (e : ((s.signedOff c).console b).seat = .seated m d) :
      d = none ↔ (s.signedOff c).settings.presenceTimeout = 0 := by
    by_cases hb : b = c
    · rw [vacant b hb] at e; cases e
    · rw [other b hb] at e; rw [settings]; exact h.deadline b m d e
  cases hn : (s.console c).seat.operator? with
  | none =>
    have same : (s.signedOff c).roster = s.roster := by rw [State.signedOff_roster, hn]; rfl
    refine h.congr same (fun b => ?_) deadline
    by_cases hb : b = c
    · rw [vacant b hb, State.console_signedOff, if_pos hb, hb, hn]; exact ⟨rfl, rfl⟩
    · rw [other b hb]; exact ⟨rfl, rfl⟩
  | some n =>
    have roster : (s.signedOff c).roster = (s.modOperator n fun o => { o with seat := none }).roster := by
      rw [State.signedOff_roster, hn]; rfl
    refine ⟨?_, fun b m e => ?_, fun p hp b e => ?_, configured, deadline⟩
    · rw [roster, State.map_number_modOperator n (fun o => { o with seat := none }) (fun _ e => e)]; exact h.once
    · have hb : b ≠ c := fun x => by rw [vacant b x] at e; cases e
      rw [other b hb] at e
      rw [State.operator?_congr roster, State.operator?_modOperator n m (fun o => { o with seat := none }) (fun _ e => e),
        if_neg fun x : m = n => hb (h.apart (x ▸ e) hn)]
      exact h.console b m e
    · rw [roster] at hp
      rcases State.mem_modOperator hp with ⟨q, hq, -, rfl⟩ | ⟨hp, hm⟩
      · cases e
      · have named := h.operator p hp b e
        have hb : b ≠ c := fun x => by rw [x, hn] at named; exact hm (Option.some.inj named).symm
        rw [other b hb]; exact named

theorem State.signOff_runs (c : ConsoleNo) (s : State) : s.Runs (s.signOff c) := by
  have rest : (s.signedOff c).clock = s.clock ∧ (s.signedOff c).settings = s.settings ∧ (s.signedOff c).queue = s.queue := by
    unfold State.signedOff State.unseat
    split <;> exact ⟨rfl, rfl, rfl⟩
  obtain ⟨clock, settings, queue⟩ := rest
  have informs : s.Informs (s.signedOff c) :=
    .ofSeats clock settings (fun a => by rw [State.area_signedOff]; exact ⟨rfl, rfl⟩) queue (fun b => by
      rw [State.console_signedOff]
      split
      · rename_i e; rw [e]; rfl
      · rfl) fun h => h.signedOff c
  rw [State.signOff_eq]
  exact informs.covering (Work.seatsChanged_of _ _ true).finish (Work.seatsChanged_covers _ _)

theorem actSignOff_runs (x : Option ConsoleNo × ConsoleNo) (s : State) : (actSignOff s x).Gives s.Runs := by
  unfold actSignOff
  split
  · trivial
  · split
    · trivial
    · exact s.signOff_runs x.2

/-! ### LOAD_OPERATOR -/

/-- Records of operators that no console names come and go, bearing on no output. -/
theorem State.roster_runs {l : List Operator} (sound : s.SeatsSound → State.SeatsSound { s with roster := l })
    (kept : s.SeatsSound → ∀ c n, (s.console c).seat.operator? = some n →
      State.operator? { s with roster := l } n = s.operator? n) : s.Runs { s with roster := l } :=
  ⟨.ofSeats rfl rfl (fun _ => ⟨rfl, rfl⟩) rfl (fun _ => rfl) sound, fun h x => x.congr
    ⟨.ofConsoles rfl, rfl, State.inView_congr rfl, fun _ => ⟨rfl, rfl⟩, rfl, fun _ => rfl, fun _ => rfl, fun _ => rfl⟩
    ⟨.ofConsoles rfl, kept h, rfl, fun _ => rfl, fun _ => rfl, fun _ => rfl⟩ (fun _ => ⟨rfl, rfl, rfl⟩) rfl⟩

theorem State.storeOperator_runs (ho : o.seat = none)
    (hn : s.SeatsSound → ∀ c, (s.console c).seat.operator? ≠ some o.number) : s.Runs (s.storeOperator o) := by
  unfold State.storeOperator
  split
  · have found (m : Nat) (hm : m ≠ o.number) : (s.modOperator o.number fun _ => o).operator? m = s.operator? m := by
      rw [State.operator?_modOperator o.number m _ (fun _ _ => rfl), if_neg hm]
    refine State.roster_runs (fun h => ⟨?_, fun c m e => ?_, fun p hp c e => ?_, h.configured, h.deadline⟩)
      fun h c m e => found m fun x => hn h c (x ▸ e)
    · have := s.map_number_modOperator o.number (fun _ => o) (fun _ _ => rfl)
      exact this ▸ h.once
    · obtain ⟨p, hp, hs⟩ := h.console c m e
      exact ⟨p, (found m fun x => hn h c (x ▸ e)).trans hp, hs⟩
    · rcases State.mem_modOperator (s := s) hp with ⟨-, -, -, rfl⟩ | ⟨hp, -⟩
      · rw [ho] at e; cases e
      · exact h.operator p hp c e
  · rename_i absent
    have found (m : Nat) (hm : m ≠ o.number) : State.operator? { s with roster := s.roster ++ [o] } m = s.operator? m := by
      simp only [State.operator?, List.find?_append]
      simp [Ne.symm hm]
    refine State.roster_runs (fun h => ⟨?_, fun c m e => ?_, fun p hp c e => ?_, h.configured, h.deadline⟩)
      fun h c m e => found m fun x => hn h c (x ▸ e)
    · have new : o.number ∉ s.roster.map (·.number) := fun x => by
        obtain ⟨p, hp, e⟩ := List.mem_map.mp x
        exact absurd (List.find?_eq_none.mp absent p hp) (by simpa using e)
      show ((s.roster ++ [o]).map (·.number)).Nodup
      rw [List.map_append]
      refine List.Nodup.append h.once (List.nodup_singleton _) ?_
      simpa using new
    · obtain ⟨p, hp, hs⟩ := h.console c m e
      exact ⟨p, (found m fun x => hn h c (x ▸ e)).trans hp, hs⟩
    · rcases List.mem_append.mp hp with hp | hp
      · exact h.operator p hp c e
      · rw [List.mem_singleton.mp hp, ho] at e; cases e

theorem State.removeOperator_runs (hn : s.SeatsSound → ∀ c, (s.console c).seat.operator? ≠ some n) :
    s.Runs { s with roster := s.roster.filter (·.number != n) } := by
  have found (m : Nat) (hm : m ≠ n) : State.operator? { s with roster := s.roster.filter (·.number != n) } m = s.operator? m := by
    simp only [State.operator?, List.find?_filter]
    refine List.find?_congr fun p _ => ?_
    by_cases e : p.number = m
    · subst e; simp [hm]
    · simp [e]
  refine State.roster_runs (fun h => ⟨?_, fun c m e => ?_, fun p hp c e => ?_, h.configured, h.deadline⟩)
    fun h c m e => found m fun x => hn h c (x ▸ e)
  · exact h.once.sublist (List.filter_sublist.map _)
  · obtain ⟨p, hp, hs⟩ := h.console c m e
    exact ⟨p, (found m fun x => hn h c (x ▸ e)).trans hp, hs⟩
  · exact h.operator p (List.mem_filter.mp hp).1 c e

/-- A record that LOAD_OPERATOR carries is seated nowhere (R26). -/
theorem parseOperator_seat {p : List Byte} {o : Operator} (h : parseOperator p = some (.store o)) : o.seat = none := by
  unfold parseOperator at h
  split at h
  · split at h
    · simp only [Option.bind_eq_bind, Option.bind_eq_some_iff] at h
      obtain ⟨number, -, remove, -, h⟩ := h
      split at h
      · cases h
      · simp only [Option.bind_eq_some_iff] at h
        obtain ⟨quals, -, h⟩ := h
        split at h
        · simp only [Option.bind_eq_some_iff, Option.some.injEq, OperatorLoad.store.injEq] at h
          obtain ⟨crew, -, role, -, rfl⟩ := h
          rfl
        · cases h
    · cases h
  · cases h

theorem actLoadOperator_runs {x : OperatorLoad} {p : List Byte} (hp : parseOperator p = some x) (hs : s.ConfigSound) :
    (actLoadOperator s x).Gives s.Runs := by
  have unnamed (n : Nat) (h : ¬(s.mode = .run ∧ s.isSeated n)) (sound : s.SeatsSound) (c : ConsoleNo) :
      (s.console c).seat.operator? ≠ some n := by
    cases hm : s.mode with
    | config => rw [(hs hm).seat c]; nofun
    | run => exact sound.unseated (by simpa [hm] using h) c
  unfold actLoadOperator
  split
  · rename_i o
    split
    · trivial
    · split
      · trivial
      · exact State.storeOperator_runs (parseOperator_seat hp) (unnamed _ ‹_›)
  · split
    · trivial
    · split
      · trivial
      · exact State.removeOperator_runs (unnamed _ ‹_›)

end Sys2Proof.Machine

/-!
The rules of the seats, the outputs and what is told of them, through every command.
-/

namespace Sys2Proof.Machine

variable {s t u v : State} {c : ConsoleNo}

/-! ### Requests -/

theorem State.link_runs (l : Link) (s : State) : s.Runs { s with link := l } where
  toInforms := .ofSeats rfl rfl (fun _ => ⟨rfl, rfl⟩) rfl (fun _ => rfl) fun h =>
    h.congr rfl (fun _ => ⟨rfl, rfl⟩) h.deadline
  shown _ x := x.congr
    ⟨.ofConsoles rfl, rfl, State.inView_congr rfl, fun _ => ⟨rfl, rfl⟩, rfl, fun _ => rfl, fun _ => rfl, fun _ => rfl⟩
    ⟨.ofConsoles rfl, fun _ _ _ => rfl, rfl, fun _ => rfl, fun _ => rfl, fun _ => rfl⟩ (fun _ => ⟨rfl, rfl, rfl⟩) rfl

theorem State.take_runs {f : Frame} (h : s.take f = some u) : s.Runs u := State.take_eq h ▸ s.link_runs _

theorem State.answer_runs {kind tag : Byte} {r : Answer} (h : r.Gives s.Runs) : s.Runs (s.answer kind tag r) := by
  unfold State.answer
  split
  · exact s.link_runs _
  · exact State.Runs.trans h (State.link_runs _ _)

theorem hostRequest_runs {α : Type} {kind tag : Byte} {p : List Byte} {parse : List Byte → Option α} {m : TakenIn}
    {act : State → α → Answer} (h : ∀ u x, u.ConfigSound → parse p = some x → (act u x).Gives u.Runs) (hs : s.ConfigSound) :
    ∃ t, hostRequest kind tag p parse m act s = .next t ∧ s.Runs t := by
  unfold hostRequest
  split
  · exact ⟨s, rfl, .refl s⟩
  · rename_i u hu
    have sound : u.ConfigSound := by rw [State.take_eq hu]; exact hs.same rfl rfl rfl rfl rfl rfl rfl rfl
    exact ⟨_, rfl, (State.take_runs hu).trans (State.answer_runs (checkRequest_gives fun x hx _ => h _ x sound hx))⟩

theorem consoleRequest_runs {α : Type} {kind tag : Byte} {p : List Byte} {parse : List Byte → Option α}
    {act : State → α → Answer} (h : ∀ u x, (act u x).Gives u.Runs) (s : State) :
    ∃ t, consoleRequest kind tag p parse act s = .next t ∧ s.Runs t := by
  unfold consoleRequest
  split
  · exact ⟨s, rfl, .refl s⟩
  · exact ⟨_, rfl, ((State.take_runs ‹_›).trans (State.noteActivity_runs p _)).trans
      (State.answer_runs (checkRequest_gives fun x _ _ => h _ x))⟩

theorem Answer.Gives.runs {r : Answer} (h : r.Gives s.Shows) : r.Gives s.Runs := by
  cases r with
  | error e => trivial
  | ok v => exact State.Shows.runs h

theorem consoleRequest_shows {α : Type} {kind tag : Byte} {p : List Byte} {parse : List Byte → Option α}
    {act : State → α → Answer} (h : ∀ u x, (act u x).Gives u.Shows) (s : State) :
    ∃ t, consoleRequest kind tag p parse act s = .next t ∧ s.Runs t := consoleRequest_runs (fun u x => (h u x).runs) s

theorem hostRequest_shows {α : Type} {kind tag : Byte} {p : List Byte} {parse : List Byte → Option α} {m : TakenIn}
    {act : State → α → Answer} (h : ∀ u x, (act u x).Gives u.Shows) (hs : s.ConfigSound) :
    ∃ t, hostRequest kind tag p parse m act s = .next t ∧ s.Runs t := hostRequest_runs (fun u x _ _ => (h u x).runs) hs

theorem query_runs {α : Type} {kind tag : Byte} {p : List Byte} {parse : List Byte → Option α} {m : TakenIn}
    {act : State → α → Answer} (h : ∀ u x, match act u x with | .ok (v, _) => v = u | .error _ => True) (hs : s.ConfigSound) :
    ∃ t, hostRequest kind tag p parse m act s = .next t ∧ s.Runs t := by
  refine hostRequest_runs (fun u x _ _ => ?_) hs
  have same := h u x
  cases e : act u x with
  | error => trivial
  | ok v =>
    obtain ⟨v, data⟩ := v
    rw [e] at same
    exact same ▸ .refl u

theorem State.Shows.runsNext {r : Result} (h : ∃ t, r = .next t ∧ s.Shows t) : ∃ t, r = .next t ∧ s.Runs t := by
  obtain ⟨t, e, k⟩ := h
  exact ⟨t, e, k.runs⟩

/-! ### The commands that leave the clock and the configuration -/

/-- The command sets the clock, a setting, the configuration or the operating state, or takes notices away. -/
def rewritesRecords : Instr → Bool
  | .hardReset _ | .restart _ _ | .start _ _ | .setClock _ _ | .clockSecond | .setTiming _ _ | .setShift _ _ | .loadPoints _ _
  | .loadArea _ _ | .loadConsole _ _ | .setPoint _ _ | .fetchNotices _ _ => true
  | _ => false

theorem State.keyAction_runs (c : ConsoleNo) (k : KeyName) (s : State) : s.Runs (s.keyAction c k) := by
  cases k with
  | ack => exact (s.activity_runs c).trans (State.ackPress_shows c _).runs
  | silence => exact (s.activity_runs c).trans (State.silencePress_shows c _).runs

theorem execKeyQualifyTimerExpiry_runs (c : ConsoleNo) (k : KeyName) (s : State) :
    ∃ t, execKeyQualifyTimerExpiry c k s = .next t ∧ s.Runs t := by
  unfold execKeyQualifyTimerExpiry
  dsimp only
  split
  · exact ⟨_, rfl, (s.setKey_shows c k _).runs.trans (State.keyAction_runs c k _)⟩
  · exact ⟨s, rfl, .refl s⟩

theorem execClearTripFault_runs (tag : Byte) (p : List Byte) (hs : s.ConfigSound) :
    ∃ t, execClearTripFault tag p s = .next t ∧ s.Runs t := by
  refine hostRequest_shows (fun u x => ?_) hs
  split
  · exact u.modTrip_shows _
  · trivial

theorem actLoadOrder_shows (x : OrderNo × Order) (s : State) : (actLoadOrder s x).Gives s.Shows := by
  unfold actLoadOrder
  split
  · trivial
  · exact State.Calm.shows (.ofRecords rfl rfl rfl rfl rfl rfl rfl rfl rfl) rfl rfl rfl fun _ => rfl

theorem exec_runs {i : Instr} (h : rewritesRecords i = false) (hs : s.ConfigSound) : ∃ t, exec i s = .next t ∧ s.Runs t := by
  cases i with
  | hardReset | restart | start | setClock | clockSecond | setTiming | setShift | loadPoints | loadArea | loadConsole
  | setPoint | fetchNotices => cases h
  | receiveCharacter b => exact ⟨_, rfl, s.link_runs _⟩
  | gapTimerExpiry =>
    show ∃ t, execGapTimerExpiry s = .next t ∧ s.Runs t
    unfold execGapTimerExpiry
    split
    · exact ⟨s, rfl, .refl s⟩
    all_goals exact ⟨_, rfl, s.link_runs _⟩
  | linkError =>
    show ∃ t, execLinkError s = .next t ∧ s.Runs t
    unfold execLinkError
    split
    · exact ⟨_, rfl, (s.link_runs _).trans (State.link_runs _ _)⟩
    all_goals exact ⟨s, rfl, .refl s⟩
  | badKind kind tag p =>
    show ∃ t, execBadKind kind tag p s = .next t ∧ s.Runs t
    unfold execBadKind
    split
    · exact ⟨s, rfl, .refl s⟩
    · split
      · exact ⟨s, rfl, .refl s⟩
      · exact ⟨_, rfl, (State.take_runs ‹_›).trans (State.link_runs _ _)⟩
  | identify | queryPoint | listStanding | queryMeters => exact query_runs (fun _ _ => rfl) hs
  | queryOperator => exact query_runs (fun u n => by cases u.operator? n <;> trivial) hs
  | queryConsole | queryTrip | queryHandover => exact query_runs (fun _ x => by cases x <;> rfl) hs
  | listShelves | readSheet => exact query_runs (fun _ _ => rfl) hs
  | loadRole | loadSteps =>
    refine hostRequest_shows (fun u x => ?_) hs
    exact State.Calm.shows (.ofRecords rfl rfl rfl rfl rfl rfl rfl rfl rfl) rfl rfl rfl fun _ => rfl
  | loadOperator | loadOperatorRemove => exact hostRequest_runs (fun u x hu hx => actLoadOperator_runs hx hu) hs
  | loadTripCode => exact hostRequest_shows (fun u x => actLoadTripCode_shows x u) hs
  | loadTripEntries => exact hostRequest_shows (fun u x => actLoadTripEntries_shows x u) hs
  | loadOrder => exact hostRequest_shows (fun u x => actLoadOrder_shows x u) hs
  | raise => exact hostRequest_shows (fun u x => actRaise_shows x u) hs
  | clear => exact hostRequest_shows (fun u x => actClear_shows x u) hs
  | signOn => exact consoleRequest_runs (fun u x => actSignOn_runs x u) s
  | signOff => exact consoleRequest_runs (fun u x => actSignOff_runs x u) s
  | silence => exact consoleRequest_shows (fun u x => actSilence_shows x u) s
  | ack => exact consoleRequest_shows (fun u x => actAck_shows x u) s
  | ackHead => exact consoleRequest_shows (fun u x => actAckHead_shows x u) s
  | ackArea => exact consoleRequest_shows (fun u x => actAckArea_shows x u) s
  | shelve => exact consoleRequest_shows (fun u x => actShelve_shows x u) s
  | unshelve => exact consoleRequest_shows (fun u x => actUnshelve_shows x u) s
  | takeOut => exact consoleRequest_shows (fun u x => actTakeOut_shows x u) s
  | returnPoint => exact consoleRequest_shows (fun u x => actReturn_shows x u) s
  | releaseTrip => exact consoleRequest_shows (fun u x => actReleaseTrip_shows x u) s
  | lockDraft => exact consoleRequest_shows (fun u x => actLockDraft_shows x u) s
  | unlockDraft => exact consoleRequest_shows (fun u x => actUnlockDraft_shows x u) s
  | addItem => exact consoleRequest_shows (fun u x => actAddItem_shows x u) s
  | removeItem => exact consoleRequest_shows (fun u x => actRemoveItem_shows x u) s
  | post => exact consoleRequest_shows (fun u x => actPost_shows x u) s
  | reviewItem => exact consoleRequest_shows (fun u x => actReviewItem_shows x u) s
  | confirmStep => exact consoleRequest_shows (fun u x => actConfirmStep_shows x u) s
  | restartArea => exact consoleRequest_shows (fun u x => actRestartArea_shows x u) s
  | clearTripFault => exact execClearTripFault_runs _ _ hs
  | beginHandover => exact hostRequest_shows (fun u x => actBeginHandover_shows x u) hs
  | cancelHandover => exact hostRequest_shows (fun u x => actCancelHandover_shows x u) hs
  | suspendArea => exact hostRequest_shows (fun u x => actSuspendArea_shows x u) hs
  | resumeArea => exact hostRequest_shows (fun u x => actResumeArea_shows x u) hs
  | abortArea => exact hostRequest_shows (fun u x => actAbortArea_shows x u) hs
  | clearAbort => exact hostRequest_shows (fun u x => actClearAbort_shows x u) hs
  | keyContactChange => exact State.Shows.runsNext (execKeyContactChange_shows _ _ _ s)
  | keyQualifyTimerExpiry => exact execKeyQualifyTimerExpiry_runs _ _ s
  | keyReleaseTimerExpiry => exact State.Shows.runsNext (execKeyReleaseTimerExpiry_shows _ _ s)
  | stuckTimerExpiry => exact State.Shows.runsNext (execStuckTimerExpiry_shows _ _ s)
  | presenceDeadline => exact execPresenceDeadline_runs _ s
  | p1ResoundDeadline => exact State.Shows.runsNext (execP1ResoundDeadline_shows _ s)
  | shelfExpired => exact State.Shows.runsNext (execShelfExpired_shows _ s)
  | decayStep => exact State.Shows.runsNext (execDecayStep_shows _ s)
  | tripLinesChange => exact State.Shows.runsNext (execTripLinesChange_shows _ s)
  | tripQualifyTimerExpiry => exact State.Shows.runsNext (execTripQualifyTimerExpiry_shows s)
  | tripReleaseTimerExpiry => exact State.Shows.runsNext (execTripReleaseTimerExpiry_shows s)
  | waitDeadline => exact State.Shows.runsNext (execWaitDeadline_shows _ s)
  | tripHoldDeadline => exact State.Shows.runsNext (execTripHoldDeadline_shows _ s)
  | stepTimeout => exact State.Shows.runsNext (execStepTimeout_shows _ s)
  | handoverHoldDeadline => exact State.Shows.runsNext (execHandoverHoldDeadline_shows _ s)

/-! ### The other commands -/

/-- Where no point is in view, no one is seated and every output is off, all is as derived. -/
theorem State.Shown.dark (hv : s.inView = []) (hc : ∀ c, (s.console c).seat = .vacant ∧ (s.console c).head = none
    ∧ (s.console c).horn = .off ∧ (s.console c).beacon = .off) (hr : s.room.horn = .off)
    (ha : ∀ a, (s.area a).covered = false) : s.Shown where
  heads c := by
    obtain ⟨-, head, -⟩ := hc c
    rw [head]
    simp [State.bannerOf, State.orderOf, hv, ranked]
  horns c := by
    obtain ⟨seat, -, horn, -⟩ := hc c
    rw [horn]
    simp [State.hornOf, seat]
  beacons c := by
    obtain ⟨-, -, -, beacon⟩ := hc c
    rw [beacon]
    simp [State.beaconOf, hv]
  room := by
    rw [hr]
    simp [State.roomHornOf, hv, hornFor]
  covered _ a _ := by
    have none : ∀ c, s.coveredBy a c = false := fun c => by
      obtain ⟨seat, -⟩ := hc c
      rw [State.coveredBy_eq, seat]; rfl
    rw [ha]
    simp [State.coveredNow, none]

theorem Point.normal_of_atRest {p : Point} (h : p.atRest) : p.ann = .normal := by
  simp only [Point.atRest, Bool.and_eq_true, beq_iff_eq] at h
  exact h.1.2

theorem State.inView_of_normal (h : ∀ n, (s.point n).ann = .normal) : s.inView = [] := by
  refine List.filter_eq_nil_iff.mpr fun x hx => ?_
  rw [State.mem_numbered.mp hx, h]
  simp

theorem State.AtRest.shown (h : s.AtRest) : s.Shown := by
  refine .dark (State.inView_of_normal fun n => Point.normal_of_atRest (h.points n)) (fun c => ?_) h.room fun a => ?_
  · obtain ⟨seat, -, -, -, head, horn, beacon⟩ := Console.atRest_iff.mp (h.consoles c)
    exact ⟨seat, head, horn, beacon⟩
  · obtain ⟨-, -, covered, -⟩ := Area.atRest_iff.mp (h.areas a)
    exact covered

end Sys2Proof.Machine

/-!
The clock, the resets and the configuration keep the rules of the seats, and with them so does every command (O10).
-/

namespace Sys2Proof.Machine

variable {s t u v : State} {c : ConsoleNo}

/-! ### The clock -/

theorem Seat.mapDeadline_operator? (f : Deadline → Deadline) (x : Seat) : (x.mapDeadline f).operator? = x.operator? := by
  cases x <;> rfl

theorem Seat.mapDeadline_isSeated (f : Deadline → Deadline) (x : Seat) : (x.mapDeadline f).isSeated = x.isSeated := by
  cases x <;> rfl

theorem Handover.mapDeadline_inProgress (f : Deadline → Deadline) (h : Handover) :
    (h.mapDeadline f).inProgress = h.inProgress := by cases h <;> rfl

theorem State.console_setClock (n : Nat) (c : ConsoleNo) (s : State) : (s.setClock n).console c = { s.console c with
    seat := (s.console c).seat.mapDeadline (Deadline.move s.now n s.clock.timebase)
    resound := (s.console c).resound.map (Deadline.move s.now n s.clock.timebase) } := by
  simp only [State.setClock, State.mapDeadlines, State.console, Fin.getElem_fin, Vector.getElem_map]

theorem State.area_setClock (n : Nat) (a : AreaNo) (s : State) : (s.setClock n).area a = { s.area a with
    handover := (s.area a).handover.mapDeadline (Deadline.move s.now n s.clock.timebase) } := by
  simp only [State.setClock, State.mapDeadlines, State.area, Fin.getElem_fin, Vector.getElem_map]

theorem State.setClock_routing (n : Nat) (s : State) : s.SameRouting (s.setClock n) := fun c => by
  rw [State.console_setClock]
  exact ⟨rfl, Seat.mapDeadline_operator? _ _, Seat.mapDeadline_isSeated _ _⟩

/-- The deadlines move, and no output hangs on them. -/
theorem State.Shown.setClock (h : s.Shown) (n : Nat) : (s.setClock n).Shown := by
  have area (a : AreaNo) : ((s.setClock n).area a).config = (s.area a).config ∧ ((s.setClock n).area a).duty = (s.area a).duty
      ∧ ((s.setClock n).area a).flooded = (s.area a).flooded ∧ ((s.setClock n).area a).covered = (s.area a).covered
      ∧ ((s.setClock n).area a).handover.inProgress = (s.area a).handover.inProgress := by
    rw [State.area_setClock]
    exact ⟨rfl, rfl, rfl, rfl, Handover.mapDeadline_inProgress _ _⟩
  have console (c : ConsoleNo) : ((s.setClock n).console c).generalMark = (s.console c).generalMark
      ∧ ((s.setClock n).console c).p1Mark = (s.console c).p1Mark ∧ ((s.setClock n).console c).head = (s.console c).head
      ∧ ((s.setClock n).console c).horn = (s.console c).horn ∧ ((s.setClock n).console c).beacon = (s.console c).beacon := by
    rw [State.console_setClock]
    exact ⟨rfl, rfl, rfl, rfl, rfl⟩
  refine h.congr ⟨s.setClock_routing n, rfl, State.inView_congr rfl, fun c => ?_, rfl, fun a => (area a).1, fun a => ?_, fun a => ?_⟩
    ⟨s.setClock_routing n, fun _ _ _ => rfl, rfl, fun a => (area a).1, fun a => ?_, fun a => ?_⟩ (fun c => ?_) rfl
  · obtain ⟨general, p1, -⟩ := console c; exact ⟨general, p1⟩
  · obtain ⟨-, -, flooded, -⟩ := area a; exact flooded
  · obtain ⟨-, -, -, covered, -⟩ := area a; exact covered
  · obtain ⟨-, duty, -⟩ := area a; exact duty
  · obtain ⟨-, -, -, -, progress⟩ := area a; exact progress
  · obtain ⟨-, -, outputs⟩ := console c; exact outputs

theorem State.SeatsSound.setClock (h : s.SeatsSound) (n : Nat) : (s.setClock n).SeatsSound := by
  refine h.congr rfl (fun c => ⟨(s.setClock_routing n).config c, (s.setClock_routing n).operator c⟩) fun c m d e => ?_
  rw [State.console_setClock] at e
  dsimp only at e
  cases hs : (s.console c).seat with
  | seated k x =>
    rw [hs] at e
    cases e
    rw [Option.map_eq_none_iff]
    exact h.deadline c _ x hs
  | vacant | absent => rw [hs] at e; cases e

/-! ### Where no one is seated -/

/-- Where every console is VACANT before and after, the rules of the seats say nothing of the consoles. -/
theorem State.SeatsSound.vacant (h : s.SeatsSound) (hs : ∀ c, (s.console c).seat = .vacant) (hr : t.roster = s.roster)
    (ht : ∀ c, (t.console c).seat = .vacant) : t.SeatsSound where
  once := hr ▸ h.once
  console c n e := by rw [ht c] at e; cases e
  operator o ho c e := by
    have := h.operator o (hr ▸ ho) c e
    rw [hs c] at this
    cases this
  configured c _ := ht c
  deadline c n d e := by rw [ht c] at e; cases e

theorem State.SeatsSound.nobody (hr : (t.roster.map (·.number)).Nodup) (ho : ∀ o ∈ t.roster, o.seat = none)
    (ht : ∀ c, (t.console c).seat = .vacant) : t.SeatsSound where
  once := hr
  console c n e := by rw [ht c] at e; cases e
  operator o h c e := by rw [ho o h] at e; cases e
  configured c _ := ht c
  deadline c n d e := by rw [ht c] at e; cases e

theorem config_of_refusal {m : Mode} (h : TakenIn.config.refusal m = none) : m = .config := by
  cases m with
  | config => rfl
  | run => cases h

theorem State.SeatsSound.link (u : State) (l : Link) (h : u.SeatsSound) : State.SeatsSound { u with link := l } :=
  h.congr rfl (fun _ => ⟨rfl, rfl⟩) h.deadline

theorem State.ConfigSound.link (u : State) (l : Link) (h : u.ConfigSound) : State.ConfigSound { u with link := l } :=
  h.same rfl rfl rfl rfl rfl rfl rfl rfl

theorem State.Shown.link (u : State) (l : Link) (h : u.Shown) : State.Shown { u with link := l } :=
  ⟨h.heads, h.horns, h.beacons, h.room, h.covered⟩

theorem State.storePoints_calm (first : Nat) (es : List PointEntry) (s : State) : s.Calm (s.storePoints first es) := by
  rw [State.storePoints_rest]
  exact .ofRecords rfl rfl rfl rfl rfl rfl rfl rfl rfl

theorem State.hardReset_seats (strapLow : Bool) (s : State) : (s.hardReset strapLow).SeatsSound :=
  .nobody (by simp [State.hardReset, State.reset]) (by simp [State.hardReset, State.reset])
    (s.hardReset_rests strapLow).2.seat

theorem State.SeatsSound.restart (h : s.SeatsSound) : s.restart.SeatsSound := by
  have roster : s.restart.roster = s.roster.map fun o => { o with seat := none } := rfl
  refine .nobody ?_ (fun o ho => ?_) s.restart_rests.2.seat
  · rw [roster, List.map_map]
    exact h.once
  · rw [roster] at ho
    obtain ⟨p, -, rfl⟩ := List.mem_map.mp ho
    rfl

theorem State.enterRun_console (c : ConsoleNo) (s : State) : s.enterRun.console c = (s.console c).enterRun := by
  simp [State.console, State.enterRun]

theorem State.enterRun_area (a : AreaNo) (s : State) : s.enterRun.area a = (s.area a).enterRun := by
  simp [State.area, State.enterRun]

/-- Nothing is shown on entry to RUN (R176): in CONFIG everything was at rest. -/
theorem State.AtRest.enterRun_shown (h : s.AtRest) : s.enterRun.Shown := by
  refine .dark (State.inView_of_normal fun n => Point.normal_of_atRest (h.points n)) (fun c => ?_) h.room fun a => ?_
  · obtain ⟨-, -, -, -, -, horn, beacon⟩ := Console.atRest_iff.mp (h.consoles c)
    rw [State.enterRun_console]
    exact ⟨rfl, rfl, horn, beacon⟩
  · rw [State.enterRun_area]
    rfl

/-! ### The seats through every command -/

theorem actSetPoint_calm (x : PointNo × AreaNo × Priority) (s : State) : (actSetPoint s x).Gives s.Calm := by
  unfold actSetPoint
  dsimp only
  split
  · trivial
  · split
    · trivial
    · split
      · trivial
      · exact s.setPoint_calm _ _

/-- A configuration load leaves the rules of the seats: in CONFIG no one is seated. -/
theorem configRequest_seats {α : Type} {kind tag : Byte} {p : List Byte} {parse : List Byte → Option α}
    {act : State → α → Answer}
    (h : ∀ u x, u.AtRest → (act u x).Gives fun v => v.roster = u.roster ∧ ∀ c, (v.console c).seat = .vacant)
    (hs : s.ConfigSound) (hk : s.SeatsSound) (e : hostRequest kind tag p parse .config act s = .next t) : t.SeatsSound := by
  refine hostRequest_leads (P := fun u => u.ConfigSound ∧ u.SeatsSound) (fun u l hu => ⟨.link u l hu.1, .link u l hu.2⟩)
    State.SeatsSound.link (fun _ hu => hu.2) (fun u x hm hu => ?_) ⟨hs, hk⟩ e
  have rest := hu.1 (config_of_refusal hm)
  have given := h u x rest
  cases ha : act u x with
  | error => trivial
  | ok v =>
    rw [ha] at given
    obtain ⟨roster, vacant⟩ := given
    exact hu.2.vacant rest.seat roster vacant

theorem exec_seatsSound {i : Instr} (hs : s.ConfigSound) (h : s.SeatsSound) (e : exec i s = .next t) : t.SeatsSound := by
  cases hi : rewritesRecords i with
  | false =>
    obtain ⟨v, hv, runs⟩ := exec_runs hi hs
    cases hv.symm.trans e
    exact runs.seats h
  | true =>
    cases i with
    | hardReset strap => cases e; exact s.hardReset_seats strap
    | restart =>
      refine hostRequest_keeps State.SeatsSound.link (fun u _ _ hu => ?_) h e
      exact hu.restart
    | start =>
      refine configRequest_seats (fun u x hu => ?_) hs h e
      unfold actStart
      split
      · trivial
      · exact ⟨rfl, fun c => by rw [State.enterRun_console]; rfl⟩
    | setClock =>
      refine hostRequest_keeps State.SeatsSound.link (fun u x _ hu => ?_) h e
      exact hu.setClock x
    | clockSecond =>
      cases e
      exact h.congr rfl (fun _ => ⟨rfl, rfl⟩) h.deadline
    | setTiming =>
      refine configRequest_seats (fun u x hu => ?_) hs h e
      show (u.storeSetting x.1 (x.1.clamped x.2)).roster = _ ∧ _
      unfold State.storeSetting
      dsimp only
      split <;> exact ⟨rfl, hu.seat⟩
    | setShift =>
      refine configRequest_seats (fun u x hu => ?_) hs h e
      exact ⟨rfl, hu.seat⟩
    | loadPoints =>
      refine configRequest_seats (fun u x hu => ?_) hs h e
      have calm := u.storePoints_calm x.1 x.2
      exact ⟨calm.roster, fun c => by rw [(calm.reports.seats c).2]; exact hu.seat c⟩
    | loadArea =>
      refine configRequest_seats (fun u x hu => ?_) hs h e
      exact ⟨rfl, hu.seat⟩
    | loadConsole =>
      refine configRequest_seats (fun u x hu => ?_) hs h e
      refine ⟨rfl, fun c => ?_⟩
      rw [State.console_modConsole]
      split
      · exact hu.seat x.1
      · exact hu.seat c
    | setPoint =>
      refine hostRequest_keeps State.SeatsSound.link (fun u x _ hu => ?_) h e
      have calm := actSetPoint_calm x u
      cases ha : actSetPoint u x with
      | error => trivial
      | ok v => rw [ha] at calm; exact hu.kept (State.Calm.reports calm)
    | fetchNotices =>
      refine hostRequest_keeps State.SeatsSound.link (fun u x _ hu => ?_) h e
      exact hu.congr rfl (fun _ => ⟨rfl, rfl⟩) hu.deadline
    | _ => cases hi

/-- Settles O10: every change of a seat changes the console's record and the operator's together. -/
theorem seatsNameEachOther : Obligations.SeatsNameEachOther := fun _ _ hc hs e =>
  step_keeps (P := fun u => u.ConfigSound ∧ u.SeatsSound)
    (fun _ _ hu => ⟨hu.1.same rfl rfl rfl rfl rfl rfl rfl rfl, hu.2.congr rfl (fun _ => ⟨rfl, rfl⟩) hu.2.deadline⟩)
    ⟨hc, hs⟩ hs (fun _ _ _ hu he => exec_seatsSound hu.1 hu.2 he) e

end Sys2Proof.Machine

/-!
Every command leaves every output right and tells of each that it changes (O11).
-/

namespace Sys2Proof.Machine

variable {s t u v : State} {c : ConsoleNo}

/-! ### What the other commands tell, and show -/

/-- The queue, the covered flags and the banners stand. -/
structure State.Still (s t : State) : Prop where
  queue   : t.queue = s.queue
  covered : ∀ a, (t.area a).covered = (s.area a).covered
  heads   : ∀ c, (t.console c).head = (s.console c).head

theorem State.Still.refl (s : State) : s.Still s := ⟨rfl, fun _ => rfl, fun _ => rfl⟩

theorem State.Still.tells (h : s.Still t) : s.TellsOutputs t [] := .quiet nofun h.queue h.covered h.heads

theorem State.Calm.still (h : s.Calm t) : s.Still t :=
  ⟨h.queue, fun a => (h.area a).2.1, fun c => (h.console c).2.2⟩

/-- A request whose answer leaves the queue, coverage and the banners. -/
theorem hostRequest_still {α : Type} {kind tag : Byte} {p : List Byte} {parse : List Byte → Option α} {m : TakenIn}
    {act : State → α → Answer} (h : ∀ u x, m.refusal u.mode = none → u.ConfigSound → (act u x).Gives u.Still)
    (hs : s.ConfigSound) (e : hostRequest kind tag p parse m act s = .next t) : s.Still t := by
  refine hostRequest_leads (P := fun u => u.ConfigSound ∧ s.Still u) (Q := s.Still)
    (fun u l hu => ⟨.link u l hu.1, hu.2.queue, hu.2.covered, hu.2.heads⟩) (fun u l hu => ⟨hu.queue, hu.covered, hu.heads⟩)
    (fun _ hu => hu.2) (fun u x hm hu => ?_) ⟨hs, .refl s⟩ e
  have still := h u x hm hu.1
  cases ha : act u x with
  | error => trivial
  | ok v =>
    rw [ha] at still
    exact ⟨still.queue.trans hu.2.queue, fun a => (still.covered a).trans (hu.2.covered a),
      fun c => (still.heads c).trans (hu.2.heads c)⟩

theorem State.AtRest.enterRun_still (h : s.AtRest) : s.Still s.enterRun where
  queue := rfl
  covered a := by
    obtain ⟨-, -, covered, -⟩ := Area.atRest_iff.mp (h.areas a)
    rw [State.enterRun_area, covered]; rfl
  heads c := by
    obtain ⟨-, -, -, -, head, -⟩ := Console.atRest_iff.mp (h.consoles c)
    rw [State.enterRun_console, head]; rfl

/-- A command that sets the clock, the configuration or the operating state, and takes no notice away, gives none. -/
theorem exec_still {i : Instr} (hi : rewritesRecords i) (hn : OnlyNotifies i) (hs : s.ConfigSound) (e : exec i s = .next t) :
    s.Still t := by
  obtain ⟨noReset, others⟩ := hn
  cases i with
  | hardReset strap => exact absurd rfl (noReset strap)
  | restart tag p => exact absurd rfl (others tag p).1
  | fetchNotices tag p => exact absurd rfl (others tag p).2.1
  | setTiming tag p => exact absurd rfl (others tag p).2.2
  | start =>
    refine hostRequest_still (fun u x hm hu => ?_) hs e
    unfold actStart
    split
    · trivial
    · exact (hu (config_of_refusal hm)).enterRun_still
  | setClock =>
    refine hostRequest_still (fun u x _ _ => ?_) hs e
    exact ⟨rfl, fun a => by rw [State.area_setClock], fun c => by rw [State.console_setClock]⟩
  | clockSecond => cases e; exact ⟨rfl, fun _ => rfl, fun _ => rfl⟩
  | setShift =>
    refine hostRequest_still (fun u x _ _ => ?_) hs e
    exact ⟨rfl, fun a => by simp [State.area], fun _ => rfl⟩
  | loadPoints =>
    refine hostRequest_still (fun u x _ _ => ?_) hs e
    exact (u.storePoints_calm x.1 x.2).still
  | loadArea =>
    refine hostRequest_still (fun u x _ _ => ?_) hs e
    refine ⟨rfl, fun a => ?_, fun _ => rfl⟩
    rw [State.area_modArea]
    split
    · rename_i h; rw [h]
    · rfl
  | loadConsole =>
    refine hostRequest_still (fun u x _ _ => ?_) hs e
    refine ⟨rfl, fun _ => rfl, fun c => ?_⟩
    rw [State.console_modConsole]
    split
    · rename_i h; rw [h]
    · rfl
  | setPoint =>
    refine hostRequest_still (fun u x _ _ => ?_) hs e
    have calm := actSetPoint_calm x u
    cases ha : actSetPoint u x with
    | error => trivial
    | ok v => rw [ha] at calm; exact State.Calm.still calm
  | _ => cases hi

/-- What a command must leave right: the outputs, where the part is in RUN. -/
theorem runRequest_shown {α : Type} {kind tag : Byte} {p : List Byte} {parse : List Byte → Option α} {m : TakenIn}
    {act : State → α → Answer}
    (h : ∀ u x, m.refusal u.mode = none → u.ConfigSound → u.Shown → (act u x).Gives fun v => v.mode = .run → v.Shown)
    (hs : s.ConfigSound) (hk : s.Shown) (e : hostRequest kind tag p parse m act s = .next t) : t.mode = .run → t.Shown :=
  hostRequest_leads (P := fun u => u.ConfigSound ∧ u.Shown) (Q := fun v => v.mode = .run → v.Shown)
    (fun u l hu => ⟨.link u l hu.1, .link u l hu.2⟩) (fun u l hu hm => .link u l (hu hm)) (fun _ hu _ => hu.2)
    (fun u x hm hu => h u x hm hu.1 hu.2) ⟨hs, hk⟩ e

/-- A configuration load leaves the part in CONFIG. -/
theorem configRequest_shown {α : Type} {kind tag : Byte} {p : List Byte} {parse : List Byte → Option α}
    {act : State → α → Answer} (h : ∀ u x, (act u x).Gives fun v => v.mode = u.mode)
    (hs : s.ConfigSound) (hk : s.Shown) (e : hostRequest kind tag p parse .config act s = .next t) :
    t.mode = .run → t.Shown := by
  refine runRequest_shown (fun u x hm _ _ => ?_) hs hk e
  have mode := h u x
  cases ha : act u x with
  | error => trivial
  | ok v =>
    rw [ha] at mode
    intro run
    have config : v.1.mode = .config := Eq.trans mode (config_of_refusal hm)
    rw [show v.1.mode = .run from run] at config
    cases config

theorem actSetPoint_shown (x : PointNo × AreaNo × Priority) (h : s.Shown) :
    (actSetPoint s x).Gives fun v => v.mode = .run → v.Shown := by
  unfold actSetPoint
  dsimp only
  split
  · trivial
  · split
    · trivial
    · split
      · trivial
      · intro run
        rename_i inService _
        have out : (s.point x.1).outOfService := by
          have mode : s.mode = .run := run
          simpa [mode] using inService
        exact (State.setPoint_hidden_shows (by simp [Point.hidden, out]) (by simp [Point.hidden, out])).shown h

theorem exec_shown {i : Instr} (hs : s.ConfigSound) (hk : s.SeatsSound) (h : s.Shown) (e : exec i s = .next t) : t.Shown := by
  cases ht : t.mode with
  | config => exact (exec_configSound hs e ht).shown
  | run =>
    cases hi : rewritesRecords i with
    | false =>
      obtain ⟨v, hv, runs⟩ := exec_runs hi hs
      cases hv.symm.trans e
      exact runs.shown hk h
    | true =>
      refine (?_ : t.mode = .run → t.Shown) ht
      cases i with
      | hardReset strap => cases e; exact fun _ => (s.hardReset_rests strap).2.shown
      | restart =>
        refine runRequest_shown (fun u _ _ _ _ => ?_) hs h e
        exact fun _ => u.restart_rests.2.shown
      | start =>
        refine runRequest_shown (fun u x hm hu _ => ?_) hs h e
        unfold actStart
        split
        · trivial
        · exact fun _ => (hu (config_of_refusal hm)).enterRun_shown
      | setClock =>
        refine runRequest_shown (fun u x _ _ hu => ?_) hs h e
        exact fun _ => hu.setClock x
      | clockSecond =>
        cases e
        exact fun _ => ⟨h.heads, h.horns, h.beacons, h.room, h.covered⟩
      | setTiming =>
        refine configRequest_shown (fun u x => ?_) hs h e
        show (u.storeSetting x.1 (x.1.clamped x.2)).mode = u.mode
        unfold State.storeSetting
        dsimp only
        split <;> rfl
      | setShift =>
        refine configRequest_shown (fun u x => ?_) hs h e
        rfl
      | loadPoints =>
        refine configRequest_shown (fun u x => ?_) hs h e
        exact (u.storePoints_calm x.1 x.2).mode
      | loadArea =>
        refine configRequest_shown (fun u x => ?_) hs h e
        rfl
      | loadConsole =>
        refine configRequest_shown (fun u x => ?_) hs h e
        rfl
      | setPoint =>
        refine runRequest_shown (fun u x _ _ hu => ?_) hs h e
        exact actSetPoint_shown x hu
      | fetchNotices =>
        refine runRequest_shown (fun u x _ _ hu => ?_) hs h e
        exact fun _ => ⟨hu.heads, hu.horns, hu.beacons, hu.room, hu.covered⟩
      | _ => cases hi

theorem exec_tells {i : Instr} (hs : s.ConfigSound) (hn : OnlyNotifies i) (e : exec i s = .next t) :
    ∃ ks, s.TellsOutputs t ks := by
  cases hi : rewritesRecords i with
  | false =>
    obtain ⟨v, hv, runs⟩ := exec_runs hi hs
    cases hv.symm.trans e
    exact runs.told
  | true => exact ⟨[], (exec_still hi hn hs e).tells⟩

/-- Settles O11: the end of every event brings the outputs to their values, telling of each change, and what is no event
changes nothing that they are read from. -/
theorem outputsFollowState : Obligations.OutputsFollowState := by
  intro s t hc hs ho e
  refine ⟨State.Shown.outputsSound ?_, fun i rest hp hn => ?_⟩
  · exact step_keeps (P := fun u => u.ConfigSound ∧ u.SeatsSound ∧ u.Shown)
      (fun _ _ hu => ⟨hu.1.same rfl rfl rfl rfl rfl rfl rfl rfl, hu.2.1.congr rfl (fun _ => ⟨rfl, rfl⟩) hu.2.1.deadline,
        hu.2.2.heads, hu.2.2.horns, hu.2.2.beacons, hu.2.2.room, hu.2.2.covered⟩)
      ⟨hc, hs, ho.shown⟩ ho.shown (fun _ _ _ hu he => exec_shown hu.1 hu.2.1 hu.2.2 he) e
  · have run : exec i { s with pending := rest } = .next t := by
      unfold step at e
      rw [hp] at e
      exact e
    have sound : State.ConfigSound { s with pending := rest } := hc.same rfl rfl rfl rfl rfl rfl rfl rfl
    obtain ⟨ks, queue, covered, heads⟩ := exec_tells sound hn run
    exact ⟨ks, Eq.trans queue (State.notifyAll_congr ks rfl rfl rfl), covered, heads⟩

end Sys2Proof.Machine

/-!
Signing on and off and the presence deadline (R30 to R37): each is its own change of the seats, and the end of its event.
-/

namespace Sys2Proof.Machine

variable {s u : State} {c : ConsoleNo}

/-! ### Activity -/

theorem State.noteActivity_at (c : ConsoleNo) (p : List Byte) (s : State) :
    s.noteActivity (byte c.val :: p) = s.activity c := by simp [State.noteActivity]

theorem State.activity_vacant (h : (s.console c).seat = .vacant) : s.activity c = s := by simp [State.activity, h]

theorem State.activity_seated {n : Nat} {d : Option Deadline} (h : (s.console c).seat = .seated n d) :
    s.activity c = s.seat c n := by simp [State.activity, h]

theorem State.activity_absent {n : Nat} (h : (s.console c).seat = .absent n) : s.activity c = s.revive c n := by
  simp [State.activity, h]

/-- The end of an event of changed seats. -/
theorem State.settles_seatsChanged (f : AreaNo → Bool) (d : State) :
    d.Settles (Work.seatsChanged f { s := d, cover := true }).finish := (Work.seatsChanged_of f d true).finish

/-- Behind an event that leaves the seats, they stand as its owner has set them. -/
theorem State.Settles.seat {d t : State} {own : AreaNo → Option (List NoticeKind × Handover)} (h : d.Settles t own)
    (c : ConsoleNo) : (t.console c).seat = (d.console c).seat := (h.reports.seats c).2

/-! ### SIGN_ON -/

theorem actSignOn_taken {n : Nat} {o : Operator} (hc : (s.console c).config.configured)
    (hv : (s.console c).seat = .vacant) (ho : s.operator? n = some o) (hs : o.seat = none)
    (hd : o.role = .supervisor ∨ o.crew = s.mill.duty ∨ s.mill.incoming = some o.crew) :
    actSignOn s (c, n) = taken (s.signOn c n) := by
  have may : s.maySignOn o := by simpa [State.maySignOn, State.dutySilence] using hd
  simp [actSignOn, hc, hv, ho, hs, may]

/-- Settles O31: the answer is DONE, and the seats re-examined are the end of its event. -/
theorem signOnSeatsOperator : Obligations.SignOnSeatsOperator := by
  intro tag c n o s u h h' p ht hm hc hv ho hs hd
  have same : u.noteActivity p = u := by rw [State.noteActivity_at, State.activity_vacant hv]
  refine ⟨u.signOn c n, ?_, State.settles_seatsChanged _ _⟩
  show consoleRequest 0x40 tag p parseSignOn actSignOn s = _
  rw [consoleRequest_read ht (parseSignOn_bytes c h h') (same.symm ▸ hm), same, actSignOn_taken hc hv ho hs hd,
    State.answer_taken]

/-! ### SIGN_OFF -/

theorem actSignOff_taken {n : Nat} (x : Option ConsoleNo) (hc : (s.console c).config.configured)
    (hs : (s.console c).seat.operator? = some n) : actSignOff s (x, c) = taken (s.signOff c) := by
  have seated : (s.console c).seat ≠ .vacant := fun e => by rw [e] at hs; cases hs
  simp [actSignOff, hc, seated]

/-- What a SIGN_OFF changes of its own, written out. -/
theorem State.signedOff_eq {n : Nat} (h : (s.console c).seat.operator? = some n) : s.signedOff c =
    (State.modOperator n (fun r => { r with seat := none }) { s with
      areas := s.areas.map fun r => if r.draft.lock = some c then { r with draft := { r.draft with lock := none } } else r
      }).modConsole c fun r => { r with seat := .vacant, generalMark := 0, p1Mark := 0, resound := none } := by
  unfold State.signedOff
  rw [h]
  rfl

theorem State.signedOff_lock (c : ConsoleNo) (a : AreaNo) (s : State) : ((s.signedOff c).area a).draft.lock ≠ some c := by
  simp only [State.signedOff, State.releaseLocks, State.area, Fin.getElem_fin, Vector.getElem_map]
  split
  · nofun
  · assumption

theorem State.signOff_settles (c : ConsoleNo) (s : State) : (s.signedOff c).Settles (s.signOff c) := by
  rw [State.signOff_eq]
  exact State.settles_seatsChanged _ _

theorem State.signOff_lock (c : ConsoleNo) (a : AreaNo) (s : State) : ((s.signOff c).area a).draft.lock ≠ some c := by
  rcases (s.signOff_settles c).lock a with h | h
  · rw [h]; nofun
  · rw [h]; exact s.signedOff_lock c a

/-- Settles O32: from the host no console acts, and from the console its activity is noted before. -/
theorem signOffVacatesConsole : Obligations.SignOffVacatesConsole := by
  intro tag c n p s u hp hm hc hs
  refine ⟨u.signOff c, ?_, State.signedOff_eq hs ▸ u.signOff_settles c, fun a => u.signOff_lock c a⟩
  show consoleRequest 0x41 tag p parseSignOff actSignOff s = _
  rcases hp with ⟨rfl, ht⟩ | ⟨rfl, ht⟩
  · have same : u.noteActivity [0xFF, byte c.val] = u := rfl
    rw [consoleRequest_read ht (parseSignOff_host c) hm, same, actSignOff_taken none hc hs, State.answer_taken]
  · rw [consoleRequest_at ht (parseSignOff_console c) hm, actSignOff_taken (some c) hc hs, State.answer_taken]

/-! ### The presence deadline -/

/-- Settles O33: the notice precedes the end of the event, in which coverage is re-derived. -/
theorem presenceDeadlineMakesAbsent : Obligations.PresenceDeadlineMakesAbsent := by
  intro c n d s hs ht hb
  have due : s.due d := by simp [State.due, State.now, ht, hb]
  refine ⟨_, ?_, (Work.Of.start _ true false false).finish⟩
  show execPresenceDeadline c s = _
  unfold execPresenceDeadline
  rw [hs]
  dsimp only
  rw [if_pos due]

/-- Activity at an ABSENT console (R37). -/
theorem State.revive_settles (c : ConsoleNo) (n : Nat) (s : State) :
    ((s.seat c n).notify (.consolePresent c)).Settles (s.revive c n) := State.settles_seatsChanged _ _

end Sys2Proof.Machine

/-!
Silence and the keys (R43, R57 to R61, R64 to R67, R75), and the refusals of an acknowledgement (R40, R41, R72, R73).
-/

namespace Sys2Proof.Machine

variable {s t u d : State} {c : ConsoleNo} {o : Operator}

/-! ### Outputs driven -/

theorem State.notify_view (k : NoticeKind) (s : State) : s.SameView (s.notify k) := by
  rw [State.notify_eq]
  exact ⟨.refl s, rfl, rfl, fun _ => ⟨rfl, rfl⟩, rfl, fun _ => rfl, fun _ => rfl, fun _ => rfl⟩

/-- The outputs once they are driven, as they are derived in the state that results. -/
theorem State.console_driveOutputs_view (b : ConsoleNo) (s : State) : s.driveOutputs.console b =
    { s.console b with horn := s.driveOutputs.hornOf b, beacon := s.driveOutputs.beaconOf b } := by
  rw [s.driveOutputs_view.hornOf, s.driveOutputs_view.beaconOf]
  simp

theorem State.room_driveOutputs_view (s : State) : s.driveOutputs.room = { s.room with horn := s.driveOutputs.roomHornOf } := by
  rw [s.driveOutputs_view.roomHornOf]
  simp

/-- Outputs driven over changed consoles, and a notice behind them, leave all else. -/
theorem State.driven_rest (consoles : Vector Console 8) (room : Room) (k : NoticeKind) (s : State) :
    (State.driveOutputs { s with consoles, room }).notify k = { s with
      consoles := ((State.driveOutputs { s with consoles, room }).notify k).consoles
      room := ((State.driveOutputs { s with consoles, room }).notify k).room
      queue := (s.notify k).queue } := by
  have queue : ((State.driveOutputs { s with consoles, room }).notify k).queue = (s.notify k).queue :=
    State.notify_congr k rfl rfl rfl
  have rest := State.notify_eq k (State.driveOutputs { s with consoles, room })
  rw [queue] at rest
  rw [rest]
  rfl

/-- The marks that a silence sets (R59). -/
def State.marked (c : ConsoleNo) (source : SilenceSource) (s : State) : State :=
  let t := s.modConsole c (Console.silenced s.raiseCounter (s.resoundAfter c))
  if source = .room then { t with room := { t.room with mark := s.raiseCounter } } else t

theorem State.silence_eq (c : ConsoleNo) (source : SilenceSource) (s : State) :
    s.silence c source = (s.marked c source).driveOutputs.notify (.silenced c source) := rfl

theorem State.marked_rest (c : ConsoleNo) (source : SilenceSource) (s : State) : s.marked c source = { s with
    consoles := (s.modConsole c (Console.silenced s.raiseCounter (s.resoundAfter c))).consoles
    room := { s.room with mark := if source = .room then s.raiseCounter else s.room.mark } } := by
  unfold State.marked
  dsimp only
  split <;> rfl

theorem State.console_marked (c b : ConsoleNo) (source : SilenceSource) (s : State) : (s.marked c source).console b =
    if b = c then (s.console c).silenced s.raiseCounter (s.resoundAfter c) else s.console b := by
  rw [State.marked_rest]
  exact s.console_modConsole c b _

/-- A silence leaves what R59 says. -/
theorem State.silence_silencedTo (c : ConsoleNo) (source : SilenceSource) (s : State) :
    s.SilencedTo c source (s.silence c source) := by
  rw [State.silence_eq]
  have view := State.notify_view (.silenced c source) (s.marked c source).driveOutputs
  obtain ⟨-, room, consoles, -⟩ := State.notify_records (.silenced c source) (s.marked c source).driveOutputs
  have console (b : ConsoleNo) : ((s.marked c source).driveOutputs.notify (.silenced c source)).console b =
      { (s.marked c source).console b with
        horn := ((s.marked c source).driveOutputs.notify (.silenced c source)).hornOf b
        beacon := ((s.marked c source).driveOutputs.notify (.silenced c source)).beaconOf b } := by
    rw [view.hornOf, view.beaconOf, ← State.console_driveOutputs_view]
    simp only [State.console, consoles]
  refine ⟨?_, fun b hb => ?_, ?_, ?_⟩
  · rw [console, State.console_marked, if_pos rfl]
    simp only [Console.silenced, State.resoundAfter]
  · rw [console, State.console_marked, if_neg hb]
  · rw [view.roomHornOf, room, State.room_driveOutputs_view, State.marked_rest]
  · rw [State.marked_rest]
    exact State.driven_rest _ _ _ s

theorem actSilence_taken {x : ConsoleNo × Bool} (h : s.permitSilence x.1 = .ok o) :
    actSilence s x = taken (s.silence x.1 (if x.2 then .room else .request)) := by
  simp [actSilence, h]

/-- Settles O35, by what a silence leaves and the outputs driven behind a re-sound deadline. -/
theorem silenceSetsMarks : Obligations.SilenceSetsMarks := by
  refine ⟨fun tag c room o s u ht hm hp => ?_, fun c d s hd ht hb => ?_⟩
  · refine ⟨_, ?_, u.silence_silencedTo c _⟩
    show consoleRequest 0x42 tag _ parseSilence actSilence s = _
    rw [consoleRequest_at ht (parseSilence_bytes c room) hm, actSilence_taken hp, State.answer_taken]
  · have due : s.due d := by simp [State.due, State.now, ht, hb]
    refine ⟨(s.modConsole c fun r => { r with p1Mark := 0, resound := none }).driveOutputs, ?_, fun b => ?_, ?_, rfl⟩
    · show execP1ResoundDeadline c s = _
      unfold execP1ResoundDeadline
      rw [hd]
      dsimp only
      rw [if_pos due]
    · rw [State.console_driveOutputs_view, State.console_modConsole]
      split
      · rename_i e; rw [e]
      · rfl
    · exact State.room_driveOutputs_view _

end Sys2Proof.Machine

/-!
The action of a key that qualifies (R43, R58, R67, R75), and the refusals of an acknowledgement (R40, R41, R72, R73).
-/

namespace Sys2Proof.Machine

variable {s t u d : State} {c : ConsoleNo} {o : Operator} {n : PointNo}

/-! ### The keys -/

theorem execKeyQualifyTimerExpiry_acts (k : KeyName) (hm : s.mode = .run) (hk : ((s.console c).key k).state = .pressing) :
    execKeyQualifyTimerExpiry c k s = .next ((s.setKey c k { (s.console c).key k with state := .held }).keyAction c k) := by
  unfold execKeyQualifyTimerExpiry
  exact if_pos ⟨hm, hk⟩

theorem State.Settles.refl (s : State) : s.Settles s :=
  ⟨.refl s, [], .refl s, ⟨[], [], [], [], [], rfl, .nil, .nil, .nil, .inl rfl, nofun⟩, fun _ => .inl (.rests _)⟩

/-- Behind the settling, and a notice that stands after it, there is only the sheet store's pass. -/
theorem Work.settles_finish_after (w : Work) (after : List NoticeKind) :
    (w.settle.notifyAll after).Settles (w.finish after) := by
  unfold Work.finish
  dsimp only
  split
  · exact State.examineSheets_settles _
  · exact .refl _

/-- The acknowledge key's action: the acknowledgement with its banners, KEY_ACK, and the sheet store's pass. -/
theorem State.ackEvent_keyAck (n : PointNo) (k : Nat) (x : NoticeKind) (s : State) :
    ∃ v, (s.acknowledge n k).Settles v ∧ v.HeadsRight ∧ (v.notify x).Settles (s.ackEvent n k [x]) ∧
      (s.noCommits → s.ackEvent n k [x] = v.notify x) := by
  refine ⟨(Work.pointChanged (s.point n) { s := s.acknowledge n k }).settle, (Work.pointChanged_of _ _ false false false).settles,
    Work.settle_heads _, Work.settles_finish_after _ [x], fun quiet => Work.finish_eq _ [x] ?_⟩
  exact (Work.pointChanged_frames (s.point n) { s := s.acknowledge n k }).noCommits quiet

/-- Settles O37, by the answers of the key's own check in their turn. -/
theorem qualifiedPressActs : Obligations.QualifiedPressActs := by
  intro c s u hm
  refine ⟨fun hk hu => ?_, fun hk hu => ?_⟩
  · have acts : exec (.keyQualifyTimerExpiry c .ack) s = .next (u.ackPress c) :=
      hu ▸ execKeyQualifyTimerExpiry_acts .ack hm hk
    rw [acts]
    refine ⟨fun o n ha hb hp => ?_, fun o n x ha hb hp => ?_, fun x ha => ?_, fun o ha hb => ?_⟩
    · have press : u.ackPress c = u.ackEvent n o.number [.keyAck c n o.number] := by
        unfold State.ackPress
        simp only [ha, hb, hp]
      rw [press]
      obtain ⟨v, settles, heads, pass, quiet⟩ := u.ackEvent_keyAck n o.number (.keyAck c n o.number)
      exact ⟨v, _, rfl, settles, heads, pass, quiet⟩
    · unfold State.ackPress
      simp only [ha, hb, hp]
      rfl
    · unfold State.ackPress
      simp only [ha]
      rfl
    · unfold State.ackPress
      simp only [ha, hb]
      rfl
  · have acts : exec (.keyQualifyTimerExpiry c .silence) s = .next (u.silencePress c) :=
      hu ▸ execKeyQualifyTimerExpiry_acts .silence hm hk
    rw [acts]
    refine ⟨fun o hp => ⟨u.silence c .key, ?_, u.silence_silencedTo c .key⟩, fun x hp => ?_⟩
    · unfold State.silencePress
      simp only [hp]
    · unfold State.silencePress
      simp only [hp]
      rfl

/-! ### The steps of the permission check -/

theorem State.actor_unconfigured (k : ActionClass) (h : (s.console c).config.configured = false) :
    s.actor c k = .error .noSuch := by simp [State.actor, h]

theorem State.actor_vacant (k : ActionClass) (hc : (s.console c).config.configured) (h : (s.console c).seat = .vacant) :
    s.actor c k = .error .notSeated := by simp [State.actor, hc, h, Seat.operator?]

theorem State.actor_known (k : ActionClass) {m : Nat} (hc : (s.console c).config.configured)
    (hm : (s.console c).seat.operator? = some m) (ho : s.operator? m = some o) :
    s.actor c k = if s.permits o.role k then .ok o else .error .notPermitted := by
  simp [State.actor, hc, hm, ho]

theorem State.permitPoint_error {k : ActionClass} {x : Status} (sense : Bool) (h : s.actor c k = .error x) :
    s.permitPoint c k n sense = .error x := by simp [State.permitPoint, h]

theorem State.permitPoint_known {k : ActionClass} (h : s.actor c k = .ok o) : s.permitPoint c k n true =
    targetTest o (s.point n).area (s.exists? (s.point n)) (s.routes c (s.point n).area)
      (s.dutyAck o.crew (s.point n).area) := by simp [State.permitPoint, h]

theorem actAck_refused {x : Status} (h : s.permitPoint c .ack n true = .error x) : actAck s (c, n) = refuse x := by
  simp [actAck, h]

theorem actAck_permitted (h : s.permitPoint c .ack n true = .ok o) : actAck s (c, n) =
    if (s.point n).hidden then refuse .wrongState
    else if (s.point n).ann = .acked ∨ (s.point n).ann = .normal then refuse .already
    else taken (s.ackEvent n o.number []) (ackData n (s.point n)) := by
  simp [actAck, h]

/-- Settles O34, check by check. -/
theorem ackRefusedByFirstFailingCheck : Obligations.AckRefusedByFirstFailingCheck := by
  refine ⟨?_, ?_⟩
  · intro tag c n s u p ht hm refusedWith q
    have answered : exec (.ack tag p) s = .next (u.answer 0x43 tag (actAck u (c, n))) :=
      consoleRequest_at ht (parseConsolePoint_bytes c n) hm
    have refused {x : Status} (h : actAck u (c, n) = refuse x) : refusedWith x := by
      show exec (.ack tag p) s = _
      rw [answered, h, State.answer_refuse]
    refine ⟨fun hc => ?_, fun hc hv => ?_, fun k o hc hk ho => ⟨fun hr => ?_, fun hr => ?_⟩⟩
    · exact refused (actAck_refused (State.permitPoint_error true (State.actor_unconfigured .ack hc)))
    · exact refused (actAck_refused (State.permitPoint_error true (State.actor_vacant .ack hc hv)))
    · have actor : u.actor c .ack = .error .notPermitted := by
        rw [State.actor_known .ack hc hk ho, State.permits, hr]; rfl
      exact refused (actAck_refused (State.permitPoint_error true actor))
    · have actor : u.actor c .ack = .ok o := by
        rw [State.actor_known .ack hc hk ho, State.permits, if_pos hr]
      have check : u.permitPoint c .ack n true =
          targetTest o q.area (u.exists? q) (u.routes c q.area) (u.dutyAck o.crew q.area) := State.permitPoint_known actor
      unfold targetTest at check
      refine ⟨fun he => ?_, fun he hr => ?_, fun he hr hq => ?_, fun he hr hq hd => ?_, fun he hr hq hd => ⟨fun hh => ?_, fun hh ha => ?_⟩⟩
      · exact refused (actAck_refused (by simp [check, he]))
      · exact refused (actAck_refused (by simp [check, he, hr]))
      · exact refused (actAck_refused (by simp [check, he, hr, hq]))
      · exact refused (actAck_refused (by simp [check, he, hr, hq, hd]))
      · exact refused (by rw [actAck_permitted (o := o) (by simp [check, he, hr, hq, hd]), if_pos hh])
      · have seen : ¬(u.point n).hidden = true := by simpa using hh
        exact refused (by rw [actAck_permitted (o := o) (by simp [check, he, hr, hq, hd]), if_neg seen, if_pos ha])
  · intro tag c n o s u hm ha
    refine ⟨fun ht hb => ?_, fun ht hb => ?_⟩
    · have refused : actAckHead u (c, some n) = refuse .headMoved := by
        rcases hb with hb | ⟨m, hb, hn, hp⟩
        · simp [actAckHead, ha, hb]
        · simp [actAckHead, ha, hb, hp, Ne.symm hn]
      show consoleRequest 0x44 tag _ parseAckHead actAckHead s = _
      rw [consoleRequest_at ht (parseAckHead_some c n) hm, refused, State.answer_refuse]
    · have refused : actAckHead u (c, none) = refuse .wrongState := by simp [actAckHead, ha, hb]
      show consoleRequest 0x44 tag _ parseAckHead actAckHead s = _
      rw [consoleRequest_at ht (parseAckHead_none c) hm, refused, State.answer_refuse]

end Sys2Proof.Machine

/-!
The replies of QUERY_METERS, QUERY_TRIP, QUERY_CONSOLE, QUERY_OPERATOR and QUERY_HANDOVER, byte by byte (R48, R99,
R107, R157).
-/

namespace Sys2Proof.Machine

variable {s u : State}

/-! ### Sets of areas -/

theorem getLsbD_foldl_areas (f : AreaNo → Bool) (l : List AreaNo) (w : BitVec 32) (i : Nat) (hi : i < 32) :
    (l.foldl (fun w a => if f a then w ||| (1#32 <<< a.val) else w) w).getLsbD i
      = (w.getLsbD i || l.any fun a => f a && a.val == i) := by
  induction l generalizing w with
  | nil => simp
  | cons a l ih =>
    have bit : (1#32 <<< a.val).getLsbD i = (a.val == i) := by
      rw [BitVec.getLsbD_shiftLeft, BitVec.getLsbD_one, Bool.eq_iff_iff]
      simp only [hi, decide_true, Bool.true_and, Bool.and_eq_true, Bool.not_eq_true', decide_eq_false_iff_not,
        decide_eq_true_eq, beq_iff_eq]
      omega
    rw [List.foldl_cons, ih, List.any_cons]
    cases f a with
    | false => simp
    | true => rw [if_pos rfl, BitVec.getLsbD_or, bit, Bool.true_and, Bool.or_assoc]

/-- The bits of a set of areas are its members (R180). -/
theorem getLsbD_areaSet (f : AreaNo → Bool) (a : AreaNo) : (areaSet f).getLsbD a.val = f a := by
  unfold areaSet
  have empty : (0 : BitVec 32).getLsbD a.val = false := by simp
  rw [getLsbD_foldl_areas f _ _ _ a.isLt, empty, Bool.false_or, Bool.eq_iff_iff]
  simp only [List.any_eq_true, Bool.and_eq_true, beq_iff_eq]
  constructor
  · rintro ⟨b, -, hb, e⟩
    exact Fin.ext e ▸ hb
  · intro h
    exact ⟨a, mem_allAreas a, h, rfl⟩

theorem eq_areaSet {w : BitVec 32} {f : AreaNo → Bool} (h : ∀ a : AreaNo, w.getLsbD a.val = f a) : areaSet f = w :=
  BitVec.eq_of_getLsbD_eq fun i hi => (getLsbD_areaSet f ⟨i, hi⟩).trans (h ⟨i, hi⟩).symm

/-! ### Fields that may be absent -/

theorem State.present_left (d : Option Deadline) (s : State) :
    present 4 (fun d => be32 (s.remaining d)) d = s.left d := by cases d <;> rfl

/-! ### The bytes -/

theorem State.tripBytes_eq (s : State) (r : TripCode) : s.tripBytes r =
    flagByte r.configured :: be16 r.start.val ++ be32 r.areas.toNat ++ be16 r.holdTime
      ++ (match r.state with
        | .idle => List.replicate 14 0
        | .running e d => 1 :: 1 :: be16 e.val ++ s.left d ++ s.left none
        | .holding d => 2 :: [0, 0, 0] ++ s.left none ++ s.left d)
      ++ (match r.takenAt with | some x => 1 :: be32 x | none => List.replicate 5 0)
      ++ be16 r.suppressed ++ [flagByte r.faulted] := by
  have taken : present 4 be32 r.takenAt = match r.takenAt with | some x => 1 :: be32 x | none => List.replicate 5 0 := by
    cases r.takenAt <;> rfl
  unfold State.tripBytes
  dsimp only
  rw [taken, State.present_left, State.present_left]
  cases hs : r.state with
  | idle => rfl
  | running e d => rfl
  | holding d => rfl

theorem taken_congr {x y : List Byte} (h : x = y) : taken s x = taken s y := by rw [h]

theorem State.runningCode_eq {running : Option TripNo} (h : ∀ c, (s.code c).state.isRunning ↔ running = some c) :
    s.runningCode = running := by
  cases running with
  | none => exact State.runningCode_eq_none.mpr fun c => by simpa using mt (h c).mp nofun
  | some k =>
    unfold State.runningCode
    cases hr : allCodes.find? fun c => (s.code c).state.isRunning with
    | none => exact absurd (List.find?_eq_none.mp hr k (List.mem_finRange k)) (by simp [(h k).mpr rfl])
    | some c => exact ((h c).mp (by simpa using List.find?_some hr)).symm

theorem parseTripQuery_unit : parseTripQuery [0] = some none := rfl

theorem parseConsoleOrRoom_room : parseConsoleOrRoom [0xFF] = some none := rfl

/-- Settles O28, query by query: the field lists of the answers are those of the rules. -/
theorem blockQueriesReportState : Obligations.BlockQueriesReportState := by
  refine ⟨?_, ?_, ?_, ?_, ?_, ?_, ?_, ?_⟩
  · intro tag first count s u h h' ha q ht
    exact query_done ht (parseMeters_bytes ⟨first, by omega⟩ h h' ha) rfl
  · intro tag k s u ht r
    refine query_done ht (parseTripQuery_byte k) ?_
    exact taken_congr (u.tripBytes_eq r)
  · intro tag running s u ht hr code
    refine query_done ht parseTripQuery_unit ?_
    refine taken_congr ?_
    unfold State.tripUnitBytes
    have codes (x : Option TripNo) : orNone tripCodeOf x = code x := by cases x <;> rfl
    rw [State.runningCode_eq hr, codes, codes, codes]
    cases u.trip.qualifier <;> rfl
  · intro tag c routed s u ht hr r
    refine query_done ht (parseConsoleOrRoom_byte c) ?_
    refine taken_congr ?_
    rw [eq_areaSet hr, State.present_left]
    cases hs : (u.console c).seat <;> cases hf : (u.console c).config.fallback <;> rfl
  · intro tag uncovered s u ht hr
    refine query_done ht parseConsoleOrRoom_room ?_
    refine taken_congr ?_
    unfold State.uncovered
    rw [eq_areaSet hr]
    cases u.room.horn <;> rfl
  · intro tag n s u h h' ht
    refine ⟨fun hn => ?_, fun o ho => ?_⟩
    · show hostRequest 0x2B tag _ parseOperatorNumber .both _ s = _
      rw [hostRequest_read ht (parseOperatorNumber_bytes h h') (refusal_both _), hn]
      rfl
    · refine query_done ht (parseOperatorNumber_bytes h h') ?_
      rw [ho]
      refine taken_congr ?_
      unfold Operator.bytes
      rw [State.operator?_number ho]
      cases o.seat <;> rfl
  · intro tag s u ht
    refine query_done ht (parseAreaOrAll_selector none) ?_
    refine taken_congr ?_
    unfold Mill.bytes Mill.isOpen
    cases u.mill.incoming <;> rfl
  · intro tag a s u ht r at_ saved bit
    refine query_done ht (parseAreaOrAll_selector (some a)) ?_
    refine taken_congr ?_
    have abort : present 7 Abort.bytes r.abort = (match r.abort with
        | some x => [1, (match x.reason with | .stepTimeout => 1 | .hostAbort => 2), byte x.ordinal] ++ be32 x.time
            ++ [flagByte x.further]
        | none => List.replicate 8 0) := by
      cases r.abort with
      | none => rfl
      | some x =>
        obtain ⟨reason, ordinal, time, further⟩ := x
        cases reason <;> rfl
    have step (d : Option Deadline) : present 4 be32 (d.map u.remaining) = u.left d := by cases d <;> rfl
    have kept (x : Option Nat) : present 4 be32 x = saved x := by cases x <;> rfl
    unfold State.handoverBytes
    dsimp only
    rw [abort]
    cases hh : (u.area a).handover with
    | running p x y =>
      simp only [State.stepLeft, State.holdLeft, step]
      rfl
    | suspended p x y z =>
      simp only [State.stepLeft, State.holdLeft, kept]
      rfl
    | steady | halted | done => rfl

end Sys2Proof.Machine

/-!
START names the first offender, or enters RUN (O58).
-/

namespace Sys2Proof.Machine

variable {s u : State}

/-! ### The step list that reaches a LAST entry (R176, check 1) -/

/-- The step after a step. -/
def State.nextStep (s : State) (i : StepNo) : StepNo := (s.stepEntry i).next

theorem State.last_of_reachesLast {n : Nat} {seen : List StepNo} {i : StepNo} (h : s.reachesLast n seen i) :
    ∃ m < n, (s.stepEntry (s.nextStep^[m] i)).last := by
  induction n generalizing seen i with
  | zero => exact absurd h (by simp [State.reachesLast])
  | succ n ih =>
    simp only [State.reachesLast, Bool.and_eq_true, Bool.or_eq_true] at h
    obtain ⟨-, last | later⟩ := h
    · exact ⟨0, n.succ_pos, last⟩
    · obtain ⟨m, hm, last⟩ := ih later
      exact ⟨m + 1, by omega, last⟩

/-- Before the first LAST entry no step comes twice: from the second time on the list would go round without it. -/
theorem State.reachesLast_of_first {n m : Nat} {seen : List StepNo} {i : StepNo} (hm : m < n)
    (last : (s.stepEntry (s.nextStep^[m] i)).last) (first : ∀ j < m, ¬ (s.stepEntry (s.nextStep^[j] i)).last)
    (fresh : ∀ j ≤ m, s.nextStep^[j] i ∉ seen) : s.reachesLast n seen i := by
  induction n generalizing m seen i with
  | zero => omega
  | succ n ih =>
    have unseen : i ∉ seen := fresh 0 m.zero_le
    cases m with
    | zero =>
      have here : (s.stepEntry i).last := last
      simp [State.reachesLast, unseen, here]
    | succ m =>
      have later : s.reachesLast n (i :: seen) (s.nextStep i) := by
        refine ih (m := m) (by omega) last (fun j hj => first (j + 1) (by omega)) fun j hj => ?_
        have away : s.nextStep^[j + 1] i ≠ i := by
          intro e
          apply first (m - j) (by omega)
          have again : s.nextStep^[m + 1] i = s.nextStep^[m - j] i := by
            rw [show m + 1 = (m - j) + (j + 1) by omega, Function.iterate_add_apply, e]
          exact again ▸ last
        simpa [List.mem_cons] using ⟨away, fresh (j + 1) (by omega)⟩
      rw [State.nextStep] at later
      simp [State.reachesLast, unseen, later]

theorem State.reachesLast_iff (n : Nat) (i : StepNo) :
    s.reachesLast n [] i ↔ ∃ m < n, (s.stepEntry (s.nextStep^[m] i)).last := by
  refine ⟨State.last_of_reachesLast, fun h => ?_⟩
  classical
  obtain ⟨hm, last⟩ := Nat.find_spec h
  refine State.reachesLast_of_first hm last (fun j hj hl => Nat.find_min h hj ⟨by omega, hl⟩) fun j _ => List.not_mem_nil

/-! ### The first that fails -/

theorem find?_finRange {n : Nat} {p : Fin n → Bool} {a : Fin n} (h : p a) (first : ∀ b < a, ¬ p b) :
    (List.finRange n).find? p = some a := by
  refine List.find?_eq_some_iff_getElem.mpr ⟨h, a.val, by simp, by simp, fun j hj => ?_⟩
  simpa using first ⟨j, by omega⟩ hj

theorem State.badOrder_eq (s : State) : s.badOrder = ((List.finRange 64).find? fun i =>
    s.orders[i].defined && !(s.area s.orders[i].area).config.configured).map fun i => s.orders[i].area := by
  have list : s.orders.toList = (List.finRange 64).map fun i => s.orders[i] := by
    refine List.ext_getElem (by simp) fun i h h' => by simp
  unfold State.badOrder State.orderAreas
  rw [list, List.find?_map, List.find?_filter, List.find?_map, Option.map_map]
  have same (i : OrderNo) : decide (s.orders[i].defined = true ∧ (!(s.area s.orders[i].area).config.configured) = true)
      = (s.orders[i].defined && !(s.area s.orders[i].area).config.configured) := by simp
  exact congrArg (Option.map _) (congrArg (List.find? · _) (funext same))

/-- Settles O58: the three checks run in their order, and each names its first offender. -/
theorem startValidatesAndEntersRun : Obligations.StartValidatesAndEntersRun := by
  intro tag s u ht hm next areaOk consoleOk orderOk refused
  have run : exec (.start tag []) s = .next (u.answer 0x03 tag (actStart u ())) :=
    hostRequest_read ht rfl (by rw [hm]; rfl)
  have area (a : AreaNo) : ((u.area a).config.configured && !u.areaValid a) = true ↔ ¬ areaOk a := by
    have reaches : u.reachesLast Config.stepListSize [] (u.area a).config.start ↔
        ∃ m < 32, (u.stepEntry (next^[m] (u.area a).config.start)).last := State.reachesLast_iff _ _
    have valid : u.areaValid a ↔ (∃ m < 32, (u.stepEntry (next^[m] (u.area a).config.start)).last) ∧
        (u.area a).config.floodOff + 256 ≤ (u.area a).config.floodOn := by
      rw [← reaches]
      simp [State.areaValid]
    rw [Bool.and_eq_true, Bool.not_eq_true', ← Bool.not_eq_true, valid, Classical.not_imp]
  have console (c : ConsoleNo) : ((u.console c).config.configured && !u.consoleValid c) = true ↔ ¬ consoleOk c := by
    have valid : u.consoleValid c ↔ ∀ d, (u.console c).config.fallback = some d → d ≠ c ∧ (u.console d).config.configured := by
      unfold State.consoleValid
      cases (u.console c).config.fallback <;> simp
    rw [Bool.and_eq_true, Bool.not_eq_true', ← Bool.not_eq_true, valid, Classical.not_imp]
  have order (i : OrderNo) : (u.orders[i].defined && !(u.area u.orders[i].area).config.configured) = true ↔ ¬ orderOk i := by
    rw [Bool.and_eq_true, Bool.not_eq_true', ← Bool.not_eq_true, Classical.not_imp]
  have noArea (h : ∀ a, areaOk a) : u.badArea = none :=
    List.find?_eq_none.mpr fun a _ => mt (area a).mp (not_not.mpr (h a))
  have noConsole (h : ∀ c, consoleOk c) : u.badConsole = none :=
    List.find?_eq_none.mpr fun c _ => mt (console c).mp (not_not.mpr (h c))
  have offends {data : List Byte} (h : u.offender = some data) : refused data := by
    show exec _ s = _
    rw [run, actStart, h]
    rfl
  refine ⟨fun a bad first => offends ?_, fun areas c bad first => offends ?_, fun areas consoles i bad first => offends ?_,
    fun areas consoles orders => ?_⟩
  · have found : u.badArea = some a :=
      find?_finRange ((area a).mpr bad) fun b hb => mt (area b).mp (not_not.mpr (first b hb))
    rw [State.offender, found]
  · have found : u.badConsole = some c :=
      find?_finRange ((console c).mpr bad) fun b hb => mt (console b).mp (not_not.mpr (first b hb))
    rw [State.offender, noArea areas, found]
  · have found := find?_finRange ((order i).mpr bad) fun j hj => mt (order j).mp (not_not.mpr (first j hj))
    rw [State.offender, noArea areas, noConsole consoles, State.badOrder_eq, found]
    rfl
  · have none : u.offender = none := by
      rw [State.offender, noArea areas, noConsole consoles, State.badOrder_eq,
        List.find?_eq_none.mpr fun i _ => mt (order i).mp (not_not.mpr (orders i))]
      rfl
    rw [run, actStart, none]
    rfl

end Sys2Proof.Machine

/-!
The loads of operators (O29) and of single records (O30): their payloads read back, and what each leaves.
-/

namespace Sys2Proof.Machine

variable {s u : State}

/-! ### LOAD_OPERATOR -/

theorem parsePairs_bytes (qs : List Pair) :
    parsePairs (qs.flatMap fun q => [byte q.value.toNat, byte q.mask.toNat]) = some qs := by
  induction qs with
  | nil => rfl
  | cons q qs ih => simp [parsePairs, ih]

theorem parseOperator_store (o : Operator) (h : 1 ≤ o.number) (h' : o.number ≤ 9999) (q : 1 ≤ o.quals.length)
    (q' : o.quals.length ≤ 4) (unseated : o.seat = none) :
    parseOperator (be16 o.number ++ [byte o.crew.code, byte o.role.code, byte o.quals.length]
      ++ o.quals.flatMap (fun q => [byte q.value.toNat, byte q.mask.toNat]) ++ [0]) = some (.store o) := by
  obtain ⟨number, crew, role, quals, seat⟩ := o
  subst unseated
  have pairs : (quals.flatMap fun q => [byte q.value.toNat, byte q.mask.toNat]).length = 2 * quals.length := by
    simp [List.length_flatMap, Nat.mul_comm]
  dsimp only at h h' q q' ⊢
  have long : 2 * quals.length + 5 < 14 := by omega
  have count : (byte quals.length).toNat = quals.length := byte_toNat (by omega)
  have flag : flagOf 0#8 = some false := rfl
  simp [parseOperator, be16, pairs, operatorOf_be16 h h', parsePairs_bytes, count, q, q', flag, long,
    List.getLastD_eq_getLast?]

theorem parseOperator_remove {n : Nat} (h : 1 ≤ n) (h' : n ≤ 9999) {rest : List Byte} (l : 5 ≤ rest.length)
    (l' : rest.length ≤ 11) : parseOperator (be16 n ++ rest ++ [1]) = some (.remove n) := by
  obtain ⟨k, r, m, rest, rfl⟩ : ∃ k r m tail, rest = k :: r :: m :: tail := by
    match rest with
    | k :: r :: m :: tail => exact ⟨k, r, m, tail, rfl⟩
    | [] | [_] | [_, _] => simp at l
  have long : 8 ≤ rest.length + 6 ∧ rest.length + 6 ≤ 14 := by simp only [List.length_cons] at l l'; omega
  have flag : flagOf 1#8 = some true := rfl
  simp [parseOperator, be16, operatorOf_be16 h h', flag, long, List.getLastD_eq_getLast?]

theorem State.isSeated_iff (n : Nat) : s.isSeated n ↔ ∃ r ∈ s.operator? n, r.seat.isSome := by
  simp [State.isSeated, Option.any_eq_true]

/-- Settles O29: the record is read whole, or the flag that removes it, and the checks stand in the rules' order. -/
theorem operatorRecordsComeAndGo : Obligations.OperatorRecordsComeAndGo := by
  refine ⟨?_, ?_⟩
  · intro tag o s u h h' q q' unseated p ht
    have read : exec (.loadOperator tag p) s = .next (u.answer 0x13 tag (actLoadOperator u (.store o))) :=
      hostRequest_read ht (parseOperator_store o h h' q q' unseated) (refusal_both _)
    rw [read, actLoadOperator]
    simp only [State.isSeated_iff]
    by_cases seated : u.mode = .run ∧ ∃ r ∈ u.operator? o.number, r.seat.isSome
    · rw [if_pos seated, if_pos seated]; rfl
    rw [if_neg seated, if_neg seated]
    unfold State.storeOperator
    cases known : u.operator? o.number with
    | some r => simp [State.modOperator]
    | none => by_cases full : 128 ≤ u.roster.length <;> simp [full, Config.rosterSize]
  · intro tag n rest s u h h' l l' p ht
    have read : exec (.loadOperatorRemove tag p) s = .next (u.answer 0x13 tag (actLoadOperator u (.remove n))) :=
      hostRequest_read ht (parseOperator_remove h h' l l') (refusal_both _)
    rw [read, actLoadOperator]
    simp only [State.isSeated_iff, Option.isNone_iff_eq_none]
    by_cases unknown : u.operator? n = none
    · rw [if_pos unknown, if_pos unknown]; rfl
    rw [if_neg unknown, if_neg unknown]
    by_cases seated : u.mode = .run ∧ ∃ r ∈ u.operator? n, r.seat.isSome
    · rw [if_pos seated, if_pos seated]; rfl
    rw [if_neg seated, if_neg seated, State.answer_taken]
    have kept (r : Operator) : (r.number != n) = decide (r.number ≠ n) := by simp [bne, beq_eq_decide]
    simp only [kept]

/-! ### The loads of one record -/

theorem parseRole_bytes (r : Role) (row : Vector Bool 9) :
    parseRole (byte r.code :: row.toList.map flagByte) = some (r, row) := by
  obtain ⟨⟨values⟩, nine⟩ := row
  match values, nine with
  | [_, _, _, _, _, _, _, _, _], _ => simp [parseRole]

theorem parseConsole_bytes (c : ConsoleNo) (x : ConsoleConfig) :
    parseConsole [byte c.val, flagByte x.configured, byte x.routing.value.toNat, byte x.routing.mask.toNat,
      match x.fallback with | some d => byte d.val | none => 0xFF] = some (c, x) := by
  obtain ⟨configured, routing, fallback⟩ := x
  cases fallback <;> simp [parseConsole]

theorem parseArea_bytes (a : AreaNo) (x : AreaConfig) (decay : 1 ≤ x.decay) (decay' : x.decay ≤ 64) (on : 512 ≤ x.floodOn)
    (on' : x.floodOn ≤ 65535) (off : x.floodOff + 256 ≤ x.floodOn) :
    parseArea ([byte a.val, flagByte x.configured, byte x.start.val, byte x.posting.code, byte x.decay]
      ++ be16 x.floodOn ++ be16 x.floodOff) = some (a, x) := by
  obtain ⟨configured, start, posting, rate, floodOn, floodOff⟩ := x
  dsimp only at decay decay' on on' off ⊢
  have rate' : (byte rate).toNat = rate := byte_toNat (by omega)
  have apart : floodOff ≤ floodOn - 256 := by omega
  have first : BitVec.toFin (byte start.val) = start := by simp [byte]
  have zero : byte 0 = 0#8 := rfl
  have one : byte 1 = 1#8 := rfl
  cases posting <;>
    simp [parseArea, be16, PostingMode.code, rate', decay, decay', num16_be16 (show floodOn < 65536 by omega),
      num16_be16 (show floodOff < 65536 by omega), on, apart, first, zero, one]

theorem parseOrder_bytes (i : OrderNo) (x : Order) (ref : x.ref < 4294967296) :
    parseOrder ([byte i.val, flagByte x.defined, byte x.area.val] ++ be32 x.ref
      ++ [x.rotationValue, x.rotationMask, flagByte x.enabled]) = some (i, x) := by
  obtain ⟨defined, area, r, v, m, enabled⟩ := x
  simp [parseOrder, be32, num32_be32 ref, byte_toNat (show i.val < 256 by omega), below_val]

theorem State.otherOrders_eq (i : OrderNo) (a : AreaNo) (s : State) : s.otherOrders i a =
    (List.finRange 64).countP fun j => j ≠ i ∧ s.orders[j].defined ∧ s.orders[j].area = a := by
  have list : (List.finRange 64).zip s.orders.toList = (List.finRange 64).map fun j => (j, s.orders[j]) :=
    List.ext_getElem (by simp) fun j h h' => by simp
  rw [State.otherOrders, list, List.countP_map]
  refine List.countP_congr fun j _ => ?_
  simp [and_assoc]

/-- Settles O30: each load's payload is read whole, and what is read is stored. -/
theorem singleLoadsStoreRecord : Obligations.SingleLoadsStoreRecord := by
  have config {m : Mode} (h : m = .config) : TakenIn.config.refusal m = none := by rw [h]; rfl
  refine ⟨?_, ?_, ?_, ?_⟩
  · intro tag r row s u p ht hm
    exact hostRequest_read ht (parseRole_bytes r row) (config hm)
  · intro tag c x s u p ht hm
    exact hostRequest_read ht (parseConsole_bytes c x) (config hm)
  · intro tag a x s u decay decay' on on' off p ht hm
    exact hostRequest_read ht (parseArea_bytes a x decay decay' on on' off) (config hm)
  · intro tag i x s u ref p ht hm
    have read : exec (.loadOrder tag p) s = .next (u.answer 0x18 tag (actLoadOrder u (i, x))) :=
      hostRequest_read ht (parseOrder_bytes i x ref) (config hm)
    rw [read, actLoadOrder]
    simp only [State.otherOrders_eq, Config.ordersPerArea]
    by_cases full : x.defined ∧ 8 ≤ (List.finRange 64).countP fun j =>
        j ≠ i ∧ u.orders[j].defined ∧ u.orders[j].area = x.area
    · rw [if_pos full, if_pos full]; rfl
    · rw [if_neg full, if_neg full]; rfl

end Sys2Proof.Machine

/-!
What every request is to the handler: a request of the host or of a console (R164, R179), with an owner that leaves the link
and, but for SIGN_OFF, the seats of the consoles that have one.
-/

namespace Sys2Proof.Machine

variable {s t u v : State} {c : ConsoleNo} {kind tag : Byte} {p : List Byte}

/-! ### The command that a frame spells -/

theorem Instr.frame?_ofFrame (kind tag : Byte) (p : List Byte) : (Instr.ofFrame kind tag p).frame? = some (kind, tag, p) := by
  have known {n : Nat} (h : kind.toNat = n) : some (BitVec.ofNat 8 n, tag, p) = some (kind, tag, p) := by
    rw [← h, BitVec.ofNat_toNat, BitVec.setWidth_eq]
  unfold Instr.ofFrame
  split
  case h_11 h => split <;> exact known h
  case h_55 => rfl
  all_goals exact known ‹kind.toNat = _›

/-- Only a kind that names no request spells BAD_KIND. -/
theorem Instr.ofFrame_badKind {k t : Byte} {q : List Byte} (h : Instr.ofFrame kind tag p = .badKind k t q) :
    isRequestKind kind = false := by
  unfold Instr.ofFrame at h
  split at h
  case h_11 => split at h <;> cases h
  case h_55 =>
    rw [← Bool.not_eq_true]
    intro hk
    simp only [isRequestKind, Bool.or_eq_true, Bool.and_eq_true, decide_eq_true_eq] at hk
    simp only [imp_false] at *
    omega
  all_goals cases h

/-! ### What an owner leaves -/

/-- The link is as it was. -/
def State.KeepsLink (s t : State) : Prop := t.link = s.link

/-- The link, and the seat of every console that has one. -/
structure State.KeepsSeats (s t : State) : Prop where
  link : t.link = s.link
  seat : ∀ c, (s.console c).seat ≠ .vacant → (t.console c).seat = (s.console c).seat

theorem State.Reports.keepsSeats (h : s.Reports t) : s.KeepsSeats t := ⟨h.link, fun c _ => (h.seats c).2⟩

theorem Answer.Gives.keepsSeats {r : Answer} (h : r.Gives s.Shows) : r.Gives s.KeepsSeats := by
  cases r with
  | error => trivial
  | ok v => exact (State.Shows.reports h).keepsSeats

theorem Answer.Gives.keepsLink {r : Answer} (h : r.Gives s.KeepsSeats) : r.Gives s.KeepsLink := by
  cases r with
  | error => trivial
  | ok v => exact State.KeepsSeats.link h

theorem State.signOn_link (c : ConsoleNo) (n : Nat) (s : State) : (s.signOn c n).link = s.link :=
  (State.settles_seatsChanged _ _).link

/-- A SIGN_ON takes a seat at a VACANT console alone. -/
theorem actSignOn_keeps (x : ConsoleNo × Nat) (s : State) : (actSignOn s x).Gives s.KeepsSeats := by
  unfold actSignOn
  split
  · trivial
  · split
    · trivial
    · rename_i vacant
      split
      · trivial
      · split
        · trivial
        · split
          · trivial
          · refine ⟨s.signOn_link x.1 x.2, fun c seated => ?_⟩
            have other : c ≠ x.1 := fun e => vacant (e ▸ seated)
            refine ((State.settles_seatsChanged _ _).seat c).trans ?_
            rw [State.modOperator_console, State.console_seat, if_neg other]

theorem State.signedOff_link (c : ConsoleNo) (s : State) : (s.signedOff c).link = s.link := by
  unfold State.signedOff State.unseat
  split <;> rfl

theorem actSignOff_keeps (x : Option ConsoleNo × ConsoleNo) (s : State) : (actSignOff s x).Gives s.KeepsLink := by
  unfold actSignOff
  split
  · trivial
  · split
    · trivial
    · exact (s.signOff_settles x.2).link.trans (s.signedOff_link x.2)

theorem State.activity_keepsLink (c : ConsoleNo) (s : State) : s.KeepsLink (s.activity c) := by
  cases h : (s.console c).seat with
  | vacant => rw [State.activity_vacant h]; rfl
  | seated n d => rw [State.activity_seated h]; rfl
  | absent n => 
    rw [State.activity_absent h]
    exact (s.revive_settles c n).link.trans ((s.seat c n).notify_frames (.consolePresent c)).link

theorem State.noteActivity_keepsLink (p : List Byte) (s : State) : s.KeepsLink (s.noteActivity p) := by
  unfold State.noteActivity
  split
  · exact s.activity_keepsLink _
  · rfl

theorem actLoadOperator_keeps (x : OperatorLoad) (s : State) : (actLoadOperator s x).Gives s.KeepsLink := by
  unfold actLoadOperator
  split
  · split
    · trivial
    · split
      · trivial
      · unfold State.storeOperator
        split <;> rfl
  · split
    · trivial
    · split <;> trivial

theorem State.storeSetting_keepsLink (x : Setting) (n : Nat) (s : State) : s.KeepsLink (s.storeSetting x n) := by
  unfold State.storeSetting
  split <;> rfl

theorem actSetPoint_keeps (x : PointNo × AreaNo × Priority) (s : State) : (actSetPoint s x).Gives s.KeepsLink := by
  have calm := actSetPoint_calm x s
  cases e : actSetPoint s x with
  | error => trivial
  | ok v => rw [e] at calm; exact State.Calm.link calm

/-! ### The requests -/

/-- The kinds whose payload may be empty (R179). -/
def bareKinds : List Byte := [0x01, 0x03, 0x04, 0x60, 0x62]

/-- A command is the handler's request of a kind: one of a console, one of the host, or one of no request's kind (R164, R166). -/
inductive Request (kind tag : Byte) (p : List Byte) (run : State → Result) : Prop
  | console {α : Type} {parse : List Byte → Option α} {act : State → α → Answer}
      (handled : ∀ s, run s = consoleRequest kind tag p parse act s) (range : 0x40 ≤ kind.toNat ∧ kind.toNat ≤ 0x52)
      (empty : parse [] = none) (link : ∀ u x, (act u x).Gives u.KeepsLink)
      (seats : kind ≠ 0x41 → ∀ u x, (act u x).Gives u.KeepsSeats)
  | host {α : Type} {parse : List Byte → Option α} {m : TakenIn} {act : State → α → Answer}
      (handled : ∀ s, run s = hostRequest kind tag p parse m act s) (range : ¬ (0x40 ≤ kind.toNat ∧ kind.toNat ≤ 0x52))
      (empty : kind ∉ bareKinds → parse [] = none) (link : ∀ u x, (act u x).Gives u.KeepsLink)
  | unknown (handled : ∀ s, run s = execBadKind kind tag p s) (kind_unknown : isRequestKind kind = false)

/-- A console's request whose owner leaves the seats. -/
theorem Request.ofShows {α : Type} {parse : List Byte → Option α} {act : State → α → Answer} {run : State → Result}
    (handled : ∀ s, run s = consoleRequest kind tag p parse act s) (range : 0x40 ≤ kind.toNat ∧ kind.toNat ≤ 0x52)
    (empty : parse [] = none) (h : ∀ u x, (act u x).Gives u.Shows) : Request kind tag p run :=
  .console handled range empty (fun u x => (h u x).keepsSeats.keepsLink) fun _ u x => (h u x).keepsSeats

/-- A host's request whose owner leaves the link as it changes no more than the outputs' causes. -/
theorem Request.ofHost {α : Type} {parse : List Byte → Option α} {m : TakenIn} {act : State → α → Answer} {run : State → Result}
    (handled : ∀ s, run s = hostRequest kind tag p parse m act s) (range : ¬ (0x40 ≤ kind.toNat ∧ kind.toNat ≤ 0x52))
    (empty : kind ∉ bareKinds → parse [] = none) (h : ∀ u x, (act u x).Gives u.Shows) : Request kind tag p run :=
  .host handled range empty fun u x => (h u x).keepsSeats.keepsLink

/-- What each request is to the handler. -/
theorem exec_request {i : Instr} (h : i.frame? = some (kind, tag, p))
    (known : ∀ {k t q}, i = .badKind k t q → isRequestKind kind = false) : Request kind tag p (exec i) := by
  cases i with
  | badKind k t q => cases h; exact .unknown (fun _ => rfl) (known rfl)
  | identify => cases h; exact .host (fun _ => rfl) (by decide) (fun k => absurd (by decide) k) fun _ _ => rfl
  | queryPoint | listStanding | queryMeters | listShelves | readSheet =>
    cases h; exact .host (fun _ => rfl) (by decide) (fun _ => rfl) fun _ _ => rfl
  | queryOperator =>
    cases h; exact .host (fun _ => rfl) (by decide) (fun _ => rfl) fun u n => by cases u.operator? n <;> trivial
  | queryConsole | queryTrip | queryHandover =>
    cases h; exact .host (fun _ => rfl) (by decide) (fun _ => rfl) fun _ x => by cases x <;> rfl
  | setClock | setShift | fetchNotices | loadArea | loadConsole | loadRole | loadSteps =>
    cases h; exact .host (fun _ => rfl) (by decide) (fun _ => rfl) fun _ _ => rfl
  | restart => cases h; exact .host (fun _ => rfl) (by decide) (fun k => absurd (by decide) k) fun _ _ => rfl
  | start =>
    cases h
    refine .host (fun _ => rfl) (by decide) (fun k => absurd (by decide) k) fun u _ => ?_
    unfold actStart
    split <;> trivial
  | setTiming => cases h; exact .host (fun _ => rfl) (by decide) (fun _ => rfl) fun u x => u.storeSetting_keepsLink _ _
  | loadPoints =>
    cases h; exact .host (fun _ => rfl) (by decide) (fun _ => rfl) fun u x => (u.storePoints_calm x.1 x.2).link
  | setPoint => cases h; exact .host (fun _ => rfl) (by decide) (fun _ => rfl) fun u x => actSetPoint_keeps x u
  | loadOperator | loadOperatorRemove =>
    cases h; exact .host (fun _ => rfl) (by decide) (fun _ => rfl) fun u x => actLoadOperator_keeps x u
  | loadTripCode => cases h; exact .ofHost (fun _ => rfl) (by decide) (fun _ => rfl) fun u x => actLoadTripCode_shows x u
  | loadTripEntries => cases h; exact .ofHost (fun _ => rfl) (by decide) (fun _ => rfl) fun u x => actLoadTripEntries_shows x u
  | loadOrder => cases h; exact .ofHost (fun _ => rfl) (by decide) (fun _ => rfl) fun u x => actLoadOrder_shows x u
  | raise => cases h; exact .ofHost (fun _ => rfl) (by decide) (fun _ => rfl) fun u x => actRaise_shows x u
  | clear => cases h; exact .ofHost (fun _ => rfl) (by decide) (fun _ => rfl) fun u x => actClear_shows x u
  | clearTripFault =>
    cases h
    refine .ofHost (fun _ => rfl) (by decide) (fun k => absurd (by decide) k) fun u x => ?_
    split
    · exact u.modTrip_shows _
    · trivial
  | beginHandover => cases h; exact .ofHost (fun _ => rfl) (by decide) (fun _ => rfl) fun u x => actBeginHandover_shows x u
  | cancelHandover =>
    cases h; exact .ofHost (fun _ => rfl) (by decide) (fun k => absurd (by decide) k) fun u x => actCancelHandover_shows x u
  | suspendArea => cases h; exact .ofHost (fun _ => rfl) (by decide) (fun _ => rfl) fun u x => actSuspendArea_shows x u
  | resumeArea => cases h; exact .ofHost (fun _ => rfl) (by decide) (fun _ => rfl) fun u x => actResumeArea_shows x u
  | abortArea => cases h; exact .ofHost (fun _ => rfl) (by decide) (fun _ => rfl) fun u x => actAbortArea_shows x u
  | clearAbort => cases h; exact .ofHost (fun _ => rfl) (by decide) (fun _ => rfl) fun u x => actClearAbort_shows x u
  | signOn =>
    cases h
    exact .console (fun _ => rfl) (by decide) rfl (fun u x => (actSignOn_keeps x u).keepsLink) fun _ u x => actSignOn_keeps x u
  | signOff =>
    cases h; exact .console (fun _ => rfl) (by decide) rfl (fun u x => actSignOff_keeps x u) fun k => absurd rfl k
  | silence => cases h; exact .ofShows (fun _ => rfl) (by decide) rfl fun u x => actSilence_shows x u
  | ack => cases h; exact .ofShows (fun _ => rfl) (by decide) rfl fun u x => actAck_shows x u
  | ackHead => cases h; exact .ofShows (fun _ => rfl) (by decide) rfl fun u x => actAckHead_shows x u
  | ackArea => cases h; exact .ofShows (fun _ => rfl) (by decide) rfl fun u x => actAckArea_shows x u
  | shelve => cases h; exact .ofShows (fun _ => rfl) (by decide) rfl fun u x => actShelve_shows x u
  | unshelve => cases h; exact .ofShows (fun _ => rfl) (by decide) rfl fun u x => actUnshelve_shows x u
  | takeOut => cases h; exact .ofShows (fun _ => rfl) (by decide) rfl fun u x => actTakeOut_shows x u
  | returnPoint => cases h; exact .ofShows (fun _ => rfl) (by decide) rfl fun u x => actReturn_shows x u
  | releaseTrip => cases h; exact .ofShows (fun _ => rfl) (by decide) rfl fun u x => actReleaseTrip_shows x u
  | lockDraft => cases h; exact .ofShows (fun _ => rfl) (by decide) rfl fun u x => actLockDraft_shows x u
  | unlockDraft => cases h; exact .ofShows (fun _ => rfl) (by decide) rfl fun u x => actUnlockDraft_shows x u
  | addItem => cases h; exact .ofShows (fun _ => rfl) (by decide) rfl fun u x => actAddItem_shows x u
  | removeItem => cases h; exact .ofShows (fun _ => rfl) (by decide) rfl fun u x => actRemoveItem_shows x u
  | post => cases h; exact .ofShows (fun _ => rfl) (by decide) rfl fun u x => actPost_shows x u
  | reviewItem => cases h; exact .ofShows (fun _ => rfl) (by decide) rfl fun u x => actReviewItem_shows x u
  | confirmStep => cases h; exact .ofShows (fun _ => rfl) (by decide) rfl fun u x => actConfirmStep_shows x u
  | restartArea => cases h; exact .ofShows (fun _ => rfl) (by decide) rfl fun u x => actRestartArea_shows x u
  | _ => cases h

/-- The handler's request that a frame spells. -/
theorem ofFrame_request (kind tag : Byte) (p : List Byte) : Request kind tag p (exec (Instr.ofFrame kind tag p)) :=
  exec_request (Instr.frame?_ofFrame kind tag p) Instr.ofFrame_badKind

end Sys2Proof.Machine

/-!
The activity of a console (O20), and the checks that every request meets before its owner (O19).
-/

namespace Sys2Proof.Machine

variable {s t u v : State} {c : ConsoleNo} {kind tag : Byte} {p : List Byte}

/-! ### Activity -/

theorem checkRequest_keeps {P : State → State → Prop} {α : Type} {parsed : Option α} {m : TakenIn} {act : State → α → Answer}
    (h : ∀ u x, (act u x).Gives (P u)) : (checkRequest parsed m act s).Gives (P s) := checkRequest_gives fun x _ _ => h s x

/-- A reply changes no console, and an owner that answers DONE leaves the seats. -/
theorem State.answer_seat {r : Answer} (h : r.Gives s.KeepsSeats) (seated : (s.console c).seat ≠ .vacant) :
    ((s.answer kind tag r).console c).seat = (s.console c).seat := by
  unfold State.answer
  split
  · rfl
  · exact State.KeepsSeats.seat h c seated

/-- Settles O20: the activity is noted before the request's checks, and no owner but that of SIGN_OFF takes a seat away. -/
theorem activityKeepsConsoleSeated : Obligations.ActivityKeepsConsoleSeated := by
  refine ⟨?_, ?_⟩
  · intro kind tag c p n d s u t low high other seated ht e
    have taken : (u.console c).seat = .seated n d := by rw [State.take_eq ht]; exact seated
    have noted : u.noteActivity (byte c.val :: p) = u.seat c n := by
      rw [State.noteActivity_at, State.activity_seated taken]
    have restarted : ((u.seat c n).console c).seat = .seated n s.presenceDeadline := by
      rw [State.console_seat, if_pos rfl, State.take_eq ht]
      rfl
    cases ofFrame_request kind tag (byte c.val :: p) with
    | unknown _ unknown => simp [isRequestKind, low, high] at unknown
    | host _ range => exact absurd ⟨low, high⟩ range
    | console handled _ _ _ seats =>
      rw [handled, consoleRequest, ht] at e
      cases e
      rw [noted, State.answer_seat (checkRequest_keeps (P := State.KeepsSeats) (seats other)) (by rw [restarted]; nofun)]
      exact restarted
  · intro c n s absent
    have settles := s.revive_settles c n
    rw [State.activity_absent absent]
    refine ⟨settles, ?_⟩
    rw [settles.seat c, (State.notify_frames _ _).console c, State.console_seat, if_pos rfl]

/-! ### The checks of R164 -/

/-- The part once the activity of a request's console has been noted (R164). -/
def State.noted (kind : Byte) (p : List Byte) (s : State) : State :=
  if 0x40 ≤ kind.toNat ∧ kind.toNat ≤ 0x52 then s.noteActivity p else s

theorem consoleOf_eq_some (b : Byte) (c : ConsoleNo) : consoleOf b = some c ↔ b = byte c.val := by
  refine ⟨fun h => ?_, fun h => h ▸ consoleOf_byte c⟩
  have bound : b.toNat = c.val := by
    unfold consoleOf below at h
    split at h
    · cases h; rfl
    · cases h
  rw [← bound, byte, BitVec.ofNat_toNat, BitVec.setWidth_eq]

/-- The console that a payload names is the one whose code stands first in it. -/
theorem find?_named (p : List Byte) :
    (allConsoles.find? fun c => p.head? = some (byte c.val)) = p.head?.bind consoleOf := by
  cases h : p.head? with
  | none => simp
  | some b =>
    rw [Option.bind_some]
    have named (c : ConsoleNo) : some b = some (byte c.val) ↔ consoleOf b = some c := by
      rw [Option.some.injEq, consoleOf_eq_some]
    simp only [named]
    cases hb : consoleOf b with
    | none => simp
    | some c =>
      exact find?_finRange (by simp) fun d hd => by simpa using Fin.ne_of_gt hd

theorem State.noted_eq (kind : Byte) (p : List Byte) (s : State) : s.noted kind p =
    match (if 0x40 ≤ kind.toNat ∧ kind.toNat ≤ 0x52 then allConsoles.find? fun c => p.head? = some (byte c.val) else none) with
    | some c => s.activity c
    | none => s := by
  rw [find?_named, State.noted, State.noteActivity]
  split <;> rfl

/-- The outcome is one reply of the kind and tag, and one that is not DONE leaves the state `v`. -/
def State.Replies (kind tag : Byte) (u v : State) (r : Result) : Prop :=
  ∃ (x : Byte) (data : List Byte) (t : State), r = .next (t.send { kind := kind ||| 0x80, tag, payload := x :: data })
    ∧ t.link.sent = u.link.sent ∧ (x ≠ 0 → t = v)

theorem State.answer_replies {r : Answer} (h : r.Gives v.KeepsLink) (hv : u.KeepsLink v) :
    State.Replies kind tag u v (.next (v.answer kind tag r)) := by
  cases r with
  | error e => exact ⟨byte e.1.code, e.2, v, rfl, congrArg Link.sent hv, fun _ => rfl⟩
  | ok w => exact ⟨byte Status.done.code, w.2, w.1, rfl, congrArg Link.sent (Eq.trans h hv), fun x => absurd rfl x⟩

theorem Request.replies {run : State → Result} (h : Request kind tag p run) (ht : s.take { kind, tag, payload := p } = some u) :
    State.Replies kind tag u (u.noted kind p) (run s) := by
  cases h with
  | unknown handled unknown =>
    have away : ¬ (0x40 ≤ kind.toNat ∧ kind.toNat ≤ 0x52) := fun ⟨low, high⟩ => by simp [isRequestKind, low, high] at unknown
    rw [handled, execBadKind, unknown, ht, State.noted, if_neg away]
    exact ⟨_, [], u, rfl, rfl, fun _ => rfl⟩
  | host handled range _ link =>
    rw [handled, hostRequest, ht, State.noted, if_neg range]
    exact State.answer_replies (checkRequest_keeps (P := State.KeepsLink) link) rfl
  | console handled range _ link _ =>
    rw [handled, consoleRequest, ht, State.noted, if_pos range]
    exact State.answer_replies (checkRequest_keeps (P := State.KeepsLink) link) (u.noteActivity_keepsLink p)

/-- An empty payload names no console, and is not read where its kind requires fields. -/
theorem Request.empty_refused {run : State → Result} (h : Request kind tag [] run) (known : isRequestKind kind)
    (bare : kind ∉ bareKinds) (ht : s.take { kind, tag, payload := [] } = some u) :
    run s = .next (u.send (replyFrame kind tag .badField [])) := by
  cases h with
  | unknown _ unknown => rw [known] at unknown; cases unknown
  | host handled _ empty _ => rw [handled, hostRequest_unread ht (empty bare)]
  | console handled _ empty _ _ => rw [handled, consoleRequest, ht, empty]; rfl

/-- A request that was read, in an operating state that it is not taken in. -/
theorem hostRequest_refused {α : Type} {parse : List Byte → Option α} {m : TakenIn} {act : State → α → Answer} {x : Status}
    (hp : (parse p).isSome) (hm : m.refusal u.mode = some x) (ht : s.take { kind, tag, payload := p } = some u) :
    hostRequest kind tag p parse m act s = .next (u.send (replyFrame kind tag x [])) := by
  obtain ⟨y, hy⟩ := Option.isSome_iff_exists.mp hp
  simp [hostRequest, ht, hy, checkRequest, hm]

theorem State.take_mode {f : Frame} (h : s.take f = some u) : u.mode = s.mode := by rw [State.take_eq h]

theorem hostRequest_configOnly {α : Type} {parse : List Byte → Option α} {act : State → α → Answer} (tag : Byte) (p : List Byte)
    (s u : State) (hp : (parse p).isSome) (hm : s.mode = .run) (ht : s.take { kind, tag, payload := p } = some u) :
    hostRequest kind tag p parse .config act s = .next (u.send (replyFrame kind tag .configOnly [])) :=
  hostRequest_refused hp (by rw [State.take_mode ht, hm]; rfl) ht

theorem hostRequest_runOnly {α : Type} {parse : List Byte → Option α} {act : State → α → Answer} (tag : Byte) (p : List Byte)
    (s u : State) (hp : (parse p).isSome) (hm : s.mode = .config) (_ : s.ConfigSound)
    (ht : s.take { kind, tag, payload := p } = some u) :
    hostRequest kind tag p parse .run act s = .next (u.send (replyFrame kind tag .runOnly [])) :=
  hostRequest_refused hp (by rw [State.take_mode ht, hm]; rfl) ht

/-- In CONFIG every console is VACANT, and a request is no activity anywhere. -/
theorem State.noteActivity_config (hm : s.mode = .config) (hs : s.ConfigSound) (p : List Byte) : s.noteActivity p = s := by
  unfold State.noteActivity
  split
  · exact State.activity_vacant ((hs hm).seat _)
  · rfl

theorem consoleRequest_runOnly {α : Type} {parse : List Byte → Option α} {act : State → α → Answer} (tag : Byte)
    (p : List Byte) (s u : State) (hp : (parse p).isSome) (hm : s.mode = .config) (hs : s.ConfigSound)
    (ht : s.take { kind, tag, payload := p } = some u) :
    consoleRequest kind tag p parse act s = .next (u.send (replyFrame kind tag .runOnly [])) := by
  obtain ⟨y, hy⟩ := Option.isSome_iff_exists.mp hp
  have mode : u.mode = .config := (State.take_mode ht).trans hm
  have sound : u.ConfigSound := State.take_eq ht ▸ hs.link s u.link
  simp [consoleRequest, ht, hy, checkRequest, State.noteActivity_config mode sound, mode, TakenIn.refusal]

/-- Settles O19: of each request by what it is to the handler, and of the rows of R172 by the operating state they name. -/
theorem requestsRefusedBeforeTheirOwner : Obligations.RequestsRefusedBeforeTheirOwner := by
  refine ⟨?_, ?_, ?_, ?_⟩
  · intro kind tag p s u ht named v
    have replies := (ofFrame_request kind tag p).replies ht
    rw [State.noted_eq] at replies
    exact replies
  · intro kind tag s u known bare ht
    exact (ofFrame_request kind tag []).empty_refused known bare ht
  · simp only [configRows, List.forall_mem_cons]
    refine ⟨hostRequest_configOnly, hostRequest_configOnly, hostRequest_configOnly, hostRequest_configOnly, hostRequest_configOnly,
      hostRequest_configOnly, hostRequest_configOnly, hostRequest_configOnly, hostRequest_configOnly, nofun⟩
  · simp only [runRows, List.forall_mem_cons]
    refine ⟨hostRequest_runOnly, hostRequest_runOnly, consoleRequest_runOnly, consoleRequest_runOnly, consoleRequest_runOnly,
      consoleRequest_runOnly, consoleRequest_runOnly, consoleRequest_runOnly, consoleRequest_runOnly, consoleRequest_runOnly,
      consoleRequest_runOnly, consoleRequest_runOnly, consoleRequest_runOnly, consoleRequest_runOnly, consoleRequest_runOnly,
      consoleRequest_runOnly, consoleRequest_runOnly, consoleRequest_runOnly, consoleRequest_runOnly, consoleRequest_runOnly,
      consoleRequest_runOnly, hostRequest_runOnly, hostRequest_runOnly, hostRequest_runOnly, hostRequest_runOnly,
      hostRequest_runOnly, nofun⟩

end Sys2Proof.Machine

/-!
The qualifiers of the console keys and of the trip lines: what a change of a contact or of the lines does to them, and their
release and stuck timers (O36).
-/

namespace Sys2Proof.Machine

variable {s : State} {c : ConsoleNo} {k : KeyName} {closed : Bool} {lines : Fin 16}

/-! ### The keys -/

theorem execKeyContactChange_config (hm : s.mode = .config) (hc : ((s.console c).key k).closed ≠ closed) :
    execKeyContactChange c k closed s = .next (s.setKey c k { (s.console c).key k with closed }) := by
  simp [execKeyContactChange, hc, hm]

theorem execKeyContactChange_run (hm : s.mode = .run) (hc : ((s.console c).key k).closed ≠ closed) :
    execKeyContactChange c k closed s = .next (s.setKey c k { closed, state :=
      if closed then ((s.console c).key k).state.closes else ((s.console c).key k).state.opens }) := by
  simp [execKeyContactChange, hc, hm]

theorem execKeyReleaseTimerExpiry_released
    (h : ((s.console c).key k).state = .releasing ∨ ((s.console c).key k).state = .stuck true) :
    execKeyReleaseTimerExpiry c k s = .next (s.setKey c k { (s.console c).key k with state := .idle }) := if_pos h

theorem execStuckTimerExpiry_held (h : ((s.console c).key k).state = .held) :
    execStuckTimerExpiry c k s =
      .next ((s.setKey c k { (s.console c).key k with state := .stuck false }).notify (.keyStuck c k)) := if_pos h

/-! ### The trip request lines -/

/-- The lines show 0 as no code, and the number of each code as the code. -/
theorem shownCode_eq {shown : Option TripNo} (h : lines.val = match shown with | none => 0 | some c => c.val + 1) :
    shownCode lines = shown := by
  cases shown with
  | none => exact if_pos (Fin.ext h)
  | some c =>
    have shows : lines ≠ 0 := fun e => by simp [e] at h
    have code : lines.val - 1 = c.val := by simp [h]
    rw [shownCode, if_neg shows, code, below_val]

theorem execTripLinesChange_config (hm : s.mode = .config) (hl : s.trip.lines ≠ lines) :
    execTripLinesChange lines s = .next (s.modTrip fun x => { x with lines }) := by
  simp [execTripLinesChange, hl, hm]

theorem execTripLinesChange_run (hm : s.mode = .run) (hl : s.trip.lines ≠ lines) :
    execTripLinesChange lines s =
      .next (s.modTrip fun x => { x with lines, qualifier := s.trip.qualifier.change (shownCode lines) }) := by
  simp [execTripLinesChange, State.modTrip, hl, hm]

theorem execTripReleaseTimerExpiry_settled (h : s.trip.qualifier = .settling true) :
    execTripReleaseTimerExpiry s = .next (s.modTrip fun x => { x with qualifier := .ready }) := by
  simp [execTripReleaseTimerExpiry, h]

/-- Settles O36: by the operating state of each change, and in RUN by the qualifier that it finds. -/
theorem qualifiersFollowContactsAndLines : Obligations.QualifiersFollowContactsAndLines := by
  refine ⟨fun c k closed s hc => ?_, fun c k s => execKeyReleaseTimerExpiry_released, fun c k s => execStuckTimerExpiry_held,
    fun lines shown s hl hs => ?_, fun s => execTripReleaseTimerExpiry_settled⟩
  · intro x y
    cases hm : s.mode with
    | config =>
      have keeps : y = x := if_pos hm
      rw [keeps]
      exact execKeyContactChange_config hm hc
    | run =>
      have moves : y = if closed then x.closes else x.opens := by
        show (if s.mode = .config then x else _) = _
        rw [if_neg (by simp [hm])]
        cases closed <;> cases x <;> rfl
      rw [moves]
      exact execKeyContactChange_run hm hc
  · cases hm : s.mode with
    | config => exact execTripLinesChange_config hm hl
    | run =>
      refine (execTripLinesChange_run hm hl).trans ?_
      rw [shownCode_eq hs]
      cases s.trip.qualifier <;> cases shown <;> rfl

end Sys2Proof.Machine

/-!
ACK_AREA (chapter 4): the points of its selection are acknowledged one after another, and one event ends behind them (O39).
-/

namespace Sys2Proof.Machine

variable {s u : State} {c : ConsoleNo} {a : AreaNo} {limit k : Nat} {n : PointNo} {ns : List PointNo} {o : Operator}

/-! ### The selection -/

/-- ACK_AREA of area `a` selects point `n` (R74). -/
def State.ackSelects (s : State) (a : AreaNo) (limit : Nat) (n : PointNo) : Bool :=
  s.exists? (s.point n) && (s.point n).area == a && !(s.point n).hidden
    && ((s.point n).ann == .new || (s.point n).ann == .faded) && limit ≤ (s.point n).priority.num

theorem State.ackSelection_eq (a : AreaNo) (limit : Nat) (s : State) :
    s.ackSelection a limit = (List.finRange 2048).filter (s.ackSelects a limit) := by
  unfold State.ackSelection
  rw [State.numbered_eq, List.filter_map, List.map_map]
  exact List.map_id _

theorem State.mem_ackSelection : n ∈ s.ackSelection a limit ↔ s.ackSelects a limit n := by
  simp [State.ackSelection_eq, List.mem_finRange]

theorem State.ackSelection_nodup (a : AreaNo) (limit : Nat) (s : State) : (s.ackSelection a limit).Nodup := by
  rw [State.ackSelection_eq]
  exact (List.nodup_finRange 2048).filter _

theorem State.length_ackSelection (a : AreaNo) (limit : Nat) (s : State) :
    (s.ackSelection a limit).length = (List.finRange 2048).countP (s.ackSelects a limit) := by
  rw [State.ackSelection_eq, List.countP_eq_length_filter]

theorem State.awaits_of_ackSelects (h : s.ackSelects a limit n) : (s.point n).ann = .new ∨ (s.point n).ann = .faded := by
  simp only [State.ackSelects, Bool.and_eq_true, Bool.or_eq_true, beq_iff_eq] at h
  obtain ⟨⟨-, awaits⟩, -⟩ := h
  exact awaits

/-! ### Several acknowledgements -/

/-- The points of the list acknowledged by operator `k` in their turn, before any neighbour is told. -/
def State.acknowledgeAll (ns : List PointNo) (k : Nat) (s : State) : State := ns.foldl (fun s n => s.acknowledge n k) s

theorem State.acknowledgeAll_cons (n : PointNo) (ns : List PointNo) (k : Nat) (s : State) :
    s.acknowledgeAll (n :: ns) k = (s.acknowledge n k).acknowledgeAll ns k := rfl

/-- Acknowledgements change the points alone. -/
theorem State.acknowledgeAll_eq (ns : List PointNo) (k : Nat) (s : State) :
    s.acknowledgeAll ns k = { s with points := (s.acknowledgeAll ns k).points } := by
  induction ns generalizing s with
  | nil => rfl
  | cons n ns ih =>
    rw [State.acknowledgeAll_cons, ih]
    rfl

@[simp] theorem State.acknowledgeAll_shelves (ns : List PointNo) (k : Nat) (s : State) :
    (s.acknowledgeAll ns k).shelves = s.shelves := by rw [State.acknowledgeAll_eq]

@[simp] theorem State.acknowledgeAll_areas (ns : List PointNo) (k : Nat) (s : State) :
    (s.acknowledgeAll ns k).areas = s.areas := by rw [State.acknowledgeAll_eq]

@[simp] theorem State.acknowledgeAll_mill (ns : List PointNo) (k : Nat) (s : State) :
    (s.acknowledgeAll ns k).mill = s.mill := by rw [State.acknowledgeAll_eq]

theorem State.point_acknowledge (n m : PointNo) (k : Nat) (s : State) :
    (s.acknowledge n k).point m = if m = n then (s.point n).acknowledge k s.now else s.point m :=
  s.point_setPoint n m _

/-- Each point of the list is acknowledged once, and no other changes. -/
theorem State.point_acknowledgeAll (h : ns.Nodup) (m : PointNo) (k : Nat) (s : State) :
    (s.acknowledgeAll ns k).point m = if m ∈ ns then (s.point m).acknowledge k s.now else s.point m := by
  induction ns generalizing s with
  | nil => rfl
  | cons n ns ih =>
    obtain ⟨fresh, rest⟩ := List.nodup_cons.mp h
    have now : (s.acknowledge n k).now = s.now := s.setPoint_now n _
    rw [State.acknowledgeAll_cons, ih rest, State.point_acknowledge, now]
    by_cases e : m = n
    · subst e; simp [fresh]
    · simp [e]

/-- A point that awaits its acknowledgement, once it has it (R71). -/
theorem Point.acknowledge_eq {p : Point} (h : p.ann = .new ∨ p.ann = .faded) (k now : Nat) : p.acknowledge k now =
    { p with ann := if p.ann = .new then .acked else .normal, acked := some ⟨k, now⟩, postTrip := false } := by
  rw [Point.acknowledge, Annunciation.acknowledged_eq h]

/-- The record of each point behind the acknowledgement of a selection (R71, R74). -/
theorem State.point_acknowledgeAll_ackSelection (k : Nat) (s : State) (n : PointNo) :
    (s.acknowledgeAll (s.ackSelection a limit) k).point n = if s.ackSelects a limit n then
      { s.point n with
        ann := if (s.point n).ann = .new then .acked else .normal, acked := some ⟨k, s.now⟩, postTrip := false }
      else s.point n := by
  rw [State.point_acknowledgeAll (s.ackSelection_nodup a limit)]
  simp only [State.mem_ackSelection]
  split
  · exact Point.acknowledge_eq (State.awaits_of_ackSelects ‹_›) k s.now
  · rfl

/-! ### The answer -/

/-- The points, the shelf list, the areas and the mill handover record are in `t` as in `d`. -/
structure State.Stands (d t : State) : Prop where
  points  : t.points = d.points
  shelves : t.shelves = d.shelves
  areas   : t.areas = d.areas
  mill    : t.mill = d.mill

/-- An event of the annunciator alone: no coverage to re-derive, no shift to change and no sheets to examine. -/
theorem State.finish_stands (d : State) : d.Stands (Work.finish { s := d }) := by
  have quiet := Work.settle_quiet { s := d } rfl
  rw [Work.finish_settled _ _ rfl]
  exact ⟨quiet.points, quiet.shelves, quiet.areas rfl, quiet.mill⟩

/-- A permitted ACK_AREA is DONE with the number selected: behind the acknowledgements, where there are any, only the
annunciator follows. -/
theorem actAckArea_taken (hp : s.permitArea c .ack a true true = .ok o) : ∃ t : State,
    actAckArea s (c, a, limit) = taken t (be16 (s.ackSelection a limit).length) ∧
      (s.acknowledgeAll (s.ackSelection a limit) o.number).Settles t ∧
      (s.acknowledgeAll (s.ackSelection a limit) o.number).Stands t := by
  unfold actAckArea
  rw [hp, withOperator_ok]
  cases s.ackSelection a limit with
  | nil => exact ⟨s, rfl, .refl s, rfl, rfl, rfl, rfl⟩
  | cons n ns =>
    let d := s.acknowledgeAll (n :: ns) o.number
    exact ⟨Work.finish { s := d }, rfl, d.settles_finish, d.finish_stands⟩

theorem exec_ackArea {tag : Byte} (low : 2 ≤ limit) (high : limit ≤ 4) (hm : u.mode = .run)
    (ht : s.takesAt c { kind := 0x45, tag, payload := [byte c.val, byte a.val, byte limit] } = some u) :
    exec (.ackArea tag [byte c.val, byte a.val, byte limit]) s = .next (u.answer 0x45 tag (actAckArea u (c, a, limit))) :=
  consoleRequest_at ht (parseAckArea_bytes c a low high) hm

/-- Settles O39: the owner acknowledges the selection, which changes the points alone, and the end of the event leaves them. -/
theorem ackAreaAcknowledgesSelection : Obligations.AckAreaAcknowledgesSelection := by
  intro tag c a limit o s u low high p ht hm hp chosen
  obtain ⟨t, answer, settles, points, shelves, areas, mill⟩ := actAckArea_taken (limit := limit) hp
  simp only [State.acknowledgeAll_shelves, State.acknowledgeAll_areas, State.acknowledgeAll_mill] at shelves areas mill
  rw [State.acknowledgeAll_eq] at settles
  refine ⟨t, _, ?_, settles, points, shelves, areas, mill, u.point_acknowledgeAll_ackSelection o.number⟩
  rw [exec_ackArea low high hm ht, answer, State.answer_taken, State.length_ackSelection]
  rfl

end Sys2Proof.Machine

/-!
The decay step of the rate meter (chapter 5).
-/

namespace Sys2Proof.Machine

variable {s : State} {a : AreaNo}

/-- The area's record behind the flood test of its meter's new value: a notice of the flag leaves it as it is. -/
theorem State.area_metered (a : AreaNo) (l : Nat) (s : State) : (s.metered a l).area a =
    { s.area a with meter := l, flooded := (s.area a).config.floodTest (s.area a).flooded l } := by
  have noticed (k : NoticeKind) (f : Area → Area) : ((s.modArea a f).notify k).area a = f (s.area a) := by
    obtain ⟨-, -, -, areas⟩ := (s.modArea a f).notify_records k
    rw [areas, State.area_modArea, if_pos rfl]
  unfold State.metered
  dsimp only
  split
  · rw [State.area_modArea, if_pos rfl]
  · split
    · exact noticed _ _
    · exact noticed _ _

/-- A decay step that is taken: where the flood flag turns, the annunciator and the handover unit follow (R94, R96 to R98). -/
theorem execDecayStep_taken (hm : s.mode = .run) (hc : (s.area a).config.configured) (hl : 0 < (s.area a).meter) :
    ∃ t, execDecayStep a s = .next t ∧
      (s.metered a ((s.area a).meter - decrement (s.area a).meter (s.area a).config.decay)).Settles t := by
  unfold execDecayStep
  dsimp only
  rw [if_pos ⟨hm, hc, hl⟩, State.setMeter_eq_metered]
  split
  · exact ⟨_, rfl, .refl _⟩
  · exact ⟨_, rfl, (Work.reconsider_of ..).finish⟩

/-- Settles O23: the end of the event leaves the value that the step gives the meter. -/
theorem decayStepLowersMeter : Obligations.DecayStepLowersMeter := by
  intro a s hm hc hl
  obtain ⟨t, next, settles⟩ := execDecayStep_taken hm hc hl
  exact ⟨t, next, settles, by rw [settles.meter, State.area_metered]; rfl⟩

end Sys2Proof.Machine

/-!
The taking of trip codes (chapter 6): the delivery of a code that qualifies, the wait deadline of a running one, and the
release, each with the pending code that is taken behind it and the end of the event.
-/

namespace Sys2Proof.Machine

variable {s u : State} {c k : TripNo}

/-! ### A code's record written twice, and the running code -/

/-- A code's record before the one that stands at the end is lost. -/
theorem State.modCode_modCode (c : TripNo) (f g : TripCode → TripCode) (s : State) :
    (s.modCode c f).modCode c g = s.modCode c fun r => g (f r) := by
  simp [State.modCode, State.code]

/-- Of at most one RUNNING code, the one that the search finds is that one (R108). -/
theorem State.TripsSound.runningCode (h : s.TripsSound) (hc : (s.code c).state.isRunning) : s.runningCode = some c := by
  cases hr : s.runningCode with
  | none => simp [State.runningCode_eq_none.mp hr c] at hc
  | some d =>
    have hd : (s.code d).state.isRunning := by simpa using List.find?_some hr
    rw [h.single d c hd hc]

/-- While a code is RUNNING the pending one waits (R108). -/
theorem State.takePending_running (hc : (s.code c).state.isRunning) : s.takePending = s := by
  unfold State.takePending
  cases hr : s.runningCode with
  | none => simp [State.runningCode_eq_none.mp hr c] at hc
  | some d => rfl

/-- The end of a trip event leaves what the end of an event may (R110, R113). -/
theorem State.tripEvent_settles (s : State) : s.Settles s.tripEvent := (Work.tripsChanged_of s).finish

/-! ### The delivery -/

/-- The end of the qualify time delivers the code, with the qualifier back in SETTLING (R101). -/
theorem exec_tripQualify (h : s.trip.qualifier = .qualifying k) :
    exec .tripQualifyTimerExpiry s
      = .next ((s.modTrip fun x => { x with qualifier := .settling false }).deliver k).tripEvent := by
  show execTripQualifyTimerExpiry s = _
  simp only [execTripQualifyTimerExpiry, h]

theorem State.deliver_latched (h : s.trip.latch) : s.deliver k = s.notify (.tripDropped k .faultLatched) := by
  simp [State.deliver, h]

theorem State.deliver_undefined (hl : s.trip.latch = false) (hk : (s.code k).configured = false) :
    s.deliver k = s.notify (.tripDropped k .undefined) := by
  simp [State.deliver, hl, hk]

/-- Where code `c` runs, a delivered code is ignored when it is that one, and else pends where the slot is free (R108). -/
theorem State.deliver_running (hl : s.trip.latch = false) (hk : (s.code k).configured) (hr : s.runningCode = some c) :
    s.deliver k = if c = k then s else if s.trip.pending = none then s.modTrip fun x => { x with pending := some k }
      else s.notify (.tripDropped k .pendingFull) := by
  simp [State.deliver, hl, hk, hr]

/-- Where none runs, the delivered code starts its run, and what is pending behind it is taken (R108, R109). -/
theorem State.deliver_starts (hl : s.trip.latch = false) (hk : (s.code k).configured)
    (hr : ∀ c, (s.code c).state.isRunning = false) : s.deliver k = (s.startRun k).takePending := by
  simp [State.deliver, hl, hk, State.runningCode_eq_none.mpr hr]

/-- A run that is started goes to where its relation says (R110). -/
theorem State.startRun_runsTo {x : State} (h : State.RunsTo k (s.code k).start.val (s.startedRun k) x) : s.startRun k = x := by
  rw [State.startRun_eq, State.runFrom_runsTo h]

theorem State.startedRun_tripEntry (c : TripNo) (s : State) (e : EntryNo) : (s.startedRun c).tripEntry e = s.tripEntry e := by
  unfold State.startedRun
  simp only [State.tripEntry, State.notify_trip]
  rfl

theorem State.deadlineIn_congr {t : State} (h : t.clock = s.clock) (n : Nat) : t.deadlineIn n = s.deadlineIn n := by
  simp only [State.deadlineIn, State.now, h]

/-- A run whose start entry is a WAIT waits there (R111). -/
theorem State.startRun_wait {seconds : Nat} {last notify : Bool}
    (h : s.tripEntry (s.code k).start = .wait seconds last notify) :
    s.startRun k = ((s.startedRun k).steppedAt k (s.code k).start notify).modCode k fun r =>
      { r with state := .running (s.code k).start (some (s.deadlineIn seconds)) } := by
  have clock : (s.startedRun k).clock = s.clock := (State.notify_frames _ _).clock
  have run := State.RunsTo.wait (c := k) (s.code k).start seconds last notify (s.startedRun k)
    ((s.startedRun_tripEntry k _).trans h)
  rw [State.deadlineIn_congr clock] at run
  exact State.startRun_runsTo run

/-- Settles O42: the delivery's cases in R108's order, and the end of its event. -/
theorem deliveredCodeIsTaken : Obligations.DeliveredCodeIsTaken := by
  intro k s hq
  dsimp only
  generalize hu : (s.modTrip fun x => { x with qualifier := .settling false }) = u
  have after {d : State} (h : u.deliver k = d) : ∃ t, exec .tripQualifyTimerExpiry s = .next t ∧ d.Settles t :=
    ⟨_, by rw [exec_tripQualify hq, hu, h], State.tripEvent_settles d⟩
  have latch : u.trip.latch = s.trip.latch := by subst hu; rfl
  have pending : u.trip.pending = s.trip.pending := by subst hu; rfl
  have code (c : TripNo) : u.code c = s.code c := by subst hu; rfl
  have entry (e : EntryNo) : u.tripEntry e = s.tripEntry e := by subst hu; rfl
  have clock : u.clock = s.clock := by subst hu; rfl
  have running : u.runningCode = s.runningCode := by simp only [State.runningCode, code]
  refine ⟨fun hl => after (State.deliver_latched (latch.trans hl)), fun hl hk =>
    after (State.deliver_undefined (latch.trans hl) ((congrArg _ (code k)).trans hk)), fun sound hl hk c hc => ?_,
    fun hl hk hr => ?_⟩
  · have e := State.deliver_running (latch.trans hl) (by rw [code]; exact hk) (running.trans (sound.runningCode hc))
    rw [pending] at e
    exact ⟨fun h => after (by rw [e, if_pos h]), fun h hp => after (by rw [e, if_neg h, if_pos hp]),
      fun h hp => after (by rw [e, if_neg h, if_neg hp])⟩
  · have starts := State.deliver_starts (s := u) (latch.trans hl) (by rw [code]; exact hk) fun c => by rw [code]; exact hr c
    refine ⟨fun seconds last notify hw => after ?_, fun x hx => ⟨x.takePending, x.takePending_taken, after ?_⟩⟩
    · rw [starts, State.startRun_wait (by rw [code, entry]; exact hw), code, State.deadlineIn_congr clock]
      exact State.takePending_running (c := k) (by rw [State.code_modCode, if_pos rfl]; rfl)
    · rw [starts, State.startRun_runsTo (by rw [code]; exact hx)]

/-! ### The wait deadline -/

/-- A reached wait deadline of a LAST WAIT ends the run, and a pending code is then taken (R111, R113). -/
theorem exec_waitDeadline_last {e : EntryNo} {d : Deadline} {seconds : Nat} {notify : Bool}
    (h : (s.code c).state = .running e (some d)) (hd : s.due d) (hw : s.tripEntry e = .wait seconds true notify) :
    exec (.waitDeadline c) s
      = .next ((s.modCode c fun r => { r with state := .running e none }).tripDone c).takePending.tripEvent := by
  show execWaitDeadline c s = _
  simp only [execWaitDeadline, h, hd, hw, if_true]

/-- Behind another WAIT the run is processed from the next entry on (R111). -/
theorem exec_waitDeadline_on {e : EntryNo} {d : Deadline} {seconds : Nat} {notify : Bool}
    (h : (s.code c).state = .running e (some d)) (hd : s.due d) (hw : s.tripEntry e = .wait seconds false notify) :
    exec (.waitDeadline c) s = .next ((s.modCode c fun r => { r with state := .running e none }).runFrom c
      (512 - (e.val + 1)) (e.val + 1)).takePending.tripEvent := by
  show execWaitDeadline c s = _
  simp only [execWaitDeadline, h, hd, hw, if_true]

/-- The fault of a run does not read the state of the code that it ends (R114). -/
theorem State.faultedAt_modCode (c : TripNo) (x : TripState) (e : EntryNo) (s : State) :
    (s.modCode c fun r => { r with state := x }).faultedAt c e = s.faultedAt c e := by
  simp only [State.faultedAt, State.holdUntil, State.modCode_modCode, State.code_modCode, if_true]
  rfl

/-- A run that is done does not read the state of the code that it ends (R113). -/
theorem State.tripDone_modCode (c : TripNo) (x : TripState) (s : State) :
    (s.modCode c fun r => { r with state := x }).tripDone c
      = (s.modCode c fun r => { r with state := .holding (s.holdUntil c) }).notify (.tripDone c) := by
  unfold State.tripDone State.holdCode
  rw [State.modCode_modCode]
  congr 1
  exact State.modCode_congr s (by simp [State.holdDeadline, State.holdUntil, State.deadlineIn, State.now])

/-- Settles O44, by the kind of the WAIT entry that the deadline ends. -/
theorem waitDeadlineResumesRun : Obligations.WaitDeadlineResumesRun := by
  intro c k d s hc htime hsince _
  dsimp only
  have due : s.due d := by simp [State.due, State.now, htime, hsince]
  have after {x y : State} (h : exec (.waitDeadline c) s = .next y.takePending.tripEvent) (e : y = x) :
      ∃ y t : State, exec (.waitDeadline c) s = .next t ∧ x.PendingTaken y ∧ y.Settles t :=
    ⟨_, _, h, e ▸ y.takePending_taken, State.tripEvent_settles _⟩
  refine ⟨fun seconds notify hw => ?_, fun seconds notify hw => ?_⟩
  · exact after (exec_waitDeadline_last hc due hw) (State.tripDone_modCode c _ s)
  · have goes {x : State} (run : State.RunsTo c (k.val + 1) (s.modCode c fun r => { r with state := .running k none }) x) :=
      after (exec_waitDeadline_on hc due hw) (State.runFrom_runsTo run)
    refine ⟨fun e he hempty => ?_, fun hk => ?_, fun x hx => goes hx⟩
    · rw [← s.faultedAt_modCode c (.running k none) e]
      exact goes (he ▸ .empty e _ hempty)
    · have last : k = 511 := Fin.ext hk
      subst last
      rw [← s.faultedAt_modCode c (.running 511 none) 511]
      exact goes (.beyond _)

/-! ### The release -/

/-- A release: the code leaves the suppression sets, is IDLE, and a pending code is taken (R117). -/
theorem State.release_eq (c : TripNo) (source : ReleaseSource) (s : State) : s.release c source =
    ((((s.unsuppressAll c).1.modCode c fun r => { r with state := .idle, suppressed := 0, faulted := false }).notify (.tripReleased c source)).takePending.tripEvent,
      (s.unsuppressAll c).2) := by
  unfold State.release
  rcases s.unsuppressAll c with ⟨t, new⟩
  rfl

theorem releaseAnswer_taken (c : TripNo) (source : ReleaseSource) (h : (u.code c).state ≠ .idle) :
    releaseAnswer u c source = taken (u.release c source).1 (be16 (u.code c).suppressed ++ be16 (u.unsuppressAll c).2) := by
  rw [releaseAnswer, if_neg h, State.release_eq]

/-- RELEASE_TRIP from the host, where no console acts. -/
theorem exec_releaseTrip_host {tag : Byte} (hm : u.mode = .run) (hc : (u.code c).state ≠ .idle)
    (ht : s.take { kind := 0x4A, tag, payload := [0xFF, byte (c.val + 1)] } = some u) :
    exec (.releaseTrip tag [0xFF, byte (c.val + 1)]) s = .next ((u.release c .host).1.replyDone 0x4A tag
      (be16 (u.code c).suppressed ++ be16 (u.unsuppressAll c).2)) := by
  have e : u.noteActivity [0xFF, byte (c.val + 1)] = u := rfl
  refine (consoleRequest_read ht (parseRelease_host c) (e.symm ▸ hm)).trans ?_
  rw [e, ← State.answer_taken (s := u), ← releaseAnswer_taken c .host hc]
  rfl

/-- RELEASE_TRIP from a console that the permission check admits (R41). -/
theorem exec_releaseTrip_console {tag : Byte} {d : ConsoleNo} {o : Operator} (hm : u.mode = .run)
    (hc : (u.code c).state ≠ .idle) (hp : u.permitRelease d c = .ok o)
    (ht : s.takesAt d { kind := 0x4A, tag, payload := [byte d.val, byte (c.val + 1)] } = some u) :
    exec (.releaseTrip tag [byte d.val, byte (c.val + 1)]) s = .next ((u.release c (.console d)).1.replyDone 0x4A tag
      (be16 (u.code c).suppressed ++ be16 (u.unsuppressAll c).2)) := by
  refine (consoleRequest_at ht (parseRelease_console d c) hm).trans ?_
  rw [← State.answer_taken (s := u), ← releaseAnswer_taken c (.console d) hc]
  simp only [actReleaseTrip, hp, withOperator_ok]

/-- What a release leaves once its pending code is taken, the end of its event may change as it always may. -/
theorem State.release_settles (c : TripNo) (source : ReleaseSource) (s : State) :
    ∃ y, (((s.unsuppressAll c).1.modCode c fun r => { r with state := .idle, suppressed := 0, faulted := false }).notify
      (.tripReleased c source)).PendingTaken y ∧
      y.Settles (s.release c source).1 := by
  rw [State.release_eq]
  dsimp only
  generalize ((s.unsuppressAll c).1.modCode c _).notify (.tripReleased c source) = t
  exact ⟨t.takePending, t.takePending_taken, t.takePending.tripEvent_settles⟩

/-- Settles O46: the two sources of RELEASE_TRIP and the hold deadline make the same release. -/
theorem tripIsReleased : Obligations.TripIsReleased := by
  unfold Obligations.TripIsReleased
  dsimp only
  refine ⟨fun tag c p source s u source_ok hm hc => ?_, fun c d s hc htime hsince => ?_⟩
  · obtain ⟨y, taken, settles⟩ := u.release_settles c source
    refine ⟨y, _, ?_, taken, settles⟩
    rcases source_ok with ⟨rfl, rfl, ht⟩ | ⟨d, o, rfl, rfl, ht, hp⟩
    · exact exec_releaseTrip_host hm hc ht
    · exact exec_releaseTrip_console hm hc hp ht
  · obtain ⟨y, taken, settles⟩ := s.release_settles c .expiry
    refine ⟨y, _, ?_, taken, settles⟩
    have due : s.due d := by simp [State.due, State.now, htime, hsince]
    show execTripHoldDeadline c s = _
    simp only [execTripHoldDeadline, hc, due, if_true]

end Sys2Proof.Machine

/-!
The loads of the trip unit and of the step store (R105, R106, R115, R141): the payloads read back, and the entries stored.
-/

namespace Sys2Proof.Machine

variable {s u : State}

/-! ### Entries stored in a row -/

/-- A store that takes the entries of a list one after another holds them from the first index on, and what it held elsewhere. -/
theorem getElem_storeRow {α : Type} {n : Nat} {store : Nat → List α → Vector α n → Vector α n}
    (nil : ∀ i v, store i [] v = v)
    (cons : ∀ i e es v, store i (e :: es) v = store (i + 1) es (v.setIfInBounds i e))
    (first : Nat) (es : List α) (v : Vector α n) (i : Fin n) :
    (store first es v)[i] = (if first ≤ i.val then es[i.val - first]? else none).getD v[i] := by
  induction es generalizing first v with
  | nil => simp [nil]
  | cons e es ih =>
    rw [cons, ih]
    rcases Nat.lt_trichotomy first i.val with h | h | h
    · obtain ⟨k, hk⟩ : ∃ k, i.val - first = k + 1 := ⟨i.val - first - 1, by omega⟩
      have hk' : i.val - (first + 1) = k := by omega
      rw [if_pos (by omega), if_pos (by omega), hk, hk', List.getElem?_cons_succ]
      simp [Nat.ne_of_lt h]
    · simp [← h]
    · rw [if_neg (by omega), if_neg (by omega)]
      simp [Nat.ne_of_gt h]

/-- The same of entries that are changed as they are stored. -/
theorem getElem_storeRow_map {α : Type} {n : Nat} {store : Nat → List α → Vector α n → Vector α n}
    (nil : ∀ i v, store i [] v = v)
    (cons : ∀ i e es v, store i (e :: es) v = store (i + 1) es (v.setIfInBounds i e))
    (f : α → α) (first : Nat) (es : List α) (v : Vector α n) (i : Fin n) :
    (store first (es.map f) v)[i] = ((if first ≤ i.val then es[i.val - first]? else none).map f).getD v[i] := by
  rw [getElem_storeRow nil cons]
  split
  · rw [List.getElem?_map]
  · rfl

/-! ### LOAD_TRIP_CODE and CLEAR_TRIP_FAULT -/

/-- A trip load is BUSY in RUN while a code is RUNNING or HOLDING (R105, R106). -/
theorem State.not_tripsIdle : (!u.tripsIdle) = true ↔ ∃ c : TripNo, (u.code c).state ≠ .idle := by
  have idle (x : TripState) : x.isIdle = true ↔ x = .idle := by cases x <;> simp [TripState.isIdle]
  simp [State.tripsIdle, allCodes, ← idle]

theorem exec_loadTripCode {tag : Byte} {k : TripNo} {configured : Bool} {start : EntryNo} {areas : BitVec 32} {hold : Nat}
    (h : hold ≤ 65535) (ht : s.take { kind := 0x16, tag, payload :=
      [byte (k.val + 1), flagByte configured] ++ be16 start.val ++ be32 areas.toNat ++ be16 hold } = some u) :
    exec (.loadTripCode tag ([byte (k.val + 1), flagByte configured] ++ be16 start.val ++ be32 areas.toNat ++ be16 hold)) s
      = .next (if u.mode = .run ∧ ∃ c : TripNo, (u.code c).state ≠ .idle then u.send (replyFrame 0x16 tag .busy [])
        else (u.modCode k fun r => { r with configured, start, areas, holdTime := min hold 1440 }).replyDone 0x16 tag
          [if 1440 < hold then 1 else 0]) := by
  refine (hostRequest_read ht (parseTripCode_bytes k configured start areas h) (refusal_both _)).trans ?_
  simp only [actLoadTripCode, State.not_tripsIdle]
  split
  · rfl
  · rw [State.answer_taken]
    by_cases hc : 1440 < hold <;> simp [hc, flagByte]

theorem exec_clearTripFault {tag : Byte} (ht : s.take { kind := 0x60, tag, payload := [] } = some u) :
    exec (.clearTripFault tag []) s = .next (if u.trip.latch
      then (u.modTrip fun x => { x with latch := false }).replyDone 0x60 tag []
      else u.send (replyFrame 0x60 tag .already [])) := by
  refine (hostRequest_read (parse := parseNone) ht rfl (refusal_both _)).trans ?_
  split <;> rfl

/-! ### LOAD_STEPS -/

/-- A timing value of the step was clamped (R141). -/
def StepEntry.clamped (e : StepEntry) : Bool :=
  e.stored.timeout != e.timeout || (e.kind == .hold && e.stored.parameter != e.parameter)

theorem stepOf_wire {e : StepEntry} (hp : e.parameter ≤ 65535) (ht : e.timeout ≤ 65535) :
    stepOf (byte e.kind.code) (byte (e.parameter / 256)) (byte e.parameter) (byte (e.timeout / 256)) (byte e.timeout)
      (byte e.next.val) (flagByte e.last) (flagByte e.notify) = some (e.stored, e.clamped) := by
  have next : (byte e.next.val).toFin = e.next := Fin.ext (byte_toNat e.next.isLt)
  simp only [stepOf, stepKindOf_byte, flagOf_flagByte, num16_be16 (Nat.lt_succ_of_le hp),
    num16_be16 (Nat.lt_succ_of_le ht), next, Option.bind_eq_bind, Option.bind_some, clamp, StepEntry.stored,
    StepEntry.clamped]
  by_cases hk : e.kind = .hold
  · simp [hk]
  · simp [hk, show (e.kind == .hold) = false by simpa using hk]

theorem parseStepEntries_wire (es : List StepEntry) (h : ∀ e ∈ es, e.parameter ≤ 65535 ∧ e.timeout ≤ 65535) :
    parseStepEntries (es.flatMap StepEntry.wire) = some (es.map fun e => (e.stored, e.clamped)) := by
  induction es with
  | nil => rfl
  | cons e es ih =>
    obtain ⟨he, hes⟩ := List.forall_mem_cons.mp h
    simp [StepEntry.wire, be16, parseStepEntries, stepOf_wire he.1 he.2, ih hes]

theorem parseSteps_wire {first : Nat} {es : List StepEntry} (h1 : 1 ≤ es.length) (h2 : es.length ≤ 16)
    (h3 : first + es.length ≤ 256) (h : ∀ e ∈ es, e.parameter ≤ 65535 ∧ e.timeout ≤ 65535) :
    parseSteps (byte first :: byte es.length :: es.flatMap StepEntry.wire)
      = some (first, es.map StepEntry.stored, es.any StepEntry.clamped) := by
  have hf : (byte first).toNat = first := byte_toNat (by omega)
  have hl : (byte es.length).toNat = es.length := byte_toNat (by omega)
  simp [parseSteps, parseStepEntries_wire es h, hf, hl, h1, h2, h3, Function.comp_def]

/-- LOAD_STEPS in CONFIG stores the entries that it carries, and leaves every other. -/
theorem exec_loadSteps {tag : Byte} {first : Nat} {es : List StepEntry} (h1 : 1 ≤ es.length) (h2 : es.length ≤ 16)
    (h3 : first + es.length ≤ 256) (h : ∀ e ∈ es, e.parameter ≤ 65535 ∧ e.timeout ≤ 65535)
    (ht : s.take { kind := 0x15, tag, payload := byte first :: byte es.length :: es.flatMap StepEntry.wire } = some u)
    (hm : u.mode = .config) :
    exec (.loadSteps tag (byte first :: byte es.length :: es.flatMap StepEntry.wire)) s
      = .next (State.replyDone 0x15 tag [flagByte (es.any StepEntry.clamped)]
        { u with steps := storeSteps first (es.map StepEntry.stored) u.steps }) := by
  refine (hostRequest_read ht (parseSteps_wire h1 h2 h3 h) (by rw [hm, refusal_config])).trans ?_
  rw [State.answer_taken]

/-! ### LOAD_TRIP_ENTRIES -/

theorem TripEntry.clamped_wait {seconds : Nat} {last notify : Bool} :
    (TripEntry.wait seconds last notify).stored ≠ .wait seconds last notify ↔ clamp 1 600 seconds ≠ seconds := by
  simp [TripEntry.stored, clamp]

/-- The entries that a payload carries are read in their order, each with whether its WAIT time was clamped. -/
theorem parseTripList_wire {n : Nat} (es : List TripEntry) (hn : es.length ≤ n) (h : ∀ e ∈ es, e.inRange) :
    parseTripList n (es.flatMap TripEntry.wire) = some (es.map fun e => (e.stored, decide (e.stored ≠ e))) := by
  induction es generalizing n with
  | nil => cases n <;> rfl
  | cons e es ih =>
    obtain ⟨he, hes⟩ := List.forall_mem_cons.mp h
    obtain ⟨n, rfl⟩ : ∃ m, n = m + 1 := ⟨n - 1, by simp at hn; omega⟩
    have rest := ih (n := n) (by simpa using hn) hes
    cases e with
    | empty => simp [TripEntry.wire, parseTripList, rest, TripEntry.stored]
    | group g last notify =>
      obtain ⟨low, high⟩ : 1 ≤ g.spare ∧ g.spare ≤ 3 := by simpa [TripEntry.inRange] using he
      have spare : (byte g.spare).toNat = g.spare := byte_toNat (by omega)
      have selection := num32_be32 g.selection.isLt
      simp [TripEntry.wire, be16, be32, parseTripList, rest, TripEntry.stored, spare, within_self low high, selection]
    | wait seconds last notify =>
      have fits : seconds ≤ 65535 := by simpa [TripEntry.inRange] using he
      have clamps : (clamp 1 600 seconds != seconds)
          = decide ((TripEntry.wait seconds last notify).stored ≠ .wait seconds last notify) := by
        rw [Bool.eq_iff_iff, bne_iff_ne, decide_eq_true_iff, TripEntry.clamped_wait]
      simp only [TripEntry.wire, be16, List.flatMap_cons, List.cons_append, List.nil_append, parseTripList, rest,
        num16_be16 (Nat.lt_succ_of_le fits), flagOf_flagByte, Option.bind_eq_bind, Option.bind_some, clamps, List.map_cons]
      rfl

theorem parseTripEntries_wire {first : Nat} {es : List TripEntry} (h1 : 1 ≤ es.length) (h2 : es.length ≤ 20)
    (h3 : first + es.length ≤ 512) (h : ∀ e ∈ es, e.inRange) :
    parseTripEntries (be16 first ++ byte es.length :: es.flatMap TripEntry.wire)
      = some (first, es.map TripEntry.stored, es.any fun e => decide (e.stored ≠ e)) := by
  have hf : num16 (byte (first / 256)) (byte first) = first := num16_be16 (by omega)
  have hl : (byte es.length).toNat = es.length := byte_toNat (by omega)
  simp only [be16, List.cons_append, List.nil_append, parseTripEntries, parseTripList_wire es h2 h, hf, hl,
    Option.bind_eq_bind, Option.bind_some, List.length_map, List.map_map, List.any_map, Function.comp_def]
  exact if_pos ⟨trivial, h1, h2, h3⟩

/-- LOAD_TRIP_ENTRIES is answered as its owner answers, in either operating state. -/
theorem exec_loadTripEntries {tag : Byte} {first : Nat} {es : List TripEntry} (h1 : 1 ≤ es.length) (h2 : es.length ≤ 20)
    (h3 : first + es.length ≤ 512) (h : ∀ e ∈ es, e.inRange)
    (ht : s.take { kind := 0x17, tag, payload := be16 first ++ byte es.length :: es.flatMap TripEntry.wire } = some u) :
    exec (.loadTripEntries tag (be16 first ++ byte es.length :: es.flatMap TripEntry.wire)) s
      = .next (if u.mode = .run ∧ ∃ c : TripNo, (u.code c).state ≠ .idle then u.send (replyFrame 0x17 tag .busy [])
        else (u.modTrip fun x => { x with store := storeTripEntries first (es.map TripEntry.stored) x.store }).replyDone 0x17
          tag [flagByte (es.any fun e => decide (e.stored ≠ e))]) := by
  refine (hostRequest_read ht (parseTripEntries_wire h1 h2 h3 h) (refusal_both _)).trans ?_
  simp only [actLoadTripEntries, State.not_tripsIdle]
  split
  · rfl
  · rw [State.answer_taken]

/-- Settles O41: each payload is read back as the entries that it spells, and what is read is stored. -/
theorem tripAndStepTablesLoad : Obligations.TripAndStepTablesLoad := by
  refine ⟨fun tag k configured start areas hold s u h ht => exec_loadTripCode h ht, fun tag s u ht => exec_clearTripFault ht,
    fun tag first es s u h1 h2 h3 h ht hm => ⟨_, _, exec_loadSteps h1 h2 h3 h ht hm, ?_, fun i => ?_⟩,
    fun tag first es s u h1 h2 h3 h ht => ⟨fun busy => ?_, fun free =>
      ⟨storeTripEntries first (es.map TripEntry.stored) u.trip.store, es.any fun e => decide (e.stored ≠ e), ?_, ?_,
        fun i => ?_⟩⟩⟩
  · simp [StepEntry.clamped]
  · rw [getElem_storeRow_map (store := storeSteps) (fun _ _ => rfl) fun _ _ _ _ => rfl]
    generalize (if first ≤ i.val then es[i.val - first]? else none) = e
    cases e <;> rfl
  · exact (exec_loadTripEntries h1 h2 h3 h ht).trans (by rw [if_pos busy])
  · have idle : ¬ (u.mode = .run ∧ ∃ c : TripNo, (u.code c).state ≠ .idle) := by
      rintro ⟨hm, c, hc⟩
      rcases free with hf | hf
      · rw [hm] at hf; cases hf
      · exact hc (hf c)
    exact (exec_loadTripEntries h1 h2 h3 h ht).trans (by rw [if_neg idle]; rfl)
  · simp
  · rw [getElem_storeRow_map (store := storeTripEntries) (fun _ _ => rfl) fun _ _ _ _ => rfl]
    generalize (if first ≤ i.val then es[i.val - first]? else none) = e
    cases e <;> rfl

end Sys2Proof.Machine

/-!
What the condition steps of the handovers hang on (R141, R142), and the handover unit's work on them. `State.StepsKept` is the
rule that every step keeps, with some steps left out that are still to be examined; `State.StepsStand` is a change that makes no
condition hold but of steps left out; and each operation of the handover unit examines what it is told of.
-/

namespace Sys2Proof.Machine

/-- A set of steps: of which areas, and of which kinds. -/
abbrev StepSet := AreaNo → StepKind → Prop

/-- The steps of two sets. -/
def StepSet.plus (D E : StepSet) : StepSet := fun a k => D a k ∨ E a k

/-- The steps of area `a` of the kinds `f`. -/
def StepSet.of (a : AreaNo) (f : StepKind → Bool) : StepSet := fun b k => b = a ∧ f k

/-- The SEAT_IN steps of the areas `f`. -/
def StepSet.seatsIn (f : AreaNo → Bool) : StepSet := fun b k => f b ∧ k = .seatIn

theorem StepSet.plus_of (D : StepSet) (a : AreaNo) (k : StepKind) : D.plus (.of a fun _ => true) a k := .inr ⟨rfl, rfl⟩

variable {s t u : State} {D E : StepSet} {a : AreaNo} {w : Work}

/-! ### Handovers without their deadlines -/

/-- The handover record with its deadlines left out. -/
def Handover.undated (h : Handover) : Handover := h.mapDeadline fun _ => ⟨0, 0⟩

theorem Handover.inProgress_undated (h : Handover) : h.undated.inProgress = h.inProgress := by cases h <;> rfl

theorem Handover.position_undated (h : Handover) : h.undated.position? = h.position? := by cases h <;> rfl

theorem Handover.running_of_undated {h h' : Handover} (e : h'.undated = h.undated) {p : Position} {x y : Option Deadline}
    (hr : h' = .running p x y) : ∃ x y, h = .running p x y := by
  subst hr
  cases h <;> simp [Handover.undated, Handover.mapDeadline] at e
  exact ⟨_, _, by rw [e.1]⟩

/-! ### The sheets that the review reads -/

/-- No slot is listed twice on the sheet frames, and the listed ones hold items: of R120 what the REVIEW steps hang on. -/
structure State.FramesSound (s : State) : Prop where
  once  : ∀ a, (s.framed a).Nodup
  apart : ∀ a b i, i ∈ s.framed a → i ∈ s.framed b → a = b
  held  : ∀ a, ∀ i ∈ s.framed a, (s.item i).isSome

theorem State.PoolSound.frames (h : s.PoolSound) : s.FramesSound := by
  obtain ⟨once, apart⟩ := List.nodup_flatMap.mp h.once
  refine ⟨fun a => once a (mem_allAreas a), fun a b i ha hb => ?_, fun a i hi => ?_⟩
  · have symmetric : Std.Symm fun a b => List.Disjoint (s.framed a) (s.framed b) := ⟨fun _ _ h => h.symm⟩
    by_contra hab
    exact List.Pairwise.forall apart (mem_allAreas a) (mem_allAreas b) hab ha hb
  · exact (h.held i).mpr (List.mem_flatMap.mpr ⟨a, mem_allAreas a, hi⟩)

/-- Every frame lists the slots that it listed, and the same slots hold items. -/
structure State.SameSlots (s t : State) : Prop where
  framed : ∀ a, t.framed a = s.framed a
  items  : ∀ i, (t.item i).isSome = (s.item i).isSome

theorem State.SameSlots.refl (s : State) : s.SameSlots s := ⟨fun _ => rfl, fun _ => rfl⟩

theorem State.SameSlots.trans (h : s.SameSlots t) (k : t.SameSlots u) : s.SameSlots u :=
  ⟨fun a => (k.framed a).trans (h.framed a), fun i => (k.items i).trans (h.items i)⟩

theorem State.SameSlots.sound (h : s.SameSlots t) (f : s.FramesSound) : t.FramesSound where
  once a := by rw [h.framed]; exact f.once a
  apart a b i := by rw [h.framed, h.framed]; exact f.apart a b i
  held a i hi := by rw [h.items]; exact f.held a i (by rwa [h.framed] at hi)

theorem State.SameSlots.modArea (a : AreaNo) (f : Area → Area) (s : State)
    (h : (f (s.area a)).draft.items = (s.area a).draft.items ∧ (f (s.area a)).posted.items = (s.area a).posted.items) :
    s.SameSlots (s.modArea a f) where
  framed b := by
    obtain ⟨draft, posted⟩ := h
    unfold State.framed
    rw [State.area_modArea]
    split
    · subst_vars; rw [draft, posted]
    · rfl
  items _ := rfl

/-! ### What every step keeps -/

/-- Every GROUP entry of the store spares priority 1 (R106). -/
def State.SparesP1 (s : State) : Prop := ∀ e g last notify, s.tripEntry e = .group g last notify → 1 ≤ g.spare

/-- The lists end (R141), and no RUNNING area waits at a condition step whose condition holds, but for the steps `D`, which are
left out; with what this hangs on: the frames, and that every GROUP entry spares priority 1 (R106). -/
structure State.StepsKept (D : StepSet) (s : State) : Prop where
  start   : s.mode = .run → ∀ a, (s.area a).config.configured → s.listEnds (s.area a).config.start
  current : ∀ a p, (s.area a).handover.inProgress → (s.area a).handover.position? = some p → s.listEnds p.index
  waits   : ∀ a p x y, (s.area a).handover = .running p x y → ¬ D a (s.stepEntry p.index).kind →
    ¬ s.StepHolds a (s.stepEntry p.index).kind
  frames  : s.FramesSound
  spare   : s.SparesP1

/-- A change that makes no condition of R142 hold but of the steps `D`, with the step lists as they stand. -/
structure State.StepsStand (D : StepSet) (s t : State) : Prop where
  mode   : t.mode = s.mode
  steps  : t.steps = s.steps
  config : ∀ a, (t.area a).config = (s.area a).config
  place  : ∀ a, (t.area a).handover.undated = (s.area a).handover.undated
  store  : t.trip.store = s.trip.store
  sound  : s.FramesSound → t.FramesSound
  holds  : ∀ a k, ¬ D a k → t.StepHolds a k → s.StepHolds a k

theorem State.StepsStand.refl (s : State) : s.StepsStand D s :=
  ⟨rfl, rfl, fun _ => rfl, fun _ => rfl, rfl, id, fun _ _ _ => id⟩

theorem State.StepsStand.trans (h : s.StepsStand D t) (k : t.StepsStand D u) : s.StepsStand D u where
  mode := k.mode.trans h.mode
  steps := k.steps.trans h.steps
  config a := (k.config a).trans (h.config a)
  place a := (k.place a).trans (h.place a)
  store := k.store.trans h.store
  sound f := k.sound (h.sound f)
  holds a i hi x := h.holds a i hi (k.holds a i hi x)

theorem State.StepsStand.mono (h : s.StepsStand D t) (hDE : ∀ a k, D a k → E a k) : s.StepsStand E t :=
  { h with holds := fun a k hk => h.holds a k fun hd => hk (hDE a k hd) }

theorem State.StepsStand.foldl {α : Type} {f : State → α → State} (h : ∀ (s : State) x, s.StepsStand D (f s x)) (l : List α)
    (s : State) : s.StepsStand D (l.foldl f s) := by
  induction l generalizing s with
  | nil => exact .refl s
  | cons x l ih => exact (h s x).trans (ih _)

theorem State.listEnds_congr (h : t.steps = s.steps) (i : StepNo) : t.listEnds i ↔ s.listEnds i := by
  simp only [State.listEnds, State.stepEntry_congr h]

theorem State.SparesP1.same (h : s.SparesP1) (store : t.trip.store = s.trip.store) : t.SparesP1 := fun e g last notify he =>
  h e g last notify (by simpa only [State.tripEntry, store] using he)

theorem State.StepsKept.stand (h : s.StepsKept D) (k : s.StepsStand D t) : t.StepsKept D where
  start hm a hc := by
    rw [State.listEnds_congr k.steps, k.config]
    exact h.start (k.mode.symm.trans hm) a (by rwa [k.config] at hc)
  current a p hp he := by
    rw [← Handover.inProgress_undated, k.place, Handover.inProgress_undated] at hp
    rw [← Handover.position_undated, k.place, Handover.position_undated] at he
    exact (State.listEnds_congr k.steps _).mpr (h.current a p hp he)
  waits a p x y hr hd hk := by
    obtain ⟨x', y', hr'⟩ := Handover.running_of_undated (k.place a) hr
    rw [State.stepEntry_congr k.steps] at hd hk
    exact h.waits a p x' y' hr' hd (k.holds a _ hd hk)
  frames := k.sound h.frames
  spare := h.spare.same k.store

/-- Fewer steps are left out, those that now wait rightly. -/
theorem State.StepsKept.narrow (h : s.StepsKept E)
    (hw : ∀ a p x y, (s.area a).handover = .running p x y → E a (s.stepEntry p.index).kind →
      ¬ D a (s.stepEntry p.index).kind → ¬ s.StepHolds a (s.stepEntry p.index).kind) : s.StepsKept D :=
  { h with
    waits := fun a p x y hr hd => by
      by_cases he : E a (s.stepEntry p.index).kind
      · exact hw a p x y hr he hd
      · exact h.waits a p x y hr he }

theorem State.StepsKept.mono (h : s.StepsKept D) (hDE : ∀ a k, D a k → E a k) : s.StepsKept E :=
  h.narrow fun a _ _ _ _ hd he => absurd (hDE a _ hd) he

theorem State.StepsKept.plus (h : s.StepsKept D) (E : StepSet) : s.StepsKept (D.plus E) := h.mono fun _ _ => .inl

/-- Of an area that is not RUNNING nothing need be left out. -/
theorem State.StepsKept.drop {f : StepKind → Bool} (h : s.StepsKept (D.plus (.of a f)))
    (hr : ∀ p x y, (s.area a).handover ≠ .running p x y) : s.StepsKept D :=
  h.narrow fun b p x y e hd hn => by
    obtain hd | ⟨rfl, -⟩ := hd
    · exact absurd hd hn
    · exact absurd e (hr p x y)

/-- Where every area is STEADY nothing waits. -/
theorem State.StepsKept.ofSteady (steady : ∀ a, (s.area a).handover = .steady)
    (start : s.mode = .run → ∀ a, (s.area a).config.configured → s.listEnds (s.area a).config.start)
    (frames : s.FramesSound) (spare : s.SparesP1) : s.StepsKept D where
  start := start
  current a p hp := by rw [steady a] at hp; cases hp
  waits a p x y hr := by rw [steady a] at hr; cases hr
  frames := frames
  spare := spare

/-! ### An area's record -/

/-- A condition reads the posted frame alone of an area's record. -/
theorem State.stepHolds_modArea {f : Area → Area} (hp : (f (s.area a)).posted = (s.area a).posted) (b : AreaNo) (k : StepKind) :
    (s.modArea a f).StepHolds b k ↔ s.StepHolds b k := by
  have posted : ((s.modArea a f).area b).posted = (s.area b).posted := by
    rw [State.area_modArea]; split
    · subst_vars; exact hp
    · rfl
  cases k with
  | sheetPosted => simp only [State.StepHolds, posted]; rfl
  | review => simp only [State.StepHolds, posted]; rfl
  | seatIn | clearP1 | confirmOut | confirmIn | hold => rfl

theorem State.modArea_stands (f : Area → Area) (h : (f (s.area a)).config = (s.area a).config ∧
      (f (s.area a)).handover.undated = (s.area a).handover.undated ∧ (f (s.area a)).posted = (s.area a).posted ∧
      (f (s.area a)).draft.items = (s.area a).draft.items) : s.StepsStand D (s.modArea a f) := by
  obtain ⟨config, place, posted, draft⟩ := h
  refine ⟨rfl, rfl, fun b => ?_, fun b => ?_, rfl,
    (State.SameSlots.modArea a f s ⟨draft, by rw [posted]⟩).sound, fun b k _ => (State.stepHolds_modArea posted b k).mp⟩
  · rw [State.area_modArea]; split
    · subst_vars; exact config
    · rfl
  · rw [State.area_modArea]; split
    · subst_vars; exact place
    · rfl

/-- The area's record takes another handover, whose list ends and whose step waits rightly. -/
theorem State.StepsKept.modArea (h : s.StepsKept (D.plus (.of a fun _ => true))) (f : Area → Area)
    (hf : (f (s.area a)).config = (s.area a).config ∧ (f (s.area a)).posted = (s.area a).posted ∧
      (f (s.area a)).draft.items = (s.area a).draft.items)
    (current : ∀ p, (f (s.area a)).handover.inProgress → (f (s.area a)).handover.position? = some p → s.listEnds p.index)
    (waits : ∀ p x y, (f (s.area a)).handover = .running p x y → ¬ D a (s.stepEntry p.index).kind →
      ¬ s.StepHolds a (s.stepEntry p.index).kind) : (s.modArea a f).StepsKept D := by
  obtain ⟨config, posted, draft⟩ := hf
  refine ⟨fun hm b hc => ?_, fun b p => ?_, fun b p x y hr hd hk => ?_,
    (State.SameSlots.modArea a f s ⟨draft, by rw [posted]⟩).sound h.frames, h.spare⟩
  · rw [State.area_modArea] at hc ⊢
    split at hc
    · rename_i e
      subst e
      rw [if_pos rfl, config]
      exact h.start hm b (by rwa [config] at hc)
    · rename_i e
      rw [if_neg e]
      exact h.start hm b hc
  · rw [State.area_modArea]
    split
    · exact current p
    · exact h.current b p
  · rw [State.stepHolds_modArea posted] at hk
    rw [State.area_modArea] at hr
    split at hr
    · subst_vars; exact waits p x y hr hd hk
    · rename_i e
      exact h.waits b p x y hr (fun hd' => hd'.elim hd fun hb => e hb.1) hk

/-! ### The handover unit's work on one area -/

theorem Work.setHandover_kept {h : Handover} (k : w.s.StepsKept (D.plus (.of a fun _ => true)))
    (current : ∀ p, h.inProgress → h.position? = some p → w.s.listEnds p.index)
    (waits : ∀ p x y, h = .running p x y → ¬ D a (w.s.stepEntry p.index).kind →
      ¬ w.s.StepHolds a (w.s.stepEntry p.index).kind) : (w.setHandover a h).s.StepsKept D :=
  k.modArea (fun r => { r with handover := h }) ⟨rfl, rfl, rfl⟩ current waits

theorem Work.completeArea_kept (p : Position) (k : w.s.StepsKept (D.plus (.of a fun _ => true))) :
    (w.completeArea a p).s.StepsKept D := by
  refine .stand (s := w.s.modArea a fun r => { r with
    handover := .done p, duty := w.s.mill.incoming.getD w.s.mill.duty, draft := { r.draft with lock := none } })
    (k.modArea _ ⟨rfl, rfl, rfl⟩ nofun nofun) ⟨rfl, rfl, fun _ => rfl, fun _ => rfl, rfl,
      State.SameSlots.sound ⟨fun _ => rfl, fun _ => rfl⟩, fun _ _ _ => id⟩

/-- The entry after one that is not LAST comes to the LAST one by a step less. -/
theorem State.reaches_next {i : StepNo} {m : Nat} (hm : (s.stepEntry ((fun j => (s.stepEntry j).next)^[m] i)).last)
    (hi : (s.stepEntry i).last = false) :
    ∃ n, m = n + 1 ∧ (s.stepEntry ((fun j => (s.stepEntry j).next)^[n] (s.stepEntry i).next)).last := by
  cases m with
  | zero => rw [Function.iterate_zero_apply, hi] at hm; cases hm
  | succ n => exact ⟨n, rfl, by rwa [Function.iterate_succ_apply] at hm⟩

/-- The area enters the step at `q`, RUNNING: where it is not left out, its condition does not hold (R144). -/
theorem Work.enter_kept {q : Position} (k : w.s.StepsKept (D.plus (.of a fun _ => true))) (ends : w.s.listEnds q.index)
    (waits : ¬ D a (w.s.stepEntry q.index).kind → ¬ w.s.StepHolds a (w.s.stepEntry q.index).kind) :
    (w.setHandover a (w.s.entering q Reasons.none)).s.StepsKept D ∧
      ∃ x y, ((w.setHandover a (w.s.entering q Reasons.none)).s.area a).handover = .running q x y := by
  refine ⟨Work.setHandover_kept k (fun p _ e => ?_) fun p x y e => ?_, _, _, (w.setHandover_acts a _).2⟩
  · cases e; exact ends
  · cases e; exact waits

/-- An area that is told to complete its step comes to a step that waits or to DONE, as its list ends within the bound. -/
theorem Work.advance_kept (n : Nat) (hn : n ≤ 32) {p : Position} {x y : Option Deadline}
    (k : w.s.StepsKept (D.plus (.of a fun _ => true))) (hr : (w.s.area a).handover = .running p x y)
    (ends : ∃ m < n, (w.s.stepEntry ((fun j => (w.s.stepEntry j).next)^[m] p.index)).last) :
    (w.advance n a).s.StepsKept D := by
  induction n generalizing w p x y with
  | zero => obtain ⟨m, hm, -⟩ := ends; omega
  | succ n ih =>
    unfold Work.advance
    rw [hr]
    dsimp only
    have said : (if (w.s.stepEntry p.index).notify then w.say (.stepDone a p.ordinal) else w).s = w.s := by split <;> rfl
    generalize (if (w.s.stepEntry p.index).notify then w.say (.stepDone a p.ordinal) else w) = v at said ⊢
    rw [← said] at k ends ⊢
    obtain ⟨m, hm, last⟩ := ends
    split
    · exact v.completeArea_kept p k
    · rename_i hl
      obtain ⟨m, rfl, nextLast⟩ := State.reaches_next last (by simpa using hl)
      generalize (v.s.stepEntry p.index).next = i at nextLast ⊢
      generalize p.ordinal + 1 = o
      obtain ⟨q, rfl, rfl⟩ : ∃ q : Position, q.index = i ∧ q.ordinal = o := ⟨⟨i, o⟩, rfl, rfl⟩
      change Work.s (if (v.setHandover a (v.s.entering q Reasons.none)).s.conditionMet a (v.s.stepEntry q.index).kind then
        Work.advance n a (v.setHandover a (v.s.entering q Reasons.none))
        else v.setHandover a (v.s.entering q Reasons.none)) |>.StepsKept D
      have ends : v.s.listEnds q.index := ⟨m, by omega, nextLast⟩
      split
      · obtain ⟨kept, x', y', runs⟩ := v.enter_kept (k.plus (.of a fun _ => true)) ends fun h => absurd (StepSet.plus_of _ _ _) h
        exact ih (by omega) kept runs ⟨m, by omega, nextLast⟩
      · rename_i hc
        rw [State.conditionMet_iff] at hc
        exact (v.enter_kept k ends fun _ hk => hc (((v.setHandover_sameSteps _).holds _).mpr hk)).1

theorem Work.completeStep_kept {p : Position} {x y : Option Deadline} (k : w.s.StepsKept (D.plus (.of a fun _ => true)))
    (hr : (w.s.area a).handover = .running p x y) : (w.completeStep a).s.StepsKept D := by
  refine Work.advance_kept 32 le_rfl k hr (k.current a p ?_ ?_) <;> rw [hr] <;> rfl

/-- The examination of an area's step of the kinds `f` (R142). -/
theorem Work.examine_kept {f : StepKind → Bool} (k : w.s.StepsKept (D.plus (.of a f))) : (w.examine a f).s.StepsKept D := by
  unfold Work.examine
  split
  case h_1 p x y hr =>
    dsimp only
    split
    · exact Work.completeStep_kept (k.mono fun b _ h => h.imp_right fun h => ⟨h.1, rfl⟩) hr
    · rename_i hc
      refine k.narrow fun b q x' y' e hd hn hk => ?_
      obtain hd | ⟨rfl, hf⟩ := hd
      · exact hn hd
      · rw [hr] at e
        cases e
        rw [hf, Bool.true_and, State.conditionMet_iff] at hc
        exact hc hk
  case h_2 hr | h_3 hr | h_4 hr | h_5 hr => exact k.drop fun p x y e => by rw [hr] at e; cases e

theorem Work.begin_kept (k : w.s.StepsKept D) (hm : w.s.mode = .run) (hc : (w.s.area a).config.configured) :
    (w.begin a).s.StepsKept D := by
  have ends := k.start hm a hc
  unfold Work.begin
  dsimp only
  split
  · rename_i hr
    refine Work.examine_kept (w := { w.setHandover a _ with cover := true }) ?_
    rw [Reasons.isEmpty_iff.mp hr]
    have entered := Work.enter_kept (q := ⟨(w.s.area a).config.start, 1⟩) ((k.plus (.of a fun _ => true)).plus _) ends
      fun h => absurd (StepSet.plus_of _ _ _) h
    exact entered.1
  · rename_i hr
    rw [State.entering, if_neg hr]
    exact Work.setHandover_kept (k.plus _) (fun p _ h => by cases h; exact ends) nofun

/-- A change of the reasons (R149): an area that is resumed has its step examined. -/
theorem Work.setReasons_kept (r : Reasons) (k : w.s.StepsKept D) : (w.setReasons a r).s.StepsKept D := by
  have suspends {p : Position} {x y : Option Nat} (hp : w.s.listEnds p.index) :
      (w.setHandover a (.suspended p x y r)).s.StepsKept D :=
    Work.setHandover_kept (k.plus _) (fun p _ h => by cases h; exact hp) nofun
  unfold Work.setReasons
  split
  case h_1 p x y hr =>
    split
    · exact k
    · exact suspends (k.current a p (by rw [hr]; rfl) (by rw [hr]; rfl))
  case h_2 p x y q hr =>
    have ends : w.s.listEnds p.index := k.current a p (by rw [hr]; rfl) (by rw [hr]; rfl)
    split
    · refine Work.examine_kept (w := (w.setHandover a _).say _) ?_
      exact Work.setHandover_kept ((k.plus _).plus _) (fun q _ h => by cases h; exact ends) fun q _ _ h => by
        cases h; exact fun h => absurd (StepSet.plus_of _ _ _) h
    · exact suspends ends
  all_goals exact k

/-- The reasons of an area are read again, and its step of the kinds `f` is examined (R142, R147). -/
theorem Work.reconsider_kept {f : StepKind → Bool} (k : w.s.StepsKept (D.plus (.of a f))) :
    (w.reconsider a f).s.StepsKept D := by
  unfold Work.reconsider
  split
  · exact Work.examine_kept (Work.setReasons_kept _ k)
  · rename_i h
    exact k.drop fun p x y e => h (by rw [e]; rfl)

theorem Work.pointChanged_kept {p : Point} (k : w.s.StepsKept (D.plus (.of p.area fun i => p.priority == .p1 && i == .clearP1))) :
    (w.pointChanged p).s.StepsKept D := by
  unfold Work.pointChanged
  split
  · exact Work.reconsider_kept (k.mono fun b i h => h.imp_right fun h => ⟨h.1, by simpa using (Bool.and_eq_true_iff.mp h.2).2⟩)
  · rename_i hp
    exact k.mono fun b i h => h.elim id fun h => absurd (Bool.and_eq_true_iff.mp h.2).1 (by simpa using hp)

theorem Work.halt_kept (why : AbortReason) (k : w.s.StepsKept D) : (w.halt a why).s.StepsKept D := by
  have halted (p : Position) (x : Abort) :
      ((w.setHandover a (.halted p)).s.modArea a fun r => { r with abort := some x }).StepsKept D :=
    (Work.setHandover_kept (k.plus _) (fun _ h => by cases h) fun _ _ _ h => by cases h).stand
      (State.modArea_stands (fun r => { r with abort := some x }) ⟨rfl, rfl, rfl, rfl⟩)
  unfold Work.halt
  split
  case h_1 | h_2 => exact halted _ _
  all_goals exact k

/-! ### Its work over several areas -/

theorem Work.tripsChanged_kept (k : w.s.StepsKept D) : w.tripsChanged.s.StepsKept D := by
  unfold Work.tripsChanged
  generalize allAreas = l
  induction l generalizing w with
  | nil => exact k
  | cons a l ih => exact ih (Work.reconsider_kept (k.plus _))

/-- The SEAT_IN steps of the areas `f` are examined (R142). -/
theorem Work.seatsChanged_kept {f : AreaNo → Bool} (k : w.s.StepsKept (D.plus (.seatsIn f))) :
    (w.seatsChanged f).s.StepsKept D := by
  have pass (l : List AreaNo) (w : Work) (k : w.s.StepsKept (D.plus fun b i => b ∈ l ∧ f b ∧ i = .seatIn)) :
      (l.foldl (fun w a => if f a then w.examine a (· == .seatIn) else w) w).s.StepsKept D := by
    induction l generalizing w with
    | nil => exact k.mono fun b i h => h.elim id fun h => absurd h.1 List.not_mem_nil
    | cons a l ih =>
      refine ih _ ?_
      dsimp only
      split
      · refine Work.examine_kept (k.mono fun b i h => ?_)
        rcases h with h | ⟨hb, h⟩
        · exact .inl (.inl h)
        · rcases List.mem_cons.mp hb with rfl | hb
          · exact .inr ⟨rfl, by simp [h.2]⟩
          · exact .inl (.inr ⟨hb, h⟩)
      · rename_i ha
        refine k.mono fun b i h => h.imp_right fun ⟨hb, h⟩ => ⟨?_, h⟩
        exact (List.mem_cons.mp hb).resolve_left fun e => ha (e ▸ h.1)
  exact pass allAreas w (k.mono fun b _ h => h.imp_right fun h => ⟨mem_allAreas b, h⟩)

/-- Every configured area of a list begins its step list (R143). -/
theorem Work.foldl_begin_kept (l : List AreaNo) (k : w.s.StepsKept D) (hm : w.s.mode = .run)
    (hc : ∀ a ∈ l, (w.s.area a).config.configured) : (l.foldl (fun w a => w.begin a) w).s.StepsKept D := by
  induction l generalizing w with
  | nil => exact k
  | cons a l ih =>
    have frames := w.begin_frames a
    have configured (b : AreaNo) (hb : b ∈ l) : ((w.begin a).s.area b).config.configured := by
      rw [frames.config]
      exact hc b (List.mem_cons_of_mem a hb)
    have begun : (w.begin a).s.StepsKept D := Work.begin_kept k hm (hc a List.mem_cons_self)
    rw [← frames.mode] at hm
    rw [List.foldl_cons]
    generalize w.begin a = v at begun hm configured ⊢
    exact ih begun hm configured

end Sys2Proof.Machine

/-!
What makes no condition of R142 hold: the notices and outputs of an event, its re-derivations, and points that come into view.
The end of an event keeps the rule of the condition steps: the shift change leaves every area STEADY, and an exchange has the
SHEET_POSTED or REVIEW step of its area examined (R132).
-/

namespace Sys2Proof.Machine

variable {s t u : State} {D E : StepSet} {a : AreaNo} {w : Work}

/-! ### What the conditions read -/

/-- An unhidden point of priority 1, NEW or FADED: a CLEAR_P1 step of its area waits for it (R142). -/
structure Point.Presses (p : Point) : Prop where
  priority : p.priority = .p1
  hidden   : p.hidden = false
  ann      : p.ann = .new ∨ p.ann = .faded

theorem State.clearP1_iff : s.StepHolds a .clearP1 ↔ ∀ n, (s.point n).area = a → ¬ (s.point n).Presses := by
  constructor
  · intro h n ha hn
    obtain ⟨notNew, notFaded⟩ := h n ha hn.priority hn.hidden
    exact hn.ann.elim notNew notFaded
  · intro h n ha priority hidden
    exact ⟨fun e => h n ha ⟨priority, hidden, .inl e⟩, fun e => h n ha ⟨priority, hidden, .inr e⟩⟩

theorem Point.hidden_eq_false {p : Point} :
    p.hidden = false ↔ p.shelved = false ∧ p.outOfService = false ∧ p.suppression = [] := by
  simp [Point.hidden, and_assoc]

theorem Seat.seated_iff (x : Seat) (n : Nat) : (∃ d, x = .seated n d) ↔ x.isSeated ∧ x.operator? = some n := by
  cases x <;> simp [Seat.isSeated, Seat.operator?]

theorem State.seatIn_iff : s.StepHolds a .seatIn ↔ ∃ c n o, ((s.console c).seat.isSeated ∧ (s.console c).seat.operator? = some n) ∧
    s.operator? n = some o ∧ s.mill.incoming = some o.crew ∧ o.qualified a ∧ s.routes c a := by
  simp only [← Seat.seated_iff]
  constructor
  · rintro ⟨c, n, d, o, h, rest⟩
    exact ⟨c, n, o, ⟨d, h⟩, rest⟩
  · rintro ⟨c, n, o, ⟨d, h⟩, rest⟩
    exact ⟨c, n, d, o, h, rest⟩

theorem State.seatIn_congr (routing : s.SameRouting t)
    (operators : ∀ c n, (s.console c).seat.operator? = some n → t.operator? n = s.operator? n)
    (incoming : t.mill.incoming = s.mill.incoming) : t.StepHolds a .seatIn → s.StepHolds a .seatIn := by
  rw [State.seatIn_iff, State.seatIn_iff]
  rintro ⟨c, n, o, ⟨seated, operator⟩, ho, rest⟩
  rw [routing.seated] at seated
  rw [routing.operator] at operator
  rw [incoming, State.routes_congr routing] at rest
  exact ⟨c, n, o, ⟨seated, operator⟩, operators c n operator ▸ ho, rest⟩

/-- `t` has the step lists, the sheets and the shift number of `s`, and every handover where it was. -/
structure State.SameGround (s t : State) : Prop where
  mode   : t.mode = s.mode
  steps  : t.steps = s.steps
  store  : t.trip.store = s.trip.store
  pool   : t.pool = s.pool
  shift  : t.mill.shift = s.mill.shift
  config : ∀ a, (t.area a).config = (s.area a).config
  place  : ∀ a, (t.area a).handover.undated = (s.area a).handover.undated
  posted : ∀ a, (t.area a).posted = (s.area a).posted
  draft  : ∀ a, (t.area a).draft.items = (s.area a).draft.items

theorem State.SameGround.ofAreas (mode : t.mode = s.mode) (steps : t.steps = s.steps) (store : t.trip.store = s.trip.store)
    (pool : t.pool = s.pool) (shift : t.mill.shift = s.mill.shift) (areas : t.areas = s.areas) : s.SameGround t := by
  have area (b : AreaNo) : t.area b = s.area b := by simp only [State.area, areas]
  refine ⟨mode, steps, store, pool, shift, fun b => ?_, fun b => ?_, fun b => ?_, fun b => ?_⟩ <;> rw [area]

/-- On the same ground a change makes no condition hold where it makes no SEAT_IN condition hold and every point that presses
goes on to. -/
theorem State.SameGround.stands (g : s.SameGround t)
    (seats : ∀ a, ¬ D a .seatIn → t.StepHolds a .seatIn → s.StepHolds a .seatIn)
    (points : ∀ n, ¬ D (s.point n).area .clearP1 → (s.point n).Presses →
      (t.point n).area = (s.point n).area ∧ (t.point n).Presses) : s.StepsStand D t where
  mode := g.mode
  steps := g.steps
  config := g.config
  place := g.place
  store := g.store
  sound := State.SameSlots.sound ⟨fun b => by rw [State.framed, g.posted, g.draft]; rfl, fun i => by rw [State.item, g.pool]; rfl⟩
  holds b k hd hk := by
    have item (i : SlotNo) : t.item i = s.item i := by simp only [State.item, g.pool]
    cases k with
    | seatIn => exact seats b hd hk
    | sheetPosted => simpa only [State.StepHolds, g.posted, g.shift] using hk
    | review => simpa only [State.StepHolds, g.posted, item] using hk
    | clearP1 =>
      rw [State.clearP1_iff] at hk ⊢
      rintro n rfl hn
      obtain ⟨area, presses⟩ := points n hd hn
      exact hk n area presses
    | confirmOut | confirmIn | hold => exact hk

/-- On the same ground, with the same seats. -/
theorem State.SameGround.points (g : s.SameGround t) (consoles : t.consoles = s.consoles) (roster : t.roster = s.roster)
    (incoming : t.mill.incoming = s.mill.incoming)
    (points : ∀ n, ¬ D (s.point n).area .clearP1 → (s.point n).Presses →
      (t.point n).area = (s.point n).area ∧ (t.point n).Presses) : s.StepsStand D t :=
  g.stands (fun _ _ => State.seatIn_congr (.ofConsoles consoles) (fun _ _ _ => State.operator?_congr roster _) incoming) points

/-- On the same ground, with the same points and the same routing. -/
theorem State.SameGround.routing (g : s.SameGround t) (r : s.SameRouting t) (roster : t.roster = s.roster)
    (incoming : t.mill.incoming = s.mill.incoming) (points : t.points = s.points) : s.StepsStand D t :=
  g.stands (fun _ _ => State.seatIn_congr r (fun _ _ _ => State.operator?_congr roster _) incoming) fun n _ h => by
    have same : t.point n = s.point n := by simp only [State.point, points]
    exact ⟨by rw [same], same ▸ h⟩

/-- A change of nothing that the steps hang on. -/
theorem State.StepsStand.ofRest (mode : t.mode = s.mode) (steps : t.steps = s.steps) (store : t.trip.store = s.trip.store)
    (pool : t.pool = s.pool) (mill : t.mill = s.mill) (roster : t.roster = s.roster) (consoles : t.consoles = s.consoles)
    (areas : t.areas = s.areas) (points : t.points = s.points) : s.StepsStand D t :=
  State.SameGround.routing (.ofAreas mode steps store pool (by rw [mill]) areas) (.ofConsoles consoles) roster (by rw [mill]) points

/-! ### Notices and outputs -/

theorem State.queue_stands (q : NoticeQueue) (s : State) : s.StepsStand D { s with queue := q } :=
  .ofRest rfl rfl rfl rfl rfl rfl rfl rfl rfl

theorem State.notify_stands (k : NoticeKind) (s : State) : s.StepsStand D (s.notify k) := by
  rw [s.notify_eq k]
  exact s.queue_stands _

theorem State.notifyAll_stands (ks : List NoticeKind) (s : State) : s.StepsStand D (s.notifyAll ks) := by
  rw [s.notifyAll_eq ks]
  exact s.queue_stands _

theorem State.driveOutputs_stands (s : State) : s.StepsStand D s.driveOutputs :=
  State.SameGround.routing (.ofAreas rfl rfl rfl rfl rfl rfl) s.driveOutputs_routing rfl rfl rfl

theorem State.annunciate_stands (s : State) : s.StepsStand D s.annunciate := by
  have banners : s.StepsStand D s.setBanners :=
    State.SameGround.routing (.ofAreas rfl rfl rfl rfl rfl rfl) s.setBanners_routing rfl rfl rfl
  exact (banners.trans (State.notifyAll_stands _ _)).trans (State.driveOutputs_stands _)

/-- The areas' records change beside what the steps hang on. -/
theorem State.areas_stands (v : Vector Area 32) (h : ∀ b : AreaNo, v[b].config = (s.area b).config ∧
    v[b].handover.undated = (s.area b).handover.undated ∧ v[b].posted = (s.area b).posted ∧
    v[b].draft.items = (s.area b).draft.items) : s.StepsStand D { s with areas := v } := by
  refine State.SameGround.routing ⟨rfl, rfl, rfl, rfl, rfl, fun b => ?_, fun b => ?_, fun b => ?_, fun b => ?_⟩
    (.ofConsoles rfl) rfl rfl rfl <;> obtain ⟨config, place, posted, draft⟩ := h b
  exacts [config, place, posted, draft]

theorem State.setCoverage_stands (s : State) : s.StepsStand D s.setCoverage :=
  s.areas_stands _ fun b => by
    have area : (Vector.ofFn fun a => { s.area a with covered := s.coveredNow a })[b]
      = { s.area b with covered := s.coveredNow b } := s.area_setCoverage b
    rw [area]
    exact ⟨rfl, rfl, rfl, rfl⟩

theorem State.rederiveCoverage_stands (s : State) : s.StepsStand D s.rederiveCoverage :=
  s.setCoverage_stands.trans (State.notifyAll_stands _ _)

/-! ### Points -/

/-- A point changes, and where it presses it goes on to, unless the CLEAR_P1 step of its area is left out. -/
theorem State.setPoint_stands {n : PointNo} {p : Point}
    (h : ¬ D (s.point n).area .clearP1 → (s.point n).Presses → p.area = (s.point n).area ∧ p.Presses) :
    s.StepsStand D (s.setPoint n p) := by
  refine State.SameGround.points (.ofAreas rfl rfl rfl rfl rfl rfl) rfl rfl rfl fun m hd hm => ?_
  rw [State.point_setPoint]
  split
  · subst_vars; exact h hd hm
  · exact ⟨rfl, hm⟩

/-- A point that does not press, or whose area's CLEAR_P1 step is left out, changes. -/
theorem State.setPoint_free {n : PointNo} {p : Point} (h : ¬ D (s.point n).area .clearP1 → ¬ (s.point n).Presses) :
    s.StepsStand D (s.setPoint n p) :=
  State.setPoint_stands fun hd hn => absurd hn (h hd)

theorem State.addReason_stands {n : PointNo} {f : Point → Point} (h : ¬ D (s.point n).area .clearP1 → ¬ (s.point n).Presses) :
    s.StepsStand D (s.addReason n f) := by
  rw [State.addReason_eq]
  exact State.setPoint_free h

theorem State.raiseCounter_stands (k : Nat) (s : State) : s.StepsStand D { s with raiseCounter := k } :=
  .ofRest rfl rfl rfl rfl rfl rfl rfl rfl rfl

theorem State.becomeNew_stands {n : PointNo} {marked : Bool} {p : Point}
    (h : (s.point n).Presses → p.area = (s.point n).area ∧ p.priority = (s.point n).priority ∧ p.hidden = false) :
    s.StepsStand D (s.becomeNew n marked p) := by
  refine .trans (s.raiseCounter_stands (nextSeq s.raiseCounter)) (State.setPoint_stands fun _ hn => ?_)
  obtain ⟨area, priority, hidden⟩ := h hn
  exact ⟨area, priority.trans hn.priority, hidden, .inl rfl⟩

/-- A hiding reason leaves a point (R15), which then comes into view or stays as it is. -/
theorem State.removeReason_stands {n : PointNo} {f : Point → Point} {marked : Bool}
    (h : (s.point n).Presses → (f (s.point n)).area = (s.point n).area ∧ (f (s.point n)).Presses) :
    s.StepsStand D (s.removeReason n f marked) := by
  unfold State.removeReason
  dsimp only
  split
  · rename_i hc
    refine State.becomeNew_stands fun hn => ?_
    rw [hn.hidden] at hc
    cases hc
  · exact State.setPoint_stands fun _ => h

theorem State.dropShelf_stands (r : Shelf) (s : State) : s.StepsStand D (s.dropShelf r) := by
  have list : s.StepsStand D { s with shelves := s.shelves.filter (· != r) } :=
    .ofRest rfl rfl rfl rfl rfl rfl rfl rfl rfl
  exact list.trans (State.modArea_stands _ ⟨rfl, rfl, rfl, rfl⟩)

theorem State.endShelf_stands (r : Shelf) (s : State) : s.StepsStand D (s.endShelf r) := by
  refine (s.dropShelf_stands r).trans (State.removeReason_stands fun hn => ⟨rfl, hn.priority, ?_, hn.ann⟩)
  obtain ⟨-, service, set⟩ := Point.hidden_eq_false.mp hn.hidden
  exact Point.hidden_eq_false.mpr ⟨rfl, service, set⟩

theorem State.countShelves_stands (s : State) : s.StepsStand D s.countShelves := by
  have list : s.StepsStand D { s with shelves := s.shelves.map Shelf.countDown } :=
    .ofRest rfl rfl rfl rfl rfl rfl rfl rfl rfl
  refine list.trans (State.StepsStand.foldl (fun s r => ?_) _ _)
  exact ((s.endShelf_stands r).trans (State.notify_stands _ _)).trans (State.annunciate_stands _)

/-! ### The shift change and the end of an event, up to the sheet store's pass -/

theorem State.changeCrews_kept (k : Crew) (h : s.StepsKept D) : (s.changeCrews k).StepsKept D := by
  have area (b : AreaNo) : (s.changeCrews k).area b = { s.area b with duty := k, handover := .steady } := by
    simp [State.area, State.changeCrews]
  refine .ofSteady (fun b => by rw [area]) (fun hm b hc => ?_) ?_ h.spare
  · rw [area] at hc ⊢
    exact h.start hm b hc
  · have slots : s.SameSlots (s.changeCrews k) := ⟨fun b => by rw [State.framed, area, State.framed], fun _ => rfl⟩
    exact slots.sound h.frames

theorem State.shiftChange_kept (h : s.StepsKept D) : s.shiftChange.StepsKept D := by
  unfold State.shiftChange
  exact (State.changeCrews_kept _ h).stand ((((State.countShelves_stands _).trans (State.notify_stands _ _)).trans
    (State.rederiveCoverage_stands _)).trans (State.driveOutputs_stands _))

theorem Work.settle_kept (h : w.s.StepsKept D) : w.settle.StepsKept D := by
  have covered : State.StepsStand D w.s (if w.cover then w.s.rederiveCoverage else w.s) := by
    split
    · exact w.s.rederiveCoverage_stands
    · exact .refl w.s
  have told := h.stand ((covered.trans (State.annunciate_stands _)).trans (State.notifyAll_stands w.out _))
  unfold Work.settle
  dsimp only
  split
  · exact State.shiftChange_kept told
  · exact told

end Sys2Proof.Machine

/-!
The sheet store's part in the condition steps (R132, R142): a change of the pool or of a frame makes no REVIEW condition hold of
another area, as no slot lies on two frames; and the end of an event keeps the rule of the condition steps.
-/

namespace Sys2Proof.Machine

variable {s t u : State} {D E : StepSet} {a : AreaNo} {w : Work}

/-! ### The pool -/

/-- The pool changes, no item on a frame being lost or, where its area's REVIEW step is not left out, reviewed. -/
theorem State.pool_stands (v : Vector (Option Item) 1024) (n : Nat) (h : ∀ b, ∀ j ∈ s.framed b, ∀ x, s.item j = some x →
    ∃ y, v[j] = some y ∧ (¬ D b .review → y.reviewed ≠ none → x.reviewed ≠ none)) :
    s.StepsStand D { s with pool := v, freeCount := n } where
  mode := rfl
  steps := rfl
  config _ := rfl
  place _ := rfl
  store := rfl
  sound f := ⟨f.once, f.apart, fun b j hj => by
    obtain ⟨x, hx⟩ := Option.isSome_iff_exists.mp (f.held b j hj)
    obtain ⟨y, hy, -⟩ := h b j hj x hx
    exact Option.isSome_iff_exists.mpr ⟨y, hy⟩⟩
  holds b k hd hk := by
    cases k with
    | review =>
      intro i hi x hx
      obtain ⟨y, hy, reviewed⟩ := h b i (List.mem_append_right _ hi) x hx
      exact reviewed hd (hk i hi y hy)
    | seatIn | sheetPosted | clearP1 | confirmOut | confirmIn | hold => exact hk

/-- A slot that no frame lists changes. -/
theorem State.slot_stands {i : SlotNo} (x : Option Item) (n : Nat) (hi : ∀ b, i ∉ s.framed b) :
    s.StepsStand D { s with pool := s.pool.set i x, freeCount := n } :=
  State.pool_stands _ n fun b j hj y hy => by
    have other : i.val ≠ j.val := fun e => hi b (Fin.ext e ▸ hj)
    refine ⟨y, ?_, fun _ => id⟩
    rw [← hy]
    simp [State.item, other]

theorem State.freeSlots_stands (l : List SlotNo) (h : ∀ i ∈ l, ∀ b, i ∉ s.framed b) : s.StepsStand D (s.freeSlots l) := by
  induction l generalizing s with
  | nil => exact .refl s
  | cons i l ih =>
    have first : s.StepsStand D (s.freeSlot i) := State.slot_stands none _ (h i List.mem_cons_self)
    exact first.trans (ih fun j hj => h j (List.mem_cons_of_mem i hj))

/-- An item changes, and is reviewed only where no REVIEW step hangs on it but of those left out. -/
theorem State.modItem_stands {i : SlotNo} {f : Item → Item}
    (h : ∀ b, i ∈ s.framed b → ¬ D b .review → ∀ x, s.item i = some x → (f x).reviewed ≠ none → x.reviewed ≠ none) :
    s.StepsStand D (s.modItem i f) :=
  State.pool_stands _ s.freeCount fun b j hj x hx => by
    by_cases hij : i = j
    · subst hij
      exact ⟨f x, by simp [hx], fun hd => h b hj hd x hx⟩
    · refine ⟨x, ?_, fun _ => id⟩
      rw [← hx]
      simp [State.item, Fin.val_ne_of_ne hij]

theorem State.clearReviews_stands (l : List SlotNo) (s : State) : s.StepsStand D (s.clearReviews l) :=
  State.StepsStand.foldl (fun _ _ => State.modItem_stands fun _ _ _ _ _ h => absurd rfl h) l s

/-! ### The frames -/

theorem State.framed_modArea (f : Area → Area) (b : AreaNo) : (s.modArea a f).framed b =
    if b = a then (f (s.area a)).draft.items ++ (f (s.area a)).posted.items else s.framed b := by
  unfold State.framed
  rw [State.area_modArea]
  split <;> rfl

/-- An area's frames list slots that they listed before, or held ones that no frame lists. -/
theorem State.FramesSound.modArea (h : s.FramesSound) {f : Area → Area} {l : List SlotNo}
    (hl : (f (s.area a)).draft.items ++ (f (s.area a)).posted.items = l) (once : l.Nodup)
    (held : ∀ i ∈ l, i ∈ s.framed a ∨ (s.item i).isSome ∧ ∀ b, i ∉ s.framed b) : (s.modArea a f).FramesSound := by
  have framed (b : AreaNo) : (s.modArea a f).framed b = if b = a then l else s.framed b := by
    rw [State.framed_modArea, hl]
  have other {b : AreaNo} {i : SlotNo} (hi : i ∈ l) (hb : i ∈ s.framed b) : b = a :=
    (held i hi).elim (h.apart b a i hb) fun out => absurd hb (out.2 b)
  refine ⟨fun b => ?_, fun b c i hb hc => ?_, fun b i hb => ?_⟩
  · rw [framed]; split
    · exact once
    · exact h.once b
  · rw [framed] at hb hc
    split at hb <;> split at hc
    · subst_vars; rfl
    · rename_i e _; exact e.trans (other hb hc).symm
    · rename_i _ e; exact (other hc hb).trans e.symm
    · exact h.apart b c i hb hc
  · rw [framed] at hb
    split at hb
    · exact (held i hb).elim (h.held a i) fun out => out.1
    · exact h.held b i hb

/-- An area's posted frame changes, its own SHEET_POSTED and REVIEW steps left out. -/
theorem State.posted_stands {f : Area → Area} (sheet : D a .sheetPosted) (review : D a .review)
    (config : (f (s.area a)).config = (s.area a).config) (place : (f (s.area a)).handover = (s.area a).handover)
    (sound : (s.modArea a f).FramesSound) : s.StepsStand D (s.modArea a f) where
  mode := rfl
  steps := rfl
  config b := by
    rw [State.area_modArea]; split
    · subst_vars; exact config
    · rfl
  place b := by
    rw [State.area_modArea]; split
    · subst_vars; rw [place]
    · rfl
  store := rfl
  sound _ := sound
  holds b k hd hk := by
    have posted (hb : b ≠ a) : ((s.modArea a f).area b).posted = (s.area b).posted := by
      rw [State.area_modArea, if_neg hb]
    cases k with
    | sheetPosted =>
      simp only [State.StepHolds, posted fun e => hd (e ▸ sheet)] at hk
      exact hk
    | review =>
      simp only [State.StepHolds, posted fun e => hd (e ▸ review)] at hk
      exact hk
    | seatIn | clearP1 | confirmOut | confirmIn | hold => exact hk

theorem State.FramesSound.unlisted (h : s.FramesSound) {i : SlotNo} (hi : s.item i = none) (b : AreaNo) : i ∉ s.framed b :=
  fun hb => by have held := h.held b i hb; rw [hi] at held; cases held

/-- An item that an exchange captures takes a free slot (R133). -/
theorem State.capture_stands (k : ItemKind) (h : s.FramesSound) (sheet : D a .sheetPosted) (review : D a .review) :
    s.StepsStand D (s.capture a k) := by
  unfold State.capture
  split
  · rename_i i hi
    have free := h.unlisted (State.lowestFree_some.mp hi).1
    have placed : s.StepsStand D (s.placeItem i { kind := k, author := none, created := s.now, reviewed := none }) :=
      State.slot_stands _ _ free
    have held : ((s.placeItem i { kind := k, author := none, created := s.now, reviewed := none }).item i).isSome := by
      simp [State.item, State.placeItem]
    have sound := placed.sound h
    have unlisted (b : AreaNo) :
      i ∉ (s.placeItem i { kind := k, author := none, created := s.now, reviewed := none }).framed b := free b
    generalize s.placeItem i { kind := k, author := none, created := s.now, reviewed := none } = v at *
    refine placed.trans (State.posted_stands sheet review rfl rfl (sound.modArea (List.append_assoc _ _ _).symm ?_ ?_))
    · exact List.nodup_append.mpr ⟨sound.once a, List.nodup_singleton i, fun j hj m hm e =>
        unlisted a (by rw [List.mem_singleton.mp hm] at e; exact e ▸ hj)⟩
    · intro j hj
      rcases List.mem_append.mp hj with hj | hj
      · exact .inl hj
      · exact .inr (List.mem_singleton.mp hj ▸ ⟨held, unlisted⟩)
  · exact .refl s

theorem State.captureAll_stands (l : List ItemKind) (h : s.FramesSound) (sheet : D a .sheetPosted) (review : D a .review) :
    s.StepsStand D (l.foldl (fun s k => s.capture a k) s) := by
  induction l generalizing s with
  | nil => exact .refl s
  | cons k l ih =>
    have first := State.capture_stands k h sheet review
    rw [List.foldl_cons]
    generalize s.capture a k = v at first ⊢
    exact first.trans (ih (first.sound h))

/-- The sheet store's part of an exchange of area `a` bears on the SHEET_POSTED and REVIEW steps of `a` alone (R132). -/
theorem State.swapSheets_stands (h : s.FramesSound) (sheet : D a .sheetPosted) (review : D a .review) :
    s.StepsStand D (s.swapSheets a) := by
  obtain ⟨-, once, apart⟩ := List.nodup_append.mp (h.once a)
  have drafts := (List.nodup_append.mp (h.once a)).1
  have swapped : s.StepsStand D (s.modArea a Area.swapFrames) :=
    State.posted_stands sheet review rfl rfl
      (h.modArea (l := (s.area a).draft.items) rfl drafts fun i hi => .inl (List.mem_append_left _ hi))
  have freed : (s.modArea a Area.swapFrames).StepsStand D ((s.modArea a Area.swapFrames).freeSlots (s.area a).posted.items) := by
    refine State.freeSlots_stands _ fun i hi b hb => ?_
    rw [State.framed_modArea] at hb
    split at hb
    · exact apart i hb i hi rfl
    · rename_i e; exact e (h.apart b a i hb (List.mem_append_right _ hi))
  unfold State.swapSheets
  dsimp only
  have cleared := (swapped.trans freed).trans (State.clearReviews_stands (s.area a).draft.items _)
  have captured := cleared.trans (State.captureAll_stands (s.captures a) (cleared.sound h) sheet review)
  have sound := captured.sound h
  exact captured.trans (State.posted_stands sheet review rfl rfl
    (sound.modArea rfl (sound.once a) fun i hi => .inl hi))

/-! ### The pass and the end of an event -/

theorem State.exchange_kept (a : AreaNo) (h : s.StepsKept D) : (s.exchange a).StepsKept D := by
  have swapped : s.StepsStand (D.plus (.of a fun k => k == .sheetPosted || k == .review)) (s.swapSheets a) :=
    State.swapSheets_stands h.frames (.inr ⟨rfl, rfl⟩) (.inr ⟨rfl, rfl⟩)
  have told := (h.plus _).stand (swapped.trans (State.notify_stands (.sheetPosted a) _))
  unfold State.exchange
  exact Work.settle_kept (Work.examine_kept (w := Work.mk _ [] false false false) told)

theorem State.reportShort_stands (a : AreaNo) (s : State) : s.StepsStand D (s.reportShort a) := by
  unfold State.reportShort
  split
  · exact .refl s
  · exact (State.modArea_stands _ ⟨rfl, rfl, rfl, rfl⟩).trans (State.notify_stands _ _)

theorem State.examineSheet_kept (a : AreaNo) (h : s.StepsKept D) : (s.examineSheet a).1.StepsKept D := by
  unfold State.examineSheet
  split
  · split
    · exact State.exchange_kept a h
    · exact h.stand (s.reportShort_stands a)
  · exact h

theorem State.passOnce_kept (h : s.StepsKept D) : s.passOnce.1.StepsKept D := by
  have pass (l : List AreaNo) (x : State × Bool) (h : x.1.StepsKept D) :
      (l.foldl (fun x a => let y := x.1.examineSheet a; (y.1, x.2 || y.2)) x).1.StepsKept D := by
    induction l generalizing x with
    | nil => exact h
    | cons a l ih => exact ih _ (State.examineSheet_kept a h)
  exact pass allAreas (s, false) h

theorem State.passes_kept (n : Nat) (h : s.StepsKept D) : (s.passes n).StepsKept D := by
  induction n generalizing s with
  | zero => exact h
  | succ n ih =>
    unfold State.passes
    dsimp only
    split
    · exact ih (State.passOnce_kept h)
    · exact State.passOnce_kept h

/-- The end of an event keeps the rule (R156, R130). -/
theorem Work.finish_kept (after : List NoticeKind) (h : w.s.StepsKept D) : (w.finish after).StepsKept D := by
  have told := (Work.settle_kept h).stand (State.notifyAll_stands after _)
  unfold Work.finish
  dsimp only
  split
  · exact State.passes_kept 33 told
  · exact told

end Sys2Proof.Machine

/-!
The consoles' part in the condition steps: whoever is seated has the SEAT_IN steps of the areas examined that the console routes,
and a SIGN_OFF those of every area (R142). A presence deadline has none examined, and leaves the SEAT_IN steps out.
-/

namespace Sys2Proof.Machine

variable {s t u : State} {D E : StepSet} {a : AreaNo} {w : Work} {c : ConsoleNo} {n : Nat}

/-! ### Consoles and operators -/

/-- A console's record changes beside its routing and who is seated there. -/
theorem State.modConsole_stands (c : ConsoleNo) (f : Console → Console) (s : State)
    (h : (f (s.console c)).config = (s.console c).config ∧ (f (s.console c)).seat.operator? = (s.console c).seat.operator? ∧
      (f (s.console c)).seat.isSeated = (s.console c).seat.isSeated) : s.StepsStand D (s.modConsole c f) := by
  refine State.SameGround.routing (.ofAreas rfl rfl rfl rfl rfl rfl) (fun b => ?_) rfl rfl rfl
  rw [State.console_modConsole]
  split
  · subst_vars; exact h
  · exact ⟨rfl, rfl, rfl⟩

/-- The conditions read an operator's number, crew and qualifications alone. -/
theorem State.modOperator_stands (n : Nat) (f : Operator → Operator) (s : State)
    (h : ∀ o, (f o).number = o.number ∧ (f o).crew = o.crew ∧ (f o).quals = o.quals) : s.StepsStand D (s.modOperator n f) := by
  refine State.SameGround.stands (.ofAreas rfl rfl rfl rfl rfl rfl) (fun a _ hk => ?_) fun _ _ h => ⟨rfl, h⟩
  rw [State.seatIn_iff] at hk ⊢
  obtain ⟨c, m, o, seat, ho, incoming, qualified, routed⟩ := hk
  rw [State.operator?_modOperator n m f fun o e => (h o).1.trans e] at ho
  split at ho
  · obtain ⟨p, hp, rfl⟩ := Option.map_eq_some_iff.mp ho
    obtain ⟨-, crew, quals⟩ := h p
    rw [crew] at incoming
    rw [Operator.qualified, quals] at qualified
    exact ⟨c, m, p, seat, hp, incoming, qualified, routed⟩
  · exact ⟨c, m, o, seat, ho, incoming, qualified, routed⟩

/-- Consoles and operators change with every SEAT_IN step left out. -/
theorem State.SameGround.seatsAside (g : s.SameGround t) (points : t.points = s.points) (h : ∀ a, D a .seatIn) :
    s.StepsStand D t :=
  g.stands (fun a hd => absurd (h a) hd) fun n _ hn => by
    have same : t.point n = s.point n := by simp only [State.point, points]
    exact ⟨by rw [same], same ▸ hn⟩

/-! ### Seating -/

/-- No console routes an area that it did not route, by the seating of an operator. -/
theorem State.routes_of_seat {b : ConsoleNo} (h : (s.seat c n).routes b a) : s.routes b a := by
  have config (d : ConsoleNo) : ((s.seat c n).console d).config = (s.console d).config := by
    rw [State.console_seat]
    split
    · subst_vars; rfl
    · rfl
  have seated (d : ConsoleNo) (e : ((s.seat c n).console d).seat.isSeated = false) : (s.console d).seat.isSeated = false := by
    rw [State.console_seat] at e
    split at e
    · cases e
    · exact e
  simp only [State.routes, Console.ownRouting, config, Bool.and_eq_true, Bool.or_eq_true, List.any_eq_true,
    Bool.not_eq_true'] at h ⊢
  obtain ⟨configured, routed⟩ := h
  exact ⟨configured, routed.imp_right fun ⟨d, hd, ⟨fallback, absent⟩, own⟩ => ⟨d, hd, ⟨fallback, seated d absent⟩, own⟩⟩

/-- An operator is seated: the SEAT_IN condition comes to hold of areas that the console now routes alone. -/
theorem State.seat_stands (c : ConsoleNo) (n : Nat) (s : State) :
    s.StepsStand (D.plus (.seatsIn ((s.seat c n).routes c))) (s.seat c n) := by
  refine State.SameGround.stands (.ofAreas rfl rfl rfl rfl rfl rfl) (fun a hd hk => ?_) fun _ _ h => ⟨rfl, h⟩
  rw [State.seatIn_iff] at hk ⊢
  obtain ⟨b, m, o, seat, ho, incoming, qualified, routed⟩ := hk
  by_cases hb : b = c
  · subst hb; exact absurd (.inr ⟨routed, rfl⟩) hd
  · rw [State.console_seat, if_neg hb] at seat
    exact ⟨b, m, o, seat, ho, incoming, qualified, State.routes_of_seat routed⟩

/-- The deadline of a SEATED console is set again (R35). -/
theorem State.reseat_stands {d : Option Deadline} (h : (s.console c).seat = .seated n d) : s.StepsStand D (s.seat c n) :=
  s.modConsole_stands c _ ⟨rfl, by rw [h]; rfl, by rw [h]; rfl⟩

theorem State.revive_kept (c : ConsoleNo) (n : Nat) (h : s.StepsKept D) : (s.revive c n).StepsKept D := by
  unfold State.revive
  dsimp only
  have routes : ((s.seat c n).notify (.consolePresent c)).routes c = (s.seat c n).routes c := by
    rw [State.notify_eq]; rfl
  rw [routes]
  have seated := (h.plus _).stand ((s.seat_stands c n).trans (State.notify_stands (.consolePresent c) _))
  exact Work.finish_kept [] (Work.seatsChanged_kept (w := { s := _, cover := true }) seated)

theorem State.activity_kept (c : ConsoleNo) (h : s.StepsKept D) : (s.activity c).StepsKept D := by
  unfold State.activity
  split
  · exact h
  · rename_i n d seated
    exact h.stand (State.reseat_stands seated)
  · exact State.revive_kept c _ h

theorem State.noteActivity_kept (p : List Byte) (h : s.StepsKept D) : (s.noteActivity p).StepsKept D := by
  unfold State.noteActivity
  split
  · exact State.activity_kept _ h
  · exact h

theorem State.signOn_kept (c : ConsoleNo) (n : Nat) (h : s.StepsKept D) : (s.signOn c n).StepsKept D := by
  refine Work.finish_kept [] (Work.seatsChanged_kept ((h.plus _).stand ?_))
  exact (s.seat_stands c n).trans (State.modOperator_stands n _ _ fun _ => ⟨rfl, rfl, rfl⟩)

theorem State.signOff_kept (c : ConsoleNo) (h : s.StepsKept D) : (s.signOff c).StepsKept D := by
  have ground : s.SameGround (s.signedOff c) := by
    have rest : (s.signedOff c).mode = s.mode ∧ (s.signedOff c).steps = s.steps ∧ (s.signedOff c).trip.store = s.trip.store ∧
        (s.signedOff c).pool = s.pool ∧ (s.signedOff c).mill.shift = s.mill.shift := by
      unfold State.signedOff State.unseat
      split <;> exact ⟨rfl, rfl, rfl, rfl, rfl⟩
    obtain ⟨mode, steps, store, pool, shift⟩ := rest
    refine ⟨mode, steps, store, pool, shift, fun b => ?_, fun b => ?_, fun b => ?_, fun b => ?_⟩ <;> rw [State.area_signedOff]
  have points : (s.signedOff c).points = s.points := by
    unfold State.signedOff State.unseat
    split <;> rfl
  rw [State.signOff_eq]
  exact Work.finish_kept [] (Work.seatsChanged_kept ((h.plus _).stand (ground.seatsAside points fun _ => .inr ⟨rfl, rfl⟩)))

theorem execPresenceDeadline_kept (c : ConsoleNo) (hD : ∀ a, D a .seatIn) (h : s.StepsKept D) :
    ∃ t, execPresenceDeadline c s = .next t ∧ t.StepsKept D := by
  have absent (n : Nat) : s.StepsStand D (s.modConsole c fun r => { r with seat := .absent n }) :=
    State.SameGround.seatsAside (.ofAreas rfl rfl rfl rfl rfl rfl) rfl hD
  unfold execPresenceDeadline
  split
  case h_1 n d seated =>
    split
    · have gone := h.stand ((absent n).trans (State.notify_stands (.consoleAbsent c) _))
      exact ⟨_, rfl, Work.finish_kept (w := { s := _, cover := true }) [] gone⟩
    · exact ⟨s, rfl, h⟩
  all_goals exact ⟨s, rfl, h⟩

/-! ### LOAD_OPERATOR -/

/-- The roster changes, and not the record of an operator whom a console names. -/
theorem State.roster_stands {l : List Operator} (h : ∀ c n, (s.console c).seat.operator? = some n →
    State.operator? { s with roster := l } n = s.operator? n) : s.StepsStand D { s with roster := l } :=
  State.SameGround.stands (.ofAreas rfl rfl rfl rfl rfl rfl) (fun _ _ => State.seatIn_congr (.ofConsoles rfl) h rfl)
    fun _ _ h => ⟨rfl, h⟩

theorem State.storeOperator_stands {o : Operator} (h : ∀ c, (s.console c).seat.operator? ≠ some o.number) :
    s.StepsStand D (s.storeOperator o) := by
  unfold State.storeOperator
  split
  · refine State.roster_stands fun c n e => ?_
    have other : n ≠ o.number := fun x => h c (x ▸ e)
    exact (State.operator?_modOperator o.number n (fun _ => o) (fun _ _ => rfl) s).trans (if_neg other)
  · refine State.roster_stands fun c n e => ?_
    have other : o.number ≠ n := fun x => h c (x ▸ e)
    simp [State.operator?, List.find?_append, other]

theorem State.removeOperator_stands (h : ∀ c, (s.console c).seat.operator? ≠ some n) :
    s.StepsStand D { s with roster := s.roster.filter (·.number != n) } := by
  refine State.roster_stands fun c m e => ?_
  have other : m ≠ n := fun x => h c (x ▸ e)
  simp only [State.operator?, List.find?_filter]
  refine List.find?_congr fun p _ => ?_
  by_cases hp : p.number = m
  · subst hp; simp [other]
  · simp [hp]

theorem actLoadOperator_kept (x : OperatorLoad) (hc : s.ConfigSound) (hs : s.SeatsSound) (h : s.StepsKept D) :
    (actLoadOperator s x).Gives (State.StepsKept D) := by
  have unnamed (n : Nat) (hn : ¬(s.mode = .run ∧ s.isSeated n)) (c : ConsoleNo) : (s.console c).seat.operator? ≠ some n := by
    cases hm : s.mode with
    | config => rw [(hc hm).seat c]; nofun
    | run => exact hs.unseated (by simpa [hm] using hn) c
  unfold actLoadOperator
  split
  · split
    · trivial
    · split
      · trivial
      · exact h.stand (State.storeOperator_stands (unnamed _ ‹_›))
  · split
    · trivial
    · split
      · trivial
      · exact h.stand (State.removeOperator_stands (unnamed _ ‹_›))

end Sys2Proof.Machine

/-!
The trip unit and the points in the condition steps. A run hides no point of priority 1, which every GROUP entry spares (R106),
and a release only brings points into view, so neither makes a CLEAR_P1 condition hold; an owner that may do so of a point of
priority 1 has the step of its area examined (R16, R71).
-/

namespace Sys2Proof.Machine

variable {s t u : State} {D E : StepSet} {a : AreaNo} {w : Work} {c : TripNo}

/-! ### The trip unit's own records -/

theorem State.trip_stands (x : TripUnit) (h : x.store = s.trip.store) : s.StepsStand D { s with trip := x } :=
  .ofRest rfl rfl h rfl rfl rfl rfl rfl rfl

theorem State.modTrip_stands (f : TripUnit → TripUnit) (s : State) (h : (f s.trip).store = s.trip.store) :
    s.StepsStand D (s.modTrip f) := State.trip_stands _ h

theorem State.modCode_stands (c : TripNo) (f : TripCode → TripCode) (s : State) : s.StepsStand D (s.modCode c f) :=
  State.trip_stands _ rfl

/-! ### Runs -/

theorem State.suppress_stands (c : TripNo) (n : PointNo) (s : State) (h : 1 < (s.point n).priority.num) :
    s.StepsStand D (s.suppress c n) := by
  unfold State.suppress
  split
  · exact .refl s
  · refine (s.modCode_stands c _).trans (State.addReason_stands fun _ hn => ?_)
    have priority : (s.point n).priority = .p1 := hn.priority
    rw [priority] at h
    exact absurd h (by decide)

theorem State.runMembers_stands {g : Group} (spare : 1 ≤ g.spare) (l : List (Fin 32)) (s : State) :
    s.StepsStand D (s.runMembers c g l).1 := by
  induction l generalizing s with
  | nil => exact .refl s
  | cons i l ih =>
    unfold State.runMembers
    split
    · split
      · exact .refl s
      · rename_i n _
        have tests := s.memberOutcome_joins c g n
        split
        · exact .refl s
        · rename_i joins
          rw [joins] at tests
          have priority : 1 < (s.point n).priority.num := by
            simp only [beq_self_eq_true, Bool.true_eq, Bool.and_eq_true, decide_eq_true_eq] at tests
            omega
          exact (s.suppress_stands c n priority).trans (ih _)
        · exact ih s
        · exact ih s
    · exact ih s

theorem State.holdCode_stands (c : TripNo) (faulted : Bool) (s : State) : s.StepsStand D (s.holdCode c faulted) :=
  s.modCode_stands c _

theorem State.tripDone_stands (c : TripNo) (s : State) : s.StepsStand D (s.tripDone c) :=
  (s.holdCode_stands c false).trans (State.notify_stands _ _)

theorem State.dropPending_stands (s : State) : s.StepsStand D s.dropPending := by
  unfold State.dropPending
  split
  · exact (s.modTrip_stands _ rfl).trans (State.notify_stands _ _)
  · exact .refl s

theorem State.tripFault_stands (c : TripNo) (e : EntryNo) (s : State) : s.StepsStand D (s.tripFault c e) :=
  (((s.holdCode_stands c true).trans (State.modTrip_stands _ _ rfl)).trans (State.notify_stands _ _)).trans
    (State.dropPending_stands _)

theorem State.tripStep_stands (c : TripNo) (e : EntryNo) (notify : Bool) (s : State) :
    s.StepsStand D (s.tripStep c e notify) := by
  unfold State.tripStep
  split
  · exact s.notify_stands _
  · exact .refl s

/-- The processing of a running code's list (R110 to R114). -/
theorem State.runFrom_stands (c : TripNo) (n i : Nat) (spare : s.SparesP1) : s.StepsStand D (s.runFrom c n i) := by
  induction n generalizing i s with
  | zero => exact s.tripFault_stands c 511
  | succ n ih =>
    unfold State.runFrom
    split
    · exact s.tripFault_stands c 511
    · rename_i k _
      split
      · exact s.tripFault_stands c k
      · exact (s.tripStep_stands c k _).trans (State.modCode_stands c _ _)
      · rename_i g last notify entry
        have group : s.StepsStand D (s.runGroup c g).1 := s.runMembers_stands (spare k g last notify entry) _
        generalize s.runGroup c g = x at group
        obtain ⟨t, faulty⟩ := x
        have stepped := group.trans (State.tripStep_stands c k notify t)
        dsimp only
        split
        · exact group.trans (t.tripFault_stands c k)
        · split
          · exact stepped.trans (State.tripDone_stands c _)
          · exact stepped.trans (ih _ (spare.same stepped.store))

theorem State.startRun_stands (c : TripNo) (spare : s.SparesP1) : s.StepsStand D (s.startRun c) := by
  unfold State.startRun
  dsimp only
  have taken := (s.modCode_stands (D := D) c fun r =>
    { r with
      state := .running r.start none, takenAt := some s.now, faulted := false
      suppressed := if r.state.isIdle then 0 else r.suppressed }).trans (State.notify_stands (.tripTaken c) _)
  exact taken.trans (State.runFrom_stands c _ _ (spare.same taken.store))

theorem State.takePending_stands (spare : s.SparesP1) : s.StepsStand D s.takePending := by
  unfold State.takePending
  split
  · have emptied : s.StepsStand D (s.modTrip fun t => { t with pending := none }) := s.modTrip_stands _ rfl
    exact emptied.trans (State.startRun_stands _ (spare.same emptied.store))
  · exact .refl s

theorem State.deliver_stands (c : TripNo) (spare : s.SparesP1) : s.StepsStand D (s.deliver c) := by
  unfold State.deliver
  split
  · exact s.notify_stands _
  · split
    · exact s.notify_stands _
    · split
      · have started : s.StepsStand D (s.startRun c) := State.startRun_stands c spare
        exact started.trans (State.takePending_stands (spare.same started.store))
      · split
        · exact .refl s
        · split
          · exact s.modTrip_stands _ rfl
          · exact s.notify_stands _

/-- The end of a trip event: the pending code is taken, and the TRIP reasons follow (R110, R113). -/
theorem State.tripEvent_kept (h : s.StepsKept D) (k : s.StepsStand D t) : t.tripEvent.StepsKept D :=
  Work.finish_kept [] (Work.tripsChanged_kept (w := { s := t }) (h.stand k))

theorem State.endTrip_kept (h : s.StepsKept D) (k : s.StepsStand D t) : t.takePending.tripEvent.StepsKept D :=
  State.tripEvent_kept h (k.trans (State.takePending_stands (h.spare.same k.store)))

theorem execTripQualifyTimerExpiry_kept (h : s.StepsKept D) :
    ∃ t, execTripQualifyTimerExpiry s = .next t ∧ t.StepsKept D := by
  unfold execTripQualifyTimerExpiry
  split
  · have settled : s.StepsStand D (s.modTrip fun x => { x with qualifier := .settling false }) := s.modTrip_stands _ rfl
    exact ⟨_, rfl, State.tripEvent_kept h (settled.trans (State.deliver_stands _ (h.spare.same settled.store)))⟩
  all_goals exact ⟨s, rfl, h⟩

theorem execWaitDeadline_kept (c : TripNo) (h : s.StepsKept D) : ∃ t, execWaitDeadline c s = .next t ∧ t.StepsKept D := by
  unfold execWaitDeadline
  split
  · rename_i k d _
    split
    · have left : s.StepsStand D (s.modCode c fun r => { r with state := .running k none }) := s.modCode_stands c _
      refine ⟨_, rfl, State.endTrip_kept h (left.trans ?_)⟩
      split
      · exact State.tripDone_stands c _
      all_goals exact State.runFrom_stands c _ _ (h.spare.same left.store)
    · exact ⟨s, rfl, h⟩
  all_goals exact ⟨s, rfl, h⟩

/-! ### Releases -/

/-- A point without the code in its suppression set presses where it pressed. -/
theorem State.unsuppress_stands (c : TripNo) (n : PointNo) (s : State) : s.StepsStand D (s.unsuppress c n).1 := by
  unfold State.unsuppress
  dsimp only
  split
  · rename_i member
    refine State.removeReason_stands (f := fun q => { q with suppression := q.suppression.filter (· != c) }) fun hn => ?_
    obtain ⟨-, -, set⟩ := Point.hidden_eq_false.mp hn.hidden
    rw [set] at member
    cases member
  · exact .refl s

theorem State.unsuppressAll_stands (c : TripNo) (s : State) : s.StepsStand D (s.unsuppressAll c).1 := by
  have released (l : List PointNo) (x : State × Nat) : x.1.StepsStand D
      (l.foldl (fun x n => let y := x.1.unsuppress c n; (y.1, x.2 + if y.2 then 1 else 0)) x).1 := by
    induction l generalizing x with
    | nil => exact .refl _
    | cons n l ih =>
      rw [List.foldl_cons]
      refine .trans ?_ (ih _)
      exact x.1.unsuppress_stands c n
  exact released _ (s, 0)

theorem State.release_kept (c : TripNo) (source : ReleaseSource) (h : s.StepsKept D) :
    (s.release c source).1.StepsKept D := by
  have freed : s.StepsStand D (s.unsuppressAll c).1 := s.unsuppressAll_stands c
  unfold State.release
  generalize s.unsuppressAll c = x at freed ⊢
  obtain ⟨t, new⟩ := x
  dsimp only at freed ⊢
  exact State.endTrip_kept h ((freed.trans (t.modCode_stands c _)).trans (State.notify_stands _ _))

theorem releaseAnswer_kept (c : TripNo) (source : ReleaseSource) (h : s.StepsKept D) :
    (releaseAnswer s c source).Gives (State.StepsKept D) := by
  have released := State.release_kept c source h
  unfold releaseAnswer
  split
  · trivial
  · generalize s.release c source = x at released ⊢
    obtain ⟨t, new⟩ := x
    exact released

theorem actReleaseTrip_kept (x : Option ConsoleNo × TripNo) (h : s.StepsKept D) :
    (actReleaseTrip s x).Gives (State.StepsKept D) := by
  unfold actReleaseTrip
  split
  · exact releaseAnswer_kept _ _ h
  · exact .withOperator (fun _ => releaseAnswer_kept _ _ h) _

theorem execTripHoldDeadline_kept (c : TripNo) (h : s.StepsKept D) :
    ∃ t, execTripHoldDeadline c s = .next t ∧ t.StepsKept D := by
  unfold execTripHoldDeadline
  split
  · split
    · exact ⟨_, rfl, State.release_kept c .expiry h⟩
    · exact ⟨s, rfl, h⟩
  all_goals exact ⟨s, rfl, h⟩

/-! ### The trip loads -/

theorem actLoadTripEntries_kept {p : List Byte} {x : Nat × List TripEntry × Bool} (hx : parseTripEntries p = some x)
    (h : s.StepsKept D) : (actLoadTripEntries s x).Gives (State.StepsKept D) := by
  unfold actLoadTripEntries
  split
  · trivial
  · obtain ⟨once, apart, held⟩ := h.frames
    refine { h with frames := ⟨once, apart, held⟩, spare := fun e g last notify he => ?_ }
    have stored : (storeTripEntries x.1 x.2.1 s.trip.store)[e] = .group g last notify := he
    rcases storeTripEntries_mem x.1 x.2.1 s.trip.store e with hm | hm
    · exact parseTripEntries_spare hx (stored ▸ hm)
    · exact h.spare e g last notify (hm.symm.trans stored)

theorem actLoadTripCode_kept (x : TripNo × TripConfig) (h : s.StepsKept D) : (actLoadTripCode s x).Gives (State.StepsKept D) := by
  unfold actLoadTripCode
  split
  · trivial
  · exact h.stand (s.modCode_stands x.1 _)

end Sys2Proof.Machine

/-!
The operators' and the host's actions on points, shelves and sheets in the condition steps: each one that may make a condition
hold has the step examined (R16, R71, R142).
-/

namespace Sys2Proof.Machine

variable {s t u : State} {D E : StepSet} {a : AreaNo} {w : Work} {n : PointNo}

/-- What an action with an operator gives, where its permission check admits the operator. -/
theorem Answer.Gives.withPermit {P : State → Prop} {act : Operator → Answer} {r : Except Status Operator}
    (h : ∀ o, r = .ok o → (act o).Gives P) : (Sys2Proof.Machine.withOperator r act).Gives P := by
  cases r with
  | error e => trivial
  | ok o => exact h o rfl

/-! ### Points -/

/-- The CLEAR_P1 step of a point that presses is one of those that a change of the point has examined. -/
theorem Point.presses_told {p : Point} (h : p.Presses) :
    D.plus (.of p.area fun i => p.priority == .p1 && i == .clearP1) p.area .clearP1 :=
  .inr ⟨rfl, by rw [h.priority]; rfl⟩

theorem State.setMeter_stands (a : AreaNo) (l : Nat) (s : State) : s.StepsStand D (s.setMeter a l) := by
  have metered (b : Bool) : s.StepsStand D (s.modArea a fun x => { x with meter := l, flooded := b }) :=
    State.modArea_stands _ ⟨rfl, rfl, rfl, rfl⟩
  unfold State.setMeter
  dsimp only
  split
  · exact (metered true).trans (State.notify_stands _ _)
  · split
    · exact (metered false).trans (State.notify_stands _ _)
    · exact State.modArea_stands _ ⟨rfl, rfl, rfl, rfl⟩

theorem State.raiseInView_kept (n : PointNo) (hh : (s.point n).hidden = false) (h : s.StepsKept D) :
    (s.raiseInView n).StepsKept D := by
  have raised : s.StepsStand D (s.becomeNew n false ((s.point n).raised s.now)) :=
    State.becomeNew_stands fun _ => ⟨rfl, rfl, hh⟩
  unfold State.raiseInView
  dsimp only
  have metered := h.stand (raised.trans (State.setMeter_stands (s.point n).area
    (raisedMeter ((s.becomeNew n false ((s.point n).raised s.now)).area (s.point n).area).meter) _))
  split
  · exact Work.finish_kept [] (Work.reconsider_kept (w := { s := _ }) (metered.plus _))
  · exact Work.finish_kept (w := { s := _ }) [] metered

theorem actRaise_kept (n : PointNo) (h : s.StepsKept D) : (actRaise s n).Gives (State.StepsKept D) := by
  unfold actRaise
  dsimp only
  split
  · trivial
  · split
    · trivial
    · split
      · rename_i hidden
        exact h.stand (State.setPoint_free fun _ hn => by rw [hn.hidden] at hidden; cases hidden)
      · exact State.raiseInView_kept n (by simpa using ‹¬(s.point n).hidden = true›) h

/-- A point that presses is FADED once it is cleared, and goes on to press (R9). -/
theorem Point.cleared_presses {p : Point} (h : p.Presses) : p.cleared.Presses := by
  obtain ⟨priority, hidden, ann⟩ := h
  refine ⟨priority, hidden, .inr ?_⟩
  unfold Point.cleared
  rcases ann with ann | ann <;> rw [ann] <;> rfl

theorem actClear_kept (n : PointNo) (h : s.StepsKept D) : (actClear s n).Gives (State.StepsKept D) := by
  unfold actClear
  dsimp only
  split
  · trivial
  · split
    · trivial
    · split
      · rename_i hidden
        exact h.stand (State.setPoint_free fun _ hn => by rw [hn.hidden] at hidden; cases hidden)
      · have cleared := h.stand (State.setPoint_stands (p := (s.point n).cleared) fun _ hn => ⟨rfl, Point.cleared_presses hn⟩)
        refine Work.finish_kept [] ?_
        split
        · exact Work.pointChanged_kept (w := { s := _ }) (cleared.plus _)
        · exact cleared

theorem State.uncountSuppressed_stands (cs : List TripNo) (s : State) : s.StepsStand D (s.uncountSuppressed cs) :=
  State.StepsStand.foldl (fun s c => s.modCode_stands c _) cs s

theorem State.dropShelfOf_stands (n : PointNo) (s : State) : s.StepsStand D (s.dropShelfOf n) := by
  unfold State.dropShelfOf
  split
  · exact s.dropShelf_stands _
  · exact .refl s

theorem State.takeOut_kept (n : PointNo) (h : s.StepsKept D) : (s.takeOut n).StepsKept D := by
  have point : ((s.dropShelfOf n).uncountSuppressed (s.point n).suppression).point n = s.point n := by
    rw [State.uncountSuppressed_rest]
    exact s.point_dropShelfOf n n
  have dropped := (h.plus (.of (s.point n).area fun i => (s.point n).priority == .p1 && i == .clearP1)).stand
    ((s.dropShelfOf_stands n).trans (State.uncountSuppressed_stands (s.point n).suppression _))
  have hidden := dropped.stand (State.addReason_stands (n := n)
    (f := fun q => { q with shelved := false, suppression := [], outOfService := true }) fun hd hn => by
      rw [point] at hd hn
      exact hd (Point.presses_told hn))
  exact Work.finish_kept [] (Work.pointChanged_kept (w := { s := _, sheets := _ }) hidden)

theorem actTakeOut_kept (x : ConsoleNo × PointNo) (h : s.StepsKept D) : (actTakeOut s x).Gives (State.StepsKept D) := by
  refine .withOperator (fun _ => ?_) _
  split
  · trivial
  · split
    · trivial
    · exact State.takeOut_kept x.2 h

theorem State.putBack_kept (n : PointNo) (h : s.StepsKept D) : (s.putBack n).StepsKept D := by
  have back : s.StepsStand D (s.removeReason n (fun q => { q with outOfService := false }) false) := by
    refine State.removeReason_stands (f := fun q => { q with outOfService := false }) fun hn =>
      ⟨rfl, hn.priority, ?_, hn.ann⟩
    obtain ⟨shelved, -, set⟩ := Point.hidden_eq_false.mp hn.hidden
    exact Point.hidden_eq_false.mpr ⟨shelved, rfl, set⟩
  exact Work.finish_kept [] (Work.pointChanged_kept (w := { s := _ }) ((h.stand back).plus _))

theorem actReturn_kept (x : ConsoleNo × PointNo) (h : s.StepsKept D) : (actReturn s x).Gives (State.StepsKept D) := by
  refine .withOperator (fun _ => ?_) _
  split
  · trivial
  · split
    · trivial
    · exact State.putBack_kept x.2 h

theorem execDecayStep_kept (a : AreaNo) (h : s.StepsKept D) : ∃ t, execDecayStep a s = .next t ∧ t.StepsKept D := by
  unfold execDecayStep
  dsimp only
  split
  · have metered := h.stand (s.setMeter_stands a ((s.area a).meter - decrement (s.area a).meter (s.area a).config.decay))
    split
    · exact ⟨_, rfl, metered⟩
    · exact ⟨_, rfl, Work.finish_kept [] (Work.reconsider_kept (w := { s := _ }) (metered.plus _))⟩
  · exact ⟨s, rfl, h⟩

/-! ### Acknowledgement and silence -/

theorem State.ackEvent_kept (n : PointNo) (o : Nat) (after : List NoticeKind) (h : s.StepsKept D) :
    (s.ackEvent n o after).StepsKept D := by
  refine Work.finish_kept after (Work.pointChanged_kept (w := { s := _ }) ((h.plus _).stand (State.setPoint_free ?_)))
  exact fun hd hn => hd (Point.presses_told hn)

theorem actAck_kept (x : ConsoleNo × PointNo) (h : s.StepsKept D) : (actAck s x).Gives (State.StepsKept D) := by
  refine .withOperator (fun o => ?_) _
  dsimp only
  split
  · trivial
  · split
    · trivial
    · exact State.ackEvent_kept x.2 o.number [] h

theorem actAckHead_kept (x : ConsoleNo × Option PointNo) (h : s.StepsKept D) : (actAckHead s x).Gives (State.StepsKept D) := by
  refine .withOperator (fun _ => ?_) _
  split
  · trivial
  · refine .withOperator (fun o => ?_) _
    split
    · trivial
    · exact State.ackEvent_kept _ o.number [] h

/-- Points that are not of priority 1 are acknowledged one after another. -/
theorem State.acknowledgeAll_stands (o : Nat) (ns : List PointNo) (h : ∀ n ∈ ns, (s.point n).priority ≠ .p1) :
    s.StepsStand D (ns.foldl (fun s n => s.acknowledge n o) s) := by
  induction ns generalizing s with
  | nil => exact .refl s
  | cons n ns ih =>
    have priority (m : PointNo) : ((s.acknowledge n o).point m).priority = (s.point m).priority := by
      unfold State.acknowledge
      rw [State.point_setPoint]
      split
      · subst_vars; rfl
      · rfl
    have first : s.StepsStand D (s.acknowledge n o) := State.setPoint_free fun _ hn => h n List.mem_cons_self hn.priority
    rw [List.foldl_cons]
    exact first.trans (ih fun m hm => by rw [priority]; exact h m (List.mem_cons_of_mem n hm))

theorem parseAckArea_limit {p : List Byte} {x : ConsoleNo × AreaNo × Nat} (h : parseAckArea p = some x) : 2 ≤ x.2.2 := by
  unfold parseAckArea at h
  split at h
  · simp only [Option.bind_eq_bind, Option.bind_eq_some_iff, Option.some.injEq] at h
    obtain ⟨c, -, a, -, l, hl, rfl⟩ := h
    exact within_ge hl
  · cases h

theorem actAckArea_kept {p : List Byte} {x : ConsoleNo × AreaNo × Nat} (hx : parseAckArea p = some x) (h : s.StepsKept D) :
    (actAckArea s x).Gives (State.StepsKept D) := by
  have priority (n : PointNo) (hn : n ∈ s.ackSelection x.2.1 x.2.2) : (s.point n).priority ≠ .p1 := fun e => by
    have limit := parseAckArea_limit hx
    rw [State.mem_ackSelection] at hn
    simp only [State.ackSelects, Bool.and_eq_true, decide_eq_true_eq, e] at hn
    exact absurd (limit.trans hn.2) (by decide)
  unfold actAckArea
  refine .withOperator (fun o => ?_) _
  dsimp only
  generalize s.ackSelection x.2.1 x.2.2 = ns at priority
  split
  · exact h
  · exact Work.finish_kept (w := { s := _ }) [] (h.stand (State.acknowledgeAll_stands o.number ns priority))

theorem State.silence_stands (c : ConsoleNo) (source : SilenceSource) (s : State) : s.StepsStand D (s.silence c source) := by
  have marked : s.StepsStand D (s.modConsole c (Console.silenced s.raiseCounter (s.resoundAfter c))) :=
    s.modConsole_stands c _ ⟨rfl, rfl, rfl⟩
  unfold State.silence
  dsimp only
  generalize s.modConsole c (Console.silenced s.raiseCounter (s.resoundAfter c)) = v at marked ⊢
  refine .trans (.trans ?_ (State.driveOutputs_stands _)) (State.notify_stands _ _)
  split
  · exact marked.trans (.ofRest rfl rfl rfl rfl rfl rfl rfl rfl rfl)
  · exact marked

theorem State.setKey_stands (c : ConsoleNo) (k : KeyName) (x : Key) (s : State) : s.StepsStand D (s.setKey c k x) := by
  refine s.modConsole_stands c _ ?_
  cases k <;> exact ⟨rfl, rfl, rfl⟩

theorem State.ackPress_kept (c : ConsoleNo) (h : s.StepsKept D) : (s.ackPress c).StepsKept D := by
  unfold State.ackPress
  split
  · exact h.stand (s.notify_stands _)
  · split
    · exact h.stand (s.notify_stands _)
    · split
      · exact h.stand (s.notify_stands _)
      · exact State.ackEvent_kept _ _ _ h

theorem State.keyAction_kept (c : ConsoleNo) (k : KeyName) (h : s.StepsKept D) : (s.keyAction c k).StepsKept D := by
  have active := State.activity_kept c h
  unfold State.keyAction
  generalize s.activity c = v at active
  cases k with
  | ack => exact State.ackPress_kept c active
  | silence =>
    dsimp only
    unfold State.silencePress
    split
    · exact active.stand (State.notify_stands _ _)
    · exact active.stand (State.silence_stands c .key _)

theorem execKeyQualifyTimerExpiry_kept (c : ConsoleNo) (k : KeyName) (h : s.StepsKept D) :
    ∃ t, execKeyQualifyTimerExpiry c k s = .next t ∧ t.StepsKept D := by
  unfold execKeyQualifyTimerExpiry
  dsimp only
  split
  · exact ⟨_, rfl, State.keyAction_kept c k (h.stand (s.setKey_stands c k _))⟩
  · exact ⟨s, rfl, h⟩

/-! ### Shelves -/

/-- A point that is not of priority 1 is shelved. -/
theorem State.addShelf_stands (r : Shelf) (h : (s.point r.point).priority ≠ .p1) : s.StepsStand D (s.addShelf r) := by
  have listed : s.StepsStand D { s with shelves := s.shelves ++ [r] } := .ofRest rfl rfl rfl rfl rfl rfl rfl rfl rfl
  have counted := listed.trans (State.modArea_stands (a := r.area) (fun x => { x with shelvedCount := x.shelvedCount + 1 })
    ⟨rfl, rfl, rfl, rfl⟩)
  exact counted.trans (State.addReason_stands fun _ hn => h hn.priority)

theorem actShelve_kept (x : ConsoleNo × PointNo × ShelveFor) (h : s.StepsKept D) :
    (actShelve s x).Gives (State.StepsKept D) := by
  refine .withOperator (fun o => ?_) _
  dsimp only
  split
  · trivial
  · rename_i priority
    split
    · trivial
    · split
      · trivial
      · split
        · trivial
        · split
          · trivial
          · split
            · trivial
            · have shelved := h.stand (State.addShelf_stands (s.newShelf x.1 x.2.1 o.number x.2.2) priority)
              exact Work.finish_kept (w := { s := _, sheets := true }) [] shelved

theorem State.shelfEnded_kept (r : Shelf) (h : t.StepsKept D) : (s.shelfEnded r t).StepsKept D :=
  Work.finish_kept [] (Work.pointChanged_kept (w := { s := t, sheets := true }) (h.plus _))

theorem actUnshelve_kept (x : ConsoleNo × PointNo) (h : s.StepsKept D) : (actUnshelve s x).Gives (State.StepsKept D) := by
  refine .withOperator (fun _ => ?_) _
  split
  · trivial
  · split
    · trivial
    · exact State.shelfEnded_kept _ (h.stand (s.endShelf_stands _))

theorem execShelfExpired_kept (n : PointNo) (h : s.StepsKept D) : ∃ t, execShelfExpired n s = .next t ∧ t.StepsKept D := by
  unfold execShelfExpired
  split
  · split
    · exact ⟨_, rfl, State.shelfEnded_kept _ (h.stand ((s.endShelf_stands _).trans (State.notify_stands _ _)))⟩
    · exact ⟨s, rfl, h⟩
  · exact ⟨s, rfl, h⟩

/-! ### Sheets -/

/-- A draft changes; its frame bears on no condition. -/
theorem State.modDraft_stands (f : Draft → Draft) (sound : s.FramesSound → (s.modDraft a f).FramesSound) :
    s.StepsStand D (s.modDraft a f) where
  mode := rfl
  steps := rfl
  config b := by
    rw [State.modDraft, State.area_modArea]; split
    · subst_vars; rfl
    · rfl
  place b := by
    rw [State.modDraft, State.area_modArea]; split
    · subst_vars; rfl
    · rfl
  store := rfl
  sound := sound
  holds b k _ := (State.stepHolds_modArea rfl b k).mp

/-- A draft's lock or commit changes. -/
theorem State.modLock_stands (f : Draft → Draft) (h : (f (s.area a).draft).items = (s.area a).draft.items) :
    s.StepsStand D (s.modDraft a f) :=
  State.modDraft_stands f (State.SameSlots.modArea a _ s ⟨h, rfl⟩).sound

theorem actLockDraft_kept (x : ConsoleNo × AreaNo) (h : s.StepsKept D) : (actLockDraft s x).Gives (State.StepsKept D) := by
  refine .withOperator (fun _ => ?_) _
  dsimp only
  split
  · trivial
  · split
    · trivial
    · refine h.stand (State.modLock_stands _ ?_)
      unfold Draft.lockFor
      split <;> rfl

theorem actUnlockDraft_kept (x : ConsoleNo × AreaNo) (h : s.StepsKept D) : (actUnlockDraft s x).Gives (State.StepsKept D) := by
  refine .withOperator (fun _ => ?_) _
  dsimp only
  split
  · trivial
  · split
    · trivial
    · exact h.stand (State.modLock_stands _ rfl)

theorem actPost_kept (x : ConsoleNo × AreaNo) (h : s.StepsKept D) : (actPost s x).Gives (State.StepsKept D) := by
  refine .withOperator (fun o => ?_) _
  split
  · trivial
  · exact Work.finish_kept (w := { s := _, sheets := true }) []
      (h.stand (State.modLock_stands (a := x.2) (Draft.commitFor o.crew) rfl))

/-- An operator's item takes a free slot and joins the draft (R126). -/
theorem State.addItem_stands {i : SlotNo} (k : ItemKind) (o : Nat) (h : s.FramesSound) (hi : s.item i = none) :
    s.StepsStand D (s.addItem a i k o) := by
  have free := h.unlisted hi
  have placed : s.StepsStand D (s.placeItem i { kind := k, author := some o, created := s.now, reviewed := none }) :=
    State.slot_stands _ _ free
  have held : ((s.placeItem i { kind := k, author := some o, created := s.now, reviewed := none }).item i).isSome := by
    simp [State.item, State.placeItem]
  have unlisted (b : AreaNo) :
    i ∉ (s.placeItem i { kind := k, author := some o, created := s.now, reviewed := none }).framed b := free b
  unfold State.addItem
  generalize s.placeItem i { kind := k, author := some o, created := s.now, reviewed := none } = v at *
  refine placed.trans (State.modDraft_stands _ fun sound => sound.modArea rfl ?_ fun j hj => ?_)
  · obtain ⟨drafts, posted, apart⟩ := List.nodup_append.mp (sound.once a)
    have new (l : List SlotNo) (hl : ∀ j ∈ l, j ∈ v.framed a) (j : SlotNo) (hj : j ∈ l) : j ≠ i := fun e =>
      unlisted a (e ▸ hl j hj)
    refine List.nodup_append.mpr ⟨List.nodup_append.mpr ⟨drafts, List.nodup_singleton i, fun j hj m hm => ?_⟩, posted,
      fun j hj m hm => ?_⟩
    · rw [List.mem_singleton.mp hm]
      exact new _ (fun _ => List.mem_append_left _) j hj
    · rcases List.mem_append.mp hj with hj | hj
      · exact apart j hj m hm
      · rw [List.mem_singleton.mp hj]
        exact (new _ (fun _ => List.mem_append_right _) m hm).symm
  · rcases List.mem_append.mp hj with hj | hj
    · rcases List.mem_append.mp hj with hj | hj
      · exact .inl (List.mem_append_left _ hj)
      · exact .inr (List.mem_singleton.mp hj ▸ ⟨held, unlisted⟩)
    · exact .inl (List.mem_append_right _ hj)

theorem actAddItem_kept (x : ConsoleNo × AreaNo × ItemKind) (h : s.StepsKept D) : (actAddItem s x).Gives (State.StepsKept D) := by
  refine .withOperator (fun o => ?_) _
  dsimp only
  split
  · trivial
  · split
    · trivial
    · split
      · trivial
      · split
        · trivial
        · rename_i i free
          have added := h.stand (State.addItem_stands (a := x.2.1) x.2.2 o.number h.frames (State.lowestFree_some.mp free).1)
          exact Work.finish_kept (w := { s := _, sheets := true }) [] added

/-- An item leaves the draft, and its slot becomes free (R127). -/
theorem State.removeItem_stands {k : Nat} {i : SlotNo} (h : s.FramesSound) (hi : (s.area a).draft.items[k]? = some i) :
    s.StepsStand D ((s.modDraft a fun d => { d with items := d.items.eraseIdx k }).freeSlot i) := by
  have rest : ((s.area a).draft.items.eraseIdx k ++ (s.area a).posted.items).Nodup :=
    (h.once a).sublist ((List.eraseIdx_sublist _ k).append_right _)
  have drafted : s.StepsStand D (s.modDraft a fun d => { d with items := d.items.eraseIdx k }) :=
    State.modDraft_stands _ fun sound => sound.modArea rfl rest fun j hj => .inl
      (((List.eraseIdx_sublist _ k).append_right _).subset hj)
  refine drafted.trans (State.slot_stands none _ fun b hb => ?_)
  have listed : i ∈ (s.area a).draft.items := List.mem_of_getElem? hi
  rw [State.modDraft, State.framed_modArea] at hb
  split at hb
  · obtain ⟨drafts, -, apart⟩ := List.nodup_append.mp (h.once a)
    rcases List.mem_append.mp hb with hb | hb
    · obtain ⟨m, hm, other, same⟩ := List.mem_eraseIdx_iff_getElem.mp hb
      obtain ⟨hk, first⟩ := List.getElem?_eq_some_iff.mp hi
      exact other ((drafts.getElem_inj_iff).mp (same.trans first.symm))
    · exact apart i listed i hb rfl
  · rename_i other
    exact other (h.apart b a i hb (List.mem_append_left _ listed))

theorem actRemoveItem_kept (x : ConsoleNo × AreaNo × Nat) (h : s.StepsKept D) :
    (actRemoveItem s x).Gives (State.StepsKept D) := by
  refine .withOperator (fun _ => ?_) _
  dsimp only
  split
  · trivial
  · split
    · trivial
    · rename_i i hi
      exact Work.finish_kept (w := { s := _, sheets := true }) [] (h.stand (State.removeItem_stands h.frames hi))

/-- A review bears on the REVIEW step of the item's area alone (R135). -/
theorem actReviewItem_kept (x : ConsoleNo × AreaNo × Nat) (h : s.StepsKept D) :
    (actReviewItem s x).Gives (State.StepsKept D) := by
  refine .withOperator (fun o => ?_) _
  dsimp only
  split
  · trivial
  · rename_i i hi
    split
    · trivial
    · split
      · trivial
      · split
        · trivial
        · have reviewed : s.StepsStand (D.plus (.of x.2.1 fun k => k == .review)) (s.review i o.number) := by
            refine State.modItem_stands fun b hb hd => absurd (.inr ⟨?_, rfl⟩) hd
            exact h.frames.apart b x.2.1 i hb (List.mem_append_right _ (List.mem_of_getElem? hi))
          exact Work.finish_kept [] (Work.examine_kept (w := { s := _, sheets := true }) ((h.plus _).stand reviewed))

end Sys2Proof.Machine

/-!
The handovers' own commands, the settings and the loads in the condition steps (R141 to R153); every request and every command;
and the statement.
-/

namespace Sys2Proof.Machine

variable {s t u : State} {D E : StepSet} {a : AreaNo} {w : Work}

/-! ### Handovers -/

/-- The rule where every area is STEADY hangs on the start of the lists, the frames and the trip store alone. -/
theorem State.StepsKept.steadied (h : s.StepsKept D) (steady : ∀ b, (t.area b).handover = .steady)
    (start : t.mode = .run → ∀ b, (t.area b).config.configured → t.listEnds (t.area b).config.start)
    (slots : s.SameSlots t) (store : t.trip.store = s.trip.store) : t.StepsKept D :=
  .ofSteady steady start (slots.sound h.frames) (h.spare.same store)

theorem State.configured_of_mem {b : AreaNo} (h : b ∈ s.configuredAreas) : (s.area b).config.configured :=
  (List.mem_filter.mp h).2

theorem State.beginHandover_kept (k : Crew) (steady : ∀ b, (s.area b).handover = .steady) (hm : s.mode = .run)
    (h : s.StepsKept D) : (s.beginHandover k).StepsKept D := by
  have opened : (s.openMill k).StepsKept D := h.steadied steady h.start ⟨fun _ => rfl, fun _ => rfl⟩ rfl
  exact Work.finish_kept [] (Work.foldl_begin_kept (w := { s := _, cover := true, shift := _, sheets := true }) _ opened hm
    fun _ => State.configured_of_mem)

theorem actBeginHandover_kept (k : Crew) (duties : s.DutiesSound) (hm : s.mode = .run) (h : s.StepsKept D) :
    (actBeginHandover s k).Gives (State.StepsKept D) := by
  unfold actBeginHandover
  split
  · trivial
  · rename_i closed
    split
    · trivial
    · have none : s.mill.incoming = none := by simpa [Mill.isOpen] using closed
      exact State.beginHandover_kept k (duties.closed none).2 hm h

theorem State.area_closeHandover (b : AreaNo) (s : State) :
    s.closeHandover.area b = { s.area b with handover := .steady } := by
  simp [State.area, State.closeHandover]

theorem actCancelHandover_kept (x : Unit) (h : s.StepsKept D) : (actCancelHandover s x).Gives (State.StepsKept D) := by
  have closed : s.closeHandover.StepsKept D := by
    refine h.steadied (fun b => by rw [State.area_closeHandover]) (fun hm b hc => ?_)
      ⟨fun b => by rw [State.framed, State.area_closeHandover, State.framed], fun _ => rfl⟩ rfl
    rw [State.area_closeHandover] at hc ⊢
    exact h.start hm b hc
  unfold actCancelHandover
  split
  · trivial
  · split
    · trivial
    · exact Work.finish_kept (w := { s := _, cover := true, sheets := true }) [] closed

theorem State.request_kept (a : AreaNo) (b : Bool) (h : s.StepsKept D) : (s.request a b).StepsKept D :=
  Work.finish_kept [] (Work.setReasons_kept (w := { s }) _ h)

theorem actSuspendArea_kept (a : AreaNo) (h : s.StepsKept D) : (actSuspendArea s a).Gives (State.StepsKept D) := by
  unfold actSuspendArea
  dsimp only
  split
  · trivial
  · split
    · trivial
    · split
      · trivial
      · exact State.request_kept a true h

theorem actResumeArea_kept (a : AreaNo) (h : s.StepsKept D) : (actResumeArea s a).Gives (State.StepsKept D) := by
  unfold actResumeArea
  dsimp only
  split
  · trivial
  · split
    · trivial
    · split
      · trivial
      · exact State.request_kept a false h

/-- A step completes by a confirmation or a hold deadline (R145). -/
theorem State.completedStep_kept (a : AreaNo) (h : s.StepsKept D) :
    (Work.completeStep a { s, sheets := true }).finish.StepsKept D := by
  refine Work.finish_kept [] ?_
  by_cases running : ∃ p x y, (s.area a).handover = .running p x y
  · obtain ⟨p, x, y, hr⟩ := running
    exact Work.completeStep_kept (w := { s, sheets := true }) (h.plus _) hr
  · rw [Work.completeStep_settled (w := { s, sheets := true }) fun p x y hr => running ⟨p, x, y, hr⟩]
    exact h

theorem actConfirmStep_kept (x : ConsoleNo × AreaNo) (h : s.StepsKept D) : (actConfirmStep s x).Gives (State.StepsKept D) := by
  refine .withOperator (fun _ => ?_) _
  split
  · trivial
  · exact State.completedStep_kept x.2 h

theorem execHandoverHoldDeadline_kept (a : AreaNo) (h : s.StepsKept D) :
    ∃ t, execHandoverHoldDeadline a s = .next t ∧ t.StepsKept D := by
  unfold execHandoverHoldDeadline
  split
  · split
    · exact ⟨_, rfl, State.completedStep_kept a h⟩
    · exact ⟨s, rfl, h⟩
  all_goals exact ⟨s, rfl, h⟩

theorem State.halted_kept (a : AreaNo) (why : AbortReason) (h : s.StepsKept D) : (Work.halt a why { s }).finish.StepsKept D :=
  Work.finish_kept [] (Work.halt_kept (w := { s }) why h)

theorem execStepTimeout_kept (a : AreaNo) (h : s.StepsKept D) : ∃ t, execStepTimeout a s = .next t ∧ t.StepsKept D := by
  unfold execStepTimeout
  split
  · split
    · exact ⟨_, rfl, State.halted_kept a .stepTimeout h⟩
    · exact ⟨s, rfl, h⟩
  all_goals exact ⟨s, rfl, h⟩

theorem actAbortArea_kept (a : AreaNo) (h : s.StepsKept D) : (actAbortArea s a).Gives (State.StepsKept D) := by
  unfold actAbortArea
  dsimp only
  split
  · trivial
  · split
    · trivial
    · split
      · trivial
      · exact State.halted_kept a .hostAbort h

theorem actClearAbort_kept (a : AreaNo) (h : s.StepsKept D) : (actClearAbort s a).Gives (State.StepsKept D) := by
  unfold actClearAbort
  split
  · trivial
  · exact h.stand (State.modArea_stands (fun r => { r with abort := none }) ⟨rfl, rfl, rfl, rfl⟩)

theorem actRestartArea_kept (x : ConsoleNo × AreaNo) (hm : s.mode = .run) (h : s.StepsKept D) :
    (actRestartArea s x).Gives (State.StepsKept D) := by
  refine .withPermit fun o permitted => ?_
  obtain ⟨-, configured, -⟩ := State.permitArea_ok.mp permitted
  split
  · trivial
  · exact Work.finish_kept [] (Work.begin_kept (w := { s }) h hm configured)

/-! ### The clock -/

theorem Handover.undated_mapDeadline (f : Deadline → Deadline) (h : Handover) : (h.mapDeadline f).undated = h.undated := by
  cases h <;> simp [Handover.undated, Handover.mapDeadline, Option.map_map, Function.comp_def]

/-- SET_CLOCK moves deadlines alone (R175). -/
theorem State.setClock_stands (n : Nat) (s : State) : s.StepsStand D (s.setClock n) := by
  refine State.SameGround.routing ⟨rfl, rfl, rfl, rfl, rfl, fun b => ?_, fun b => ?_, fun b => ?_, fun b => ?_⟩
    (s.setClock_routing n) rfl rfl rfl <;> rw [State.area_setClock]
  exact Handover.undated_mapDeadline _ _

/-! ### What is taken in CONFIG -/

/-- The rule, with the further rules that its keeping hangs on. -/
structure State.StepsReady (D : StepSet) (s : State) : Prop where
  kept   : s.StepsKept D
  config : s.ConfigSound
  seats  : s.SeatsSound
  duties : s.DutiesSound

/-- In CONFIG every area is STEADY, and stays so: a load keeps the rule that leaves the frames and the trip store. -/
theorem State.StepsReady.load (h : s.StepsReady D) (hm : s.mode = .config) (mode : t.mode = s.mode)
    (handover : ∀ b, (t.area b).handover = (s.area b).handover) (slots : s.SameSlots t) (store : t.trip.store = s.trip.store) :
    t.StepsKept D :=
  h.kept.steadied (fun b => (handover b).trans ((h.config hm).handover b))
    (fun run => by rw [mode, hm] at run; cases run) slots store

/-- A load of anything but the areas' records and the pool. -/
theorem State.StepsReady.loadRest (h : s.StepsReady D) (hm : s.mode = .config) (mode : t.mode = s.mode)
    (areas : t.areas = s.areas) (pool : t.pool = s.pool) (store : t.trip.store = s.trip.store) : t.StepsKept D :=
  h.load hm mode (fun b => by simp only [State.area, areas]) ⟨fun b => by simp only [State.framed, State.area, areas],
    fun i => by simp only [State.item, pool]⟩ store

theorem actSetPoint_kept (x : PointNo × AreaNo × Priority) (h : s.StepsReady D) :
    (actSetPoint s x).Gives (State.StepsKept D) := by
  unfold actSetPoint
  dsimp only
  split
  · trivial
  · split
    · trivial
    · rename_i inService
      split
      · trivial
      · cases hm : s.mode with
        | config => exact h.loadRest hm rfl rfl rfl rfl
        | run =>
          refine h.kept.stand (State.setPoint_free fun _ hn => ?_)
          obtain ⟨-, service, -⟩ := Point.hidden_eq_false.mp hn.hidden
          exact inService ⟨hm, by rw [service]; rfl⟩

theorem actLoadOrder_kept (x : OrderNo × Order) (hm : s.mode = .config) (h : s.StepsReady D) :
    (actLoadOrder s x).Gives (State.StepsKept D) := by
  unfold actLoadOrder
  split
  · trivial
  · exact h.loadRest hm rfl rfl rfl rfl

theorem actSetTiming_kept (x : Setting × Nat) (hm : s.mode = .config) (h : s.StepsReady D) :
    (actSetTiming s x).Gives (State.StepsKept D) := by
  show (s.storeSetting x.1 (x.1.clamped x.2)).StepsKept D
  unfold State.storeSetting
  dsimp only
  split <;> exact h.loadRest hm rfl rfl rfl rfl

theorem actSetShift_kept (x : Nat × Crew) (hm : s.mode = .config) (h : s.StepsReady D) :
    (actSetShift s x).Gives (State.StepsKept D) := by
  have area (b : AreaNo) : (s.areas.map fun r => { r with duty := x.2 })[b] = { s.area b with duty := x.2 } := by
    simp [State.area]
  refine h.load (t := { s with
    mill := { s.mill with shift := x.1, duty := x.2 }, areas := s.areas.map fun r => { r with duty := x.2 } }) hm rfl
    (fun b => ?_) ⟨fun b => ?_, fun _ => rfl⟩ rfl
  · rw [State.area, area]
  · rw [State.framed, State.area, area, State.framed]

theorem actLoadArea_kept (x : AreaNo × AreaConfig) (hm : s.mode = .config) (h : s.StepsReady D) :
    (actLoadArea s x).Gives (State.StepsKept D) := by
  refine h.load (t := s.modArea x.1 fun r => { r with config := x.2 }) hm rfl (fun b => ?_)
    (State.SameSlots.modArea x.1 _ s ⟨rfl, rfl⟩) rfl
  rw [State.area_modArea]
  split
  · subst_vars; rfl
  · rfl

/-- START admits lists that end alone (R176 check 1). -/
theorem State.listEnds_of_offender (h : s.offender = none) (hc : (s.area a).config.configured) :
    s.listEnds (s.area a).config.start := by
  have valid : s.areaValid a := by
    unfold State.offender at h
    split at h
    · cases h
    · rename_i none
      have test := List.find?_eq_none.mp none a (mem_allAreas a)
      simpa [hc] using test
  exact State.last_of_reachesLast (Bool.and_eq_true_iff.mp valid).1

theorem actStart_kept (x : Unit) (h : s.StepsKept D) : (actStart s x).Gives (State.StepsKept D) := by
  unfold actStart
  split
  · trivial
  · rename_i none
    refine h.steadied (fun b => by rw [State.enterRun_area]; rfl) (fun _ b hc => ?_)
      ⟨fun b => by rw [State.framed, State.enterRun_area, State.framed]; rfl, fun _ => rfl⟩ rfl
    rw [State.enterRun_area] at hc ⊢
    exact State.listEnds_of_offender (s := s) none hc

/-- At the resets no area has a handover and no slot an item (R177). -/
theorem State.StepsKept.ofRests (h : t.Rests) (framed : ∀ b, t.framed b = []) (spare : t.SparesP1) : t.StepsKept D := by
  have unlisted (b : AreaNo) (i : SlotNo) : i ∉ t.framed b := by
    rw [framed]
    exact List.not_mem_nil
  refine .ofSteady h.2.handover (fun run => by rw [h.1] at run; cases run)
    ⟨fun b => ?_, fun b _ i hb => absurd hb (unlisted b i), fun b i hb => absurd hb (unlisted b i)⟩ spare
  rw [framed]
  exact .nil

theorem State.hardReset_kept (strapLow : Bool) (s : State) : (s.hardReset strapLow).StepsKept D :=
  .ofRests (s.hardReset_rests strapLow) (fun b => by simp [State.framed, State.area, State.hardReset, State.reset, Area.reset,
    Draft.reset, Posted.reset]) fun e g last notify he => by simp [State.tripEntry, State.hardReset, TripUnit.reset] at he

theorem State.restart_kept (h : s.StepsKept D) : s.restart.StepsKept D :=
  .ofRests s.restart_rests (fun b => by simp [State.framed, State.area, State.restart, State.deriveAttention, Area.restart,
    Area.reset, Draft.reset, Posted.reset]) (h.spare.same rfl)

end Sys2Proof.Machine

/-!
Every request and every command keeps the rule of the condition steps, a presence deadline with the SEAT_IN steps left out (R142).
-/

namespace Sys2Proof.Machine

variable {s t u : State} {D E : StepSet} {a : AreaNo}

/-! ### Requests -/

theorem State.link_stands (l : Link) (s : State) : s.StepsStand D { s with link := l } :=
  .ofRest rfl rfl rfl rfl rfl rfl rfl rfl rfl

theorem State.take_stands {f : Frame} (h : s.take f = some u) : s.StepsStand D u := State.take_eq h ▸ s.link_stands _

theorem State.answer_kept {kind tag : Byte} {r : Answer} (h : s.StepsKept D) (hr : r.Gives (State.StepsKept D)) :
    (s.answer kind tag r).StepsKept D := by
  unfold State.answer
  split
  · exact h.stand (s.link_stands _)
  · exact State.StepsKept.stand hr (State.link_stands _ _)

theorem State.StepsReady.take {f : Frame} (h : s.StepsReady D) (hu : s.take f = some u) : u.StepsReady D := by
  have kept := h.kept.stand (State.take_stands hu)
  rw [State.take_eq hu] at kept ⊢
  obtain ⟨closed, opened, steady, done, duty⟩ := h.duties
  exact ⟨kept, State.ConfigSound.link s _ h.config, State.SeatsSound.link s _ h.seats, closed, opened, steady, done, duty⟩

theorem run_of_refusal {m : Mode} (h : TakenIn.run.refusal m = none) : m = .run := by
  cases m with
  | run => rfl
  | config => cases h

theorem hostRequest_kept {α : Type} {kind tag : Byte} {p : List Byte} {parse : List Byte → Option α} {m : TakenIn}
    {act : State → α → Answer} (hs : s.StepsReady D)
    (h : ∀ u x, parse p = some x → m.refusal u.mode = none → u.StepsReady D → (act u x).Gives (State.StepsKept D)) :
    ∃ t, hostRequest kind tag p parse m act s = .next t ∧ t.StepsKept D := by
  unfold hostRequest
  split
  · exact ⟨s, rfl, hs.kept⟩
  · rename_i u hu
    have ready := hs.take hu
    exact ⟨_, rfl, State.answer_kept ready.kept (checkRequest_gives fun x hx hm => h u x hx hm ready)⟩

theorem consoleRequest_kept {α : Type} {kind tag : Byte} {p : List Byte} {parse : List Byte → Option α}
    {act : State → α → Answer} (hs : s.StepsKept D)
    (h : ∀ u x, parse p = some x → u.mode = .run → u.StepsKept D → (act u x).Gives (State.StepsKept D)) :
    ∃ t, consoleRequest kind tag p parse act s = .next t ∧ t.StepsKept D := by
  unfold consoleRequest
  split
  · exact ⟨s, rfl, hs⟩
  · rename_i u hu
    have active := State.noteActivity_kept p (hs.stand (State.take_stands hu))
    exact ⟨_, rfl, State.answer_kept active (checkRequest_gives fun x hx hm => h _ x hx (run_of_refusal hm) active)⟩

/-- A request that only reads keeps the rule. -/
theorem query_kept {α : Type} {kind tag : Byte} {p : List Byte} {parse : List Byte → Option α} {m : TakenIn}
    {act : State → α → Answer} (hs : s.StepsReady D)
    (h : ∀ u x, match act u x with | .ok (v, _) => v = u | .error _ => True) :
    ∃ t, hostRequest kind tag p parse m act s = .next t ∧ t.StepsKept D := by
  refine hostRequest_kept hs fun u x _ _ hu => ?_
  have := h u x
  cases hr : act u x with
  | error e => trivial
  | ok v => obtain ⟨v, d⟩ := v; rw [hr] at this; exact this ▸ hu.kept

/-! ### Every command -/

theorem execBadKind_kept (kind tag : Byte) (p : List Byte) (h : s.StepsKept D) :
    ∃ t, execBadKind kind tag p s = .next t ∧ t.StepsKept D := by
  unfold execBadKind
  split
  · exact ⟨s, rfl, h⟩
  · split
    · exact ⟨s, rfl, h⟩
    · rename_i u hu
      exact ⟨_, rfl, (h.stand (State.take_stands hu)).stand (u.link_stands _)⟩

theorem execLinkError_kept (h : s.StepsKept D) : ∃ t, execLinkError s = .next t ∧ t.StepsKept D := by
  unfold execLinkError
  split
  · exact ⟨_, rfl, h.stand (s.link_stands _)⟩
  all_goals exact ⟨s, rfl, h⟩

theorem execGapTimerExpiry_kept (h : s.StepsKept D) : ∃ t, execGapTimerExpiry s = .next t ∧ t.StepsKept D := by
  unfold execGapTimerExpiry
  split
  · exact ⟨s, rfl, h⟩
  all_goals exact ⟨_, rfl, h.stand (s.link_stands _)⟩

theorem execKeyContactChange_kept (c : ConsoleNo) (k : KeyName) (closed : Bool) (h : s.StepsKept D) :
    ∃ t, execKeyContactChange c k closed s = .next t ∧ t.StepsKept D := by
  unfold execKeyContactChange
  dsimp only
  split
  · exact ⟨s, rfl, h⟩
  · split <;> exact ⟨_, rfl, h.stand (s.setKey_stands c k _)⟩

theorem execKeyReleaseTimerExpiry_kept (c : ConsoleNo) (k : KeyName) (h : s.StepsKept D) :
    ∃ t, execKeyReleaseTimerExpiry c k s = .next t ∧ t.StepsKept D := by
  unfold execKeyReleaseTimerExpiry
  dsimp only
  split
  · exact ⟨_, rfl, h.stand (s.setKey_stands c k _)⟩
  · exact ⟨s, rfl, h⟩

theorem execStuckTimerExpiry_kept (c : ConsoleNo) (k : KeyName) (h : s.StepsKept D) :
    ∃ t, execStuckTimerExpiry c k s = .next t ∧ t.StepsKept D := by
  unfold execStuckTimerExpiry
  dsimp only
  split
  · exact ⟨_, rfl, h.stand ((s.setKey_stands c k _).trans (State.notify_stands _ _))⟩
  · exact ⟨s, rfl, h⟩

theorem execP1ResoundDeadline_kept (c : ConsoleNo) (h : s.StepsKept D) :
    ∃ t, execP1ResoundDeadline c s = .next t ∧ t.StepsKept D := by
  unfold execP1ResoundDeadline
  split
  · split
    · exact ⟨_, rfl, h.stand ((s.modConsole_stands c _ ⟨rfl, rfl, rfl⟩).trans (State.driveOutputs_stands _))⟩
    · exact ⟨s, rfl, h⟩
  · exact ⟨s, rfl, h⟩

theorem execTripLinesChange_kept (lines : Fin 16) (h : s.StepsKept D) :
    ∃ t, execTripLinesChange lines s = .next t ∧ t.StepsKept D := by
  unfold execTripLinesChange
  split
  · exact ⟨s, rfl, h⟩
  · exact ⟨_, rfl, h.stand (s.modTrip_stands _ rfl)⟩

theorem execTripReleaseTimerExpiry_kept (h : s.StepsKept D) :
    ∃ t, execTripReleaseTimerExpiry s = .next t ∧ t.StepsKept D := by
  unfold execTripReleaseTimerExpiry
  split
  · exact ⟨_, rfl, h.stand (s.modTrip_stands _ rfl)⟩
  all_goals exact ⟨s, rfl, h⟩

theorem actSignOn_kept (x : ConsoleNo × Nat) (h : s.StepsKept D) : (actSignOn s x).Gives (State.StepsKept D) := by
  unfold actSignOn
  split
  · trivial
  · split
    · trivial
    · split
      · trivial
      · split
        · trivial
        · split
          · trivial
          · exact State.signOn_kept x.1 x.2 h

theorem actSignOff_kept (x : Option ConsoleNo × ConsoleNo) (h : s.StepsKept D) :
    (actSignOff s x).Gives (State.StepsKept D) := by
  unfold actSignOff
  split
  · trivial
  · split
    · trivial
    · exact State.signOff_kept x.2 h

theorem exec_kept {i : Instr} (h : s.StepsReady D) (absent : ∀ c, i = .presenceDeadline c → ∀ a, D a .seatIn) :
    ∃ t, exec i s = .next t ∧ t.StepsKept D := by
  cases i with
  | hardReset strap => exact ⟨_, rfl, s.hardReset_kept strap⟩
  | receiveCharacter b => exact ⟨_, rfl, h.kept.stand (s.link_stands _)⟩
  | gapTimerExpiry => exact execGapTimerExpiry_kept h.kept
  | linkError => exact execLinkError_kept h.kept
  | badKind => exact execBadKind_kept _ _ _ h.kept
  | clockSecond => exact ⟨_, rfl, h.kept.stand (.ofRest rfl rfl rfl rfl rfl rfl rfl rfl rfl)⟩
  | identify | queryPoint | listStanding | queryMeters => exact query_kept h fun _ _ => rfl
  | queryOperator => exact query_kept h fun u n => by cases u.operator? n <;> trivial
  | queryConsole | queryTrip | queryHandover => exact query_kept h fun _ x => by cases x <;> rfl
  | listShelves | readSheet => exact query_kept h fun _ _ => rfl
  | setClock => exact hostRequest_kept h fun u x _ _ hu => hu.kept.stand (u.setClock_stands x)
  | fetchNotices =>
    exact hostRequest_kept h fun u x _ _ hu => hu.kept.stand (.ofRest rfl rfl rfl rfl rfl rfl rfl rfl rfl)
  | start => exact hostRequest_kept h fun u x _ _ hu => actStart_kept x hu.kept
  | restart => exact hostRequest_kept h fun u _ _ _ hu => State.restart_kept hu.kept
  | setTiming => exact hostRequest_kept h fun u x _ hm hu => actSetTiming_kept x (config_of_refusal hm) hu
  | setShift => exact hostRequest_kept h fun u x _ hm hu => actSetShift_kept x (config_of_refusal hm) hu
  | loadPoints =>
    refine hostRequest_kept h fun u x _ hm hu => ?_
    have rest := State.storePoints_rest x.1 x.2 u
    exact hu.loadRest (config_of_refusal hm) (by rw [rest]) (by rw [rest]) (by rw [rest]) (by rw [rest])
  | loadArea => exact hostRequest_kept h fun u x _ hm hu => actLoadArea_kept x (config_of_refusal hm) hu
  | loadConsole | loadRole | loadSteps =>
    exact hostRequest_kept h fun u x _ hm hu => hu.loadRest (config_of_refusal hm) rfl rfl rfl rfl
  | loadOrder => exact hostRequest_kept h fun u x _ hm hu => actLoadOrder_kept x (config_of_refusal hm) hu
  | loadOperator | loadOperatorRemove =>
    exact hostRequest_kept h fun u x _ _ hu => actLoadOperator_kept x hu.config hu.seats hu.kept
  | loadTripCode => exact hostRequest_kept h fun u x _ _ hu => actLoadTripCode_kept x hu.kept
  | loadTripEntries => exact hostRequest_kept h fun u x hx _ hu => actLoadTripEntries_kept hx hu.kept
  | setPoint => exact hostRequest_kept h fun u x _ _ hu => actSetPoint_kept x hu
  | raise => exact hostRequest_kept h fun u x _ _ hu => actRaise_kept x hu.kept
  | clear => exact hostRequest_kept h fun u x _ _ hu => actClear_kept x hu.kept
  | clearTripFault =>
    refine hostRequest_kept h fun u x _ _ hu => ?_
    split
    · exact hu.kept.stand (u.modTrip_stands (fun t => { t with latch := false }) rfl)
    · trivial
  | beginHandover => exact hostRequest_kept h fun u x _ hm hu => actBeginHandover_kept x hu.duties (run_of_refusal hm) hu.kept
  | cancelHandover => exact hostRequest_kept h fun u x _ _ hu => actCancelHandover_kept x hu.kept
  | suspendArea => exact hostRequest_kept h fun u x _ _ hu => actSuspendArea_kept x hu.kept
  | resumeArea => exact hostRequest_kept h fun u x _ _ hu => actResumeArea_kept x hu.kept
  | abortArea => exact hostRequest_kept h fun u x _ _ hu => actAbortArea_kept x hu.kept
  | clearAbort => exact hostRequest_kept h fun u x _ _ hu => actClearAbort_kept x hu.kept
  | signOn => exact consoleRequest_kept h.kept fun u x _ _ hu => actSignOn_kept x hu
  | signOff => exact consoleRequest_kept h.kept fun u x _ _ hu => actSignOff_kept x hu
  | silence =>
    refine consoleRequest_kept h.kept fun u x _ _ hu => Answer.Gives.withOperator (fun _ => ?_) _
    exact hu.stand (u.silence_stands x.1 _)
  | ack => exact consoleRequest_kept h.kept fun u x _ _ hu => actAck_kept x hu
  | ackHead => exact consoleRequest_kept h.kept fun u x _ _ hu => actAckHead_kept x hu
  | ackArea => exact consoleRequest_kept h.kept fun u x hx _ hu => actAckArea_kept hx hu
  | shelve => exact consoleRequest_kept h.kept fun u x _ _ hu => actShelve_kept x hu
  | unshelve => exact consoleRequest_kept h.kept fun u x _ _ hu => actUnshelve_kept x hu
  | takeOut => exact consoleRequest_kept h.kept fun u x _ _ hu => actTakeOut_kept x hu
  | returnPoint => exact consoleRequest_kept h.kept fun u x _ _ hu => actReturn_kept x hu
  | releaseTrip => exact consoleRequest_kept h.kept fun u x _ _ hu => actReleaseTrip_kept x hu
  | lockDraft => exact consoleRequest_kept h.kept fun u x _ _ hu => actLockDraft_kept x hu
  | unlockDraft => exact consoleRequest_kept h.kept fun u x _ _ hu => actUnlockDraft_kept x hu
  | addItem => exact consoleRequest_kept h.kept fun u x _ _ hu => actAddItem_kept x hu
  | removeItem => exact consoleRequest_kept h.kept fun u x _ _ hu => actRemoveItem_kept x hu
  | post => exact consoleRequest_kept h.kept fun u x _ _ hu => actPost_kept x hu
  | reviewItem => exact consoleRequest_kept h.kept fun u x _ _ hu => actReviewItem_kept x hu
  | confirmStep => exact consoleRequest_kept h.kept fun u x _ _ hu => actConfirmStep_kept x hu
  | restartArea => exact consoleRequest_kept h.kept fun u x _ hm hu => actRestartArea_kept x hm hu
  | keyContactChange c k closed => exact execKeyContactChange_kept c k closed h.kept
  | keyQualifyTimerExpiry c k => exact execKeyQualifyTimerExpiry_kept c k h.kept
  | keyReleaseTimerExpiry c k => exact execKeyReleaseTimerExpiry_kept c k h.kept
  | stuckTimerExpiry c k => exact execStuckTimerExpiry_kept c k h.kept
  | presenceDeadline c => exact execPresenceDeadline_kept c (absent c rfl) h.kept
  | p1ResoundDeadline c => exact execP1ResoundDeadline_kept c h.kept
  | shelfExpired n => exact execShelfExpired_kept n h.kept
  | decayStep a => exact execDecayStep_kept a h.kept
  | tripLinesChange lines => exact execTripLinesChange_kept lines h.kept
  | tripQualifyTimerExpiry => exact execTripQualifyTimerExpiry_kept h.kept
  | tripReleaseTimerExpiry => exact execTripReleaseTimerExpiry_kept h.kept
  | waitDeadline c => exact execWaitDeadline_kept c h.kept
  | tripHoldDeadline c => exact execTripHoldDeadline_kept c h.kept
  | stepTimeout a => exact execStepTimeout_kept a h.kept
  | handoverHoldDeadline a => exact execHandoverHoldDeadline_kept a h.kept

/-! ### The statement -/

theorem State.pending_stands (l : List Instr) (s : State) : s.StepsStand D { s with pending := l } :=
  .ofRest rfl rfl rfl rfl rfl rfl rfl rfl rfl

theorem step_kept (h : s.StepsReady D) (absent : ∀ c rest, s.pending = .presenceDeadline c :: rest → ∀ a, D a .seatIn)
    (e : step s = .next t) : t.StepsKept D := by
  unfold step at e
  split at e
  · cases e; exact h.kept
  · rename_i i rest hp
    obtain ⟨once, console, operator, configured, deadline⟩ := h.seats
    obtain ⟨closed, opened, steady, done, duty⟩ := h.duties
    have ready : State.StepsReady D { s with pending := rest } :=
      ⟨h.kept.stand (s.pending_stands rest), h.config.same rfl rfl rfl rfl rfl rfl rfl rfl,
        ⟨once, console, operator, configured, deadline⟩, closed, opened, steady, done, duty⟩
    obtain ⟨v, hv, kept⟩ := exec_kept (i := i) ready fun c hc => absent c rest (hc ▸ hp)
    cases hv.symm.trans e
    exact kept

/-- The SEAT_IN steps of all areas. -/
def StepSet.seatIns : StepSet := fun _ k => k = .seatIn

/-- No step. -/
def StepSet.none : StepSet := fun _ _ => False

theorem State.StepsSound.kept (h : s.StepsSound) (frames : s.FramesSound) (spare : s.SparesP1) : s.StepsKept .seatIns :=
  ⟨h.start, h.current, fun a p x y hr hk => h.waits a p x y hr hk, frames, spare⟩

theorem State.StepsKept.sound (h : s.StepsKept .seatIns) : s.StepsSound :=
  ⟨h.start, h.current, fun a p x y hr hk => h.waits a p x y hr hk⟩

/-- With the SEAT_IN steps sound as well, nothing is left out. -/
theorem State.StepsKept.seated (h : s.StepsKept .seatIns) (seats : s.SeatStepsSound) : s.StepsKept .none :=
  h.narrow fun a p x y hr hk _ => by
    rw [show (s.stepEntry p.index).kind = .seatIn from hk]
    exact seats a p x y hr hk

theorem State.StepsKept.seatSteps (h : s.StepsKept .none) : s.SeatStepsSound := fun a p x y hr hk =>
  hk ▸ h.waits a p x y hr id

/-- Settles O15: with the SEAT_IN steps left out the rule is kept by every command; with nothing left out, by every command but
a presence deadline. -/
theorem conditionStepsComplete : Obligations.ConditionStepsComplete := by
  intro s t config trips pool seats duties steps e
  have kept := steps.kept pool.frames trips.spare
  refine ⟨(step_kept ⟨kept, config, seats, duties⟩ (fun _ _ _ _ => rfl) e).sound, fun present seatSteps => ?_⟩
  exact (step_kept ⟨kept.seated seatSteps, config, seats, duties⟩ (fun c rest hp => absurd hp (present c rest)) e).seatSteps

end Sys2Proof.Machine

/-!
The item pool and its one listing of the slots in use (R120). `State.PoolOf` says that the slots in use are those of a list, each
once, in any order: so a slot that is placed, freed or moved between frames is followed through the states between, where the
frames do not list every slot in use.
-/

namespace Sys2Proof.Machine

variable {s t u : State} {a : AreaNo} {i : SlotNo} {l m : List SlotNo}

/-! ### The slots in use -/

/-- The free count and the slots `m` make 1024, no slot is twice among them, and they are those that hold an item. -/
structure State.PoolOf (s : State) (m : List SlotNo) : Prop where
  total : s.freeCount + m.length = 1024
  once  : m.Nodup
  held  : ∀ i, (s.item i).isSome ↔ i ∈ m

theorem State.poolSound_iff : s.PoolSound ↔ s.PoolOf s.listed :=
  ⟨fun ⟨total, once, held⟩ => ⟨total, once, held⟩, fun ⟨total, once, held⟩ => ⟨total, once, held⟩⟩

theorem State.PoolOf.perm (h : s.PoolOf l) (p : l.Perm m) : s.PoolOf m :=
  ⟨p.length_eq ▸ h.total, p.nodup h.once, fun i => (h.held i).trans p.mem_iff⟩

/-- The frames and what else the records say have no part in it. -/
theorem State.PoolOf.same (h : s.PoolOf m) (items : ∀ i, (t.item i).isSome = (s.item i).isSome)
    (free : t.freeCount = s.freeCount) : t.PoolOf m :=
  ⟨free ▸ h.total, h.once, fun i => by rw [items]; exact h.held i⟩

theorem State.PoolOf.not_mem (h : s.PoolOf m) (hi : s.item i = none) : i ∉ m := fun hm => by
  have held := (h.held i).mpr hm
  rw [hi] at held
  cases held

/-- While a slot is free, the free count is above 0. -/
theorem State.PoolOf.free_pos (h : s.PoolOf m) (hi : s.item i = none) : 0 < s.freeCount := by
  have bound := (List.nodup_cons.mpr ⟨h.not_mem hi, h.once⟩).length_le_card
  rw [Fintype.card_fin, List.length_cons] at bound
  have total := h.total
  omega

/-- While the free count is above 0, a slot is free. -/
theorem State.PoolOf.exists_free (h : s.PoolOf m) (hf : 0 < s.freeCount) : ∃ i, s.lowestFree = some i := by
  have spare : ∃ i, s.item i = none := by
    by_contra full
    push Not at full
    have all : List.finRange 1024 ⊆ m := fun i _ => (h.held i).mp (Option.isSome_iff_ne_none.mpr (full i))
    have bound := ((List.nodup_finRange 1024).subperm all).length_le
    rw [List.length_finRange] at bound
    have total := h.total
    omega
  have least : ∃ n, ∃ hn : n < 1024, s.item ⟨n, hn⟩ = none := spare.elim fun i hi => ⟨i.val, i.isLt, hi⟩
  classical
  obtain ⟨hn, free⟩ := Nat.find_spec least
  exact ⟨⟨Nat.find least, hn⟩, State.lowestFree_some.mpr ⟨free, fun j hj e => Nat.find_min least hj ⟨j.isLt, e⟩⟩⟩

/-! ### Items placed, freed and changed -/

theorem State.PoolOf.place (h : s.PoolOf m) (hi : s.item i = none) (x : Item) : (s.placeItem i x).PoolOf (i :: m) where
  total := by
    have total := h.total
    have pos := h.free_pos hi
    rw [List.length_cons]
    show s.freeCount - 1 + (m.length + 1) = 1024
    omega
  once := List.nodup_cons.mpr ⟨h.not_mem hi, h.once⟩
  held j := by
    rw [State.item_placeItem, List.mem_cons]
    split
    · rename_i e; simp [e]
    · rename_i e; rw [h.held]; simp [e]

theorem State.PoolOf.free (h : s.PoolOf (i :: m)) : (s.freeSlot i).PoolOf m where
  total := by
    have total := h.total
    rw [List.length_cons] at total
    show s.freeCount + 1 + m.length = 1024
    omega
  once := (List.nodup_cons.mp h.once).2
  held j := by
    obtain ⟨out, -⟩ := List.nodup_cons.mp h.once
    rw [State.item_freeSlot]
    split
    · rename_i e; subst e; simp [out]
    · rename_i e; rw [h.held, List.mem_cons]; simp [e]

theorem State.PoolOf.freeAll (h : s.PoolOf (l ++ m)) : (s.freeSlots l).PoolOf m := by
  induction l generalizing s with
  | nil => exact h
  | cons i l ih => exact ih h.free

theorem State.isSome_modItem (i j : SlotNo) (f : Item → Item) (s : State) :
    ((s.modItem i f).item j).isSome = (s.item j).isSome := by
  rw [State.item_modItem]
  split
  · rename_i e; subst e; exact Option.isSome_map
  · rfl

theorem State.PoolOf.modItem (h : s.PoolOf m) (i : SlotNo) (f : Item → Item) : (s.modItem i f).PoolOf m :=
  h.same (fun j => s.isSome_modItem i j f) rfl

theorem State.PoolOf.clearReviews (h : s.PoolOf m) (l : List SlotNo) : (s.clearReviews l).PoolOf m := by
  induction l generalizing s with
  | nil => exact h
  | cons i l ih => exact ih (h.modItem i _)

/-! ### What the frames list -/

/-- The slots on the frames of the areas other than `a`. -/
def State.elsewhere (s : State) (a : AreaNo) : List SlotNo := (allAreas.erase a).flatMap s.framed

theorem State.listed_perm (s : State) (a : AreaNo) : s.listed.Perm (s.framed a ++ s.elsewhere a) :=
  (List.perm_cons_erase (mem_allAreas a)).flatMap_right s.framed

theorem State.listed_congr (h : ∀ b, t.framed b = s.framed b) : t.listed = s.listed := by
  unfold State.listed
  rw [show t.framed = s.framed from funext h]

/-- One area's frames have changed, so that all frames together list the slots in use. -/
theorem State.PoolOf.relist (h : t.PoolOf m) (others : ∀ b, b ≠ a → t.framed b = s.framed b)
    (p : m.Perm (t.framed a ++ s.elsewhere a)) : t.PoolSound := by
  have same : t.elsewhere a = s.elsewhere a :=
    List.flatMap_congr fun b hb => others b ((List.nodup_finRange 32).mem_erase_iff.mp hb).1
  rw [← same] at p
  exact State.poolSound_iff.mpr (h.perm (p.trans (t.listed_perm a).symm))

theorem State.PoolSound.poolOf (h : s.PoolSound) (a : AreaNo) : s.PoolOf (s.framed a ++ s.elsewhere a) :=
  (State.poolSound_iff.mp h).perm (s.listed_perm a)

end Sys2Proof.Machine

/-!
The sheet store's part of an exchange (R132, R133): the old posted items go, the drafted ones keep their slots, and each captured
item takes a free one. It keeps the pool's count and the single listing of its slots (R120).
-/

namespace Sys2Proof.Machine

variable {s t u : State} {a : AreaNo} {i : SlotNo} {l m : List SlotNo}

/-! ### Captured items -/

/-- A captured item as it is created (R133). -/
def capturedItem (now : Nat) (k : ItemKind) : Item := { kind := k, author := none, created := now, reviewed := none }

/-- Slots that join the end of area `a`'s posted frame. -/
def State.postMore (a : AreaNo) (is : List SlotNo) (s : State) : State :=
  s.modArea a fun r => { r with posted := { r.posted with items := r.posted.items ++ is } }

theorem State.capture_some (k : ItemKind) (h : s.lowestFree = some i) :
    s.capture a k = (s.placeItem i (capturedItem s.now k)).postMore a [i] := by
  unfold State.capture
  rw [h]
  rfl

theorem State.capture_none (k : ItemKind) (h : s.lowestFree = none) : s.capture a k = s := by
  unfold State.capture
  rw [h]

theorem State.PoolSound.capture (h : s.PoolSound) (a : AreaNo) (k : ItemKind) : (s.capture a k).PoolSound := by
  cases free : s.lowestFree with
  | none => rwa [State.capture_none k free]
  | some i =>
    rw [State.capture_some k free]
    have placed := (h.poolOf a).place (State.lowestFree_some.mp free).1 (capturedItem s.now k)
    refine (placed.same (t := (s.placeItem i (capturedItem s.now k)).postMore a [i]) (fun _ => rfl) rfl).relist (s := s) (a := a)
      (fun b hb => ?_) ?_
    · rw [State.postMore, State.framed_modArea, if_neg hb]; rfl
    · rw [State.postMore, State.framed_modArea, if_pos rfl]
      show (i :: (s.framed a ++ s.elsewhere a)).Perm
        ((s.area a).draft.items ++ ((s.area a).posted.items ++ [i]) ++ s.elsewhere a)
      rw [← List.append_assoc, List.append_assoc]
      exact List.perm_middle.symm

/-- The captures of an exchange, one after another (R133). -/
def State.captureAll (a : AreaNo) (ks : List ItemKind) (s : State) : State := ks.foldl (fun s k => s.capture a k) s

theorem State.captureAll_cons (a : AreaNo) (k : ItemKind) (ks : List ItemKind) (s : State) :
    s.captureAll a (k :: ks) = (s.capture a k).captureAll a ks := by
  rw [State.captureAll, List.foldl_cons, State.captureAll]

theorem State.PoolSound.captureAll (h : s.PoolSound) (a : AreaNo) (ks : List ItemKind) : (s.captureAll a ks).PoolSound := by
  induction ks generalizing s with
  | nil => exact h
  | cons k ks ih =>
    rw [State.captureAll_cons]
    exact ih (h.capture a k)

/-- The captures of the kinds `ks` take `s` to `t`: each item in a slot of its own that was free, the slots `is` joining the
posted frame in their order. -/
structure State.CapturesTo (s : State) (a : AreaNo) (ks : List ItemKind) (is : List SlotNo) (t : State) : Prop where
  length : is.length = ks.length
  free   : ∀ i ∈ is, s.item i = none
  items  : is.map t.item = ks.map fun k => some (capturedItem s.now k)
  others : ∀ i, i ∉ is → t.item i = s.item i
  count  : t.freeCount + is.length = s.freeCount
  rest   : t = { s.postMore a is with pool := t.pool, freeCount := t.freeCount }

theorem State.CapturesTo.item_getElem {ks : List ItemKind} {is : List SlotNo} (h : s.CapturesTo a ks is t) (j : Nat)
    (hi : j < is.length) (hk : j < ks.length) : t.item is[j] = some (capturedItem s.now ks[j]) := by
  have each := List.getElem_of_eq h.items (i := j) (by simpa using hi)
  rwa [List.getElem_map, List.getElem_map] at each

theorem State.postMore_nil (a : AreaNo) (s : State) : s.postMore a [] = s := by
  refine (State.modArea_congr s (g := id) ?_).trans ?_
  · rw [List.append_nil]; rfl
  · simp [State.modArea, State.area]

theorem State.postMore_append (s : State) (a : AreaNo) (is js : List SlotNo) :
    (s.postMore a is).postMore a js = s.postMore a (is ++ js) := by
  simp only [State.postMore, State.modArea, State.area, Fin.getElem_fin, Vector.getElem_set_self, Vector.set_set, List.append_assoc]

theorem State.CapturesTo.rest_trans {is js : List SlotNo}
    (first : t = { s.postMore a is with pool := t.pool, freeCount := t.freeCount })
    (next : u = { t.postMore a js with pool := u.pool, freeCount := u.freeCount }) :
    u = { s.postMore a (is ++ js) with pool := u.pool, freeCount := u.freeCount } := by
  have joined : t.postMore a js = { s.postMore a (is ++ js) with pool := t.pool, freeCount := t.freeCount } :=
    (congrArg (State.postMore a js) first).trans
      (congrArg (fun x : State => { x with pool := t.pool, freeCount := t.freeCount }) (s.postMore_append a is js))
  exact next.trans (congrArg (fun x : State => { x with pool := u.pool, freeCount := u.freeCount }) joined)

/-- While the pool holds enough free slots every item is captured. -/
theorem State.captureAll_capturesTo (h : s.PoolSound) (a : AreaNo) (ks : List ItemKind) (hn : ks.length ≤ s.freeCount) :
    ∃ is, s.CapturesTo a ks is (s.captureAll a ks) := by
  induction ks generalizing s with
  | nil => exact ⟨[], rfl, nofun, rfl, fun _ _ => rfl, rfl, by rw [State.postMore_nil]; rfl⟩
  | cons k ks ih =>
    rw [List.length_cons] at hn
    obtain ⟨i, hi⟩ := (State.poolSound_iff.mp h).exists_free (by omega)
    have count : (s.capture a k).freeCount = s.freeCount - 1 := by rw [State.capture_some k hi]; rfl
    have item (j : SlotNo) : (s.capture a k).item j = if j = i then some (capturedItem s.now k) else s.item j := by
      rw [State.capture_some k hi]
      exact s.item_placeItem i j _
    have now : (s.capture a k).now = s.now := by rw [State.capture_some k hi]; rfl
    have first : s.capture a k = { s.postMore a [i] with pool := (s.capture a k).pool, freeCount := (s.capture a k).freeCount } := by
      rw [State.capture_some k hi]; rfl
    obtain ⟨is, length, free, items, others, total, rest⟩ := ih (h.capture a k) (by omega)
    have out : i ∉ is := fun hm => by
      have taken := free i hm
      rw [item, if_pos rfl] at taken
      cases taken
    refine ⟨i :: is, by simp [length], fun j hj => ?_, ?_, fun j hj => ?_, ?_, ?_⟩
    · rcases List.mem_cons.mp hj with rfl | hj
      · exact (State.lowestFree_some.mp hi).1
      · have fj := free j hj
        rwa [item, if_neg fun e : j = i => out (e ▸ hj)] at fj
    · rw [State.captureAll_cons, List.map_cons, List.map_cons, others i out, item, if_pos rfl, items, now]
    · obtain ⟨hj, hjs⟩ := not_or.mp (List.mem_cons.not.mp hj)
      rw [State.captureAll_cons, others j hjs, item, if_neg hj]
    · rw [State.captureAll_cons, List.length_cons]; omega
    · rw [State.captureAll_cons]
      exact State.CapturesTo.rest_trans (is := [i]) first rest

/-! ### The frames swap -/

/-- The frames swapped, the old posted items gone and the drafted ones without reviewers (R132 steps 1 to 3). -/
def State.swapped (a : AreaNo) (s : State) : State :=
  ((s.modArea a Area.swapFrames).freeSlots (s.area a).posted.items).clearReviews (s.area a).draft.items

theorem State.area_freeSlots (l : List SlotNo) (b : AreaNo) (s : State) : (s.freeSlots l).area b = s.area b := by
  induction l generalizing s with
  | nil => rfl
  | cons i l ih => exact ih (s.freeSlot i)

theorem State.area_clearReviews (l : List SlotNo) (b : AreaNo) (s : State) : (s.clearReviews l).area b = s.area b := by
  induction l generalizing s with
  | nil => rfl
  | cons i l ih => exact ih (s.modItem i fun x => { x with reviewed := none })

theorem State.area_swapped (b : AreaNo) (s : State) :
    (s.swapped a).area b = if b = a then (s.area a).swapFrames else s.area b := by
  unfold State.swapped
  rw [State.area_clearReviews, State.area_freeSlots, State.area_modArea]

theorem State.PoolSound.swapped (h : s.PoolSound) (a : AreaNo) : (s.swapped a).PoolSound := by
  have inUse : s.PoolOf ((s.area a).posted.items ++ ((s.area a).draft.items ++ s.elsewhere a)) := by
    refine (h.poolOf a).perm ?_
    show ((s.area a).draft.items ++ (s.area a).posted.items ++ s.elsewhere a).Perm _
    rw [← List.append_assoc]
    exact List.perm_append_comm.append_right _
  have swapped : (s.swapped a).PoolOf ((s.area a).draft.items ++ s.elsewhere a) :=
    ((inUse.same (t := s.modArea a Area.swapFrames) (fun _ => rfl) rfl).freeAll).clearReviews _
  refine swapped.relist (s := s) (a := a) (fun b hb => ?_) ?_
  · rw [State.framed, State.area_swapped, if_neg hb, State.framed]
  · rw [State.framed, State.area_swapped, if_pos rfl]
    exact .refl _

/-- What the new posted frame of area `a` records (R132 step 5). -/
def State.recordPosting (a : AreaNo) (g : Posting) (s : State) : State :=
  s.modArea a fun r => { r with posted := { r.posted with posting := some g } }

/-- The exchange in its two parts: the frames with their captures, and the posting recorded (R132 steps 4 and 5). -/
theorem State.swapSheets_eq (a : AreaNo) (s : State) : s.swapSheets a =
    ((s.swapped a).captureAll a (s.captures a)).recordPosting a
      (((s.swapped a).captureAll a (s.captures a)).postingFor a ((s.area a).draft.commit.getD (s.area a).duty)) := rfl

theorem State.PoolSound.swapSheets (h : s.PoolSound) (a : AreaNo) : (s.swapSheets a).PoolSound := by
  have captured := (h.swapped a).captureAll a (s.captures a)
  rw [State.swapSheets_eq]
  generalize (s.swapped a).captureAll a (s.captures a) = t at captured ⊢
  generalize t.postingFor a ((s.area a).draft.commit.getD (s.area a).duty) = g
  refine ((captured.poolOf a).same (t := t.recordPosting a g) (fun _ => rfl) rfl).relist (s := t) (a := a) (fun b hb => ?_) ?_
  · rw [State.recordPosting, State.framed_modArea, if_neg hb]
  · rw [State.recordPosting, State.framed_modArea, if_pos rfl]
    exact .refl _

/-! ### The slots after an exchange -/

theorem State.item_freeSlots (l : List SlotNo) (j : SlotNo) (s : State) :
    (s.freeSlots l).item j = if j ∈ l then none else s.item j := by
  induction l generalizing s with
  | nil => rfl
  | cons i l ih =>
    refine (ih (s.freeSlot i)).trans ?_
    rw [State.item_freeSlot]
    by_cases e : j = i <;> by_cases hl : j ∈ l <;> simp [e, hl]

theorem State.item_clearReviews (l : List SlotNo) (j : SlotNo) (s : State) : (s.clearReviews l).item j =
    if j ∈ l then (s.item j).map fun x => { x with reviewed := none } else s.item j := by
  induction l generalizing s with
  | nil => rfl
  | cons i l ih =>
    refine (ih (s.modItem i fun x => { x with reviewed := none })).trans ?_
    rw [State.item_modItem]
    by_cases e : j = i
    · subst e
      by_cases hl : j ∈ l <;> simp [hl, Function.comp_def]
    · by_cases hl : j ∈ l <;> simp [e, hl]

theorem State.freeCount_freeSlots (l : List SlotNo) (s : State) : (s.freeSlots l).freeCount = s.freeCount + l.length := by
  induction l generalizing s with
  | nil => rfl
  | cons i l ih =>
    refine (ih (s.freeSlot i)).trans ?_
    show s.freeCount + 1 + l.length = s.freeCount + (l.length + 1)
    omega

theorem State.freeCount_clearReviews (l : List SlotNo) (s : State) : (s.clearReviews l).freeCount = s.freeCount := by
  induction l generalizing s with
  | nil => rfl
  | cons i l ih => exact ih (s.modItem i fun x => { x with reviewed := none })

theorem State.freeCount_swapped (a : AreaNo) (s : State) :
    (s.swapped a).freeCount = s.freeCount + (s.area a).posted.items.length := by
  unfold State.swapped
  rw [State.freeCount_clearReviews, State.freeCount_freeSlots]
  rfl

theorem State.item_swapped (j : SlotNo) (s : State) : (s.swapped a).item j =
    if j ∈ (s.area a).draft.items then
      (if j ∈ (s.area a).posted.items then none else s.item j).map fun x => { x with reviewed := none }
    else if j ∈ (s.area a).posted.items then none else s.item j := by
  unfold State.swapped
  rw [State.item_clearReviews, State.item_freeSlots]
  rfl

/-! ### What an exchange records -/

/-- The items captured are those that R133 lists. -/
theorem State.captures_eq (a : AreaNo) (s : State) : s.captures a =
    ((List.finRange 64).filter (s.takesOrder a)).map (fun i => .order i s.orders[i].ref)
      ++ (s.shelves.filter (·.area = a)).map fun r =>
        .shelf r.point (match r.ending with | .minutes d => .minutes d.time | .shifts n => .shifts n) := by
  have shelves : s.shelvesOf a = s.shelves.filter (·.area = a) :=
    List.filter_congr fun _ _ => rfl
  have copy (r : Shelf) : r.copy = match r.ending with | .minutes d => .minutes d.time | .shifts n => .shifts n := by
    unfold Shelf.copy
    cases r.ending <;> rfl
  unfold State.captures
  rw [State.ordersDue_eq, shelves, List.map_map]
  simp only [copy, Function.comp_def]

/-- Where the pool is sufficient there are as many free slots as items to capture (R129 condition 4). -/
theorem State.captures_le (h : s.ShelvesSound) (p : s.PoolHolds a) : (s.captures a).length ≤ s.freeCount := by
  have shelved : (s.shelvesOf a).length = (s.area a).shelvedCount := by
    rw [h.count, List.countP_eq_length_filter]; rfl
  unfold State.PoolHolds at p
  unfold State.captures
  rw [List.length_append, List.length_map, List.length_map, State.ordersDue_eq, List.length_map, shelved,
    ← List.countP_eq_length_filter]
  omega

theorem State.summaryRuled_congr (points : t.points = s.points) (config : ∀ b, (t.area b).config = (s.area b).config) :
    t.summaryRuled a = s.summaryRuled a := by
  have point (n : PointNo) : t.point n = s.point n := by simp only [State.point, points]
  have exist (p : Point) : t.exists? p = s.exists? p := by simp only [State.exists?, config]
  simp only [State.summaryRuled, point, exist]

/-- The swap of the frames changes the areas and the pool alone. -/
theorem State.swapped_fills (a : AreaNo) (s : State) : (s.modArea a Area.swapFrames).Fills (s.swapped a) := by
  unfold State.swapped
  refine .trans ?_ (State.Fills.fold (f := fun s i => s.modItem i _) (fun _ _ => ⟨rfl, fun _ => ⟨rfl, rfl, rfl⟩⟩) _ _)
  exact .fold (f := fun s i => s.freeSlot i) (fun _ _ => ⟨rfl, fun _ => ⟨rfl, rfl, rfl⟩⟩) _ _

theorem State.area_postMore (a b : AreaNo) (is : List SlotNo) (s : State) : (s.postMore a is).area b =
    if b = a then { s.area a with posted := { (s.area a).posted with items := (s.area a).posted.items ++ is } }
    else s.area b := s.area_modArea a b _

theorem State.area_recordPosting (a b : AreaNo) (g : Posting) (s : State) : (s.recordPosting a g).area b =
    if b = a then { s.area a with posted := { (s.area a).posted with posting := some g } } else s.area b :=
  s.area_modArea a b _

/-- The records of the areas once the frames have swapped and the slots `is` have joined the posted one. -/
theorem State.CapturesTo.area {ks : List ItemKind} {is : List SlotNo} (h : (s.swapped a).CapturesTo a ks is t) (b : AreaNo) :
    t.area b = if b = a then { (s.area a).swapFrames with posted := { items := (s.area a).draft.items ++ is, posting := none } }
      else s.area b := by
  have same : t.area b = ((s.swapped a).postMore a is).area b := by rw [h.rest]; rfl
  rw [same, State.area_postMore, State.area_swapped, State.area_swapped, if_pos rfl]
  split <;> rfl

theorem State.CapturesTo.posting {ks : List ItemKind} {is : List SlotNo} (h : (s.swapped a).CapturesTo a ks is t) (k : Crew) :
    t.postingFor a k = { shift := s.shiftAfter, crew := k, time := s.now, summary := s.summaryRuled a } := by
  have swapped := (s.swapped_fills a).same
  have mill : t.mill = s.mill := by rw [h.rest]; show (s.swapped a).mill = _; rw [swapped]; rfl
  have clock : t.clock = s.clock := by rw [h.rest]; show (s.swapped a).clock = _; rw [swapped]; rfl
  have points : t.points = s.points := by rw [h.rest]; show (s.swapped a).points = _; rw [swapped]; rfl
  have summary : t.summaryOf a = s.summaryRuled a := by
    rw [State.summaryOf_eq]
    refine State.summaryRuled_congr points fun b => ?_
    rw [h.area]
    split
    · subst_vars; rfl
    · rfl
  simp only [State.postingFor, State.nextShift, State.shiftAfter, State.now, mill, clock, summary]

/-- Settles O50: the frames swap with the pool's count kept; while a slot is free the next item is captured; and the event's
end is that of an examination of the area's step. -/
theorem exchangeSwapsFrames : Obligations.ExchangeSwapsFrames := by
  intro a k s pool shelves enough commit t drafted old kinds
  have count := s.freeCount_swapped a
  have room : (s.captures a).length ≤ (s.swapped a).freeCount := by
    have := State.captures_le shelves enough
    omega
  obtain ⟨captured, made⟩ := State.captureAll_capturesTo (pool.swapped a) a (s.captures a) room
  have kindsEq : s.captures a = kinds := s.captures_eq a
  have same : t = ((s.swapped a).captureAll a (s.captures a)).recordPosting a
      { shift := s.shiftAfter, crew := k, time := s.now, summary := s.summaryRuled a } := by
    show s.swapSheets a = _
    rw [State.swapSheets_eq, made.posting, commit]
    rfl
  have area (b : AreaNo) := made.area b
  have item (i : SlotNo) : t.item i = ((s.swapped a).captureAll a (s.captures a)).item i := by rw [same]; rfl
  have free : t.freeCount = ((s.swapped a).captureAll a (s.captures a)).freeCount := by rw [same]; rfl
  have apart (i : SlotNo) (hd : i ∈ drafted) : i ∉ old := fun ho =>
    (List.nodup_append.mp ((pool.frames).once a)).2.2 i hd i ho rfl
  refine ⟨captured, by rw [made.length, kindsEq], ?_, fun b hb => ?_, fun i hi => ?_, fun j h h' => ?_, fun i hi hc => ?_,
    fun i hd ho hc => ?_, ?_, (s.swapSheets_fills a).same, ?_⟩
  · rw [same, State.area_recordPosting, if_pos rfl, area, if_pos rfl]
    rfl
  · rw [same, State.area_recordPosting, if_neg hb, area, if_neg hb]
  · have kept : (s.swapped a).item i = (s.item i).map fun x => { x with reviewed := none } := by
      rw [State.item_swapped, if_pos hi, if_neg (apart i hi)]
    have out : i ∉ captured := fun hc => by
      have held := pool.frames.held a i (List.mem_append_left _ hi)
      have gone := made.free i hc
      rw [kept, Option.map_eq_none_iff] at gone
      rw [gone] at held
      cases held
    rw [item, made.others i out, kept]
  · have now : (s.swapped a).now = s.now := by rw [State.now, (s.swapped_fills a).same]; rfl
    rw [item]
    refine (made.item_getElem j h (kindsEq ▸ h')).trans ?_
    simp only [kindsEq, now]
    rfl
  · rw [item, made.others i hc, State.item_swapped, if_pos hi, Option.map_none, ite_self]
  · rw [item, made.others i hc, State.item_swapped, if_neg hd, if_neg ho]
  · rw [free, made.count, count]
  · exact (Work.examine_of a (fun k => k == .sheetPosted || k == .review) ((s.swapSheets a).notify (.sheetPosted a))
      false false false).settles

end Sys2Proof.Machine

/-!
What the conditions of an exchange hang on (R129). `State.SameSheets` is a change that leaves the sheets, `State.SheetsStand` one
that moreover makes no exchange due; the end of an event is of the first kind, up to the sheet store's passes.
-/

namespace Sys2Proof.Machine

variable {s t u : State} {a : AreaNo} {w w' w'' : Work}

/-! ### The sheets -/

/-- The pool and the slots on the frames stand, with what the posted frames record. -/
structure State.SameSheets (s t : State) : Prop where
  pool   : t.pool = s.pool
  free   : t.freeCount = s.freeCount
  draft  : ∀ a, (t.area a).draft.items = (s.area a).draft.items
  posted : ∀ a, (t.area a).posted = (s.area a).posted

theorem State.SameSheets.refl (s : State) : s.SameSheets s := ⟨rfl, rfl, fun _ => rfl, fun _ => rfl⟩

theorem State.SameSheets.trans (h : s.SameSheets t) (k : t.SameSheets u) : s.SameSheets u :=
  ⟨k.pool.trans h.pool, k.free.trans h.free, fun a => (k.draft a).trans (h.draft a), fun a => (k.posted a).trans (h.posted a)⟩

theorem State.SameSheets.ofAreas (pool : t.pool = s.pool) (free : t.freeCount = s.freeCount) (areas : t.areas = s.areas) :
    s.SameSheets t :=
  ⟨pool, free, fun b => by simp only [State.area, areas], fun b => by simp only [State.area, areas]⟩

theorem State.SameSheets.modArea (a : AreaNo) (f : Area → Area) (s : State)
    (h : (f (s.area a)).draft.items = (s.area a).draft.items ∧ (f (s.area a)).posted = (s.area a).posted) :
    s.SameSheets (s.modArea a f) := by
  obtain ⟨draft, posted⟩ := h
  refine ⟨rfl, rfl, fun b => ?_, fun b => ?_⟩
  · rw [State.area_modArea]; split
    · subst_vars; exact draft
    · rfl
  · rw [State.area_modArea]; split
    · subst_vars; exact posted
    · rfl

theorem State.SameSheets.foldl {α : Type} {f : State → α → State} (h : ∀ (s : State) x, s.SameSheets (f s x)) (l : List α)
    (s : State) : s.SameSheets (l.foldl f s) := by
  induction l generalizing s with
  | nil => exact .refl s
  | cons x l ih => exact (h s x).trans (ih _)

theorem State.SameSheets.item (h : s.SameSheets t) (i : SlotNo) : t.item i = s.item i := by simp only [State.item, h.pool]

theorem State.SameSheets.poolSound (h : s.SameSheets t) (k : s.PoolSound) : t.PoolSound := by
  have framed (b : AreaNo) : t.framed b = s.framed b := by unfold State.framed; rw [h.draft, h.posted]
  rw [State.poolSound_iff, State.listed_congr framed]
  exact (State.poolSound_iff.mp k).same (fun i => by rw [h.item]) h.free

/-- The sheets stand with the commits, and the operating state. -/
structure State.DraftsStand (s t : State) : Prop extends s.SameSheets t where
  mode   : t.mode = s.mode
  commit : ∀ a, (t.area a).draft.commit = (s.area a).draft.commit

theorem State.DraftsStand.refl (s : State) : s.DraftsStand s := ⟨.refl s, rfl, fun _ => rfl⟩

theorem State.DraftsStand.trans (h : s.DraftsStand t) (k : t.DraftsStand u) : s.DraftsStand u :=
  ⟨h.toSameSheets.trans k.toSameSheets, k.mode.trans h.mode, fun a => (k.commit a).trans (h.commit a)⟩

theorem State.DraftsStand.ofAreas (mode : t.mode = s.mode) (pool : t.pool = s.pool) (free : t.freeCount = s.freeCount)
    (areas : t.areas = s.areas) : s.DraftsStand t :=
  ⟨.ofAreas pool free areas, mode, fun b => by simp only [State.area, areas]⟩

theorem State.modArea_commit (a b : AreaNo) (f : Area → Area) (s : State)
    (h : (f (s.area a)).draft.commit = (s.area a).draft.commit) :
    ((s.modArea a f).area b).draft.commit = (s.area b).draft.commit := by
  rw [State.area_modArea]
  split
  · subst_vars; exact h
  · rfl

theorem State.DraftsStand.modArea (a : AreaNo) (f : Area → Area) (s : State)
    (items : (f (s.area a)).draft.items = (s.area a).draft.items)
    (posted : (f (s.area a)).posted = (s.area a).posted) (commit : (f (s.area a)).draft.commit = (s.area a).draft.commit) :
    s.DraftsStand (s.modArea a f) :=
  ⟨.modArea a f s ⟨items, posted⟩, rfl, fun b => s.modArea_commit a b f commit⟩

/-! ### The conditions of an exchange -/

/-- Of a handover record, what a REVIEW step in progress is known by: the current step, RUNNING or SUSPENDED alike. -/
def Handover.ground : Handover → Handover
  | .running p _ _ | .suspended p _ _ _ => .running p none none
  | .steady | .halted _ | .done _ => .steady

/-- A change after which no exchange is due that was not due before: what R129 reads stands, and of the rest of the sheets the
locks alone may change. -/
structure State.SheetsStand (s t : State) : Prop extends s.DraftsStand t where
  orders : t.orders = s.orders
  shift  : t.mill.shift = s.mill.shift
  steps  : t.steps = s.steps
  config : ∀ a, (t.area a).config = (s.area a).config
  place  : ∀ a, (t.area a).handover.ground = (s.area a).handover.ground
  count  : ∀ a, (t.area a).shelvedCount = (s.area a).shelvedCount
  short  : ∀ a, (s.area a).draft.poolShort → (t.area a).draft.poolShort

theorem State.SheetsStand.refl (s : State) : s.SheetsStand s :=
  ⟨.refl s, rfl, rfl, rfl, fun _ => rfl, fun _ => rfl, fun _ => rfl, fun _ => id⟩

theorem State.SheetsStand.trans (h : s.SheetsStand t) (k : t.SheetsStand u) : s.SheetsStand u where
  toDraftsStand := h.toDraftsStand.trans k.toDraftsStand
  orders := k.orders.trans h.orders
  shift := k.shift.trans h.shift
  steps := k.steps.trans h.steps
  config a := (k.config a).trans (h.config a)
  place a := (k.place a).trans (h.place a)
  count a := (k.count a).trans (h.count a)
  short a e := k.short a (h.short a e)

theorem State.SheetsStand.foldl {α : Type} {f : State → α → State} (h : ∀ (s : State) x, s.SheetsStand (f s x)) (l : List α)
    (s : State) : s.SheetsStand (l.foldl f s) := by
  induction l generalizing s with
  | nil => exact .refl s
  | cons x l ih => exact (h s x).trans (ih _)

/-- What an area's record keeps in such a change. -/
structure Area.SheetStands (r r' : Area) : Prop where
  config : r'.config = r.config
  place  : r'.handover.ground = r.handover.ground
  count  : r'.shelvedCount = r.shelvedCount
  posted : r'.posted = r.posted
  draft  : r'.draft.items = r.draft.items
  commit : r'.draft.commit = r.draft.commit
  short  : r.draft.poolShort → r'.draft.poolShort

theorem Area.SheetStands.refl (r : Area) : r.SheetStands r := ⟨rfl, rfl, rfl, rfl, rfl, rfl, id⟩

theorem State.SheetsStand.of (mode : t.mode = s.mode) (pool : t.pool = s.pool) (free : t.freeCount = s.freeCount)
    (orders : t.orders = s.orders) (shift : t.mill.shift = s.mill.shift) (steps : t.steps = s.steps)
    (h : ∀ b, (s.area b).SheetStands (t.area b)) : s.SheetsStand t :=
  ⟨⟨⟨pool, free, fun b => (h b).draft, fun b => (h b).posted⟩, mode, fun b => (h b).commit⟩, orders, shift, steps,
    fun b => (h b).config, fun b => (h b).place, fun b => (h b).count, fun b => (h b).short⟩

/-- A change of none of the records that R129 reads. -/
theorem State.SheetsStand.ofRest (mode : t.mode = s.mode) (pool : t.pool = s.pool) (free : t.freeCount = s.freeCount)
    (orders : t.orders = s.orders) (mill : t.mill = s.mill) (steps : t.steps = s.steps) (areas : t.areas = s.areas) :
    s.SheetsStand t :=
  .of mode pool free orders (by rw [mill]) steps fun b => by
    have area : t.area b = s.area b := by simp only [State.area, areas]
    rw [area]
    exact .refl _

theorem State.SheetsStand.modArea (a : AreaNo) (f : Area → Area) (s : State) (h : (s.area a).SheetStands (f (s.area a))) :
    s.SheetsStand (s.modArea a f) :=
  .of rfl rfl rfl rfl rfl rfl fun b => by
    rw [State.area_modArea]
    split
    · subst_vars; exact h
    · exact .refl _

theorem Handover.inProgress_ground (h : Handover) : h.ground.inProgress = h.inProgress := by cases h <;> rfl

theorem Handover.position_ground {h : Handover} (p : h.inProgress) : h.ground.position? = h.position? := by
  cases h <;> first | rfl | cases p

/-- Condition 2 of R129 reads the ground of the handover alone. -/
theorem State.SheetsStand.underReview (h : s.SheetsStand t) (a : AreaNo) : t.underReview a = s.underReview a := by
  have progress : (t.area a).handover.inProgress = (s.area a).handover.inProgress := by
    rw [← Handover.inProgress_ground, h.place, Handover.inProgress_ground]
  unfold State.underReview State.stepKind?
  rw [progress]
  cases hp : (s.area a).handover.inProgress with
  | false => rfl
  | true =>
    have position : (t.area a).handover.position? = (s.area a).handover.position? := by
      rw [← Handover.position_ground (progress.trans hp), h.place, Handover.position_ground hp]
    simp only [position, State.stepEntry_congr h.steps]

theorem State.SheetsStand.mayExchange (h : s.SheetsStand t) (a : AreaNo) : t.MayExchange a ↔ s.MayExchange a := by
  have reviewed : t.reviewed = s.reviewed := funext fun i => by simp only [State.reviewed, h.item]
  rw [← State.mayExchange_iff, ← State.mayExchange_iff]
  simp only [State.exchangeReady, State.mayReplace, h.underReview, h.commit, h.config, h.posted, reviewed]

theorem State.SheetsStand.poolHolds (h : s.SheetsStand t) (a : AreaNo) : t.PoolHolds a ↔ s.PoolHolds a := by
  have takes : t.takesOrder a = s.takesOrder a := funext fun i => by
    simp only [State.takesOrder, State.shiftAfter, h.orders, h.shift]
  unfold State.PoolHolds
  rw [h.count, h.free, takes]

/-- A committed draft of area `a`, where it is configured, waits only for conditions 1 to 3, or for the pool with its shortage
reported (R130, R131). -/
def State.WaitsRightly (s : State) (a : AreaNo) : Prop :=
  (s.area a).config.configured → s.MayExchange a → ¬ s.PoolHolds a ∧ (s.area a).draft.poolShort

theorem State.SheetsStand.waits (h : s.SheetsStand t) (k : s.WaitsRightly a) : t.WaitsRightly a := fun configured may => by
  rw [h.config] at configured
  obtain ⟨poor, short⟩ := k configured ((h.mayExchange a).mp may)
  exact ⟨fun holds => poor ((h.poolHolds a).mp holds), h.short a short⟩

/-- No draft waits committed in CONFIG (R137). -/
def State.CommitsInRun (s : State) : Prop := s.mode = .config → s.noCommits

theorem State.sheetsSound_iff : s.SheetsSound ↔ s.CommitsInRun ∧ ∀ a, s.WaitsRightly a :=
  ⟨fun ⟨config, waits⟩ => ⟨config, waits⟩, fun ⟨config, waits⟩ => ⟨config, waits⟩⟩

theorem State.CommitsInRun.mono (h : s.CommitsInRun) (mode : t.mode = s.mode)
    (commit : ∀ a, (t.area a).draft.commit = none ∨ (t.area a).draft.commit = (s.area a).draft.commit) : t.CommitsInRun :=
  fun hm a => (commit a).elim id fun e => e.trans (h (mode ▸ hm) a)

theorem State.Frames.commitsInRun (h : s.Frames t) (k : s.CommitsInRun) : t.CommitsInRun := k.mono h.mode h.commit

theorem State.SheetsStand.sound (h : s.SheetsStand t) (k : s.SheetsSound) : t.SheetsSound := by
  obtain ⟨config, waits⟩ := State.sheetsSound_iff.mp k
  exact State.sheetsSound_iff.mpr ⟨config.mono h.mode fun b => .inr (h.commit b), fun b => h.waits (waits b)⟩

/-- Where no draft waits committed, none waits wrongly. -/
theorem State.SheetsSound.ofNoCommits (h : s.noCommits) : s.SheetsSound := ⟨fun _ => h, fun a _ may => absurd (h a) may.committed⟩

/-! ### Notices and outputs -/

theorem State.queue_sheets (q : NoticeQueue) (s : State) : s.SheetsStand { s with queue := q } :=
  .ofRest rfl rfl rfl rfl rfl rfl rfl

theorem State.notify_sheets (k : NoticeKind) (s : State) : s.SheetsStand (s.notify k) := by
  rw [s.notify_eq k]
  exact s.queue_sheets _

theorem State.notifyAll_sheets (ks : List NoticeKind) (s : State) : s.SheetsStand (s.notifyAll ks) := by
  rw [s.notifyAll_eq ks]
  exact s.queue_sheets _

theorem State.driveOutputs_sheets (s : State) : s.SheetsStand s.driveOutputs := .ofRest rfl rfl rfl rfl rfl rfl rfl

theorem State.annunciate_sheets (s : State) : s.SheetsStand s.annunciate := by
  obtain ⟨consoles, room, queue, e⟩ := s.annunciate_rest
  rw [e]
  exact .ofRest rfl rfl rfl rfl rfl rfl rfl

theorem State.rederiveCoverage_sheets (s : State) : s.SheetsStand s.rederiveCoverage := by
  have record (b : AreaNo) : (s.area b).SheetStands (s.setCoverage.area b) := by
    rw [State.area_setCoverage]
    exact ⟨rfl, rfl, rfl, rfl, rfl, rfl, id⟩
  have covered : s.SheetsStand s.setCoverage := .of s.setCoverage_mode s.setCoverage_pool s.setCoverage_freeCount
    s.setCoverage_orders (congrArg Mill.shift s.setCoverage_mill) s.setCoverage_steps record
  exact covered.trans (State.notifyAll_sheets _ _)

/-! ### The shift change -/

theorem State.dropShelf_drafts (r : Shelf) (s : State) : s.DraftsStand (s.dropShelf r) :=
  State.DraftsStand.trans (t := { s with shelves := s.shelves.filter (· != r) }) (.ofAreas rfl rfl rfl rfl)
    (.modArea r.area _ _ rfl rfl rfl)

theorem State.removeReason_sheets (n : PointNo) (f : Point → Point) (marked : Bool) (s : State) :
    s.SheetsStand (s.removeReason n f marked) := by
  obtain ⟨p, seq, e⟩ := s.removeReason_rest n f marked
  rw [e]
  exact .ofRest rfl rfl rfl rfl rfl rfl rfl

theorem State.endShelf_drafts (r : Shelf) (s : State) : s.DraftsStand (s.endShelf r) :=
  (s.dropShelf_drafts r).trans (State.removeReason_sheets _ _ _ _).toDraftsStand

theorem State.countShelves_sameSheets (s : State) : s.SameSheets s.countShelves := by
  refine State.SameSheets.trans (t := { s with shelves := s.shelves.map Shelf.countDown }) (.ofAreas rfl rfl rfl) ?_
  refine .foldl (fun s r => ?_) _ _
  exact (s.endShelf_drafts r).toSameSheets.trans ((State.notify_sheets _ _).trans (State.annunciate_sheets _)).toSameSheets

theorem State.shiftChange_sameSheets (s : State) : s.SameSheets s.shiftChange := by
  have crews (k : Crew) : s.SameSheets (s.changeCrews k) :=
    ⟨rfl, rfl, fun b => by simp [State.area, State.changeCrews], fun b => by simp [State.area, State.changeCrews]⟩
  exact ((crews _).trans (State.countShelves_sameSheets _)).trans
    (((State.notify_sheets _ _).trans (State.rederiveCoverage_sheets _)).trans (State.driveOutputs_sheets _)).toSameSheets

/-! ### The end of an event, up to the sheet store's pass -/

/-- The settling of an event without a shift change. -/
theorem Work.settle_sheets (h : w.shift = false) : w.s.SheetsStand w.settle := by
  have covered : w.s.SheetsStand (if w.cover then w.s.rederiveCoverage else w.s) := by
    split
    · exact w.s.rederiveCoverage_sheets
    · exact .refl w.s
  unfold Work.settle
  rw [h]
  exact (covered.trans (State.annunciate_sheets _)).trans (State.notifyAll_sheets w.out _)

theorem Work.settle_sameSheets (w : Work) : w.s.SameSheets w.settle := by
  have settled : w.s.SameSheets ((if w.cover then w.s.rederiveCoverage else w.s).annunciate.notifyAll w.out) :=
    (Work.settle_sheets (w := { w with shift := false }) rfl).toSameSheets
  unfold Work.settle
  dsimp only
  split
  · exact settled.trans (State.shiftChange_sameSheets _)
  · exact settled

end Sys2Proof.Machine

/-!
The sheet store's examination (R130). The handover unit's work makes no exchange due without telling the sheet store
(`Work.Minds`); a pass that makes no exchange leaves no area whose exchange is due, and as every exchange takes a commit away the
passes end so. The end of an event then leaves the pool and the waiting drafts as R120 and R129 to R131 have them.
-/

namespace Sys2Proof.Machine

variable {s t u : State} {a : AreaNo} {w w' w'' : Work}

/-! ### The handover unit's work -/

/-- The work in progress leaves the sheets and the commits, and tells the sheet store unless what R129 reads stands. -/
structure Work.Minds (w w' : Work) : Prop where
  drafts : w.s.DraftsStand w'.s
  rest   : w'.sheets = false → w.sheets = false ∧ w'.shift = w.shift ∧ w.s.SheetsStand w'.s

theorem Work.Minds.refl (w : Work) : w.Minds w := ⟨.refl _, fun h => ⟨h, rfl, .refl _⟩⟩

theorem Work.Minds.trans (h : w.Minds w') (k : w'.Minds w'') : w.Minds w'' where
  drafts := h.drafts.trans k.drafts
  rest e := by
    obtain ⟨e', shift', stand'⟩ := k.rest e
    obtain ⟨e'', shift, stand⟩ := h.rest e'
    exact ⟨e'', shift'.trans shift, stand.trans stand'⟩

/-- A change that the sheet store is not told of. -/
theorem Work.Minds.stand (h : w.s.SheetsStand w'.s) (sheets : w'.sheets = w.sheets) (shift : w'.shift = w.shift) : w.Minds w' :=
  ⟨h.toDraftsStand, fun e => ⟨sheets ▸ e, shift, h⟩⟩

/-- A change that the sheet store is told of. -/
theorem Work.Minds.told (h : w.s.DraftsStand w'.s) (sheets : w'.sheets = true) : w.Minds w' :=
  ⟨h, fun e => by rw [sheets] at e; cases e⟩

theorem Work.say_minds (k : NoticeKind) (w : Work) : w.Minds (w.say k) := .stand (.refl _) rfl rfl

theorem Work.setHandover_minds (a : AreaNo) (h : Handover) (w : Work) : w.Minds (w.setHandover a h) :=
  .told (.modArea a (fun r => { r with handover := h }) w.s rfl rfl rfl) rfl

/-- The area's record when its handover is done (R146). -/
def Area.handedOver (crew : Crew) (p : Position) (r : Area) : Area :=
  { r with handover := .done p, duty := crew, draft := { r.draft with lock := none } }

theorem Work.completeArea_minds (a : AreaNo) (p : Position) (w : Work) : w.Minds (w.completeArea a p) := by
  let f := Area.handedOver (w.s.mill.incoming.getD w.s.mill.duty) p
  have record : w.s.DraftsStand (w.s.modArea a f) := .modArea a f w.s rfl rfl rfl
  exact .told (record.trans (.ofAreas rfl rfl rfl rfl)) rfl

theorem Work.advance_minds (n : Nat) (a : AreaNo) (w : Work) : w.Minds (Work.advance n a w) := by
  induction n generalizing w with
  | zero => exact .refl w
  | succ n ih =>
    unfold Work.advance
    split
    case h_1 p step hold hr =>
      have said : w.Minds (if (w.s.stepEntry p.index).notify then w.say (.stepDone a p.ordinal) else w) := by
        split
        · exact w.say_minds _
        · exact .refl w
      dsimp only
      generalize (if (w.s.stepEntry p.index).notify then w.say (.stepDone a p.ordinal) else w) = v at said ⊢
      split
      · exact said.trans (v.completeArea_minds a p)
      · split
        · exact (said.trans (v.setHandover_minds a _)).trans (ih _)
        · exact said.trans (v.setHandover_minds a _)
    all_goals exact .refl w

theorem Work.completeStep_minds (a : AreaNo) (w : Work) : w.Minds (w.completeStep a) := w.advance_minds _ a

theorem Work.examine_minds (a : AreaNo) (f : StepKind → Bool) (w : Work) : w.Minds (w.examine a f) := by
  unfold Work.examine
  split
  case h_1 =>
    dsimp only
    split
    · exact w.completeStep_minds a
    · exact .refl w
  all_goals exact .refl w

theorem Work.begin_minds (a : AreaNo) (w : Work) : w.Minds (w.begin a) := by
  unfold Work.begin
  dsimp only
  have entered (h : Handover) : w.Minds { w.setHandover a h with cover := true } :=
    (w.setHandover_minds a h).trans (.stand (.refl _) rfl rfl)
  split
  · exact (entered _).trans (Work.examine_minds a _ _)
  · exact (entered _).trans (Work.say_minds _ _)

/-- The reasons of a suspended area change without the sheet store being told, which leaves its current step (R129). -/
theorem Work.setReasons_minds (a : AreaNo) (r : Reasons) (w : Work) : w.Minds (w.setReasons a r) := by
  unfold Work.setReasons
  split
  case h_1 =>
    split
    · exact .refl w
    · exact (w.setHandover_minds a _).trans (Work.say_minds _ _)
  case h_2 hr =>
    split
    · exact ((w.setHandover_minds a _).trans (Work.say_minds _ _)).trans (Work.examine_minds a _ _)
    · exact .stand (.modArea a (fun x => { x with handover := .suspended _ _ _ r }) w.s
        ⟨rfl, by rw [hr]; rfl, rfl, rfl, rfl, rfl, id⟩) rfl rfl
  all_goals exact .refl w

theorem Work.reconsider_minds (a : AreaNo) (f : StepKind → Bool) (w : Work) : w.Minds (w.reconsider a f) := by
  unfold Work.reconsider
  split
  · exact (w.setReasons_minds a _).trans (Work.examine_minds a f _)
  · exact .refl w

theorem Work.pointChanged_minds (p : Point) (w : Work) : w.Minds (w.pointChanged p) := by
  unfold Work.pointChanged
  split
  · exact w.reconsider_minds _ _
  · exact .refl w

theorem Work.halt_minds (a : AreaNo) (why : AbortReason) (w : Work) : w.Minds (w.halt a why) := by
  have halted (p : Position) (x : Abort) (k : NoticeKind) : w.Minds { (w.setHandover a (.halted p)).say k with
      s := (w.setHandover a (.halted p)).s.modArea a fun r => { r with abort := some x }, cover := true } :=
    (w.setHandover_minds a (.halted p)).trans (.stand (.modArea a (fun r => { r with abort := some x }) _
      ⟨rfl, rfl, rfl, rfl, rfl, rfl, id⟩) rfl rfl)
  unfold Work.halt
  split
  case h_1 | h_2 => exact halted _ _ _
  all_goals exact .refl w

theorem Work.foldl_minds {g : Work → AreaNo → Work} (h : ∀ (w : Work) a, w.Minds (g w a)) (l : List AreaNo) (w : Work) :
    w.Minds (l.foldl g w) := by
  induction l generalizing w with
  | nil => exact .refl w
  | cons a l ih => exact (h w a).trans (ih _)

theorem Work.tripsChanged_minds (w : Work) : w.Minds w.tripsChanged := Work.foldl_minds (fun w a => w.reconsider_minds a _) _ w

theorem Work.seatsChanged_minds (f : AreaNo → Bool) (w : Work) : w.Minds (w.seatsChanged f) :=
  Work.foldl_minds (fun w a => by split; exacts [w.examine_minds a _, .refl w]) _ w

/-! ### The examination of one area -/

/-- The examination exchanges an area whose conditions hold, reports the pool short where it alone fails, and else does nothing
(R130, R131). -/
theorem State.examineSheet_cases (a : AreaNo) (s : State) :
    ((s.area a).config.configured ∧ s.MayExchange a ∧ s.PoolHolds a ∧ s.examineSheet a = (s.exchange a, true)) ∨
    ((s.area a).config.configured ∧ s.MayExchange a ∧ ¬ s.PoolHolds a ∧ s.examineSheet a = (s.reportShort a, false)) ∨
    (((s.area a).config.configured → ¬ s.MayExchange a) ∧ s.examineSheet a = (s, false)) := by
  unfold State.examineSheet
  split
  case isTrue h =>
    obtain ⟨configured, ready⟩ := Bool.and_eq_true_iff.mp h
    have may := State.mayExchange_iff.mp ready
    split
    case isTrue hp => exact .inl ⟨configured, may, State.poolHolds_iff.mp hp, rfl⟩
    case isFalse hp => exact .inr (.inl ⟨configured, may, fun p => hp (State.poolHolds_iff.mpr p), rfl⟩)
  case isFalse h =>
    exact .inr (.inr ⟨fun configured may => h (Bool.and_eq_true_iff.mpr ⟨configured, State.mayExchange_iff.mpr may⟩), rfl⟩)

theorem State.reportShort_sheets (a : AreaNo) (s : State) : s.SheetsStand (s.reportShort a) := by
  unfold State.reportShort
  split
  · exact .refl s
  · exact .trans (.modArea a _ s ⟨rfl, rfl, rfl, rfl, rfl, rfl, fun _ => rfl⟩) (State.notify_sheets _ _)

/-- A shortage is reported once it has been met (R131). -/
theorem State.reportShort_short (a : AreaNo) (s : State) : ((s.reportShort a).area a).draft.poolShort := by
  unfold State.reportShort
  split
  case isTrue h => exact h
  case isFalse =>
    apply (State.notify_sheets _ _).short
    rw [State.area_modArea, if_pos rfl]

/-- An examination that makes no exchange leaves none due in its area. -/
theorem State.examineSheet_rests (h : (s.examineSheet a).2 = false) :
    s.SheetsStand (s.examineSheet a).1 ∧ (s.examineSheet a).1.WaitsRightly a := by
  rcases s.examineSheet_cases a with ⟨-, -, -, e⟩ | ⟨-, -, poor, e⟩ | ⟨idle, e⟩
  · rw [e] at h; cases h
  · rw [e]
    have stand := s.reportShort_sheets a
    exact ⟨stand, fun _ _ => ⟨fun holds => poor ((stand.poolHolds a).mp holds), s.reportShort_short a⟩⟩
  · rw [e]
    exact ⟨.refl s, fun configured may => absurd may (idle configured)⟩

/-- How many areas have a committed draft waiting. -/
def State.waiting (s : State) : Nat := (Finset.univ.filter fun b : AreaNo => (s.area b).draft.commit.isSome).card

theorem State.waiting_le (s : State) : s.waiting ≤ 32 := Finset.card_le_univ _

theorem State.Frames.committed_subset (h : s.Frames t) {b : AreaNo} (hb : (t.area b).draft.commit.isSome) :
    (s.area b).draft.commit.isSome := by
  rcases h.commit b with e | e
  · rw [e] at hb; cases hb
  · rwa [← e]

theorem State.Frames.waiting (h : s.Frames t) : t.waiting ≤ s.waiting :=
  Finset.card_le_card fun b hb => by
    rw [Finset.mem_filter] at hb ⊢
    exact ⟨hb.1, h.committed_subset hb.2⟩

/-- Where a commit is taken away fewer drafts wait. -/
theorem State.Frames.waiting_lt (h : s.Frames t) (was : (s.area a).draft.commit ≠ none) (now : (t.area a).draft.commit = none) :
    t.waiting < s.waiting :=
  Finset.card_lt_card <| Finset.ssubset_iff_of_subset (fun b hb => by
    rw [Finset.mem_filter] at hb ⊢
    exact ⟨hb.1, h.committed_subset hb.2⟩) |>.mpr ⟨a, by
      rw [Finset.mem_filter]
      exact ⟨Finset.mem_univ a, Option.isSome_iff_ne_none.mpr was⟩, by
      rw [Finset.mem_filter, now]
      exact fun h => nomatch h.2⟩

/-- The handover unit's part in an exchange of area `a` (R132). -/
def State.posted (a : AreaNo) (s : State) : Work :=
  Work.examine a (fun k => k == .sheetPosted || k == .review) { s }

/-- What follows the frames in an exchange: SHEET_POSTED, and the handover unit's examination (R132). -/
theorem State.exchange_eq (a : AreaNo) (s : State) :
    s.exchange a = (((s.swapSheets a).notify (.sheetPosted a)).posted a).settle := rfl

/-- After the frames the exchange leaves the sheets. -/
theorem State.exchange_sameSheets (a : AreaNo) (s : State) : (s.swapSheets a).SameSheets (s.exchange a) := by
  rw [State.exchange_eq]
  have examined (t : State) : t.SameSheets (t.posted a).s := (Work.examine_minds a _ { s := t }).drafts.toSameSheets
  exact ((State.notify_sheets _ _).toSameSheets.trans (examined _)).trans (Work.settle_sameSheets _)

theorem State.PoolSound.exchange (h : s.PoolSound) (a : AreaNo) : (s.exchange a).PoolSound :=
  (s.exchange_sameSheets a).poolSound (h.swapSheets a)

/-- An exchange takes the commit away (R132). -/
theorem State.exchange_commit (a : AreaNo) (s : State) : ((s.exchange a).area a).draft.commit = none := by
  have swapped : ((s.swapSheets a).area a).draft.commit = none := by
    rw [((s.swapSheets_fills a).kept a).2.2, State.area_modArea, if_pos rfl]; rfl
  have after : (s.swapSheets a).Frames (s.exchange a) := by
    rw [State.exchange_eq]
    have examined (t : State) : t.Frames (t.posted a).s := Work.examine_frames a _ { s := t }
    exact ((State.notify_frames _ _).trans (examined _)).trans (Work.settle_frames _)
  exact (after.commit a).elim id fun e => e.trans swapped

theorem State.PoolSound.examineSheet (h : s.PoolSound) (a : AreaNo) : (s.examineSheet a).1.PoolSound := by
  rcases s.examineSheet_cases a with ⟨-, -, -, e⟩ | ⟨-, -, -, e⟩ | ⟨-, e⟩
  · rw [e]; exact h.exchange a
  · rw [e]; exact (s.reportShort_sheets a).poolSound h
  · rw [e]; exact h

theorem State.examineSheet_waiting (h : (s.examineSheet a).2) : (s.examineSheet a).1.waiting < s.waiting := by
  rcases s.examineSheet_cases a with ⟨-, may, -, e⟩ | ⟨-, -, -, e⟩ | ⟨-, e⟩
  · rw [e]; exact (s.exchange_frames a).waiting_lt may.committed (s.exchange_commit a)
  · rw [e] at h; cases h
  · rw [e] at h; cases h

/-! ### The passes -/

/-- One area of a pass, with whether the pass has made an exchange so far. -/
def visitSheet (x : State × Bool) (a : AreaNo) : State × Bool := ((x.1.examineSheet a).1, x.2 || (x.1.examineSheet a).2)

theorem State.passOnce_eq (s : State) : s.passOnce = allAreas.foldl visitSheet (s, false) := rfl

/-- Areas examined without an exchange are left with none due. -/
theorem visitSheet_rests (l : List AreaNo) (x : State × Bool) (h : (l.foldl visitSheet x).2 = false) :
    x.2 = false ∧ x.1.SheetsStand (l.foldl visitSheet x).1 ∧ ∀ a ∈ l, (l.foldl visitSheet x).1.WaitsRightly a := by
  induction l generalizing x with
  | nil => exact ⟨h, .refl _, nofun⟩
  | cons a l ih =>
    rw [List.foldl_cons] at h ⊢
    obtain ⟨quiet, stand, waits⟩ := ih _ h
    obtain ⟨before, here⟩ := Bool.or_eq_false_iff.mp quiet
    obtain ⟨first, wait⟩ := State.examineSheet_rests here
    refine ⟨before, first.trans stand, fun b hb => ?_⟩
    rcases List.mem_cons.mp hb with rfl | hb
    · exact stand.waits wait
    · exact waits b hb

theorem visitSheet_waiting (l : List AreaNo) (x : State × Bool) :
    (l.foldl visitSheet x).1.waiting ≤ x.1.waiting ∧
    ((l.foldl visitSheet x).2 → x.2 ∨ (l.foldl visitSheet x).1.waiting < x.1.waiting) := by
  induction l generalizing x with
  | nil => exact ⟨le_rfl, .inl⟩
  | cons a l ih =>
    rw [List.foldl_cons]
    obtain ⟨le, lt⟩ := ih (visitSheet x a)
    have here : (visitSheet x a).1.waiting ≤ x.1.waiting := (x.1.examineSheet_frames a).waiting
    refine ⟨le.trans here, fun h => ?_⟩
    rcases lt h with first | later
    · rcases Bool.or_eq_true_iff.mp first with before | now
      · exact .inl before
      · exact .inr (le.trans_lt (State.examineSheet_waiting now))
    · exact .inr (later.trans_le here)

/-- Enough passes leave no exchange due. -/
theorem State.passes_waits (n : Nat) (s : State) (h : s.waiting < n) (a : AreaNo) : (s.passes n).WaitsRightly a := by
  induction n generalizing s with
  | zero => exact absurd h (Nat.not_lt_zero _)
  | succ n ih =>
    unfold State.passes
    dsimp only
    split
    case isTrue again =>
      rcases (visitSheet_waiting allAreas (s, false)).2 again with e | less
      · cases e
      · exact ih _ (less.trans_le (Nat.lt_succ_iff.mp h))
    case isFalse done =>
      obtain ⟨-, -, waits⟩ := visitSheet_rests allAreas (s, false) (Bool.not_eq_true _ ▸ done)
      exact waits a (mem_allAreas a)

/-- The sheet store's examination leaves no exchange due, whatever it finds (R130). -/
theorem State.examineSheets_waits (s : State) (a : AreaNo) : s.examineSheets.WaitsRightly a :=
  s.passes_waits 33 (Nat.lt_succ_of_le s.waiting_le) a

theorem State.PoolSound.passOnce (h : s.PoolSound) : s.passOnce.1.PoolSound := by
  rw [State.passOnce_eq]
  have pass (l : List AreaNo) (x : State × Bool) (h : x.1.PoolSound) : (l.foldl visitSheet x).1.PoolSound := by
    induction l generalizing x with
    | nil => exact h
    | cons a l ih =>
      rw [List.foldl_cons]
      exact ih (visitSheet x a) (h.examineSheet a)
  exact pass allAreas (s, false) h

theorem State.PoolSound.examineSheets (h : s.PoolSound) : s.examineSheets.PoolSound := by
  unfold State.examineSheets
  generalize 33 = n
  induction n generalizing s with
  | zero => exact h
  | succ n ih =>
    unfold State.passes
    dsimp only
    split
    · exact ih h.passOnce
    · exact h.passOnce

/-! ### The end of an event -/

theorem Work.finish_poolSound (after : List NoticeKind) (h : w.s.PoolSound) : (w.finish after).PoolSound := by
  have settled := (w.settle_sameSheets.trans (State.notifyAll_sheets after _).toSameSheets).poolSound h
  unfold Work.finish
  dsimp only
  split
  · exact settled.examineSheets
  · exact settled

/-- The work in progress is to be followed by the sheet store's examination, or leaves no exchange due and changes no shift. -/
structure Work.SheetsReady (w : Work) : Prop where
  config : w.s.CommitsInRun
  waits  : w.sheets = false → w.shift = false ∧ ∀ a, w.s.WaitsRightly a

theorem Work.Minds.ready (h : w.Minds w') (k : w.SheetsReady) : w'.SheetsReady where
  config := k.config.mono h.drafts.mode fun a => .inr (h.drafts.commit a)
  waits e := by
    obtain ⟨e', shift, stand⟩ := h.rest e
    obtain ⟨quiet, waits⟩ := k.waits e'
    exact ⟨shift.trans quiet, fun a => stand.waits (waits a)⟩

theorem Work.SheetsReady.finish (h : w.SheetsReady) (after : List NoticeKind) : (w.finish after).SheetsSound := by
  refine State.sheetsSound_iff.mpr ⟨(w.finish_frames after).commitsInRun h.config, fun a => ?_⟩
  unfold Work.finish
  dsimp only
  split
  case isTrue => exact State.examineSheets_waits _ a
  case isFalse e =>
    obtain ⟨quiet, waits⟩ := h.waits (Bool.not_eq_true _ ▸ e)
    exact ((Work.settle_sheets quiet).trans (State.notifyAll_sheets after _)).waits (waits a)

end Sys2Proof.Machine

/-!
The requests about a sheet (R124 to R128, R135), each answered with the state its rule gives: the lock, the items of a draft, a
commit with the exchange it brings about, and a review.
-/

namespace Sys2Proof.Machine

variable {s t u d : State} {a : AreaNo} {c : ConsoleNo} {o : Operator} {tag : Byte}

/-! ### The lock (R124, R125) -/

theorem flagByte_isSome_of_none {α : Type} {x : Option α} (h : x = none) : flagByte x.isSome = 0 := by rw [h]; rfl

theorem flagByte_isSome_of_ne {α : Type} {x : Option α} (h : x ≠ none) : flagByte x.isSome = 1 := by
  rw [Option.isSome_iff_ne_none.mpr h]; rfl

/-- A lock that another console holds is refused by LOCK_DRAFT and UNLOCK_DRAFT alike. -/
theorem lock_of_other {x : Option ConsoleNo} {b : ConsoleNo} (h : x = some b) (hb : b ≠ c) : x.isSome ∧ x ≠ some c := by
  rw [h]; exact ⟨rfl, by simpa using hb⟩

theorem actLockDraft_eq (hp : u.permitArea c .edit a false false = .ok o) : actLockDraft u (c, a) =
    let l := (u.area a).draft.lock
    if l.isSome ∧ l ≠ some c then refuse .locked
    else if l = some c then refuse .already
    else taken (u.modDraft a (Draft.lockFor c)) [flagByte (u.area a).draft.commit.isSome] := by
  unfold actLockDraft
  rw [hp, withOperator_ok]

theorem actUnlockDraft_eq (hp : u.permitArea c .edit a false false = .ok o) : actUnlockDraft u (c, a) =
    let l := (u.area a).draft.lock
    if l.isSome ∧ l ≠ some c then refuse .locked
    else if l = none then refuse .already
    else taken (u.modDraft a fun d => { d with lock := none }) := by
  unfold actUnlockDraft
  rw [hp, withOperator_ok]

/-- A draft locked keeps its commit only where there was none (R124). -/
theorem State.modDraft_lockFor (c : ConsoleNo) (u : State) : u.modDraft a (Draft.lockFor c) =
    u.modArea a fun r => { r with draft :=
      if (u.area a).draft.commit = none then { (u.area a).draft with lock := some c }
      else { (u.area a).draft with lock := some c, commit := none, poolShort := false } } := by
  refine State.modArea_congr u ?_
  unfold Draft.lockFor
  by_cases h : (u.area a).draft.commit = none
  · rw [if_pos h, if_neg (by simp [h])]
  · rw [if_neg h, if_pos (Option.isSome_iff_ne_none.mpr h)]

/-- Settles O47: the owner's action as its equation has it, the lock's three cases apart. -/
theorem lockMovesOwner : Obligations.LockMovesOwner := by
  unfold Obligations.LockMovesOwner
  intro tag c a o s u hm hp p d withDraft
  refine ⟨fun ht => ?_, fun ht => ?_⟩
  · have answered : exec (.lockDraft tag p) s = .next (u.answer 0x4B tag (actLockDraft u (c, a))) :=
      consoleRequest_at ht (parseConsoleArea_bytes c a) hm
    rw [answered, actLockDraft_eq hp]
    refine ⟨fun b hb hl => ?_, fun hl => ?_, fun hl => ?_⟩
    · dsimp only
      rw [if_pos (lock_of_other hl hb), State.answer_refuse]
    · dsimp only
      rw [if_neg fun h => h.2 hl, if_pos hl, State.answer_refuse]
    · have unlocked : ¬ ((u.area a).draft.lock.isSome ∧ (u.area a).draft.lock ≠ some c) := fun h => by
        rw [show (u.area a).draft.lock = none from hl] at h; cases h.1
      have other : (u.area a).draft.lock ≠ some c := fun h => nomatch hl.symm.trans h
      dsimp only
      rw [if_neg unlocked, if_neg other, State.answer_taken, State.modDraft_lockFor]
      by_cases hc : (u.area a).draft.commit = none
      · rw [if_pos hc, if_pos hc, flagByte_isSome_of_none hc]
      · rw [if_neg hc, if_neg hc, flagByte_isSome_of_ne hc]
  · have answered : exec (.unlockDraft tag p) s = .next (u.answer 0x4C tag (actUnlockDraft u (c, a))) :=
      consoleRequest_at ht (parseConsoleArea_bytes c a) hm
    rw [answered, actUnlockDraft_eq hp]
    refine ⟨fun b hb hl => ?_, fun hl => ?_, fun hl => ?_⟩
    · dsimp only
      rw [if_pos (lock_of_other hl hb), State.answer_refuse]
    · have unlocked : (u.area a).draft.lock = none := hl
      dsimp only
      rw [unlocked, if_neg (fun h => nomatch h.1), if_pos rfl, State.answer_refuse]
    · have own : (u.area a).draft.lock = some c := hl
      dsimp only
      rw [own, if_neg fun h => h.2 rfl, if_neg nofun, State.answer_taken]
      rfl

/-! ### The items of a draft (R126, R127) -/

theorem State.holdsLock_of (h : (u.area a).draft.lock = some c) : u.holdsLock c a = true := by
  rw [State.holdsLock, h, beq_self_eq_true]

/-- The event of a change of the sheets with no draft waiting committed leaves the sheets as the change has them. -/
theorem State.sheetEvent_after (d : State) : d.Settles (Work.finish { s := d, sheets := true }) ∧
    (d.noCommits → (Work.finish { s := d, sheets := true }).pool = d.pool ∧
      (Work.finish { s := d, sheets := true }).freeCount = d.freeCount ∧
      (Work.finish { s := d, sheets := true }).areas = d.areas) := by
  refine ⟨(Work.Of.start d false false true).finish, fun h => ?_⟩
  have quiet := Work.finish_quiet { s := d, sheets := true } [] rfl h
  exact ⟨quiet.pool, quiet.free, quiet.areas rfl⟩

/-- A draft changed in its items alone leaves every commit. -/
theorem State.noCommits.modItems (h : u.noCommits) (is : List SlotNo) :
    (u.modArea a fun r => { r with draft := { r.draft with items := is } }).noCommits := fun b => by
  rw [State.modArea_commit]
  · exact h b
  · rfl

/-- The payload of ADD_ITEM spells its item (R126). -/
theorem parseAddItem_bytes {k : ItemKind} {code : Byte} {n : Nat} (h : n < 4294967296)
    (hk : (k = .note n ∧ code = 0) ∨ (k = .equipment n ∧ code = 2) ∨ (code = 1 ∧ ∃ x : PointNo, n = x.val ∧ k = .point x)) :
    parseAddItem (byte c.val :: byte a.val :: code :: be32 n) = some (c, a, k) := by
  have spelt : num32 (byte (n / 16777216)) (byte (n / 65536)) (byte (n / 256)) (byte n) = n := num32_be32 h
  rcases hk with ⟨rfl, rfl⟩ | ⟨rfl, rfl⟩ | ⟨rfl, x, rfl, rfl⟩
  · simp [parseAddItem, be32, spelt]
  · simp [parseAddItem, be32, spelt]
  · simp [parseAddItem, be32, spelt, below_val]

theorem actAddItem_eq {k : ItemKind} {i : SlotNo} (hp : u.permitArea c .edit a false false = .ok o)
    (hl : (u.area a).draft.lock = some c) (fits : u.itemFits a k) (room : (u.area a).draft.items.length < 16)
    (free : u.lowestFree = some i) : actAddItem u (c, a, k) =
      taken (Work.finish { s := u.addItem a i k o.number, sheets := true })
        (byte (u.area a).draft.items.length :: be16 i.val) := by
  unfold actAddItem
  rw [hp, withOperator_ok]
  dsimp only
  have space : ¬ Config.draftItems ≤ (u.area a).draft.items.length := Nat.not_le.mpr room
  rw [if_neg (by simp [State.holdsLock_of hl]), if_neg (by simp [fits]), if_neg space, free]

theorem actRemoveItem_eq {pos : Nat} {i : SlotNo} (hp : u.permitArea c .edit a false false = .ok o)
    (hl : (u.area a).draft.lock = some c) (hi : (u.area a).draft.items[pos]? = some i) : actRemoveItem u (c, a, pos) =
      taken (Work.finish
        { s := (u.modDraft a fun d => { d with items := d.items.eraseIdx pos }).freeSlot i, sheets := true }) := by
  unfold actRemoveItem
  rw [hp, withOperator_ok]
  dsimp only
  rw [if_neg (by simp [State.holdsLock_of hl]), hi]

/-- Settles O48: the actions' equations, with the end of a sheet event. -/
theorem itemsJoinAndLeaveDraft : Obligations.ItemsJoinAndLeaveDraft := by
  unfold Obligations.ItemsJoinAndLeaveDraft
  intro tag c a o s u hm hp hl items withItems after
  constructor
  · intro k code n i hn hk p ht room free below
    have spelt : parseAddItem p = some (c, a, k) := parseAddItem_bytes hn <| by
      rcases hk with h | h | ⟨hc, x, hx, hk, -⟩
      exacts [.inl h, .inr (.inl h), .inr (.inr ⟨hc, x, hx, hk⟩)]
    have fits : u.itemFits a k := by
      rcases hk with ⟨rfl, -⟩ | ⟨rfl, -⟩ | ⟨-, x, -, rfl, configured, area⟩
      · rfl
      · rfl
      · simp [State.itemFits, configured, area]
    have answered : exec (.addItem tag p) s = .next (u.answer 0x4D tag (actAddItem u (c, a, k))) :=
      consoleRequest_at ht spelt hm
    rw [answered, actAddItem_eq hp hl fits room (State.lowestFree_some.mpr ⟨free, below⟩), State.answer_taken]
    obtain ⟨settles, quiet⟩ := State.sheetEvent_after (u.addItem a i k o.number)
    exact ⟨_, rfl, settles, fun h => quiet (State.noCommits.modItems (u := u.placeItem i _) h _)⟩
  · intro pos i hpos hi p ht
    have answered : exec (.removeItem tag p) s = .next (u.answer 0x4E tag (actRemoveItem u (c, a, pos))) :=
      consoleRequest_at ht (parsePosition_bytes c a hpos (by decide)) hm
    rw [answered, actRemoveItem_eq hp hl hi, State.answer_taken]
    obtain ⟨settles, quiet⟩ := State.sheetEvent_after
      ((u.modDraft a fun d => { d with items := d.items.eraseIdx pos }).freeSlot i)
    exact ⟨_, rfl, settles, fun h => quiet (State.noCommits.modItems (u := u.freeSlot i) h _)⟩

/-! ### Review (R135) -/

theorem actReviewItem_eq {pos : Nat} {i : SlotNo} {x : Item} (hp : u.permitArea c .review a false true = .ok o)
    (hi : (u.area a).posted.items[pos]? = some i) (hx : u.item i = some x) : actReviewItem u (c, a, pos) =
    if (u.area a).posted.posting.map (·.crew) = some o.crew then refuse .sameCrew
    else if x.reviewed.isSome then refuse .already
    else taken (Work.examine a (· == .review) { s := u.review i o.number, sheets := true }).finish
      (reviewData x (((u.area a).posted.posting.map (·.shift)).getD 0)
        ((u.review i o.number).unreviewed (u.area a).posted.items)) := by
  unfold actReviewItem
  rw [hp, withOperator_ok]
  dsimp only
  rw [hi]
  dsimp only
  rw [hx]

theorem State.review_eq {i : SlotNo} {x : Item} (hx : u.item i = some x) (n : Nat) : u.review i n =
    { u with pool := u.pool.set i (some { x with reviewed := some ⟨n, u.now⟩ }) } := by
  unfold State.review State.modItem
  rw [hx]
  rfl

theorem State.unreviewed_eq (s : State) (is : List SlotNo) :
    s.unreviewed is = is.countP fun i => (s.item i).any (·.reviewed = none) := by
  refine congrArg (List.countP · is) (funext fun i => ?_)
  unfold State.reviewed
  cases hi : s.item i with
  | none => rfl
  | some x => cases hr : x.reviewed <;> simp [hr]

/-- With no draft waiting committed, a review's event leaves the pool as reviewed and every posted frame (R135). -/
theorem Work.examine_finish_sheets {f : StepKind → Bool} (h : d.noCommits) :
    d.SameSheets (Work.examine a f { s := d, sheets := true }).finish := by
  have examined : d.SameSheets (Work.examine a f { s := d, sheets := true }).s :=
    (Work.examine_minds a f { s := d, sheets := true }).drafts.toSameSheets
  have quiet : (Work.examine a f { s := d, sheets := true }).s.noCommits :=
    (Work.examine_frames a f { s := d, sheets := true }).noCommits h
  rw [Work.finish_eq _ _ quiet]
  exact (examined.trans (Work.settle_sameSheets _)).trans (State.notifyAll_sheets _ _).toSameSheets

/-- Settles O51: the action's equation, its branches by the posting crew and the item's reviewer. -/
theorem reviewStampsItem : Obligations.ReviewStampsItem := by
  unfold Obligations.ReviewStampsItem
  intro tag c a pos i x g o s u hpos p ht hm hp hi hx hg d left
  have answered : exec (.reviewItem tag p) s = .next (u.answer 0x50 tag (actReviewItem u (c, a, pos))) :=
    consoleRequest_at ht (parsePosition_bytes c a hpos (by decide)) hm
  have crew : (u.area a).posted.posting.map (·.crew) = some o.crew ↔ g.crew = o.crew := by rw [hg]; simp
  rw [answered, actReviewItem_eq hp hi hx]
  refine ⟨fun same => ?_, fun other done => ?_, fun other fresh => ?_⟩
  · rw [if_pos (crew.mpr same), State.answer_refuse]
  · rw [if_neg (mt crew.mp other), if_pos (Option.isSome_iff_ne_none.mpr done), State.answer_refuse]
  · rw [if_neg (mt crew.mp other), if_neg (by simp [fresh]), State.answer_taken, State.review_eq hx,
      State.unreviewed_eq, hg]
    refine ⟨_, ?_, (Work.examine_of a (· == .review) d false false true).finish, fun quiet => ?_⟩
    · rw [ItemKind.wire_eq]; rfl
    · have same : d.SameSheets (Work.examine a (· == .review) { s := d, sheets := true }).finish :=
        Work.examine_finish_sheets quiet
      exact ⟨same.pool, same.posted⟩

end Sys2Proof.Machine

/-!
POST (R128): the event of a commit when no other draft waits, in the three ways that R129 to R131 leave it: nothing due, the pool
reported short, or the exchange.
-/

namespace Sys2Proof.Machine

variable {s t u d : State} {a : AreaNo} {c : ConsoleNo} {o : Operator} {tag : Byte}

/-! ### A pass with one draft waiting -/

theorem visitSheet_idle (l : List AreaNo) (x : State × Bool) (h : ∀ b ∈ l, (x.1.area b).draft.commit = none) :
    l.foldl visitSheet x = x := by
  induction l with
  | nil => rfl
  | cons b l ih =>
    have idle : visitSheet x b = x := by
      rcases x.1.examineSheet_cases b with ⟨-, may, -⟩ | ⟨-, may, -⟩ | ⟨-, e⟩
      · exact absurd (h b List.mem_cons_self) may.committed
      · exact absurd (h b List.mem_cons_self) may.committed
      · rw [visitSheet, e, Bool.or_false]
    rw [List.foldl_cons, idle]
    exact ih fun b hb => h b (List.mem_cons_of_mem _ hb)

/-- With no other draft committed a pass is the examination of the one area. -/
theorem State.passOnce_alone (others : ∀ b, b ≠ a → (s.area b).draft.commit = none) : s.passOnce = s.examineSheet a := by
  obtain ⟨before, after, split⟩ := List.mem_iff_append.mp (mem_allAreas a)
  have nodup : (before ++ a :: after).Nodup := split ▸ List.nodup_finRange 32
  obtain ⟨-, tail, disjoint⟩ := List.nodup_append.mp nodup
  have left : ∀ b ∈ before, b ≠ a := fun b hb => disjoint b hb a List.mem_cons_self
  have right : ∀ b ∈ after, b ≠ a := fun b hb e => (List.nodup_cons.mp tail).1 (e ▸ hb)
  have others' : ∀ b ∈ after, ((s.examineSheet a).1.area b).draft.commit = none := fun b hb =>
    ((s.examineSheet_frames a).commit b).elim id fun e => e.trans (others b (right b hb))
  have here : visitSheet (s, false) a = s.examineSheet a := by rw [visitSheet, Bool.false_or]
  rw [State.passOnce_eq, split, List.foldl_append, visitSheet_idle before _ fun b hb => others b (left b hb), List.foldl_cons,
    here]
  exact visitSheet_idle after _ others'

theorem State.passes_quiet (h : s.noCommits) (n : Nat) : s.passes n = s := by
  cases n with
  | zero => rfl
  | succ n => rw [State.passes, State.passOnce_quiet h]; rfl

/-- A first pass without an exchange is the last. -/
theorem State.examineSheets_once (h : s.passOnce = (t, false)) : s.examineSheets = t := by
  unfold State.examineSheets State.passes
  rw [h]
  exact if_neg Bool.false_ne_true

/-- A first pass that takes the last commit away is the last to do anything. -/
theorem State.examineSheets_twice (h : s.passOnce = (t, true)) (quiet : t.noCommits) : s.examineSheets = t := by
  unfold State.examineSheets State.passes
  rw [h]
  exact (if_pos rfl).trans (State.passes_quiet quiet 32)

/-- What the sheet store's examination does where area `a` alone may have a committed draft (R129 to R131). -/
theorem State.examineSheets_alone (others : ∀ b, b ≠ a → (s.area b).draft.commit = none)
    (configured : (s.area a).config.configured) :
    (¬ s.MayExchange a → s.examineSheets = s) ∧
    (s.MayExchange a → ¬ s.PoolHolds a → s.examineSheets = s.reportShort a) ∧
    (s.MayExchange a → s.PoolHolds a → s.examineSheets = s.exchange a) := by
  have pass := State.passOnce_alone others
  rcases s.examineSheet_cases a with ⟨-, may, holds, e⟩ | ⟨-, may, poor, e⟩ | ⟨idle, e⟩
  · have quiet : (s.exchange a).noCommits := fun b => by
      by_cases hb : b = a
      · rw [hb]; exact s.exchange_commit a
      · exact ((s.exchange_frames a).commit b).elim id fun e => e.trans (others b hb)
    exact ⟨fun h => absurd may h, fun _ h => absurd holds h, fun _ _ => State.examineSheets_twice (pass.trans e) quiet⟩
  · exact ⟨fun h => absurd may h, fun _ _ => State.examineSheets_once (pass.trans e), fun _ h => absurd h poor⟩
  · exact ⟨fun _ => State.examineSheets_once (pass.trans e), fun h => absurd h (idle configured),
      fun h => absurd h (idle configured)⟩

/-! ### The exchange and the outputs -/

/-- `s` with the outputs and the queue of `t`. -/
def State.withOutputs (s t : State) : State := { s with consoles := t.consoles, room := t.room, queue := t.queue }

theorem State.annunciate_withOutputs (s : State) : s.annunciate = s.withOutputs s.annunciate := by
  obtain ⟨consoles, room, queue, e⟩ := s.annunciate_rest
  rw [e]; rfl

theorem State.withOutputs_foldl {α : Type} {f : State → α → State} (h : ∀ s x, f (s.withOutputs t) x = (f s x).withOutputs t)
    (l : List α) (s : State) : l.foldl f (s.withOutputs t) = (l.foldl f s).withOutputs t := by
  induction l generalizing s with
  | nil => rfl
  | cons x l ih => rw [List.foldl_cons, h, ih, List.foldl_cons]

theorem State.capture_withOutputs (a : AreaNo) (k : ItemKind) (s : State) :
    (s.withOutputs t).capture a k = (s.capture a k).withOutputs t := by
  have free : (s.withOutputs t).lowestFree = s.lowestFree := rfl
  cases h : s.lowestFree with
  | none => rw [State.capture_none k h, State.capture_none k (free.trans h)]
  | some i =>
    unfold State.capture
    rw [free, h]
    rfl

theorem State.swapped_withOutputs (a : AreaNo) (s : State) : (s.withOutputs t).swapped a = (s.swapped a).withOutputs t := by
  have freed (l : List SlotNo) (s : State) : (s.withOutputs t).freeSlots l = (s.freeSlots l).withOutputs t :=
    State.withOutputs_foldl (f := fun s i => s.freeSlot i) (fun _ _ => rfl) l s
  have cleared (l : List SlotNo) (s : State) : (s.withOutputs t).clearReviews l = (s.clearReviews l).withOutputs t :=
    State.withOutputs_foldl (f := fun s i => s.modItem i fun x => { x with reviewed := none }) (fun _ _ => rfl) l s
  have swap : (s.withOutputs t).modArea a Area.swapFrames = (s.modArea a Area.swapFrames).withOutputs t := rfl
  rw [State.swapped, swap, freed, cleared]
  rfl

/-- The sheet store's part of an exchange does not hang on the outputs or the queue. -/
theorem State.swapSheets_withOutputs (a : AreaNo) (s : State) :
    (s.withOutputs t).swapSheets a = (s.swapSheets a).withOutputs t := by
  have captured : ((s.withOutputs t).swapped a).captureAll a (s.captures a) =
      ((s.swapped a).captureAll a (s.captures a)).withOutputs t := by
    rw [State.swapped_withOutputs]
    exact State.withOutputs_foldl (f := fun s k => s.capture a k) (fun s k => State.capture_withOutputs a k s) _ _
  have same : (s.withOutputs t).captures a = s.captures a := rfl
  rw [State.swapSheets_eq, State.swapSheets_eq, same, captured]
  rfl

/-! ### POST -/

/-- What the event of a commit of area `a` leaves of the sheets where no other draft waits. -/
structure State.Posts (d : State) (a : AreaNo) (t : State) : Prop where
  waits     : ¬ d.MayExchange a → t.pool = d.pool ∧ t.areas = d.areas
  short     : d.MayExchange a → ¬ d.PoolHolds a → t.pool = d.pool ∧
    t.areas = (d.modArea a fun r => { r with draft := { r.draft with poolShort := true } }).areas
  exchanged : d.MayExchange a → d.PoolHolds a → t.pool = (d.swapSheets a).pool ∧
    (t.area a).posted = ((d.swapSheets a).area a).posted ∧ (t.area a).draft.commit = none

/-- The pool is reported short in the area's record alone (R131). -/
theorem State.reportShort_record (h : (s.area a).draft.poolShort = false) : (s.reportShort a).pool = s.pool ∧
    (s.reportShort a).areas = (s.modArea a fun r => { r with draft := { r.draft with poolShort := true } }).areas := by
  unfold State.reportShort
  rw [if_neg (by rw [h]; exact Bool.false_ne_true), State.notify_eq]
  exact ⟨rfl, rfl⟩

theorem State.sheetEvent_posts (others : ∀ b, b ≠ a → (d.area b).draft.commit = none) (configured : (d.area a).config.configured)
    (unreported : (d.area a).draft.poolShort = false) : d.Posts a (Work.finish { s := d, sheets := true }) := by
  have ends : Work.finish { s := d, sheets := true } = (d.withOutputs d.annunciate).examineSheets := by
    rw [← State.annunciate_withOutputs]; rfl
  have stand : d.SheetsStand (d.withOutputs d.annunciate) := .ofRest rfl rfl rfl rfl rfl rfl rfl
  obtain ⟨idle, short, exchanged⟩ := State.examineSheets_alone (s := d.withOutputs d.annunciate) others configured
  rw [stand.mayExchange, stand.poolHolds] at short exchanged
  rw [stand.mayExchange] at idle
  rw [ends]
  refine ⟨fun h => ?_, fun h p => ?_, fun h p => ?_⟩
  · rw [idle h]
    exact ⟨rfl, rfl⟩
  · rw [short h p]
    exact State.reportShort_record (s := d.withOutputs d.annunciate) unreported
  · have same := State.exchange_sameSheets a (d.withOutputs d.annunciate)
    have commit := State.exchange_commit a (d.withOutputs d.annunciate)
    rw [State.swapSheets_withOutputs] at same
    rw [exchanged h p]
    exact ⟨same.pool, same.posted a, commit⟩

theorem actPost_eq (hp : u.permitArea c .edit a false false = .ok o) (hl : (u.area a).draft.lock = some c) :
    actPost u (c, a) =
      taken (Work.finish { s := u.modDraft a (Draft.commitFor o.crew), sheets := true })
        [flagByte ((Work.finish { s := u.modDraft a (Draft.commitFor o.crew), sheets := true }).area a).draft.commit.isSome] := by
  unfold actPost
  rw [hp, withOperator_ok]
  dsimp only
  rw [if_neg (by simp [State.holdsLock_of hl])]

theorem isSome_eq_bne_none (k : Option Crew) : k.isSome = (k != none) := by cases k <;> rfl

/-- Settles O49: the action's equation, with the sheet store's examination where one draft alone waits. -/
theorem postCommitsDraft : Obligations.PostCommitsDraft := by
  unfold Obligations.PostCommitsDraft
  intro tag c a o s u p ht hm hp hl d
  have answered : exec (.post tag p) s = .next (u.answer 0x4F tag (actPost u (c, a))) :=
    consoleRequest_at ht (parseConsoleArea_bytes c a) hm
  have settles : d.Settles (Work.finish { s := d, sheets := true }) := (Work.Of.start d false false true).finish
  rw [answered, actPost_eq hp hl, State.answer_taken, isSome_eq_bne_none]
  refine ⟨_, rfl, settles, fun others configured => ?_⟩
  have area (b : AreaNo) : d.area b =
      if b = a then { u.area a with draft := (u.area a).draft.commitFor o.crew } else u.area b := u.area_modArea a b _
  have posts : d.Posts a (Work.finish { s := d, sheets := true }) := by
    refine State.sheetEvent_posts (fun b hb => ?_) ?_ ?_
    · rw [area, if_neg hb]; exact others b hb
    · rw [area, if_pos rfl]; exact configured
    · rw [area, if_pos rfl]; rfl
  exact ⟨posts.waits, posts.short, posts.exchanged⟩

end Sys2Proof.Machine

/-!
What keeps the rules of the pool and of the waiting drafts (`State.KeepsSheets`): an event whose owner either leaves what R129
reads or has the sheet store examine, a load in CONFIG, and every request whose owner does so.
-/

namespace Sys2Proof.Machine

variable {s t u : State} {a : AreaNo} {w w' : Work}

/-! ### The relation -/

/-- The change keeps the rules of the pool (R120) and of the waiting drafts (R129 to R131). -/
structure State.KeepsSheets (s t : State) : Prop where
  pool  : s.PoolSound → t.PoolSound
  waits : s.SheetsSound → t.SheetsSound

/-- The owner's changes, with the work in progress, that the end of the event makes such a change. -/
structure State.Prepares (s : State) (w : Work) : Prop where
  pool  : s.PoolSound → w.s.PoolSound
  ready : s.SheetsSound → w.SheetsReady

theorem State.KeepsSheets.refl (s : State) : s.KeepsSheets s := ⟨id, id⟩

theorem State.KeepsSheets.trans (h : s.KeepsSheets t) (k : t.KeepsSheets u) : s.KeepsSheets u :=
  ⟨k.pool ∘ h.pool, k.waits ∘ h.waits⟩

theorem State.SheetsStand.keeps (h : s.SheetsStand t) : s.KeepsSheets t := ⟨h.poolSound, h.sound⟩

theorem State.Prepares.then (h : s.Prepares w) (k : w.Minds w') : s.Prepares w' :=
  ⟨fun pool => k.drafts.poolSound (h.pool pool), fun sound => k.ready (h.ready sound)⟩

theorem State.Prepares.finish (h : s.Prepares w) (after : List NoticeKind := []) : s.KeepsSheets (w.finish after) :=
  ⟨fun pool => Work.finish_poolSound after (h.pool pool), fun sound => (h.ready sound).finish after⟩

/-- An owner that leaves what R129 reads. -/
theorem State.SheetsStand.prepares (h : s.SheetsStand w.s) (quiet : w.shift = false) : s.Prepares w where
  pool := h.poolSound
  ready sound := by
    obtain ⟨config, waits⟩ := State.sheetsSound_iff.mp (h.sound sound)
    exact ⟨config, fun _ => ⟨quiet, waits⟩⟩

/-- An owner that leaves the sheets and the commits, and has the sheet store examine. -/
theorem State.DraftsStand.prepares (h : s.DraftsStand w.s) (told : w.sheets = true) : s.Prepares w where
  pool := h.poolSound
  ready sound :=
    ⟨(State.sheetsSound_iff.mp sound).1.mono h.mode fun a => .inr (h.commit a), fun e => by rw [told] at e; cases e⟩

/-- In CONFIG no draft waits, and a load that leaves the drafts brings no exchange about (R137). -/
theorem State.DraftsStand.load (h : s.DraftsStand t) (hm : s.mode = .config) : s.KeepsSheets t where
  pool := h.poolSound
  waits sound := .ofNoCommits fun a => (h.commit a).trans (sound.config hm a)

/-! ### The annunciator's records -/

theorem State.modConsole_sheets (c : ConsoleNo) (f : Console → Console) (s : State) : s.SheetsStand (s.modConsole c f) :=
  .ofRest rfl rfl rfl rfl rfl rfl rfl

theorem State.modTrip_sheets (f : TripUnit → TripUnit) (s : State) : s.SheetsStand (s.modTrip f) :=
  .ofRest rfl rfl rfl rfl rfl rfl rfl

theorem State.modCode_sheets (c : TripNo) (f : TripCode → TripCode) (s : State) : s.SheetsStand (s.modCode c f) :=
  .ofRest rfl rfl rfl rfl rfl rfl rfl

theorem State.setPoint_sheets (n : PointNo) (p : Point) (s : State) : s.SheetsStand (s.setPoint n p) :=
  .ofRest rfl rfl rfl rfl rfl rfl rfl

theorem State.addReason_sheets (n : PointNo) (f : Point → Point) (s : State) : s.SheetsStand (s.addReason n f) := by
  rw [State.addReason_eq]
  exact s.setPoint_sheets n _

theorem State.link_sheets (l : Link) (s : State) : s.SheetsStand { s with link := l } := .ofRest rfl rfl rfl rfl rfl rfl rfl

theorem State.pending_sheets (l : List Instr) (s : State) : s.SheetsStand { s with pending := l } :=
  .ofRest rfl rfl rfl rfl rfl rfl rfl

theorem State.roster_sheets (l : List Operator) (s : State) : s.SheetsStand { s with roster := l } :=
  .ofRest rfl rfl rfl rfl rfl rfl rfl

/-! ### Seats -/

theorem State.seat_sheets (c : ConsoleNo) (n : Nat) (s : State) : s.SheetsStand (s.seat c n) := s.modConsole_sheets c _

theorem State.revive_keepsSheets (c : ConsoleNo) (n : Nat) (s : State) : s.KeepsSheets (s.revive c n) := by
  have seated : s.SheetsStand ((s.seat c n).notify (.consolePresent c)) := (s.seat_sheets c n).trans (State.notify_sheets _ _)
  unfold State.revive
  exact ((seated.prepares (w := { s := _, cover := true }) rfl).then (Work.seatsChanged_minds _ _)).finish

theorem State.activity_keepsSheets (c : ConsoleNo) (s : State) : s.KeepsSheets (s.activity c) := by
  unfold State.activity
  split
  · exact .refl s
  · exact (s.seat_sheets c _).keeps
  · exact s.revive_keepsSheets c _

theorem State.noteActivity_keepsSheets (p : List Byte) (s : State) : s.KeepsSheets (s.noteActivity p) := by
  unfold State.noteActivity
  split
  · exact s.activity_keepsSheets _
  · exact .refl s

/-! ### Requests -/

theorem State.take_sheets {f : Frame} (h : s.take f = some u) : s.SheetsStand u := State.take_eq h ▸ s.link_sheets _

theorem State.answer_keepsSheets {kind tag : Byte} {r : Answer} (h : r.Gives s.KeepsSheets) :
    s.KeepsSheets (s.answer kind tag r) := by
  unfold State.answer
  split
  · exact (s.link_sheets _).keeps
  · exact State.KeepsSheets.trans h (State.link_sheets _ _).keeps

theorem hostRequest_keepsSheets {α : Type} {kind tag : Byte} {p : List Byte} {parse : List Byte → Option α} {m : TakenIn}
    {act : State → α → Answer} (h : ∀ u x, m.refusal u.mode = none → (act u x).Gives u.KeepsSheets) :
    ∃ t, hostRequest kind tag p parse m act s = .next t ∧ s.KeepsSheets t := by
  unfold hostRequest
  split
  · exact ⟨s, rfl, .refl s⟩
  · rename_i u hu
    exact ⟨_, rfl, (State.take_sheets hu).keeps.trans (State.answer_keepsSheets (checkRequest_gives fun x _ hm => h u x hm))⟩

theorem consoleRequest_keepsSheets {α : Type} {kind tag : Byte} {p : List Byte} {parse : List Byte → Option α}
    {act : State → α → Answer} (h : ∀ u x, u.mode = .run → (act u x).Gives u.KeepsSheets) :
    ∃ t, consoleRequest kind tag p parse act s = .next t ∧ s.KeepsSheets t := by
  unfold consoleRequest
  split
  · exact ⟨s, rfl, .refl s⟩
  · rename_i u hu
    have active := (State.take_sheets hu).keeps.trans (State.noteActivity_keepsSheets p u)
    exact ⟨_, rfl, active.trans (State.answer_keepsSheets (checkRequest_gives fun x _ hm => h _ x (run_of_refusal hm)))⟩

/-- A request that only reads. -/
theorem query_keepsSheets {α : Type} {kind tag : Byte} {p : List Byte} {parse : List Byte → Option α} {m : TakenIn}
    {act : State → α → Answer} (h : ∀ u x, (act u x).Gives (· = u)) :
    ∃ t, hostRequest kind tag p parse m act s = .next t ∧ s.KeepsSheets t :=
  hostRequest_keepsSheets fun u x _ => by
    have same := h u x
    cases hr : act u x with
    | error e => trivial
    | ok v =>
      rw [hr] at same
      show u.KeepsSheets v.1
      rw [show v.1 = u from same]
      exact .refl u

/-! ### The line, the keys and the timers -/

theorem execBadKind_keepsSheets (kind tag : Byte) (p : List Byte) (s : State) :
    ∃ t, execBadKind kind tag p s = .next t ∧ s.KeepsSheets t := by
  unfold execBadKind
  split
  · exact ⟨s, rfl, .refl s⟩
  · split
    · exact ⟨s, rfl, .refl s⟩
    · rename_i u hu
      exact ⟨_, rfl, ((State.take_sheets hu).trans (u.link_sheets _)).keeps⟩

theorem execLinkError_keepsSheets (s : State) : ∃ t, execLinkError s = .next t ∧ s.KeepsSheets t := by
  unfold execLinkError
  split
  · exact ⟨_, rfl, (s.link_sheets _).keeps⟩
  all_goals exact ⟨s, rfl, .refl s⟩

theorem execGapTimerExpiry_keepsSheets (s : State) : ∃ t, execGapTimerExpiry s = .next t ∧ s.KeepsSheets t := by
  unfold execGapTimerExpiry
  split
  · exact ⟨s, rfl, .refl s⟩
  all_goals exact ⟨_, rfl, (s.link_sheets _).keeps⟩

theorem State.setKey_sheets (c : ConsoleNo) (k : KeyName) (x : Key) (s : State) : s.SheetsStand (s.setKey c k x) :=
  s.modConsole_sheets c _

theorem execKeyContactChange_keepsSheets (c : ConsoleNo) (k : KeyName) (closed : Bool) (s : State) :
    ∃ t, execKeyContactChange c k closed s = .next t ∧ s.KeepsSheets t := by
  unfold execKeyContactChange
  dsimp only
  split
  · exact ⟨s, rfl, .refl s⟩
  · split <;> exact ⟨_, rfl, (s.setKey_sheets c k _).keeps⟩

theorem execKeyReleaseTimerExpiry_keepsSheets (c : ConsoleNo) (k : KeyName) (s : State) :
    ∃ t, execKeyReleaseTimerExpiry c k s = .next t ∧ s.KeepsSheets t := by
  unfold execKeyReleaseTimerExpiry
  dsimp only
  split
  · exact ⟨_, rfl, (s.setKey_sheets c k _).keeps⟩
  · exact ⟨s, rfl, .refl s⟩

theorem execStuckTimerExpiry_keepsSheets (c : ConsoleNo) (k : KeyName) (s : State) :
    ∃ t, execStuckTimerExpiry c k s = .next t ∧ s.KeepsSheets t := by
  unfold execStuckTimerExpiry
  dsimp only
  split
  · exact ⟨_, rfl, ((s.setKey_sheets c k _).trans (State.notify_sheets _ _)).keeps⟩
  · exact ⟨s, rfl, .refl s⟩

theorem execP1ResoundDeadline_keepsSheets (c : ConsoleNo) (s : State) :
    ∃ t, execP1ResoundDeadline c s = .next t ∧ s.KeepsSheets t := by
  unfold execP1ResoundDeadline
  split
  · split
    · exact ⟨_, rfl, ((s.modConsole_sheets c _).trans (State.driveOutputs_sheets _)).keeps⟩
    · exact ⟨s, rfl, .refl s⟩
  · exact ⟨s, rfl, .refl s⟩

theorem execTripLinesChange_keepsSheets (lines : Fin 16) (s : State) :
    ∃ t, execTripLinesChange lines s = .next t ∧ s.KeepsSheets t := by
  unfold execTripLinesChange
  split
  · exact ⟨s, rfl, .refl s⟩
  · exact ⟨_, rfl, (s.modTrip_sheets _).keeps⟩

theorem execTripReleaseTimerExpiry_keepsSheets (s : State) :
    ∃ t, execTripReleaseTimerExpiry s = .next t ∧ s.KeepsSheets t := by
  unfold execTripReleaseTimerExpiry
  split
  · exact ⟨_, rfl, (s.modTrip_sheets _).keeps⟩
  all_goals exact ⟨s, rfl, .refl s⟩

theorem execPresenceDeadline_keepsSheets (c : ConsoleNo) (s : State) :
    ∃ t, execPresenceDeadline c s = .next t ∧ s.KeepsSheets t := by
  unfold execPresenceDeadline
  split
  case h_1 n d _ =>
    split
    · have gone := (s.modConsole_sheets c fun r => { r with seat := .absent n }).trans (State.notify_sheets (.consoleAbsent c) _)
      exact ⟨_, rfl, (gone.prepares (w := { s := _, cover := true }) rfl).finish⟩
    · exact ⟨s, rfl, .refl s⟩
  all_goals exact ⟨s, rfl, .refl s⟩

theorem actSignOn_keepsSheets (x : ConsoleNo × Nat) (s : State) : (actSignOn s x).Gives s.KeepsSheets := by
  have signed : s.SheetsStand ((s.seat x.1 x.2).modOperator x.2 fun o => { o with seat := some x.1 }) :=
    (s.seat_sheets x.1 x.2).trans (State.roster_sheets _ _)
  have event : s.KeepsSheets (s.signOn x.1 x.2) :=
    ((signed.prepares (w := { s := _, cover := true }) rfl).then (Work.seatsChanged_minds _ _)).finish
  unfold actSignOn
  split
  · trivial
  · split
    · trivial
    · split
      · trivial
      · split
        · trivial
        · split
          · trivial
          · exact event

theorem State.signedOff_sheets (c : ConsoleNo) (s : State) : s.SheetsStand (s.signedOff c) := by
  have record (b : AreaNo) : (s.area b).SheetStands ((s.signedOff c).area b) := by
    rw [State.area_signedOff]
    exact ⟨rfl, rfl, rfl, rfl, rfl, rfl, id⟩
  unfold State.signedOff State.unseat at record ⊢
  split at record
  all_goals exact .of rfl rfl rfl rfl rfl rfl record

theorem actSignOff_keepsSheets (x : Option ConsoleNo × ConsoleNo) (s : State) : (actSignOff s x).Gives s.KeepsSheets := by
  have event : s.KeepsSheets (s.signOff x.2) := by
    rw [State.signOff_eq]
    exact (((s.signedOff_sheets x.2).prepares (w := { s := _, cover := true }) rfl).then (Work.seatsChanged_minds _ _)).finish
  unfold actSignOff
  split
  · trivial
  · split
    · trivial
    · exact event

end Sys2Proof.Machine

/-!
The owners' actions on points, trips, shelves and handovers, the settings and the resets: each keeps the rules of the pool and of
the waiting drafts, because it leaves what R129 reads, has the sheet store examine, or is taken in CONFIG.
-/

namespace Sys2Proof.Machine

variable {s t u : State} {a : AreaNo} {w w' : Work}

/-! ### Points -/

theorem State.setMeter_sheets (a : AreaNo) (l : Nat) (s : State) : s.SheetsStand (s.setMeter a l) := by
  have metered (b : Bool) : s.SheetsStand (s.modArea a fun x => { x with meter := l, flooded := b }) :=
    .modArea a _ s ⟨rfl, rfl, rfl, rfl, rfl, rfl, id⟩
  unfold State.setMeter
  dsimp only
  split
  · exact (metered true).trans (State.notify_sheets _ _)
  · split
    · exact (metered false).trans (State.notify_sheets _ _)
    · exact .modArea a _ s ⟨rfl, rfl, rfl, rfl, rfl, rfl, id⟩

theorem State.raiseInView_keepsSheets (n : PointNo) (s : State) : s.KeepsSheets (s.raiseInView n) := by
  have raised : s.SheetsStand (s.becomeNew n false ((s.point n).raised s.now)) := .ofRest rfl rfl rfl rfl rfl rfl rfl
  have metered := (raised.trans (State.setMeter_sheets (s.point n).area
    (raisedMeter ((s.becomeNew n false ((s.point n).raised s.now)).area (s.point n).area).meter) _)).prepares
      (w := { s := _ }) rfl
  unfold State.raiseInView
  dsimp only
  split
  · exact (metered.then (Work.reconsider_minds _ _ _)).finish
  · exact metered.finish

theorem actRaise_keepsSheets (n : PointNo) (s : State) : (actRaise s n).Gives s.KeepsSheets := by
  unfold actRaise
  dsimp only
  split
  · trivial
  · split
    · trivial
    · split
      · exact (s.setPoint_sheets n _).keeps
      · exact s.raiseInView_keepsSheets n

theorem actClear_keepsSheets (n : PointNo) (s : State) : (actClear s n).Gives s.KeepsSheets := by
  have cleared : s.Prepares { s := s.setPoint n (s.point n).cleared } := (s.setPoint_sheets n _).prepares rfl
  unfold actClear
  dsimp only
  split
  · trivial
  · split
    · trivial
    · split
      · exact (s.setPoint_sheets n _).keeps
      · refine State.Prepares.finish ?_
        split
        · exact cleared.then (Work.pointChanged_minds _ _)
        · exact cleared

theorem State.uncountSuppressed_sheets (cs : List TripNo) (s : State) : s.SheetsStand (s.uncountSuppressed cs) :=
  State.SheetsStand.foldl (fun s c => s.modCode_sheets c _) cs s

/-- A point taken out has the sheet store examine where a shelf of it has ended (R130). -/
theorem State.takeOut_keepsSheets (n : PointNo) (s : State) : s.KeepsSheets (s.takeOut n) := by
  have out (v : State) : v.SheetsStand ((v.uncountSuppressed (s.point n).suppression).addReason n fun q =>
      { q with shelved := false, suppression := [], outOfService := true }) :=
    (v.uncountSuppressed_sheets _).trans (State.addReason_sheets n _ _)
  have prepared : s.Prepares { s := ((s.dropShelfOf n).uncountSuppressed (s.point n).suppression).addReason n fun q =>
      { q with shelved := false, suppression := [], outOfService := true }, sheets := (s.shelfOf? n).isSome } := by
    unfold State.dropShelfOf
    cases s.shelfOf? n with
    | none => exact (out s).prepares rfl
    | some r => exact ((s.dropShelf_drafts r).trans (out _).toDraftsStand).prepares rfl
  exact (prepared.then (Work.pointChanged_minds _ _)).finish

theorem actTakeOut_keepsSheets (x : ConsoleNo × PointNo) (s : State) : (actTakeOut s x).Gives s.KeepsSheets := by
  refine .withOperator (fun _ => ?_) _
  split
  · trivial
  · split
    · trivial
    · exact s.takeOut_keepsSheets x.2

theorem actReturn_keepsSheets (x : ConsoleNo × PointNo) (s : State) : (actReturn s x).Gives s.KeepsSheets := by
  have back : s.SheetsStand (s.removeReason x.2 (fun q => { q with outOfService := false }) false) :=
    s.removeReason_sheets x.2 _ false
  have event : s.KeepsSheets (s.putBack x.2) :=
    ((back.prepares (w := { s := _ }) rfl).then (Work.pointChanged_minds _ _)).finish
  refine .withOperator (fun _ => ?_) _
  split
  · trivial
  · split
    · trivial
    · exact event

theorem execDecayStep_keepsSheets (a : AreaNo) (s : State) : ∃ t, execDecayStep a s = .next t ∧ s.KeepsSheets t := by
  have metered := s.setMeter_sheets a ((s.area a).meter - decrement (s.area a).meter (s.area a).config.decay)
  unfold execDecayStep
  dsimp only
  split
  · split
    · exact ⟨_, rfl, metered.keeps⟩
    · exact ⟨_, rfl, ((metered.prepares (w := { s := _ }) rfl).then (Work.reconsider_minds _ _ _)).finish⟩
  · exact ⟨s, rfl, .refl s⟩

theorem actSetPoint_keepsSheets (x : PointNo × AreaNo × Priority) (s : State) : (actSetPoint s x).Gives s.KeepsSheets := by
  unfold actSetPoint
  dsimp only
  split
  · trivial
  · split
    · trivial
    · split
      · trivial
      · exact (s.setPoint_sheets x.1 _).keeps

/-! ### Acknowledgement and silence -/

theorem State.ackEvent_keepsSheets (n : PointNo) (o : Nat) (after : List NoticeKind) (s : State) :
    s.KeepsSheets (s.ackEvent n o after) :=
  (((s.setPoint_sheets n _).prepares (w := { s := s.acknowledge n o }) rfl).then (Work.pointChanged_minds _ _)).finish after

theorem actAck_keepsSheets (x : ConsoleNo × PointNo) (s : State) : (actAck s x).Gives s.KeepsSheets := by
  refine .withOperator (fun o => ?_) _
  dsimp only
  split
  · trivial
  · split
    · trivial
    · exact s.ackEvent_keepsSheets x.2 o.number []

theorem actAckHead_keepsSheets (x : ConsoleNo × Option PointNo) (s : State) : (actAckHead s x).Gives s.KeepsSheets := by
  refine .withOperator (fun _ => ?_) _
  split
  · trivial
  · refine .withOperator (fun o => ?_) _
    split
    · trivial
    · exact s.ackEvent_keepsSheets _ o.number []

theorem actAckArea_keepsSheets (x : ConsoleNo × AreaNo × Nat) (s : State) : (actAckArea s x).Gives s.KeepsSheets := by
  refine .withOperator (fun o => ?_) _
  dsimp only
  generalize s.ackSelection x.2.1 x.2.2 = ns
  have acknowledged : s.SheetsStand (ns.foldl (fun s n => s.acknowledge n o.number) s) :=
    .foldl (f := fun s n => s.acknowledge n o.number) (fun s n => s.setPoint_sheets n _) ns s
  split
  · exact State.KeepsSheets.refl s
  · exact (acknowledged.prepares (w := { s := _ }) rfl).finish

theorem State.silence_sheets (c : ConsoleNo) (source : SilenceSource) (s : State) : s.SheetsStand (s.silence c source) := by
  have marked := s.modConsole_sheets c (Console.silenced s.raiseCounter (s.resoundAfter c))
  unfold State.silence
  dsimp only
  generalize s.modConsole c (Console.silenced s.raiseCounter (s.resoundAfter c)) = v at marked ⊢
  refine .trans (.trans ?_ (State.driveOutputs_sheets _)) (State.notify_sheets _ _)
  split
  · exact marked.trans (.ofRest rfl rfl rfl rfl rfl rfl rfl)
  · exact marked

theorem State.ackPress_keepsSheets (c : ConsoleNo) (s : State) : s.KeepsSheets (s.ackPress c) := by
  unfold State.ackPress
  split
  · exact (s.notify_sheets _).keeps
  · split
    · exact (s.notify_sheets _).keeps
    · split
      · exact (s.notify_sheets _).keeps
      · exact s.ackEvent_keepsSheets _ _ _

theorem State.keyAction_keepsSheets (c : ConsoleNo) (k : KeyName) (s : State) : s.KeepsSheets (s.keyAction c k) := by
  cases k with
  | ack => exact (s.activity_keepsSheets c).trans (State.ackPress_keepsSheets c _)
  | silence =>
    refine (s.activity_keepsSheets c).trans ?_
    unfold State.keyAction State.silencePress
    dsimp only
    split
    · exact (State.notify_sheets _ _).keeps
    · exact (State.silence_sheets c .key _).keeps

theorem execKeyQualifyTimerExpiry_keepsSheets (c : ConsoleNo) (k : KeyName) (s : State) :
    ∃ t, execKeyQualifyTimerExpiry c k s = .next t ∧ s.KeepsSheets t := by
  unfold execKeyQualifyTimerExpiry
  dsimp only
  split
  · exact ⟨_, rfl, (s.setKey_sheets c k _).keeps.trans (State.keyAction_keepsSheets c k _)⟩
  · exact ⟨s, rfl, .refl s⟩

/-! ### Shelves -/

theorem actShelve_keepsSheets (x : ConsoleNo × PointNo × ShelveFor) (s : State) : (actShelve s x).Gives s.KeepsSheets := by
  have shelved (r : Shelf) : s.DraftsStand (s.addShelf r) := by
    have listed : s.DraftsStand { s with shelves := s.shelves ++ [r] } := .ofAreas rfl rfl rfl rfl
    have counted := listed.trans (.modArea r.area (fun x => { x with shelvedCount := x.shelvedCount + 1 }) _ rfl rfl rfl)
    exact counted.trans (State.addReason_sheets _ _ _).toDraftsStand
  refine .withOperator (fun o => ?_) _
  dsimp only
  split
  · trivial
  · split
    · trivial
    · split
      · trivial
      · split
        · trivial
        · split
          · trivial
          · split
            · trivial
            · exact ((shelved (s.newShelf x.1 x.2.1 o.number x.2.2)).prepares (w := { s := _, sheets := true }) rfl).finish

/-- The end of a shelf has the sheet store examine (R130). -/
theorem State.shelfEnded_keepsSheets (r : Shelf) (h : s.DraftsStand t) : s.KeepsSheets (s.shelfEnded r t) :=
  ((h.prepares (w := { s := t, sheets := true }) rfl).then (Work.pointChanged_minds _ _)).finish

theorem actUnshelve_keepsSheets (x : ConsoleNo × PointNo) (s : State) : (actUnshelve s x).Gives s.KeepsSheets := by
  refine .withOperator (fun _ => ?_) _
  split
  · trivial
  · split
    · trivial
    · exact State.shelfEnded_keepsSheets _ (s.endShelf_drafts _)

theorem execShelfExpired_keepsSheets (n : PointNo) (s : State) :
    ∃ t, execShelfExpired n s = .next t ∧ s.KeepsSheets t := by
  unfold execShelfExpired
  split
  · split
    · exact ⟨_, rfl, State.shelfEnded_keepsSheets _ ((s.endShelf_drafts _).trans (State.notify_sheets _ _).toDraftsStand)⟩
    · exact ⟨s, rfl, .refl s⟩
  · exact ⟨s, rfl, .refl s⟩

/-! ### The trip unit -/

theorem State.GroupChanges.sheets (h : s.GroupChanges t) : s.SheetsStand t := by
  rw [h.rest]
  exact .ofRest rfl rfl rfl rfl rfl rfl rfl

theorem State.runGroup_sheets (c : TripNo) (g : Group) (s : State) : s.SheetsStand (s.runGroup c g).1 :=
  (s.runMembers_changes c g (List.finRange 32)).sheets

theorem State.tripDone_sheets (c : TripNo) (s : State) : s.SheetsStand (s.tripDone c) :=
  (s.modCode_sheets c _).trans (State.notify_sheets _ _)

theorem State.dropPending_sheets (s : State) : s.SheetsStand s.dropPending := by
  unfold State.dropPending
  split
  · exact (s.modTrip_sheets _).trans (State.notify_sheets _ _)
  · exact .refl s

theorem State.tripFault_sheets (c : TripNo) (e : EntryNo) (s : State) : s.SheetsStand (s.tripFault c e) :=
  (((s.modCode_sheets c _).trans (State.modTrip_sheets _ _)).trans (State.notify_sheets _ _)).trans
    (State.dropPending_sheets _)

theorem State.tripStep_sheets (c : TripNo) (e : EntryNo) (notify : Bool) (s : State) : s.SheetsStand (s.tripStep c e notify) := by
  unfold State.tripStep
  split
  · exact s.notify_sheets _
  · exact .refl s

/-- The processing of a running code's list (R110 to R114). -/
theorem State.runFrom_sheets (c : TripNo) (n i : Nat) (s : State) : s.SheetsStand (s.runFrom c n i) := by
  induction n generalizing i s with
  | zero => exact s.tripFault_sheets c 511
  | succ n ih =>
    unfold State.runFrom
    split
    · exact s.tripFault_sheets c 511
    · rename_i k _
      split
      · exact s.tripFault_sheets c k
      · exact (s.tripStep_sheets c k _).trans (State.modCode_sheets c _ _)
      · rename_i g _ _ _
        have group := s.runGroup_sheets c g
        generalize s.runGroup c g = x at group
        obtain ⟨t, faulty⟩ := x
        have stepped (notify : Bool) := group.trans (State.tripStep_sheets c k notify t)
        dsimp only
        split
        · exact group.trans (t.tripFault_sheets c k)
        · split
          · exact (stepped _).trans (State.tripDone_sheets c _)
          · exact (stepped _).trans (ih _ _)

theorem State.startRun_sheets (c : TripNo) (s : State) : s.SheetsStand (s.startRun c) :=
  ((s.modCode_sheets c _).trans (State.notify_sheets _ _)).trans (State.runFrom_sheets c _ _ _)

theorem State.takePending_sheets (s : State) : s.SheetsStand s.takePending := by
  unfold State.takePending
  split
  · exact (s.modTrip_sheets _).trans (State.startRun_sheets _ _)
  · exact .refl s

theorem State.deliver_sheets (c : TripNo) (s : State) : s.SheetsStand (s.deliver c) := by
  unfold State.deliver
  split
  · exact s.notify_sheets _
  · split
    · exact s.notify_sheets _
    · split
      · exact (s.startRun_sheets c).trans (State.takePending_sheets _)
      · split
        · exact .refl s
        · split
          · exact s.modTrip_sheets _
          · exact s.notify_sheets _

/-- The end of a trip event: the TRIP reasons follow (R147). -/
theorem State.SheetsStand.tripEvent (h : s.SheetsStand t) : s.KeepsSheets t.tripEvent :=
  ((h.prepares (w := { s := t }) rfl).then (Work.tripsChanged_minds _)).finish

theorem execTripQualifyTimerExpiry_keepsSheets (s : State) :
    ∃ t, execTripQualifyTimerExpiry s = .next t ∧ s.KeepsSheets t := by
  unfold execTripQualifyTimerExpiry
  split
  · exact ⟨_, rfl, ((s.modTrip_sheets _).trans (State.deliver_sheets _ _)).tripEvent⟩
  all_goals exact ⟨s, rfl, .refl s⟩

theorem execWaitDeadline_keepsSheets (c : TripNo) (s : State) :
    ∃ t, execWaitDeadline c s = .next t ∧ s.KeepsSheets t := by
  unfold execWaitDeadline
  split
  · rename_i k d _
    split
    · have left := s.modCode_sheets c fun r => { r with state := .running k none }
      refine ⟨_, rfl, State.SheetsStand.tripEvent (.trans (left.trans ?_) (State.takePending_sheets _))⟩
      split
      · exact State.tripDone_sheets c _
      all_goals exact State.runFrom_sheets c _ _ _
    · exact ⟨s, rfl, .refl s⟩
  all_goals exact ⟨s, rfl, .refl s⟩

theorem State.Unsuppressed.sheets {c : TripNo} {l : List PointNo} {k : Nat} (h : s.Unsuppressed c l t k) : s.SheetsStand t := by
  rw [h.rest]
  exact .ofRest rfl rfl rfl rfl rfl rfl rfl

theorem State.unsuppressAll_sheets (c : TripNo) (s : State) : s.SheetsStand (s.unsuppressAll c).1 :=
  (s.unsuppressAll_spec c).sheets

theorem State.release_keepsSheets (c : TripNo) (source : ReleaseSource) (s : State) : s.KeepsSheets (s.release c source).1 := by
  have freed := s.unsuppressAll_sheets c
  unfold State.release
  generalize s.unsuppressAll c = x at freed ⊢
  obtain ⟨t, new⟩ := x
  dsimp only at freed ⊢
  exact (((freed.trans (State.modCode_sheets c _ _)).trans (State.notify_sheets _ _)).trans
    (State.takePending_sheets _)).tripEvent

theorem releaseAnswer_keepsSheets (c : TripNo) (source : ReleaseSource) (s : State) :
    (releaseAnswer s c source).Gives s.KeepsSheets := by
  have released := s.release_keepsSheets c source
  unfold releaseAnswer
  split
  · trivial
  · generalize s.release c source = x at released ⊢
    obtain ⟨t, new⟩ := x
    exact released

theorem actReleaseTrip_keepsSheets (x : Option ConsoleNo × TripNo) (s : State) :
    (actReleaseTrip s x).Gives s.KeepsSheets := by
  unfold actReleaseTrip
  split
  · exact releaseAnswer_keepsSheets _ _ s
  · exact .withOperator (fun _ => releaseAnswer_keepsSheets _ _ s) _

theorem execTripHoldDeadline_keepsSheets (c : TripNo) (s : State) :
    ∃ t, execTripHoldDeadline c s = .next t ∧ s.KeepsSheets t := by
  unfold execTripHoldDeadline
  split
  · split
    · exact ⟨_, rfl, s.release_keepsSheets c .expiry⟩
    · exact ⟨s, rfl, .refl s⟩
  all_goals exact ⟨s, rfl, .refl s⟩

theorem actLoadTripEntries_keepsSheets (x : Nat × List TripEntry × Bool) (s : State) :
    (actLoadTripEntries s x).Gives s.KeepsSheets := by
  unfold actLoadTripEntries
  split
  · trivial
  · exact (s.modTrip_sheets _).keeps

theorem actLoadTripCode_keepsSheets (x : TripNo × TripConfig) (s : State) : (actLoadTripCode s x).Gives s.KeepsSheets := by
  unfold actLoadTripCode
  split
  · trivial
  · exact (s.modCode_sheets x.1 _).keeps

/-! ### Handovers -/

theorem actBeginHandover_keepsSheets (k : Crew) (s : State) : (actBeginHandover s k).Gives s.KeepsSheets := by
  have opened : s.DraftsStand (s.openMill k) := .ofAreas rfl rfl rfl rfl
  have event : s.KeepsSheets (s.beginHandover k) :=
    ((opened.prepares (w := { s := _, cover := true, shift := s.configuredAreas.isEmpty, sheets := true }) rfl).then
      (Work.foldl_minds (fun w a => w.begin_minds a) _ _)).finish
  unfold actBeginHandover
  split
  · trivial
  · split
    · trivial
    · exact event

theorem actCancelHandover_keepsSheets (x : Unit) (s : State) : (actCancelHandover s x).Gives s.KeepsSheets := by
  have closed : s.DraftsStand s.closeHandover := by
    refine ⟨⟨rfl, rfl, fun b => ?_, fun b => ?_⟩, rfl, fun b => ?_⟩ <;> rw [State.area_closeHandover]
  unfold actCancelHandover
  split
  · trivial
  · split
    · trivial
    · exact (closed.prepares (w := { s := _, cover := true, sheets := true }) rfl).finish

/-- The handover unit's work from the state as it stands. -/
theorem Work.Minds.event {sheets : Bool} (h : (Work.mk s [] false false sheets).Minds w) : s.KeepsSheets w.finish :=
  (((State.SheetsStand.refl s).prepares (w := Work.mk s [] false false sheets) rfl).then h).finish

theorem State.request_keepsSheets (a : AreaNo) (b : Bool) (s : State) : s.KeepsSheets (s.request a b) :=
  (Work.setReasons_minds a _ { s }).event

theorem actSuspendArea_keepsSheets (a : AreaNo) (s : State) : (actSuspendArea s a).Gives s.KeepsSheets := by
  unfold actSuspendArea
  dsimp only
  split
  · trivial
  · split
    · trivial
    · split
      · trivial
      · exact s.request_keepsSheets a true

theorem actResumeArea_keepsSheets (a : AreaNo) (s : State) : (actResumeArea s a).Gives s.KeepsSheets := by
  unfold actResumeArea
  dsimp only
  split
  · trivial
  · split
    · trivial
    · split
      · trivial
      · exact s.request_keepsSheets a false

theorem actConfirmStep_keepsSheets (x : ConsoleNo × AreaNo) (s : State) : (actConfirmStep s x).Gives s.KeepsSheets := by
  refine .withOperator (fun _ => ?_) _
  split
  · trivial
  · exact (Work.completeStep_minds x.2 { s, sheets := true }).event

theorem execHandoverHoldDeadline_keepsSheets (a : AreaNo) (s : State) :
    ∃ t, execHandoverHoldDeadline a s = .next t ∧ s.KeepsSheets t := by
  unfold execHandoverHoldDeadline
  split
  · split
    · exact ⟨_, rfl, (Work.completeStep_minds a { s, sheets := true }).event⟩
    · exact ⟨s, rfl, .refl s⟩
  all_goals exact ⟨s, rfl, .refl s⟩

theorem execStepTimeout_keepsSheets (a : AreaNo) (s : State) : ∃ t, execStepTimeout a s = .next t ∧ s.KeepsSheets t := by
  unfold execStepTimeout
  split
  · split
    · exact ⟨_, rfl, (Work.halt_minds a .stepTimeout { s }).event⟩
    · exact ⟨s, rfl, .refl s⟩
  all_goals exact ⟨s, rfl, .refl s⟩

theorem actAbortArea_keepsSheets (a : AreaNo) (s : State) : (actAbortArea s a).Gives s.KeepsSheets := by
  unfold actAbortArea
  dsimp only
  split
  · trivial
  · split
    · trivial
    · split
      · trivial
      · exact (Work.halt_minds a .hostAbort { s }).event

theorem actClearAbort_keepsSheets (a : AreaNo) (s : State) : (actClearAbort s a).Gives s.KeepsSheets := by
  have cleared : s.SheetsStand (s.modArea a fun r => { r with abort := none }) :=
    .modArea a _ s ⟨rfl, rfl, rfl, rfl, rfl, rfl, id⟩
  unfold actClearAbort
  split
  · trivial
  · exact cleared.keeps

theorem actRestartArea_keepsSheets (x : ConsoleNo × AreaNo) (s : State) : (actRestartArea s x).Gives s.KeepsSheets := by
  refine .withOperator (fun _ => ?_) _
  split
  · trivial
  · exact (Work.begin_minds x.2 { s }).event

/-! ### The clock, the settings and the loads -/

theorem Handover.ground_mapDeadline (f : Deadline → Deadline) (h : Handover) : (h.mapDeadline f).ground = h.ground := by
  cases h <;> rfl

theorem State.setClock_sheets (n : Nat) (s : State) : s.SheetsStand (s.setClock n) :=
  .of rfl rfl rfl rfl rfl rfl fun b => by
    rw [State.area_setClock]
    exact ⟨rfl, Handover.ground_mapDeadline _ _, rfl, rfl, rfl, rfl, id⟩

theorem actLoadOperator_keepsSheets (x : OperatorLoad) (s : State) : (actLoadOperator s x).Gives s.KeepsSheets := by
  have stored (o : Operator) : s.KeepsSheets (s.storeOperator o) := by
    unfold State.storeOperator
    split
    all_goals exact (s.roster_sheets _).keeps
  unfold actLoadOperator
  split
  · split
    · trivial
    · split
      · trivial
      · exact stored _
  · split
    · trivial
    · split
      · trivial
      · exact (s.roster_sheets _).keeps

theorem actSetTiming_keepsSheets (x : Setting × Nat) (s : State) : (actSetTiming s x).Gives s.KeepsSheets := by
  show s.KeepsSheets (s.storeSetting x.1 (x.1.clamped x.2))
  unfold State.storeSetting
  dsimp only
  split
  all_goals exact State.SheetsStand.keeps (.ofRest rfl rfl rfl rfl rfl rfl rfl)

theorem actSetShift_keepsSheets (x : Nat × Crew) (hm : s.mode = .config) : (actSetShift s x).Gives s.KeepsSheets := by
  have area (b : AreaNo) : (s.areas.map fun r => { r with duty := x.2 })[b] = { s.area b with duty := x.2 } := by
    simp [State.area]
  have shifted : s.DraftsStand { s with
      mill := { s.mill with shift := x.1, duty := x.2 }, areas := s.areas.map fun r => { r with duty := x.2 } } := by
    refine ⟨⟨rfl, rfl, fun b => ?_, fun b => ?_⟩, rfl, fun b => ?_⟩ <;> rw [State.area, area]
  exact shifted.load hm

theorem actLoadArea_keepsSheets (x : AreaNo × AreaConfig) (hm : s.mode = .config) : (actLoadArea s x).Gives s.KeepsSheets :=
  State.DraftsStand.load (.modArea x.1 (fun r => { r with config := x.2 }) s rfl rfl rfl) hm

theorem actLoadOrder_keepsSheets (x : OrderNo × Order) (hm : s.mode = .config) : (actLoadOrder s x).Gives s.KeepsSheets := by
  unfold actLoadOrder
  split
  · trivial
  · exact State.DraftsStand.load (.ofAreas rfl rfl rfl rfl) hm

theorem State.storePoints_sheets (first : Nat) (es : List PointEntry) (s : State) : s.SheetsStand (s.storePoints first es) := by
  rw [State.storePoints_rest]
  exact .ofRest rfl rfl rfl rfl rfl rfl rfl

/-- Entry to RUN finds no draft waiting (R137, R176). -/
theorem actStart_keepsSheets (x : Unit) (hm : s.mode = .config) : (actStart s x).Gives s.KeepsSheets := by
  have same : s.SameSheets s.enterRun := by
    refine ⟨rfl, rfl, fun b => ?_, fun b => ?_⟩ <;> rw [State.enterRun_area] <;> rfl
  have quiet (h : s.SheetsSound) : s.enterRun.noCommits := fun b => by
    rw [State.enterRun_area]
    exact h.config hm b
  unfold actStart
  split
  · trivial
  · exact ⟨same.poolSound, fun h => .ofNoCommits (quiet h)⟩

/-! ### The resets -/

theorem State.hardReset_keepsSheets (strapLow : Bool) (s : State) : s.KeepsSheets (s.hardReset strapLow) := by
  have rest : State.reset.SheetsStand (s.hardReset strapLow) := .ofRest rfl rfl rfl rfl rfl rfl rfl
  exact ⟨fun _ => rest.poolSound State.reset_poolSound, fun _ => rest.sound State.reset_sheetsSound⟩

/-- A restart empties the pool, the sheets and the drafts (R177). -/
theorem State.restart_keepsSheets (s : State) : s.KeepsSheets s.restart := by
  have area (b : AreaNo) : s.restart.area b = (s.area b).restart s.mill.duty := by
    simp [State.area, State.restart, State.deriveAttention]
  have unlisted : s.restart.listed = [] := by
    refine List.flatMap_eq_nil_iff.mpr fun b _ => ?_
    rw [State.framed, area]
    rfl
  refine ⟨fun _ => ⟨?_, ?_, fun i => ?_⟩, fun _ => .ofNoCommits fun b => ?_⟩
  · rw [unlisted]; rfl
  · rw [unlisted]; exact .nil
  · rw [unlisted]
    simp [State.item, State.restart, State.deriveAttention]
  · rw [area]; rfl

end Sys2Proof.Machine

/-!
The sheets' own requests (R124 to R128, R135), every command, and the statement: a step keeps the rules of the pool and of the
waiting drafts.
-/

namespace Sys2Proof.Machine

variable {s t u : State} {a : AreaNo} {w w' : Work}

/-! ### The lock (R124, R125) -/

/-- Conditions 1 to 4 of R129 for one area do not read another's record. -/
theorem State.WaitsRightly.modOther {b : AreaNo} (h : s.WaitsRightly b) (hb : b ≠ a) (f : Area → Area) :
    (s.modArea a f).WaitsRightly b := fun configured may => by
  have area : (s.modArea a f).area b = s.area b := (s.area_modArea a b f).trans (if_neg hb)
  obtain ⟨committed, review, replace⟩ := may
  rw [area] at configured committed replace
  simp only [area] at review
  have waits := h configured ⟨committed, review, replace⟩
  unfold State.PoolHolds at waits ⊢
  rw [area]
  exact waits

/-- A commit withdrawn leaves no exchange due. -/
theorem State.withdrawn_keeps (f : Area → Area) (items : (f (s.area a)).draft.items = (s.area a).draft.items)
    (posted : (f (s.area a)).posted = (s.area a).posted) (withdraws : (f (s.area a)).draft.commit = none) :
    s.KeepsSheets (s.modArea a f) where
  pool := (State.SameSheets.modArea a f s ⟨items, posted⟩).poolSound
  waits sound := by
    obtain ⟨config, waits⟩ := State.sheetsSound_iff.mp sound
    have withdrawn : ((s.modArea a f).area a).draft.commit = none := by
      rw [State.area_modArea, if_pos rfl]
      exact withdraws
    refine State.sheetsSound_iff.mpr ⟨config.mono rfl fun b => ?_, fun b => ?_⟩
    · by_cases hb : b = a
      · rw [hb]; exact .inl withdrawn
      · rw [State.area_modArea, if_neg hb]; exact .inr rfl
    · by_cases hb : b = a
      · rw [hb]; exact fun _ may => absurd withdrawn may.committed
      · exact (waits b).modOther hb f

/-- A draft's lock changes. -/
theorem State.modLock_sheets (x : Option ConsoleNo) (s : State) : s.SheetsStand (s.modDraft a fun d => { d with lock := x }) :=
  .modArea a _ s ⟨rfl, rfl, rfl, rfl, rfl, rfl, id⟩

theorem State.lockFor_keepsSheets (c : ConsoleNo) (s : State) : s.KeepsSheets (s.modDraft a (Draft.lockFor c)) := by
  rw [State.modDraft_lockFor]
  by_cases h : (s.area a).draft.commit = none
  · rw [if_pos h]
    exact State.SheetsStand.keeps (.modArea a _ s ⟨rfl, rfl, rfl, rfl, rfl, rfl, id⟩)
  · rw [if_neg h]
    exact State.withdrawn_keeps _ rfl rfl rfl

theorem actLockDraft_keepsSheets (x : ConsoleNo × AreaNo) (s : State) : (actLockDraft s x).Gives s.KeepsSheets := by
  refine .withOperator (fun _ => ?_) _
  dsimp only
  split
  · trivial
  · split
    · trivial
    · exact s.lockFor_keepsSheets x.1

theorem actUnlockDraft_keepsSheets (x : ConsoleNo × AreaNo) (s : State) : (actUnlockDraft s x).Gives s.KeepsSheets := by
  refine .withOperator (fun _ => ?_) _
  dsimp only
  split
  · trivial
  · split
    · trivial
    · exact (s.modLock_sheets none).keeps

/-! ### The items (R126, R127) -/

/-- A draft's items change, with the slots of the pool, and the sheet store examines. -/
theorem State.Prepares.ofItems {is : List SlotNo} (pool : s.PoolSound → t.PoolSound) (mode : t.mode = s.mode)
    (areas : t.areas = (s.modArea a fun r => { r with draft := { r.draft with items := is } }).areas) :
    s.Prepares { s := t, sheets := true } where
  pool := pool
  ready sound := by
    have commit (b : AreaNo) : (t.area b).draft.commit = (s.area b).draft.commit := by
      have area : t.area b = (s.modArea a fun r => { r with draft := { r.draft with items := is } }).area b := by
        simp only [State.area, areas]
      rw [area]
      exact s.modArea_commit a b _ rfl
    exact ⟨(State.sheetsSound_iff.mp sound).1.mono mode fun b => .inr (commit b), nofun⟩

/-- The item added takes its slot from the pool to the draft (R120, R126). -/
theorem State.PoolSound.addItem {i : SlotNo} (h : s.PoolSound) (a : AreaNo) (hi : s.item i = none) (k : ItemKind) (o : Nat) :
    (s.addItem a i k o).PoolSound := by
  have placed := (h.poolOf a).place hi { kind := k, author := some o, created := s.now, reviewed := none }
  refine (placed.same (t := s.addItem a i k o) (fun _ => rfl) rfl).relist (s := s) (a := a) (fun b hb => ?_) ?_
  · rw [State.addItem, State.modDraft, State.framed_modArea, if_neg hb]; rfl
  · rw [State.addItem, State.modDraft, State.framed_modArea, if_pos rfl]
    show (i :: ((s.area a).draft.items ++ (s.area a).posted.items ++ s.elsewhere a)).Perm
      ((s.area a).draft.items ++ [i] ++ (s.area a).posted.items ++ s.elsewhere a)
    rw [List.append_assoc, List.append_assoc, List.append_assoc]
    exact List.perm_middle.symm

theorem actAddItem_keepsSheets (x : ConsoleNo × AreaNo × ItemKind) (s : State) : (actAddItem s x).Gives s.KeepsSheets := by
  refine .withOperator (fun o => ?_) _
  dsimp only
  split
  · trivial
  · split
    · trivial
    · split
      · trivial
      · split
        · trivial
        · rename_i i free
          have added : s.Prepares { s := s.addItem x.2.1 i x.2.2 o.number, sheets := true } :=
            .ofItems (a := x.2.1) (is := (s.area x.2.1).draft.items ++ [i])
              (fun h => h.addItem x.2.1 (State.lowestFree_some.mp free).1 x.2.2 o.number) rfl rfl
          exact added.finish

/-- The item removed gives its slot back to the pool (R120, R127). -/
theorem State.PoolSound.removeItem {k : Nat} {i : SlotNo} (h : s.PoolSound) (hi : (s.area a).draft.items[k]? = some i) :
    ((s.modDraft a fun d => { d with items := d.items.eraseIdx k }).freeSlot i).PoolSound := by
  obtain ⟨hk, first⟩ := List.getElem?_eq_some_iff.mp hi
  have split : (s.framed a ++ s.elsewhere a).Perm
      (i :: ((s.area a).draft.items.eraseIdx k ++ (s.area a).posted.items ++ s.elsewhere a)) := by
    have drafts := (List.getElem_cons_eraseIdx_perm hk).symm
    rw [first] at drafts
    exact (drafts.append_right _).append_right _
  have freed := ((((h.poolOf a).perm split).same (t := s.modDraft a fun d => { d with items := d.items.eraseIdx k })
    (fun _ => rfl) rfl)).free
  refine freed.relist (s := s) (a := a) (fun b hb => ?_) ?_
  · show (s.modDraft a fun d => { d with items := d.items.eraseIdx k }).framed b = s.framed b
    rw [State.modDraft, State.framed_modArea, if_neg hb]
  · show List.Perm _ ((s.modDraft a fun d => { d with items := d.items.eraseIdx k }).framed a ++ s.elsewhere a)
    rw [State.modDraft, State.framed_modArea, if_pos rfl]

theorem actRemoveItem_keepsSheets (x : ConsoleNo × AreaNo × Nat) (s : State) : (actRemoveItem s x).Gives s.KeepsSheets := by
  refine .withOperator (fun _ => ?_) _
  dsimp only
  split
  · trivial
  · split
    · trivial
    · rename_i i hi
      have removed : s.Prepares
          { s := (s.modDraft x.2.1 fun d => { d with items := d.items.eraseIdx x.2.2 }).freeSlot i, sheets := true } :=
        .ofItems (a := x.2.1) (is := (s.area x.2.1).draft.items.eraseIdx x.2.2) (fun h => h.removeItem hi) rfl rfl
      exact removed.finish

/-! ### Commit and review (R128, R135) -/

theorem actPost_keepsSheets (x : ConsoleNo × AreaNo) (hm : s.mode = .run) : (actPost s x).Gives s.KeepsSheets := by
  have posted (k : Crew) : s.Prepares { s := s.modDraft x.2 (Draft.commitFor k), sheets := true } := by
    refine ⟨(State.SameSheets.modArea x.2 (fun r => { r with draft := r.draft.commitFor k }) s ⟨rfl, rfl⟩).poolSound,
      fun _ => ⟨fun config => ?_, nofun⟩⟩
    exact absurd (hm.symm.trans config) (by decide)
  refine .withOperator (fun o => ?_) _
  split
  · trivial
  · exact (posted o.crew).finish

theorem actReviewItem_keepsSheets (x : ConsoleNo × AreaNo × Nat) (s : State) : (actReviewItem s x).Gives s.KeepsSheets := by
  have reviewed (i : SlotNo) (o : Nat) : s.Prepares { s := s.review i o, sheets := true } :=
    ⟨fun pool => State.poolSound_iff.mpr ((State.poolSound_iff.mp pool).modItem i _),
      fun sound => ⟨(State.sheetsSound_iff.mp sound).1.mono rfl fun _ => .inr rfl, nofun⟩⟩
  refine .withOperator (fun o => ?_) _
  dsimp only
  split
  · trivial
  · split
    · trivial
    · split
      · trivial
      · split
        · trivial
        · exact ((reviewed _ o.number).then (Work.examine_minds x.2.1 _ _)).finish

/-! ### Every command -/

theorem exec_keepsSheets (i : Instr) (s : State) : ∃ t, exec i s = .next t ∧ s.KeepsSheets t := by
  cases i with
  | hardReset strap => exact ⟨_, rfl, s.hardReset_keepsSheets strap⟩
  | receiveCharacter b => exact ⟨_, rfl, (s.link_sheets _).keeps⟩
  | gapTimerExpiry => exact execGapTimerExpiry_keepsSheets s
  | linkError => exact execLinkError_keepsSheets s
  | badKind => exact execBadKind_keepsSheets _ _ _ s
  | clockSecond => exact ⟨_, rfl, State.SheetsStand.keeps (.ofRest rfl rfl rfl rfl rfl rfl rfl)⟩
  | identify | queryPoint | listStanding | queryMeters => exact query_keepsSheets fun _ _ => rfl
  | queryOperator => exact query_keepsSheets fun u n => by cases u.operator? n <;> trivial
  | queryConsole | queryTrip | queryHandover => exact query_keepsSheets fun _ x => by cases x <;> rfl
  | listShelves | readSheet => exact query_keepsSheets fun _ _ => rfl
  | setClock => exact hostRequest_keepsSheets fun u x _ => (u.setClock_sheets x).keeps
  | fetchNotices =>
    exact hostRequest_keepsSheets fun u x _ => State.SheetsStand.keeps (.ofRest rfl rfl rfl rfl rfl rfl rfl)
  | start => exact hostRequest_keepsSheets fun u x hm => actStart_keepsSheets x (config_of_refusal hm)
  | restart => exact hostRequest_keepsSheets fun u _ _ => u.restart_keepsSheets
  | setTiming => exact hostRequest_keepsSheets fun u x _ => actSetTiming_keepsSheets x u
  | setShift => exact hostRequest_keepsSheets fun u x hm => actSetShift_keepsSheets x (config_of_refusal hm)
  | loadPoints => exact hostRequest_keepsSheets fun u x _ => (u.storePoints_sheets x.1 x.2).keeps
  | loadArea => exact hostRequest_keepsSheets fun u x hm => actLoadArea_keepsSheets x (config_of_refusal hm)
  | loadConsole | loadRole | loadSteps =>
    exact hostRequest_keepsSheets fun u x hm => State.DraftsStand.load (.ofAreas rfl rfl rfl rfl) (config_of_refusal hm)
  | loadOrder => exact hostRequest_keepsSheets fun u x hm => actLoadOrder_keepsSheets x (config_of_refusal hm)
  | loadOperator | loadOperatorRemove => exact hostRequest_keepsSheets fun u x _ => actLoadOperator_keepsSheets x u
  | loadTripCode => exact hostRequest_keepsSheets fun u x _ => actLoadTripCode_keepsSheets x u
  | loadTripEntries => exact hostRequest_keepsSheets fun u x _ => actLoadTripEntries_keepsSheets x u
  | setPoint => exact hostRequest_keepsSheets fun u x _ => actSetPoint_keepsSheets x u
  | raise => exact hostRequest_keepsSheets fun u x _ => actRaise_keepsSheets x u
  | clear => exact hostRequest_keepsSheets fun u x _ => actClear_keepsSheets x u
  | clearTripFault =>
    refine hostRequest_keepsSheets fun u x _ => ?_
    split
    · exact (u.modTrip_sheets _).keeps
    · trivial
  | beginHandover => exact hostRequest_keepsSheets fun u x _ => actBeginHandover_keepsSheets x u
  | cancelHandover => exact hostRequest_keepsSheets fun u x _ => actCancelHandover_keepsSheets x u
  | suspendArea => exact hostRequest_keepsSheets fun u x _ => actSuspendArea_keepsSheets x u
  | resumeArea => exact hostRequest_keepsSheets fun u x _ => actResumeArea_keepsSheets x u
  | abortArea => exact hostRequest_keepsSheets fun u x _ => actAbortArea_keepsSheets x u
  | clearAbort => exact hostRequest_keepsSheets fun u x _ => actClearAbort_keepsSheets x u
  | signOn => exact consoleRequest_keepsSheets fun u x _ => actSignOn_keepsSheets x u
  | signOff => exact consoleRequest_keepsSheets fun u x _ => actSignOff_keepsSheets x u
  | silence =>
    refine consoleRequest_keepsSheets fun u x _ => Answer.Gives.withOperator (fun _ => ?_) _
    exact (u.silence_sheets x.1 _).keeps
  | ack => exact consoleRequest_keepsSheets fun u x _ => actAck_keepsSheets x u
  | ackHead => exact consoleRequest_keepsSheets fun u x _ => actAckHead_keepsSheets x u
  | ackArea => exact consoleRequest_keepsSheets fun u x _ => actAckArea_keepsSheets x u
  | shelve => exact consoleRequest_keepsSheets fun u x _ => actShelve_keepsSheets x u
  | unshelve => exact consoleRequest_keepsSheets fun u x _ => actUnshelve_keepsSheets x u
  | takeOut => exact consoleRequest_keepsSheets fun u x _ => actTakeOut_keepsSheets x u
  | returnPoint => exact consoleRequest_keepsSheets fun u x _ => actReturn_keepsSheets x u
  | releaseTrip => exact consoleRequest_keepsSheets fun u x _ => actReleaseTrip_keepsSheets x u
  | lockDraft => exact consoleRequest_keepsSheets fun u x _ => actLockDraft_keepsSheets x u
  | unlockDraft => exact consoleRequest_keepsSheets fun u x _ => actUnlockDraft_keepsSheets x u
  | addItem => exact consoleRequest_keepsSheets fun u x _ => actAddItem_keepsSheets x u
  | removeItem => exact consoleRequest_keepsSheets fun u x _ => actRemoveItem_keepsSheets x u
  | post => exact consoleRequest_keepsSheets fun u x hm => actPost_keepsSheets x hm
  | reviewItem => exact consoleRequest_keepsSheets fun u x _ => actReviewItem_keepsSheets x u
  | confirmStep => exact consoleRequest_keepsSheets fun u x _ => actConfirmStep_keepsSheets x u
  | restartArea => exact consoleRequest_keepsSheets fun u x _ => actRestartArea_keepsSheets x u
  | keyContactChange c k closed => exact execKeyContactChange_keepsSheets c k closed s
  | keyQualifyTimerExpiry c k => exact execKeyQualifyTimerExpiry_keepsSheets c k s
  | keyReleaseTimerExpiry c k => exact execKeyReleaseTimerExpiry_keepsSheets c k s
  | stuckTimerExpiry c k => exact execStuckTimerExpiry_keepsSheets c k s
  | presenceDeadline c => exact execPresenceDeadline_keepsSheets c s
  | p1ResoundDeadline c => exact execP1ResoundDeadline_keepsSheets c s
  | shelfExpired n => exact execShelfExpired_keepsSheets n s
  | decayStep a => exact execDecayStep_keepsSheets a s
  | tripLinesChange lines => exact execTripLinesChange_keepsSheets lines s
  | tripQualifyTimerExpiry => exact execTripQualifyTimerExpiry_keepsSheets s
  | tripReleaseTimerExpiry => exact execTripReleaseTimerExpiry_keepsSheets s
  | waitDeadline c => exact execWaitDeadline_keepsSheets c s
  | tripHoldDeadline c => exact execTripHoldDeadline_keepsSheets c s
  | stepTimeout a => exact execStepTimeout_keepsSheets a s
  | handoverHoldDeadline a => exact execHandoverHoldDeadline_keepsSheets a s

/-! ### The statement -/

theorem step_keepsSheets (e : step s = .next t) : s.KeepsSheets t := by
  unfold step at e
  split at e
  · cases e; exact .refl s
  · rename_i i rest _
    obtain ⟨v, hv, kept⟩ := exec_keepsSheets i { s with pending := rest }
    cases hv.symm.trans e
    exact (s.pending_sheets rest).keeps.trans kept

/-- Settles O7: every command leaves what R129 reads, has the sheet store examine, withdraws a commit, or is taken in CONFIG; and
it moves slots between the pool and the frames one for one. -/
theorem poolRulesKept : Obligations.PoolRulesKept := by
  unfold Obligations.PoolRulesKept
  intro s t e
  have kept := step_keepsSheets e
  exact ⟨kept.pool, kept.waits⟩

end Sys2Proof.Machine

/-!
The handover procedure's requests and deadlines (chapter 8): confirmation and hold (O54), halting and restarting (O55).
-/

namespace Sys2Proof.Machine

variable {s t u : State} {a : AreaNo} {p : Position} {x y : Option Deadline} {h : Handover}

/-! ### Deadlines and the current step -/

theorem State.due_of_reached {d : Deadline} (time : d.time ≤ s.clock.count) (since : d.since ≤ s.clock.timebase) :
    s.due d = true := by simp [State.due, State.now, time, since]

theorem State.stepKind?_of_running (hr : (s.area a).handover = .running p x y) :
    s.stepKind? a = some (s.stepEntry p.index).kind := by simp [State.stepKind?, hr, Handover.position?]

theorem State.ordinal_of_running (hr : (s.area a).handover = .running p x y) : s.ordinal a = p.ordinal := by
  simp [State.ordinal, hr, Handover.position?]

/-! ### Confirmation and hold -/

/-- The operator of the duty crew confirms a CONFIRM_OUT step, one of the incoming crew a CONFIRM_IN step (R150). -/
def State.Confirms (s : State) (c : ConsoleNo) (a : AreaNo) (o : Operator) (k : StepKind) : Prop :=
  (k = .confirmOut ∧ s.permitArea c .confirm a false false = .ok o ∧ o.crew = (s.area a).duty) ∨
    (k = .confirmIn ∧ s.permitArea c .confirm a false true = .ok o ∧ s.mill.incoming = some o.crew)

/-- CONFIRM_STEP of the right crew is permitted at the current step, and passes its state check. -/
theorem State.Confirms.permitted {c : ConsoleNo} {o : Operator} (hr : (s.area a).handover = .running p x y)
    (hc : s.Confirms c a o (s.stepEntry p.index).kind) :
    s.permitArea c .confirm a false (s.confirmSense a) = .ok o ∧ s.mayConfirm a o.crew = true := by
  simp only [State.confirmSense, State.mayConfirm, State.stepKind?_of_running hr, hr, Handover.isRunning]
  rcases hc with ⟨hk, permitted, hcrew⟩ | ⟨hk, permitted, hcrew⟩
  · rw [hk, hcrew]
    exact ⟨permitted, by simp⟩
  · rw [hk, hcrew]
    exact ⟨permitted, by simp⟩

theorem actConfirmStep_completes {c : ConsoleNo} {o : Operator} (hr : (s.area a).handover = .running p x y)
    (hc : s.Confirms c a o (s.stepEntry p.index).kind) :
    ∃ t, actConfirmStep s (c, a) = taken t [byte p.ordinal, byte (t.area a).handover.code] ∧ s.StepCompletes t a p := by
  obtain ⟨permitted, may⟩ := hc.permitted hr
  refine ⟨_, ?_, Work.completeStep_completes hr false true⟩
  simp [actConfirmStep, permitted, may, State.ordinal_of_running hr, State.handoverByte]

/-- Settles O54: the work of a completed step is `Work.completeStep_completes`, asked for by a confirmation and by a hold
deadline. -/
theorem stepCompletesOnConfirmationOrHold : Obligations.StepCompletesOnConfirmationOrHold := by
  unfold Obligations.StepCompletesOnConfirmationOrHold
  refine ⟨?_, ?_⟩
  · intro tag c a o p x y s u q ht hm hr hc
    obtain ⟨t, e, completes⟩ := actConfirmStep_completes hr hc
    refine ⟨t, ?_, completes⟩
    calc exec (.confirmStep tag q) s
        = .next (u.answer 0x51 tag (actConfirmStep u (c, a))) :=
          consoleRequest_at ht (parseConsoleArea_bytes c a) hm
      _ = .next (t.replyDone 0x51 tag [byte p.ordinal, byte (t.area a).handover.code]) := by rw [e]; rfl
  · intro a p x d s hr time since
    refine ⟨_, ?_, Work.completeStep_completes hr false true⟩
    show execHandoverHoldDeadline a s = _
    simp only [execHandoverHoldDeadline, hr, State.due_of_reached time since, if_true]

/-! ### Halting -/

/-- What the halt of area `a`, in progress at `p` in `s`, leaves in `t` (R151, R152). -/
structure State.Halts (s t : State) (a : AreaNo) (p : Position) (why : AbortReason) : Prop where
  settles : (s.modArea a fun r => { r with abort := some (s.abortRecord a why p.ordinal) }).Settles t fun b =>
    if b = a then some ([.handoverAborted a why p.ordinal], .halted p) else none
  quiet : s.noCommits →
    (t.mill = s.mill ∧ ∀ b, b ≠ a → (t.area b).handover = (s.area b).handover) ∧ (t.area a).handover = .halted p

/-- A RUNNING or a SUSPENDED area, at `p`. -/
def Handover.InProgressAt (h : Handover) (p : Position) : Prop :=
  (∃ x y, h = .running p x y) ∨ ∃ x y r, h = .suspended p x y r

theorem Work.halt_eq {why : AbortReason} (hp : (s.area a).handover.InProgressAt p) :
    Work.halt a why { s } = Work.mk ((s.modArea a fun r => { r with handover := .halted p }).modArea a fun r =>
      { r with abort := some (s.abortRecord a why p.ordinal) }) [.handoverAborted a why p.ordinal] true false true := by
  unfold Work.halt
  rcases hp with ⟨x, y, e⟩ | ⟨x, y, r, e⟩ <;> rw [e] <;> rfl

/-- Where no draft waits committed and no shift changes, an event that has written area `a`'s record as `r` leaves its handover,
the mill and the other areas' handovers so. -/
theorem Work.finish_writes {w : Work} {r : Area} (shift : w.shift = false) (mill : w.s.mill = s.mill)
    (area : ∀ b, w.s.area b = if b = a then r else s.area b) (commit : r.draft.commit = (s.area a).draft.commit)
    (hn : s.noCommits) : (w.finish.mill = s.mill ∧ ∀ b, b ≠ a → (w.finish.area b).handover = (s.area b).handover) ∧
      (w.finish.area a).handover = r.handover := by
  have quiet : w.Quiet w.finish := w.finish_quiet [] shift fun b => by
    rw [area b]
    split
    · exact commit.trans (hn a)
    · exact hn b
  refine ⟨⟨quiet.mill.trans mill, fun b hb => ?_⟩, ?_⟩
  · rw [quiet.area b, area b, if_neg hb]
  · rw [quiet.area a, area a, if_pos rfl]

theorem Work.halt_halts {why : AbortReason} (hp : (s.area a).handover.InProgressAt p) :
    s.Halts (Work.halt a why { s }).finish a p why := by
  refine ⟨Work.halt_settles hp, fun hn => ?_⟩
  rw [Work.halt_eq hp]
  refine Work.finish_writes (r := { s.area a with handover := .halted p, abort := some (s.abortRecord a why p.ordinal) })
    rfl rfl (fun b => ?_) rfl hn
  by_cases hb : b = a
  · subst hb; simp
  · simp [hb]

/-! ### The requests on one area -/

theorem actAbortArea_of_inProgress (configured : (s.area a).config.configured) (hp : (s.area a).handover.InProgressAt p) :
    actAbortArea s a = taken (Work.halt a .hostAbort { s }).finish := by
  rcases hp with ⟨x, y, e⟩ | ⟨x, y, r, e⟩ <;>
    simp [actAbortArea, configured, e, Handover.isHalted, Handover.inProgress]

theorem actClearAbort_eq (s : State) (a : AreaNo) : actClearAbort s a =
    if (s.area a).abort = none then refuse .already else taken (s.modArea a fun r => { r with abort := none }) := by
  simp [actClearAbort]

theorem actRestartArea_of_halted {c : ConsoleNo} {o : Operator} (permitted : s.permitArea c .restart a false false = .ok o)
    (hp : (s.area a).handover = .halted p) :
    actRestartArea s (c, a) = taken (Work.begin a { s }).finish ((Work.begin a { s }).finish.handoverByte a) := by
  simp [actRestartArea, permitted, hp, Handover.isHalted]

/-- Settles O55: the halts are `Work.halt_halts`, and a restart is the beginning of a list, `Work.begin_comes`. -/
theorem areaHaltsAndRestarts : Obligations.AreaHaltsAndRestarts := by
  unfold Obligations.AreaHaltsAndRestarts
  refine ⟨?_, ?_, ?_, ?_⟩
  · intro a p d y s hr time since
    obtain ⟨settles, quiet⟩ := Work.halt_halts (why := .stepTimeout) (.inl ⟨_, _, hr⟩)
    refine ⟨_, ?_, settles, quiet⟩
    show execStepTimeout a s = _
    simp only [execStepTimeout, hr, State.due_of_reached time since, if_true]
  · intro tag a p s u ht hm configured hp
    obtain ⟨settles, quiet⟩ := Work.halt_halts (why := .hostAbort) hp
    refine ⟨_, ?_, settles, quiet⟩
    calc exec (.abortArea tag [byte a.val]) s
        = .next (u.answer 0x65 tag (actAbortArea u a)) := hostRequest_read ht (parseAreaOnly_byte a) (by rw [hm]; rfl)
      _ = _ := by rw [actAbortArea_of_inProgress configured hp]; rfl
  · intro tag a s u ht
    calc exec (.clearAbort tag [byte a.val]) s
        = .next (u.answer 0x66 tag (actClearAbort u a)) := hostRequest_read ht (parseAreaOnly_byte a) (refusal_both _)
      _ = _ := by rw [actClearAbort_eq]; split <;> rfl
  · intro tag c a o p s u q ht hm permitted hp
    refine ⟨_, ?_, Work.begin_settles a u, fun h begins => (Work.begin_comes (w := { s := u }) begins).finish rfl []⟩
    calc exec (.restartArea tag q) s
        = .next (u.answer 0x52 tag (actRestartArea u (c, a))) := consoleRequest_at ht (parseConsoleArea_bytes c a) hm
      _ = _ := by rw [actRestartArea_of_halted permitted hp]; rfl

/-! ### Suspending and resuming -/

/-- With REQUEST a reason stands. -/
theorem State.reasonsNow_request (s : State) (a : AreaNo) : (s.reasonsNow a true).isEmpty = false := by
  simp [State.reasonsNow, Reasons.isEmpty]

theorem Reasons.isEmpty_false {r : Reasons} (h : r ≠ ⟨false, false, false, false⟩) : r.isEmpty = false :=
  Bool.eq_false_iff.mpr fun e => h (Reasons.isEmpty_iff.mp e)

theorem State.area_modHandover (s : State) (a b : AreaNo) (h : Handover) :
    (s.modArea a fun r => { r with handover := h }).area b = if b = a then { s.area a with handover := h } else s.area b := by
  simp

/-- The area's handover written as `h` by a change of the set, and nothing more (R149). -/
theorem Work.finish_turned {l : List NoticeKind} {sheets : Bool} (hn : s.noCommits) :
    let t := (Work.mk (s.modArea a fun r => { r with handover := h }) l false false sheets).finish
    (t.mill = s.mill ∧ ∀ b, b ≠ a → (t.area b).handover = (s.area b).handover) ∧ (t.area a).handover = h :=
  Work.finish_writes (r := { s.area a with handover := h }) rfl rfl (s.area_modHandover a · h) rfl hn

/-- A RUNNING area with a reason is SUSPENDED, the seconds its deadlines had left saved (R149). -/
theorem Work.setReasons_suspends {r : Reasons} (hr : (s.area a).handover = .running p x y) (he : r.isEmpty = false) :
    Work.setReasons a r { s } = Work.mk (s.modArea a fun c =>
      { c with handover := .suspended p (x.map s.remaining) (y.map s.remaining) r }) [.handoverSuspended a r] false false true := by
  simp only [Work.setReasons, hr, he]
  rfl

/-- A SUSPENDED area with a reason has its set (R149). -/
theorem Work.setReasons_holds {x y : Option Nat} {q r : Reasons} (hr : (s.area a).handover = .suspended p x y q)
    (he : r.isEmpty = false) : Work.setReasons a r { s } =
      Work.mk (s.modArea a fun c => { c with handover := .suspended p x y r }) [] false false false := by
  simp only [Work.setReasons, hr, he]
  rfl

/-- A SUSPENDED area without a reason is RUNNING again, and its step is examined (R149). -/
theorem Work.setReasons_resumes {x y : Option Nat} {q r : Reasons} (hr : (s.area a).handover = .suspended p x y q)
    (he : r.isEmpty) : Work.setReasons a r { s } = Work.examine a (fun _ => true)
      (Work.mk (s.modArea a fun c => { c with handover := .running p (x.map s.resumeIn) (y.map s.resumeIn) })
        [.handoverResumed a] false false true) := by
  simp only [Work.setReasons, hr, he, if_true]
  rfl

/-- Area `a`'s handover written as the RUNNING `h`: what the steps read stands. -/
theorem State.modHandover_sameSteps (s : State) (a : AreaNo) (h : Handover) :
    s.SameSteps (s.modArea a fun r => { r with handover := h }) a :=
  (Work.mk s [] false false false).setHandover_sameSteps h

/-- What a resumed area at a condition step whose condition holds comes to (R142, R149). -/
theorem Work.resume_leads {l : List NoticeKind} {sheets : Bool} (hh : h = .running p x y) :
    s.StepLeads (((Work.mk (s.modArea a fun r => { r with handover := h }) l false false sheets).completeStep a).finish) a p := by
  generalize hw : Work.mk (s.modArea a fun r => { r with handover := h }) l false false sheets = w
  have same : s.SameSteps w.s a := hw ▸ s.modHandover_sameSteps a h
  have hr : (w.s.area a).handover = .running p x y := by subst hw; simp [hh]
  have not_done : ∀ q, h ≠ .done q := fun q e => by rw [hh] at e; cases e
  have set : (Work.mk s [] false false false).Comes w a h := by
    obtain ⟨rest, other, rests, done⟩ := (Work.mk s [] false false false).setHandover_comes (a := a) h not_done
    subst hw
    exact ⟨rest, other, rests, done⟩
  constructor
  · intro n k hl hn enters
    exact (set.after not_done (Work.advance_comes hr same (Nat.le_of_lt_succ hn) (by rw [if_neg (by simp [hl])]; exact enters))).finish
      rfl []
  · intro hl
    exact (set.after not_done (Work.advance_comes (m := 31) (n := 0) hr same (by omega) (by rw [if_pos hl]))).finish rfl []

theorem actSuspendArea_taken (configured : (s.area a).config.configured) (start : (s.area a).handover.inProgress)
    (unasked : (s.area a).handover.requested = false) :
    actSuspendArea s a = taken (s.request a true) ((s.request a true).handoverByte a) := by
  simp [actSuspendArea, configured, start, unasked]

theorem actResumeArea_taken (configured : (s.area a).config.configured) (start : (s.area a).handover.inProgress)
    (asked : (s.area a).handover.requested) :
    actResumeArea s a = taken (s.request a false) ((s.request a false).handoverByte a) := by
  simp [actResumeArea, configured, start, asked]

/-- Settles O53: `Work.setReasons` case by case, and where a resumed area's condition holds `Work.resume_leads`. -/
theorem requestSuspendsAndResumes : Obligations.RequestSuspendsAndResumes := by
  unfold Obligations.RequestSuspendsAndResumes
  intro tag a s u hm configured others turns left back
  refine ⟨fun ht p hp => ?_, fun ht p x y r hp asked => ?_⟩
  · have start : (u.area a).handover.inProgress ∧ (u.area a).handover.requested = false := by
      rcases hp with ⟨x, y, e⟩ | ⟨x, y, r, e, unasked⟩ <;> rw [e]
      · exact ⟨rfl, rfl⟩
      · exact ⟨rfl, unasked⟩
    refine ⟨u.request a true, ?_, u.request_settles a true, fun hn => ⟨?_, fun x y e => ?_, fun x y r e => ?_⟩⟩
    · calc exec (.suspendArea tag [byte a.val]) s
          = .next (u.answer 0x63 tag (actSuspendArea u a)) := hostRequest_read ht (parseAreaOnly_byte a) (by rw [hm]; rfl)
        _ = _ := by rw [actSuspendArea_taken configured start.1 start.2]; rfl
    · rcases hp with ⟨x, y, e⟩ | ⟨x, y, r, e, unasked⟩
      · rw [State.request, Work.setReasons_suspends e (u.reasonsNow_request a)]
        exact (Work.finish_turned hn).1
      · rw [State.request, Work.setReasons_holds e (u.reasonsNow_request a)]
        exact (Work.finish_turned hn).1
    · rw [State.request, Work.setReasons_suspends e (u.reasonsNow_request a)]
      exact (Work.finish_turned hn).2
    · rw [State.request, Work.setReasons_holds e (u.reasonsNow_request a)]
      exact (Work.finish_turned hn).2
  · have start : (u.area a).handover.inProgress ∧ (u.area a).handover.requested := by
      rw [hp]
      exact ⟨rfl, asked⟩
    have resumes (none : u.reasonsNow a false = ⟨false, false, false, false⟩) : u.request a false =
        (Work.examine a (fun _ => true) (Work.mk (u.modArea a fun c =>
          { c with handover := .running p (x.map u.resumeIn) (y.map u.resumeIn) }) [.handoverResumed a] false false true)).finish := by
      rw [State.request, Work.setReasons_resumes hp (Reasons.isEmpty_iff.mpr none)]
    have same := u.modHandover_sameSteps a (.running p (x.map u.resumeIn) (y.map u.resumeIn))
    have running := (u.area_modHandover a a (.running p (x.map u.resumeIn) (y.map u.resumeIn))).trans (if_pos rfl)
    refine ⟨u.request a false, ?_, u.request_settles a false, fun hn => ⟨fun none waits => ?_, fun some => ?_⟩, fun none holds => ?_⟩
    · calc exec (.resumeArea tag [byte a.val]) s
          = .next (u.answer 0x64 tag (actResumeArea u a)) := hostRequest_read ht (parseAreaOnly_byte a) (by rw [hm]; rfl)
        _ = _ := by rw [actResumeArea_taken configured start.1 start.2]; rfl
    · rw [resumes none, Work.examine_eq (congrArg Area.handover running), same.stepEntry,
        if_neg (by rwa [Bool.true_and, State.conditionMet_iff, same.holds])]
      exact Work.finish_turned hn
    · rw [State.request, Work.setReasons_holds hp (Reasons.isEmpty_false some)]
      exact Work.finish_turned hn
    · rw [resumes none, Work.examine_eq (congrArg Area.handover running), same.stepEntry,
        if_pos (by rwa [Bool.true_and, State.conditionMet_iff, same.holds])]
      exact Work.resume_leads rfl

end Sys2Proof.Machine

/-!
Beginning and cancelling the handover (O52): what the beginnings of several areas' lists come to, one after the other, and the
event that ends with every area STEADY.
-/

namespace Sys2Proof.Machine

variable {s t u : State} {w w' : Work} {a : AreaNo} {h : Handover}

/-! ### Where an area comes to rest, read from a state that agrees -/

theorem State.EntersTo.congr (same : s.SameSteps t a) {n : Nat} {p : Position} (e : s.EntersTo a n p h) :
    t.EntersTo a n p h := by
  induction e with
  | rests p waits =>
    rw [← same.entered]
    exact .rests p (by rwa [same.stepEntry, same.holds])
  | done p holds last => exact .done p (by rwa [same.stepEntry, same.holds]) (by rwa [same.stepEntry])
  | passes n p x holds last more ih =>
    refine .passes n p x (by rwa [same.stepEntry, same.holds]) (by rwa [same.stepEntry]) ?_
    rw [same.stepEntry]
    exact ih

theorem State.BeginsTo.congr (same : s.SameSteps t a) (config : (t.area a).config = (s.area a).config)
    (reasons : t.reasonsNow a false = s.reasonsNow a false) (b : s.BeginsTo a h) : t.BeginsTo a h := by
  obtain ⟨runs, held⟩ := b
  refine ⟨fun none => ?_, fun some => ?_⟩
  · obtain ⟨n, hn, e⟩ := runs (reasons ▸ none)
    exact ⟨n, hn, config ▸ e.congr same⟩
  · rw [config, reasons, same.entered]
    exact held (reasons ▸ some)

/-- The work of one area's steps leaves what the other areas' beginnings read. -/
theorem Work.begin_beginsTo {b : AreaNo} {k : Handover} (c : w.Comes (w.begin a) a h) (hb : b ≠ a) (e : w.s.BeginsTo b k) :
    (w.begin a).s.BeginsTo b k := by
  obtain ⟨l, acts, -⟩ := w.begin_turns a
  have rest := c.rest
  refine e.congr ?_ (acts.acts.frames.config b) (acts.acts.reasonsNow b false)
  exact ⟨by rw [rest], by rw [rest], by rw [rest], by rw [rest], acts.acts.mill.2.2, acts.acts.mill.1, by rw [rest], by rw [rest],
    by rw [c.other b hb]⟩

/-! ### One list begun, DONE or not -/

/-- What the work of area `a`'s steps, ended at `h`, leaves: the duty crew, the count of areas outstanding and the shift change
follow whether `h` is DONE (R146). -/
structure Work.Ends (w w' : Work) (a : AreaNo) (h : Handover) : Prop where
  handover : (w'.s.area a).handover = h
  duty     : (w'.s.area a).duty = if h.isDone then w.s.mill.incoming.getD w.s.mill.duty else (w.s.area a).duty
  mill     : w'.s.mill = { w.s.mill with outstanding := w.s.mill.outstanding - if h.isDone then 1 else 0 }
  shift    : w'.shift = (w.shift || (h.isDone && w.s.mill.outstanding - 1 == 0))
  config   : ∀ b, (w'.s.area b).config = (w.s.area b).config
  other    : ∀ b, b ≠ a → (w'.s.area b).handover = (w.s.area b).handover ∧ (w'.s.area b).duty = (w.s.area b).duty

theorem Work.Comes.ends (c : w.Comes w' a h) : w.Ends w' a h := by
  have other (b : AreaNo) (hb : b ≠ a) :
      (w'.s.area b).handover = (w.s.area b).handover ∧ (w'.s.area b).duty = (w.s.area b).duty := by
    rw [c.other b hb]
    exact ⟨rfl, rfl⟩
  have config (own : (w'.s.area a).config = (w.s.area a).config) (b : AreaNo) :
      (w'.s.area b).config = (w.s.area b).config := by
    by_cases hb : b = a
    · rw [hb, own]
    · rw [c.other b hb]
  by_cases hd : ∃ q, h = .done q
  · obtain ⟨q, rfl⟩ := hd
    obtain ⟨area, mill, shift⟩ := c.done q rfl
    exact ⟨by rw [area], by rw [area]; rfl, mill, shift, config (by rw [area]), other⟩
  · have undone : h.isDone = false := by
      cases h with
      | done q => exact absurd ⟨q, rfl⟩ hd
      | steady | running | suspended | halted => rfl
    obtain ⟨area, mill, shift⟩ := c.rests fun q e => hd ⟨q, e⟩
    exact ⟨by rw [area], by rw [area, undone]; rfl, by rw [mill, undone]; rfl, by rw [shift, undone]; simp,
      config (by rw [area]), other⟩

/-! ### The lists begun one after the other -/

/-- The areas `as` have begun their lists and rest at `h`, from the work `w` to the work `w'`. -/
structure Work.Begins (h : AreaNo → Handover) (as : List AreaNo) (w w' : Work) : Prop where
  handover : ∀ b, (w'.s.area b).handover = if b ∈ as then h b else (w.s.area b).handover
  duty     : ∀ b, (w'.s.area b).duty =
    if b ∈ as ∧ (h b).isDone then w.s.mill.incoming.getD w.s.mill.duty else (w.s.area b).duty
  commit   : ∀ b, (w'.s.area b).draft.commit = (w.s.area b).draft.commit
  mill     : w'.s.mill = { w.s.mill with outstanding := w.s.mill.outstanding - as.countP fun a => (h a).isDone }
  stays    : as.countP (fun a => (h a).isDone) < w.s.mill.outstanding → w'.shift = w.shift
  shift    : w.shift ∨ 0 < w.s.mill.outstanding ∧ as.countP (fun a => (h a).isDone) = w.s.mill.outstanding → w'.shift

theorem Work.begins (h : AreaNo → Handover) {as : List AreaNo} (nodup : as.Nodup) (hw : ∀ a ∈ as, w.s.BeginsTo a (h a)) :
    Work.Begins h as w (as.foldl (fun w a => w.begin a) w) := by
  induction as generalizing w with
  | nil => exact ⟨fun _ => rfl, fun _ => rfl, fun _ => rfl, rfl, fun _ => rfl, fun e => e.resolve_right fun x => by simp at x; omega⟩
  | cons a as ih =>
    obtain ⟨new, nodup⟩ := List.nodup_cons.mp nodup
    have comes := Work.begin_comes (hw a List.mem_cons_self)
    have ends := comes.ends
    obtain ⟨l, acts, -⟩ := w.begin_turns a
    have other {b : AreaNo} (hb : b ∈ as) : b ≠ a := fun e => new (e ▸ hb)
    have rest := ih (w := w.begin a) nodup fun b hb => Work.begin_beginsTo comes (other hb) (hw b (List.mem_cons_of_mem a hb))
    rw [List.foldl_cons]
    have outstanding : (w.begin a).s.mill.outstanding = w.s.mill.outstanding - if (h a).isDone then 1 else 0 := by rw [ends.mill]
    have count : (a :: as).countP (fun a => (h a).isDone) = as.countP (fun a => (h a).isDone) + if (h a).isDone then 1 else 0 :=
      List.countP_cons
    refine ⟨fun b => ?_, fun b => ?_, fun b => ?_, ?_, fun less => ?_, fun all => ?_⟩
    · rw [rest.handover b]
      by_cases hb : b = a
      · subst hb
        rw [if_neg new, if_pos List.mem_cons_self, ends.handover]
      · simp only [List.mem_cons, hb, false_or, comes.other b hb]
    · rw [rest.duty b, acts.acts.frames.crew]
      by_cases hb : b = a
      · subst hb
        rw [if_neg fun e => new e.1, ends.duty]
        simp only [List.mem_cons_self, true_and]
      · simp only [List.mem_cons, hb, false_or, comes.other b hb]
    · rw [rest.commit b, (acts.acts.kept b).2.1]
    · rw [rest.mill, ends.mill, count]
      simp only [Nat.sub_sub, Nat.add_comm]
    · rw [count] at less
      rw [rest.stays (by rw [outstanding]; omega), ends.shift]
      cases hd : (h a).isDone with
      | false => simp
      | true =>
        rw [hd] at less
        have more : w.s.mill.outstanding - 1 ≠ 0 := by simp only [if_true] at less; omega
        simp [more]
    · refine rest.shift ?_
      rw [outstanding, ends.shift]
      rw [count] at all
      rcases all with already | ⟨pos, all⟩
      · exact .inl (by simp [already])
      · cases hd : (h a).isDone with
        | false =>
          simp only [hd, Bool.false_eq_true, if_false, Nat.add_zero, Nat.sub_zero] at all ⊢
          exact .inr ⟨pos, all⟩
        | true =>
          simp only [hd, if_true] at all ⊢
          by_cases one : w.s.mill.outstanding - 1 = 0
          · exact .inl (by simp [one])
          · exact .inr ⟨Nat.pos_of_ne_zero one, by omega⟩

/-! ### BEGIN_HANDOVER -/

theorem State.mem_configuredAreas {b : AreaNo} : b ∈ s.configuredAreas ↔ (s.area b).config.configured := by
  simp [State.configuredAreas, mem_allAreas]

theorem State.configuredAreas_length (s : State) :
    s.configuredAreas.length = (List.finRange 32).countP fun a => (s.area a).config.configured :=
  (List.countP_eq_length_filter ..).symm

/-- The shift change of a handover opened for the crew `k` (R154). -/
theorem State.Changed.ofOpen {k : Crew} (c : State.Changed (s.openMill k) t) :
    t.mill = { shift := if s.mill.shift = 65535 then 0 else s.mill.shift + 1
               duty := k, incoming := none, outstanding := 0 } ∧
      ∀ b, (t.area b).handover = .steady ∧ (t.area b).duty = k := ⟨c.mill, c.area⟩

theorem State.beginHandover_none (k : Crew) (none : s.configuredAreas = []) :
    State.Changed (s.openMill k) (s.beginHandover k) := by
  simp only [State.beginHandover, none, List.foldl_nil, List.isEmpty_nil]
  exact Work.finish_changed (w := Work.mk (s.openMill k) [] true true true) rfl []

/-- What BEGIN_HANDOVER comes to where some area is configured, each resting at `h` (R143, R146). -/
theorem State.beginHandover_comes (k : Crew) {h : AreaNo → Handover} (some : s.configuredAreas ≠ [])
    (hs : ∀ a, (s.area a).config.configured → (s.openMill k).BeginsTo a (h a)) :
    let done := s.configuredAreas.countP fun a => (h a).isDone
    (done < s.configuredAreas.length → s.noCommits →
      (s.beginHandover k).mill = { (s.openMill k).mill with outstanding := s.configuredAreas.length - done } ∧
        ∀ a, ((s.beginHandover k).area a).handover =
            (if (s.area a).config.configured then h a else (s.area a).handover) ∧
          ((s.beginHandover k).area a).duty =
            if (s.area a).config.configured ∧ (h a).isDone then k else (s.area a).duty) ∧
    (done = s.configuredAreas.length → State.Changed (s.openMill k) (s.beginHandover k)) := by
  have sorted : s.configuredAreas.Pairwise (· < ·) := allAreas_sorted.filter _
  have begins := Work.begins (w := Work.mk (s.openMill k) [] true s.configuredAreas.isEmpty true) h (sorted.imp Fin.ne_of_lt)
    fun a ha => hs a (State.mem_configuredAreas.mp ha)
  have open_ : s.configuredAreas.isEmpty = false := by simpa using some
  unfold State.beginHandover
  dsimp only
  generalize s.configuredAreas.foldl (fun w a => w.begin a) (Work.mk (s.openMill k) [] true s.configuredAreas.isEmpty true) = w
    at begins ⊢
  refine ⟨fun less hn => ?_, fun all => ?_⟩
  · have quiet := w.finish_quiet [] ((begins.stays less).trans open_) fun b => (begins.commit b).trans (hn b)
    refine ⟨quiet.mill.trans begins.mill, fun a => ?_⟩
    rw [quiet.area a]
    refine ⟨(begins.handover a).trans ?_, (begins.duty a).trans ?_⟩
    · simp only [State.mem_configuredAreas]; rfl
    · simp only [State.mem_configuredAreas]; rfl
  · have changed := w.finish_changed (begins.shift (.inr ⟨List.length_pos_iff.mpr some, all⟩)) []
    have mill := begins.mill
    constructor
    · rw [changed.mill, State.nextShift, State.nextShift, mill]
    · have area := changed.area
      rw [mill] at area
      exact area

/-! ### CANCEL_HANDOVER -/

/-- An event without a shift change that leaves every area STEADY: the handovers stand to its end. -/
theorem Work.finish_steady (steady : ∀ b, (w.s.area b).handover = .steady) (shift : w.shift = false) :
    w.s.SameHandovers w.finish := by
  have quiet := w.settle_quiet shift
  have settled : w.s.SameHandovers w.settle := ⟨quiet.mill, fun b => by rw [quiet.area b]; exact ⟨rfl, rfl⟩⟩
  show w.s.SameHandovers (if w.sheets then w.settle.examineSheets else w.settle)
  split
  · exact settled.trans (State.examineSheets_same fun b => ((settled.2 b).1).trans (steady b))
  · exact settled

theorem actCancelHandover_refused (x : Unit)
    (h : s.mill.incoming = none ∨ ∃ a p, (s.area a).config.configured ∧ (s.area a).handover = .done p) :
    actCancelHandover s x = refuse .wrongState := by
  unfold actCancelHandover
  rcases h with closed | ⟨a, p, configured, done⟩
  · simp [Mill.isOpen, closed]
  · have found : (s.configuredAreas.any fun a => (s.area a).handover.isDone) = true :=
      List.any_eq_true.mpr ⟨a, State.mem_configuredAreas.mpr configured, by rw [done]; rfl⟩
    rw [found, if_pos rfl, ite_self]

theorem actCancelHandover_taken (x : Unit) (isOpen : s.mill.incoming ≠ none)
    (undone : ∀ a p, (s.area a).config.configured → (s.area a).handover ≠ .done p) :
    actCancelHandover s x = taken (Work.mk s.closeHandover [] true false true).finish := by
  have found : (s.configuredAreas.any fun a => (s.area a).handover.isDone) = false := by
    refine List.any_eq_false.mpr fun a ha hd => ?_
    cases e : (s.area a).handover with
    | done p => exact undone a p (State.mem_configuredAreas.mp ha) e
    | steady | running | suspended | halted => rw [e] at hd; cases hd
  have isOpen : s.mill.isOpen = true := Option.isSome_iff_ne_none.mpr isOpen
  simp [actCancelHandover, isOpen, found]

/-- Settles O52: the beginnings by `Work.begins` over the configured areas, the cancelling by `Work.finish_steady`. -/
theorem handoverOpensAndCloses : Obligations.HandoverOpensAndCloses := by
  unfold Obligations.HandoverOpensAndCloses
  intro tag s u hm
  refine ⟨fun k ht => ?_, fun ht => ?_⟩
  · have answered : exec (.beginHandover tag [byte k.code]) s = .next (u.answer 0x61 tag (actBeginHandover u k)) :=
      hostRequest_read ht (parseCrew_byte k) (by rw [hm]; rfl)
    refine ⟨fun isOpen => ?_, fun closed same => ?_, fun closed differs => ?_⟩
    · have isOpen : u.mill.isOpen = true := Option.isSome_iff_ne_none.mpr isOpen
      rw [answered, actBeginHandover, if_pos isOpen]
      rfl
    · rw [answered, actBeginHandover, if_neg (by simp [Mill.isOpen, closed]), if_pos same]
      rfl
    · intro count mill
      have opened : ({ u with mill } : State) = u.openMill k := by
        rw [State.openMill, State.configuredAreas_length]
      have length : u.configuredAreas.length = count := u.configuredAreas_length
      rw [opened]
      refine ⟨u.beginHandover k, ?_, u.beginHandover_settles k, fun zero => ?_, fun h hs => ?_⟩
      · rw [answered, actBeginHandover, if_neg (by simp [Mill.isOpen, closed]), if_neg differs]
        rfl
      · have changed := (u.beginHandover_none k (List.length_eq_zero_iff.mp (length.trans zero))).ofOpen
        exact ⟨changed.1, fun b => (changed.2 b).2⟩
      · intro done dones
        have counted : u.configuredAreas.countP (fun a => (h a).isDone) = dones := by
          rw [State.configuredAreas, List.countP_filter]
          exact List.countP_congr fun a _ => by rw [Bool.and_comm]
        have comes (some : 0 < count) := u.beginHandover_comes k (List.length_pos_iff.mp (length ▸ some)) hs
        refine ⟨fun less hn => ?_, fun some all => ?_⟩
        · obtain ⟨mill', area⟩ := (comes (by omega)).1 (by rw [counted, length]; exact less) hn
          refine ⟨?_, fun a => ⟨(area a).1, (area a).2.trans ?_⟩⟩
          · rw [mill', counted, length, ← opened]
          · simp only [done, Bool.and_eq_true]
        · exact ((comes some).2 (by rw [counted, length, all])).ofOpen
  · have answered : exec (.cancelHandover tag []) s = .next (u.answer 0x62 tag (actCancelHandover u ())) :=
      hostRequest_read ht rfl (by rw [hm]; rfl)
    refine ⟨fun closed => ?_, fun a p configured done => ?_, fun isOpen undone => ?_⟩
    · rw [answered, actCancelHandover_refused () (.inl closed)]
      rfl
    · rw [answered, actCancelHandover_refused () (.inr ⟨a, p, configured, done⟩)]
      rfl
    · have stands : u.closeHandover.SameHandovers (Work.mk u.closeHandover [] true false true).finish :=
        Work.finish_steady (w := Work.mk u.closeHandover [] true false true)
          (fun b => by rw [State.area_closeHandover]) rfl
      refine ⟨_, ?_, (Work.Of.start u.closeHandover true false true).finish, stands.1, fun a => ?_⟩
      · rw [answered, actCancelHandover_taken () isOpen undone]
        rfl
      · obtain ⟨handover, duty⟩ := stands.2 a
        rw [State.area_closeHandover] at handover duty
        exact ⟨handover, duty⟩

end Sys2Proof.Machine

/-!
How an event takes one area's handover (R142 to R156), read from the notices: `State.AreaGoes` says which suspension, resumption
or halt is told, and when AREA_HANDED_OVER is, for the stretch of an event before a shift change.
-/

namespace Sys2Proof.Machine

variable {s t u : State} {a : AreaNo} {h h' h'' : Handover} {l m ks ls : List NoticeKind} {o q q' r : Prop}

/-! ### What becomes of a handover -/

/-- A handover stands, or a RUNNING one passes steps, to DONE perhaps (R144 to R146). -/
inductive Handover.Passes : Handover → Handover → Prop
  | stands (h : Handover) : Passes h h
  | runs (p p' : Position) (x y x' y' : Option Deadline) : Passes (.running p x y) (.running p' x' y')
  | ends (p p' : Position) (x y : Option Deadline) : Passes (.running p x y) (.done p')

theorem Handover.Passes.trans (k : h.Passes h') (k' : h'.Passes h'') : h.Passes h'' := by
  cases k with
  | stands => exact k'
  | runs => cases k' with
    | stands => exact .runs ..
    | runs => exact .runs ..
    | ends => exact .ends ..
  | ends => cases k' with
    | stands => exact .ends ..

theorem Handover.Passes.isDone (k : h.Passes h') (hd : h.isDone) : h'.isDone := by
  cases k with
  | stands => exact hd
  | runs | ends => cases hd

/-- How a handover comes from `h` to `h'` with the notices that say that the area is suspended, resumed or halted (R149, R151,
R152): none, or one of them at most. A STEADY area begins its list only where `o`, while the mill handover is OPEN. -/
inductive Handover.Turns (o : Prop) (a : AreaNo) : Handover → List NoticeKind → Handover → Prop
  | passes (h h' : Handover) (k : h.Passes h') : Turns o a h [] h'
  | resets (p : Position) (x y : Option Nat) (q r : Reasons) : Turns o a (.suspended p x y q) [] (.suspended p x y r)
  | begins (h h' : Handover) (p : Position) (x y : Option Deadline) (start : h.inProgress = false) (undone : h.isDone = false)
      (opened : h = .steady → o) (k : (Handover.running p x y).Passes h') : Turns o a h [] h'
  | suspends (h : Handover) (p : Position) (x y : Option Nat) (r : Reasons) (start : ∀ p x y q, h ≠ .suspended p x y q)
      (undone : h.isDone = false) (opened : h = .steady → o) : Turns o a h [.handoverSuspended a r] (.suspended p x y r)
  | resumes (p p' : Position) (x y : Option Nat) (x' y' : Option Deadline) (r : Reasons) (h' : Handover)
      (k : (Handover.running p' x' y').Passes h') : Turns o a (.suspended p x y r) [.handoverResumed a] h'
  | halts (h : Handover) (p : Position) (why : AbortReason) (start : h.inProgress) :
      Turns o a h [.handoverAborted a why p.ordinal] (.halted p)

/-- Steps passed before a turn. -/
theorem Handover.Turns.before (k : h.Passes h') (k' : Turns o a h' l h'') : Turns o a h l h'' := by
  cases k with
  | stands => exact k'
  | runs p p' x y x' y' => cases k' with
    | passes _ _ k' => exact .passes _ _ (.trans (.runs ..) k')
    | begins _ _ _ _ _ start => cases start
    | suspends => exact .suspends _ _ _ _ _ nofun rfl nofun
    | halts _ _ why => exact .halts _ _ why rfl
  | ends p p' x y => cases k' with
    | passes _ _ k' => exact .passes _ _ (.trans (.ends ..) k')
    | begins _ _ _ _ _ _ undone => cases undone
    | suspends _ _ _ _ _ _ undone => cases undone
    | halts _ _ _ start => cases start

/-- Steps passed after a turn. -/
theorem Handover.Turns.after (k : Turns o a h l h') (k' : h'.Passes h'') : Turns o a h l h'' := by
  cases k with
  | passes _ _ k => exact .passes _ _ (k.trans k')
  | resets p x y q r => cases k'; exact .resets p x y q r
  | begins _ _ p x y start undone opened k => exact .begins _ _ p x y start undone opened (k.trans k')
  | suspends _ p x y r start undone opened => cases k'; exact .suspends _ p x y r start undone opened
  | resumes p p' x y x' y' r _ k => exact .resumes p p' x y x' y' r _ (k.trans k')
  | halts _ p why start => cases k'; exact .halts _ p why start

theorem Handover.Turns.isDone (k : Turns o a h l h') (hd : h.isDone) : h'.isDone := by
  cases k with
  | passes _ _ k => exact k.isDone hd
  | begins _ _ _ _ _ _ undone => rw [undone] at hd; cases hd
  | suspends _ _ _ _ _ _ undone => rw [undone] at hd; cases hd
  | resets | resumes => cases hd
  | halts _ _ _ start => cases h with
    | done => cases start
    | steady | running | suspended | halted => cases hd

/-- A STEADY area stays so while the mill handover is CLOSED. -/
theorem Handover.Turns.steady (k : Turns o a .steady l h') (closed : ¬ o) : l = [] ∧ h' = .steady := by
  cases k with
  | passes _ _ k => cases k; exact ⟨rfl, rfl⟩
  | begins _ _ _ _ _ _ _ opened => exact absurd (opened rfl) closed
  | suspends _ _ _ _ _ _ _ opened => exact absurd (opened rfl) closed
  | halts _ _ _ start => cases start

/-! ### What is told of it -/

/-- The notices `ks` of a stretch of an event in `s` without a shift change, as they tell of area `a`, whose handover comes from
`h` to `h'`: its turn, and AREA_HANDED_OVER with the crew that comes in where it becomes DONE. Where `q` it only passes steps. -/
structure State.AreaGoes (s : State) (q : Prop) (a : AreaNo) (h : Handover) (ks : List NoticeKind) (h' : Handover) : Prop where
  turns  : Handover.Turns (s.mill.incoming ≠ none) a h (ks.filter (·.turns a)) h'
  handed : ks.filterMap (·.handedOver? a) =
    if h.isDone = false ∧ h'.isDone then [s.mill.incoming.getD s.mill.duty] else []
  quiet  : q → ks.filter (·.turns a) = [] ∧ h.Passes h'

/-- Steps passed without a turn. -/
theorem State.AreaGoes.ofPasses (k : h.Passes h') (turns : ks.filter (·.turns a) = [])
    (handed : ks.filterMap (·.handedOver? a) = if h.isDone = false ∧ h'.isDone then [s.mill.incoming.getD s.mill.duty] else []) :
    s.AreaGoes q a h ks h' :=
  ⟨turns ▸ .passes _ _ k, handed, fun _ => ⟨turns, k⟩⟩

/-- Nothing is told of an area whose handover stands. -/
theorem State.AreaGoes.stands (s : State) (h : Handover) (turns : ks.filter (·.turns a) = [])
    (handed : ks.filterMap (·.handedOver? a) = []) : s.AreaGoes q a h ks h :=
  .ofPasses (.stands h) turns (by rw [handed]; cases h.isDone <;> rfl)

theorem State.AreaGoes.refl (s : State) (a : AreaNo) (h : Handover) : s.AreaGoes q a h [] h := .stands s h rfl rfl

theorem State.AreaGoes.mono (k : s.AreaGoes q a h ks h') (hr : r → q) : s.AreaGoes r a h ks h' :=
  ⟨k.turns, k.handed, fun e => k.quiet (hr e)⟩

/-- An area is handed over once in two stretches, in the first or in the second. -/
theorem handed_append {k : Crew} (first : h.isDone → h'.isDone) (second : h'.isDone → h''.isDone)
    (hl : l.filterMap (·.handedOver? a) = if h.isDone = false ∧ h'.isDone then [k] else [])
    (hm : m.filterMap (·.handedOver? a) = if h'.isDone = false ∧ h''.isDone then [k] else []) :
    (l ++ m).filterMap (·.handedOver? a) = if h.isDone = false ∧ h''.isDone then [k] else [] := by
  rw [List.filterMap_append, hl, hm]
  cases hd : h.isDone <;> cases hd' : h'.isDone <;> simp_all

/-- Two stretches, of which one only passes steps. -/
theorem State.AreaGoes.trans (k : s.AreaGoes q a h ks h') (k' : s.AreaGoes q' a h' ls h'') (hq : q ∨ q') (hr : r → q ∧ q') :
    s.AreaGoes r a h (ks ++ ls) h'' := by
  refine ⟨?_, handed_append k.turns.isDone k'.turns.isDone k.handed k'.handed, fun e => ?_⟩
  · rw [List.filter_append]
    rcases hq with hq | hq
    · obtain ⟨silent, passes⟩ := k.quiet hq
      rw [silent]
      exact k'.turns.before passes
    · obtain ⟨silent, passes⟩ := k'.quiet hq
      rw [silent, List.append_nil]
      exact k.turns.after passes
  · obtain ⟨silent, passes⟩ := k.quiet (hr e).1
    obtain ⟨silent', passes'⟩ := k'.quiet (hr e).2
    exact ⟨by rw [List.filter_append, silent, silent']; rfl, passes.trans passes'⟩

/-- Only the crew that comes in matters of the state. -/
theorem State.AreaGoes.congr (k : t.AreaGoes q a h ks h') (incoming : t.mill.incoming = s.mill.incoming)
    (duty : t.mill.duty = s.mill.duty) : s.AreaGoes q a h ks h' := by
  obtain ⟨turns, handed, quiet⟩ := k
  rw [incoming] at turns handed
  exact ⟨turns, duty ▸ handed, quiet⟩

/-- While the mill handover is CLOSED nothing is told of a STEADY area. -/
theorem State.AreaGoes.steady (k : s.AreaGoes q a .steady ks h') (closed : s.mill.incoming = none) :
    ks.filter (·.turns a) = [] ∧ ks.filterMap (·.handedOver? a) = [] ∧ h' = .steady := by
  obtain ⟨turns, handed, -⟩ := k
  obtain ⟨silent, rfl⟩ := turns.steady (not_not_intro closed)
  exact ⟨silent, handed, rfl⟩

theorem NoticeKind.tells_of_turns {k : NoticeKind} (h : k.turns a) : k.tells a := by
  cases k with
  | handoverSuspended b | handoverResumed b | handoverAborted b =>
    simp only [NoticeKind.turns, beq_iff_eq] at h
    simp [NoticeKind.tells, NoticeKind.handoverArea, h]
  | _ => cases h

theorem NoticeKind.tells_of_handedOver {k : NoticeKind} {c : Crew} (h : k.handedOver? a = some c) : k.tells a := by
  cases k with
  | areaHandedOver b =>
    simp only [NoticeKind.handedOver?, Option.ite_none_right_eq_some] at h
    simp [NoticeKind.tells, NoticeKind.handoverArea, h.1]
  | _ => cases h

theorem filter_turns_tells (ks : List NoticeKind) : (ks.filter (·.tells a)).filter (·.turns a) = ks.filter (·.turns a) := by
  rw [List.filter_filter]
  refine List.filter_congr fun x _ => ?_
  cases hx : x.turns a with
  | false => rfl
  | true => exact NoticeKind.tells_of_turns hx

theorem filterMap_handedOver_tells (ks : List NoticeKind) :
    (ks.filter (·.tells a)).filterMap (·.handedOver? a) = ks.filterMap (·.handedOver? a) := by
  rw [List.filterMap_filter]
  refine List.filterMap_congr fun x _ => ?_
  cases hx : x.handedOver? a with
  | none => exact ite_self _
  | some c => exact if_pos (NoticeKind.tells_of_handedOver hx)

/-- Only the notices that tell of the area matter. -/
theorem State.AreaGoes.ofTold (k : s.AreaGoes q a h (ks.filter (·.tells a)) h') : s.AreaGoes q a h ks h' := by
  obtain ⟨turns, handed, quiet⟩ := k
  rw [filter_turns_tells] at turns quiet
  rw [filterMap_handedOver_tells] at handed
  exact ⟨turns, handed, quiet⟩

/-! ### The changes that an event is made of -/

theorem State.entered_running (s : State) (p : Position) : ∃ x y, s.entered p ⟨false, false, false, false⟩ = .running p x y :=
  ⟨_, _, rfl⟩

/-- STEP_DONE says neither that an area turns nor that it is handed over. -/
theorem stepDone_silent (n : Bool) (b : AreaNo) (o : Nat) (a : AreaNo) :
    (if n then [NoticeKind.stepDone b o] else []).filter (·.turns a) = [] ∧
      (if n then [NoticeKind.stepDone b o] else []).filterMap (·.handedOver? a) = [] := by
  cases n <;> exact ⟨rfl, rfl⟩

/-- A step completed (R145, R146). -/
theorem State.completion_goes (s : State) (a : AreaNo) (p : Position) (x y : Option Deadline) :
    s.AreaGoes q a (.running p x y) (s.completion a p).1 (s.completion a p).2 := by
  obtain ⟨turns, handed⟩ := stepDone_silent (s.stepEntry p.index).notify a p.ordinal a
  unfold State.completion
  dsimp only
  by_cases hl : (s.stepEntry p.index).last
  · rw [if_pos hl]
    refine .ofPasses (.ends ..) ?_ ?_
    · rw [List.filter_append, turns]; rfl
    · rw [List.filterMap_append, handed]
      simp [NoticeKind.handedOver?, Handover.isDone]
  · obtain ⟨x', y', e⟩ := s.entered_running ⟨(s.stepEntry p.index).next, p.ordinal + 1⟩
    rw [if_neg hl, e]
    exact .ofPasses (.runs ..) turns (by rw [handed]; rfl)

/-- Steps passed, where no shift changes (R145). -/
theorem State.PassesSteps.goes (x : s.PassesSteps a h ks h') (hk : ks.filterMap (·.shift?) = []) : s.AreaGoes q a h ks h' := by
  induction x with
  | rests h => exact .refl s a h
  | step p x y ks h' condition more ih =>
    rw [List.filterMap_append] at hk
    exact (s.completion_goes (q := True) a p x y).trans (ih (List.append_eq_nil_iff.mp hk).2) (.inl trivial) fun e => ⟨trivial, e⟩
  | shift h n k ks h' more ih => simp [NoticeKind.shift?] at hk

/-- A suspension, a resumption or a change of the set (R149). -/
theorem State.turned_goes (s : State) (a : AreaNo) (request : Bool) (h : Handover) :
    s.AreaGoes False a h (s.turned a request h).1 (s.turned a request h).2 := by
  unfold State.turned
  dsimp only
  generalize s.reasonsNow a request = r
  cases h with
  | steady | halted | done => exact .refl s a _
  | running p x y =>
    dsimp only
    split
    · exact .refl s a _
    · exact ⟨by simpa [NoticeKind.turns] using .suspends _ p _ _ r nofun rfl nofun, rfl, nofun⟩
  | suspended p x y r' =>
    dsimp only
    split
    · exact ⟨by simpa [NoticeKind.turns] using .resumes p p x y _ _ r' _ (.stands _), rfl, nofun⟩
    · exact ⟨.resets p x y r' r, rfl, nofun⟩

/-- A list begun (R143, R153). -/
theorem State.begun_goes (s : State) (a : AreaNo) (start : h.inProgress = false) (undone : h.isDone = false)
    (opened : h = .steady → s.mill.incoming ≠ none) : s.AreaGoes False a h (s.begun a).1 (s.begun a).2 := by
  unfold State.begun
  dsimp only
  by_cases hr : s.reasonsNow a false = ⟨false, false, false, false⟩
  · obtain ⟨x, y, e⟩ := s.entered_running ⟨(s.area a).config.start, 1⟩
    rw [if_pos hr, hr, e]
    exact ⟨.begins h _ _ x y start undone opened (.stands _), by simp [Handover.isDone], nofun⟩
  · have held : s.entered ⟨(s.area a).config.start, 1⟩ (s.reasonsNow a false) = .suspended ⟨(s.area a).config.start, 1⟩
        (s.stepEntry (s.area a).config.start).timeoutSeconds (s.stepEntry (s.area a).config.start).holdSeconds
        (s.reasonsNow a false) := by
      rw [← State.entering_eq, State.entering, if_neg fun e => hr (Reasons.isEmpty_iff.mp e)]
    have outside : ∀ p x y q, h ≠ .suspended p x y q := fun p x y q e => by rw [e] at start; cases start
    rw [if_neg hr, held]
    exact ⟨by simpa [NoticeKind.turns] using .suspends h _ _ _ _ outside undone opened,
      by simp [NoticeKind.handedOver?, Handover.isDone], nofun⟩

/-- An area in progress halted (R151, R152). -/
theorem State.halted_goes (s : State) (a : AreaNo) (p : Position) (why : AbortReason) (start : h.inProgress) :
    s.AreaGoes False a h [.handoverAborted a why p.ordinal] (.halted p) :=
  ⟨by simpa [NoticeKind.turns] using .halts h p why start, by simp [NoticeKind.handedOver?, Handover.isDone], nofun⟩

/-- An event that takes an area's handover so, where no shift changes (R156). -/
theorem State.HandoverGoes.goes {own : Option (List NoticeKind × Handover)} (g : s.HandoverGoes own a h ks h')
    (hk : ks.filterMap (·.shift?) = []) (owns : ∀ x, own = some x → s.AreaGoes q a h x.1 x.2) (loud : own = none → ¬ q) :
    s.AreaGoes q a h ks h' := by
  cases own with
  | some x =>
    obtain ⟨l, rfl, steps⟩ := g
    rw [List.filterMap_append] at hk
    exact (owns x rfl).trans (steps.goes (q := True) (List.append_eq_nil_iff.mp hk).2) (.inr trivial) fun e => ⟨e, trivial⟩
  | none =>
    rcases g with steps | ⟨l, rfl, steps⟩
    · exact steps.goes hk
    · rw [List.filterMap_append] at hk
      exact (s.turned_goes a h.asked h).trans (steps.goes (q := True) (List.append_eq_nil_iff.mp hk).2) (.inr trivial)
        fun e => absurd e (loud rfl)

end Sys2Proof.Machine

/-!
What a stretch of an event tells of the handovers and the shift change (`State.TellsHandovers`): each handover comes to rest as
`State.AreaGoes` says, and then stands, or the shift changes and it becomes STEADY (R154).
-/

namespace Sys2Proof.Machine

variable {s t u : State} {a : AreaNo} {ks ls : List NoticeKind} {mid : AreaNo → Handover} {q q' r : Prop} {k : Crew}

/-- The handovers rest as `mid`, and no shift has changed. -/
structure State.Rested (s t : State) (ks : List NoticeKind) (mid : AreaNo → Handover) : Prop where
  shifts   : ks.filterMap (·.shift?) = []
  shift    : t.mill.shift = s.mill.shift
  duty     : t.mill.duty = s.mill.duty
  incoming : t.mill.incoming = s.mill.incoming
  handover : ∀ a, (t.area a).handover = mid a

/-- The handovers rested as `mid`, every configured area DONE, and the shift has changed to the crew `k` (R154). -/
structure State.Succeeded (s t : State) (ks : List NoticeKind) (mid : AreaNo → Handover) (k : Crew) : Prop where
  incoming : s.mill.incoming = some k
  shifts   : ks.filterMap (·.shift?) = [(s.shiftAfter, k)]
  shift    : t.mill.shift = s.shiftAfter
  duty     : t.mill.duty = k
  closed   : t.mill.incoming = none
  steady   : ∀ a, (t.area a).handover = .steady
  rested   : ∀ a, if (s.area a).config.configured then (mid a).isDone else mid a = .steady

/-- What the notices `ks` of an event from `s` to `t` tell of the handovers: where `q` no area is suspended, resumed or halted,
nor begins its list. -/
structure State.TellsHandovers (s : State) (q : Prop) (t : State) (ks : List NoticeKind) : Prop where
  queue : s.Hands t ks
  goes  : ∃ mid, (∀ a, s.AreaGoes q a (s.area a).handover ks (mid a)) ∧ (s.Rested t ks mid ∨ ∃ k, s.Succeeded t ks mid k)

theorem State.TellsHandovers.mono (h : s.TellsHandovers q t ks) (hr : r → q) : s.TellsHandovers r t ks := by
  obtain ⟨queue, mid, goes, ends⟩ := h
  exact ⟨queue, mid, fun a => (goes a).mono hr, ends⟩

/-- Notices that are no handover notices and no SHIFT_CHANGED. -/
def NoticeKind.isPlain (k : NoticeKind) : Bool := k.handoverArea.isNone && k.shift?.isNone

theorem NoticeKind.isPlain_iff {k : NoticeKind} : k.isPlain ↔ k.handoverArea = none ∧ k.shift? = none := by
  simp [NoticeKind.isPlain]

theorem NoticeKind.turns_of_handoverArea {k : NoticeKind} (h : k.handoverArea = none) (a : AreaNo) :
    k.turns a = false ∧ k.handedOver? a = none := by
  cases k with
  | handoverSuspended | handoverResumed | handoverAborted | areaHandedOver | stepDone => cases h
  | _ => exact ⟨rfl, rfl⟩

theorem filter_turns_none (h : ∀ k ∈ ks, k.handoverArea = none) (a : AreaNo) :
    ks.filter (·.turns a) = [] ∧ ks.filterMap (·.handedOver? a) = [] :=
  ⟨List.filter_eq_nil_iff.mpr fun k hk => by simp [(NoticeKind.turns_of_handoverArea (h k hk) a).1],
    filterMap_none fun k hk => (NoticeKind.turns_of_handoverArea (h k hk) a).2⟩

theorem filterMap_shift_plain (h : ∀ k ∈ ks, k.isPlain) : ks.filterMap (·.shift?) = [] :=
  filterMap_none fun k hk => (NoticeKind.isPlain_iff.mp (h k hk)).2

/-- A change that tells of no handover and leaves them all. -/
theorem State.TellsHandovers.ofPlain (hands : s.Hands t ks) (plain : ∀ k ∈ ks, k.isPlain) (mill : t.mill = s.mill)
    (handover : ∀ a, (t.area a).handover = (s.area a).handover) : s.TellsHandovers q t ks := by
  have silent := filter_turns_none fun k hk => (NoticeKind.isPlain_iff.mp (plain k hk)).1
  refine ⟨hands, fun a => (s.area a).handover, fun a => .stands s _ (silent a).1 (silent a).2, .inl ?_⟩
  exact ⟨filterMap_shift_plain plain, by rw [mill], by rw [mill], by rw [mill], handover⟩

/-- Two stretches: the shift changes in one of them at most, for a CLOSED handover with every area STEADY stays so. -/
theorem State.TellsHandovers.trans (h : s.TellsHandovers q u ks) (h' : u.TellsHandovers q' t ls) (hq : q ∨ q')
    (hr : r → q ∧ q') (clock : u.clock = s.clock) (settings : u.settings = s.settings)
    (config : ∀ a, (u.area a).config = (s.area a).config) : s.TellsHandovers r t (ks ++ ls) := by
  obtain ⟨queue, mid, goes, ends⟩ := h
  obtain ⟨queue', mid', goes', ends'⟩ := h'
  refine ⟨queue.trans queue' clock settings, ?_⟩
  rcases ends with rested | ⟨k, changed⟩
  · have both (a : AreaNo) : s.AreaGoes r a (s.area a).handover (ks ++ ls) (mid' a) :=
      (goes a).trans ((rested.handover a ▸ goes' a).congr rested.incoming rested.duty) hq hr
    refine ⟨mid', both, ?_⟩
    rcases ends' with rested' | ⟨k, changed⟩
    · exact .inl ⟨by rw [List.filterMap_append, rested.shifts, rested'.shifts]; rfl, rested'.shift.trans rested.shift,
        rested'.duty.trans rested.duty, rested'.incoming.trans rested.incoming, rested'.handover⟩
    · have next : u.shiftAfter = s.shiftAfter := by simp only [State.shiftAfter, rested.shift]
      refine .inr ⟨k, rested.incoming ▸ changed.incoming, ?_, changed.shift.trans next, changed.duty, changed.closed, changed.steady, fun a => ?_⟩
      · rw [List.filterMap_append, rested.shifts, changed.shifts, next]; rfl
      · rw [← config]; exact changed.rested a
  · have silent (a : AreaNo) := (changed.steady a ▸ goes' a).steady changed.closed
    refine ⟨mid, fun a => ?_, .inr ⟨k, ?_⟩⟩
    · refine ((goes a).mono fun e => (hr e).1).trans (q' := True) (.stands s (mid a) (silent a).1 (silent a).2.1) (.inr trivial)
        fun e => ⟨e, trivial⟩
    · rcases ends' with rested' | ⟨k', changed'⟩
      · exact ⟨changed.incoming, by rw [List.filterMap_append, changed.shifts, rested'.shifts]; rfl,
          rested'.shift.trans changed.shift, rested'.duty.trans changed.duty, rested'.incoming.trans changed.closed,
          fun a => (rested'.handover a).trans (silent a).2.2, changed.rested⟩
      · exact absurd (changed.closed.symm.trans changed'.incoming) nofun

end Sys2Proof.Machine

/-!
What `State.TellsHandovers` comes to in the statements' words: AREA_HANDED_OVER and SHIFT_CHANGED (`State.TellsDuties`), and the
suspensions, resumptions and halts (`State.TellsReasons`).
-/

namespace Sys2Proof.Machine

variable {s t u : State} {a : AreaNo} {h h' : Handover} {l ks : List NoticeKind} {mid : AreaNo → Handover} {o q : Prop} {k : Crew}

/-! ### One area's turn -/

theorem Handover.Turns.length_le (x : Turns o a h l h') : l.length ≤ 1 := by
  cases x with
  | passes | resets | begins => exact Nat.zero_le 1
  | suspends | resumes | halts => exact le_rfl

theorem Handover.Turns.suspended_iff (x : Turns o a h l h') (r : Reasons) : .handoverSuspended a r ∈ l ↔
    (∃ p x y, h' = .suspended p x y r) ∧ ∀ p x y q, h ≠ .suspended p x y q := by
  cases x with
  | passes _ _ k =>
    refine iff_of_false List.not_mem_nil fun ⟨⟨p, x, y, e⟩, outside⟩ => ?_
    cases k with
    | stands => exact outside p x y r e
    | runs | ends => cases e
  | resets => simp
  | begins _ _ _ _ _ _ _ _ k => cases k <;> simp
  | suspends _ _ _ _ q start =>
    simp only [List.mem_singleton, NoticeKind.handoverSuspended.injEq, true_and, Handover.suspended.injEq, exists_and_left]
    exact ⟨fun e => ⟨⟨_, rfl, _, rfl, _, rfl, e.symm⟩, start⟩, fun ⟨⟨_, _, _, _, _, _, e⟩, _⟩ => e.symm⟩
  | resumes _ _ _ _ _ _ _ _ k => cases k <;> simp
  | halts => simp

theorem Handover.Turns.resumed_iff (x : Turns o a h l h') : .handoverResumed a ∈ l ↔
    (∃ p x y r, h = .suspended p x y r) ∧ ((∃ p x y, h' = .running p x y) ∨ ∃ p, h' = .done p) := by
  cases x with
  | passes _ _ k =>
    refine iff_of_false List.not_mem_nil fun ⟨⟨p, x, y, r, e⟩, left⟩ => ?_
    subst e
    cases k
    rcases left with ⟨_, _, _, e⟩ | ⟨_, e⟩ <;> cases e
  | resets => simp
  | begins _ _ _ _ _ start =>
    simp only [List.not_mem_nil, false_iff, not_and]
    rintro ⟨p, x, y, r, rfl⟩
    cases start
  | suspends => simp
  | resumes _ _ _ _ _ _ _ _ k => cases k <;> simp
  | halts => simp

theorem Handover.Turns.aborted_iff (x : Turns o a h l h') (n : Nat) : (∃ why, .handoverAborted a why n ∈ l) ↔
    ∃ p, h' = .halted p ∧ p.ordinal = n ∧ ∀ q, h ≠ .halted q := by
  cases x with
  | passes _ _ k =>
    refine iff_of_false (fun ⟨_, e⟩ => List.not_mem_nil e) fun ⟨p, e, _, outside⟩ => ?_
    cases k with
    | stands => exact outside p e
    | runs | ends => cases e
  | resets => simp
  | begins _ _ _ _ _ _ _ _ k => cases k <;> simp
  | suspends => simp
  | resumes _ _ _ _ _ _ _ _ k => cases k <;> simp
  | halts _ p why start =>
    have other (q : Position) : h ≠ .halted q := fun e => by rw [e] at start; cases start
    simp [other, eq_comm]

/-! ### The statements' words -/

theorem mem_iff_mem_turns {k : NoticeKind} (h : k.turns a) : k ∈ ks ↔ k ∈ ks.filter (·.turns a) := by
  simp [List.mem_filter, h]

/-- What the telling of the duties and of the reasons hangs on in the state before: CONFIG and a CLOSED handover have every area
STEADY, and so is an unconfigured one. -/
structure State.StartsSound (s : State) : Prop where
  run    : s.mill.incoming ≠ none → s.mode = .run
  closed : s.mill.incoming = none → ∀ a, (s.area a).handover = .steady
  steady : ∀ a, (s.area a).config.configured = false → (s.area a).handover = .steady

theorem State.DutiesSound.starts (h : s.DutiesSound) (hc : s.ConfigSound) : s.StartsSound where
  run isOpen := by
    cases hm : s.mode with
    | run => rfl
    | config => exact absurd (hc hm).mill isOpen
  closed e := (h.closed e).2
  steady := h.steady

/-- With the shift change every area that was in progress has been DONE (R154). -/
theorem State.Succeeded.done_of_ne (c : s.Succeeded t ks mid k) (sound : s.StartsSound) (hs : (s.area a).handover ≠ .steady) :
    (mid a).isDone := by
  have rested := c.rested a
  cases configured : (s.area a).config.configured with
  | true => rwa [if_pos configured] at rested
  | false => exact absurd (sound.steady a configured) hs

theorem State.Succeeded.mem_shiftChanged (c : s.Succeeded t ks mid k) : ∃ n j, .shiftChanged n j ∈ ks := by
  have listed : (s.shiftAfter, k) ∈ ks.filterMap (·.shift?) := by rw [c.shifts]; exact List.mem_cons_self
  obtain ⟨x, hx, e⟩ := List.mem_filterMap.mp listed
  cases x with
  | shiftChanged n j => exact ⟨n, j, hx⟩
  | _ => cases e

theorem State.Rested.not_mem_shiftChanged (c : s.Rested t ks mid) : ¬ ∃ n j, .shiftChanged n j ∈ ks := by
  rintro ⟨n, j, hx⟩
  have listed : (n, j) ∈ ks.filterMap (·.shift?) := List.mem_filterMap.mpr ⟨_, hx, rfl⟩
  rw [c.shifts] at listed
  cases listed

/-- A rested handover is neither in progress nor HALTED where the shift changes. -/
theorem State.Succeeded.rested_cases (c : s.Succeeded t ks mid k) (a : AreaNo) : (∃ p, mid a = .done p) ∨ mid a = .steady := by
  have rested := c.rested a
  split at rested
  · cases e : mid a with
    | done p => exact .inl ⟨p, rfl⟩
    | steady | running | suspended | halted => rw [e] at rested; cases rested
  · exact .inr rested

theorem State.TellsHandovers.reasons (x : s.TellsHandovers q t ks) (sound : s.StartsSound) : s.TellsReasons t ks := by
  obtain ⟨queue, mid, goes, ends⟩ := x
  refine ⟨queue, fun a => ?_, fun a r => ?_, fun a => ?_, fun a n => ?_⟩
  · rw [List.countP_eq_length_filter]
    exact (goes a).turns.length_le
  · rw [mem_iff_mem_turns (a := a) (by simp [NoticeKind.turns]), (goes a).turns.suspended_iff]
    rcases ends with rested | ⟨k, changed⟩
    · rw [rested.handover]
    · rw [changed.steady]
      rcases changed.rested_cases a with ⟨p, e⟩ | e <;> simp [e]
  · rw [mem_iff_mem_turns (a := a) (by simp [NoticeKind.turns]), (goes a).turns.resumed_iff]
    refine and_congr_right fun ⟨p, x, y, r, e⟩ => ?_
    rcases ends with rested | ⟨k, changed⟩
    · rw [rested.handover]
      simp only [rested.not_mem_shiftChanged, and_false, or_false]
    · have done := changed.done_of_ne sound (a := a) (by rw [e]; nofun)
      rcases changed.rested_cases a with ⟨p, e⟩ | e
      · simp [e, changed.steady, changed.mem_shiftChanged]
      · rw [e] at done; cases done
  · have told : (∃ why, .handoverAborted a why n ∈ ks) ↔ ∃ why, .handoverAborted a why n ∈ ks.filter (·.turns a) :=
      exists_congr fun why => mem_iff_mem_turns (by simp [NoticeKind.turns])
    rw [told, (goes a).turns.aborted_iff]
    rcases ends with rested | ⟨k, changed⟩
    · rw [rested.handover]
    · rw [changed.steady]
      rcases changed.rested_cases a with ⟨p, e⟩ | e <;> simp [e]

/-- An area is handed over to the crew that its record is under afterwards. -/
theorem State.AreaGoes.handed_duty {ks : List NoticeKind} (g : s.AreaGoes q a (s.area a).handover ks (mid a))
    (ends : s.Rested t ks mid ∨ ∃ k, s.Succeeded t ks mid k) (sound : s.StartsSound) (after : t.DutiesSound)
    (done : (mid a).isDone) : s.mill.incoming.getD s.mill.duty = (t.area a).duty := by
  rcases ends with rested | ⟨k, changed⟩
  · cases e : s.mill.incoming with
    | none =>
      have still := ((sound.closed e a) ▸ g).steady e
      rw [still.2.2] at done
      cases done
    | some k =>
      cases hd : mid a with
      | done p => exact (after.done a p k (rested.handover a ▸ hd) (rested.incoming.trans e)).symm
      | steady | running | suspended | halted => rw [hd] at done; cases done
  · rw [changed.incoming, after.duty a (by rw [changed.steady]; nofun), changed.duty]; rfl

theorem State.TellsHandovers.duties (x : s.TellsHandovers q t ks) (sound : s.StartsSound) (after : t.DutiesSound)
    (config : ∀ a, (t.area a).config = (s.area a).config) : s.TellsDuties t ks := by
  obtain ⟨queue, mid, goes, ends⟩ := x
  refine ⟨queue, ?_, fun a => ?_⟩
  · rcases ends with rested | ⟨k, changed⟩
    · exact .inl ⟨rested.shifts, fun _ => ⟨rested.shift, rested.duty⟩⟩
    · refine .inr ⟨by rw [changed.shifts, changed.shift, changed.duty], sound.run (by rw [changed.incoming]; nofun),
        fun j e => ?_, ?_⟩
      · rw [changed.incoming] at e
        cases e
        exact changed.duty
      · have outstanding := (after.closed changed.closed).1
        rw [← changed.shift, ← changed.closed, ← outstanding]
  · have crew := fun done => congrArg (fun k => [k]) ((goes a).handed_duty ends sound after done)
    rw [(goes a).handed]
    have same : (s.area a).handover.isDone = false ∧ (mid a).isDone ↔ (s.area a).config.configured ∧
        (s.area a).handover.isDone = false ∧ ((t.area a).handover.isDone ∨ ks.filterMap (·.shift?) ≠ []) := by
      rcases ends with rested | ⟨k, changed⟩
      · rw [rested.handover, rested.shifts]
        refine ⟨fun ⟨undone, done⟩ => ⟨?_, undone, .inl done⟩, fun ⟨_, undone, done⟩ => ⟨undone, by simpa using done⟩⟩
        cases configured : (s.area a).config.configured with
        | true => rfl
        | false =>
          rw [← rested.handover, after.steady a (by rw [config, configured])] at done
          cases done
      · have rested := changed.rested a
        rw [changed.shifts]
        refine ⟨fun ⟨undone, done⟩ => ⟨?_, undone, .inr nofun⟩, fun ⟨configured, undone, _⟩ => ⟨undone, ?_⟩⟩
        · split at rested
          · assumption
          · rw [rested] at done; cases done
        · rwa [if_pos configured] at rested
    by_cases handed : (s.area a).handover.isDone = false ∧ (mid a).isDone
    · rw [if_pos handed, if_pos (same.mp handed)]
      exact crew handed.2
    · rw [if_neg handed, if_neg fun e => handed (same.mpr e)]

end Sys2Proof.Machine

/-!
The suspension reasons in the handover unit's work (R147, R149): `Handover.Agrees` is the rule of one area, `State.AgreesOff` that
of the areas whose reasons' conditions an owner has left as they were, and the work brings the rest of them to agree.
-/

namespace Sys2Proof.Machine

variable {s t u : State} {w w' : Work} {a b : AreaNo} {h h' : Handover} {l ks : List NoticeKind} {D E : AreaNo → Prop}
  {f : Bool → Reasons}

/-! ### One area -/

/-- The handover record is as the reasons have it: RUNNING without one, SUSPENDED with the set that stands (R149). `f` gives the
set, with the REQUEST reason as it is told. -/
structure Handover.Agrees (f : Bool → Reasons) (h : Handover) : Prop where
  running   : ∀ p x y, h = .running p x y → f false = ⟨false, false, false, false⟩
  suspended : ∀ p x y r, h = .suspended p x y r → r = f r.request ∧ r ≠ ⟨false, false, false, false⟩

theorem Handover.agrees_of_settled (hh : h.inProgress = false) : h.Agrees f := by
  constructor <;> intros <;> subst_vars <;> cases hh

theorem Handover.agrees_running {p : Position} {x y : Option Deadline} (none : f false = ⟨false, false, false, false⟩) :
    (Handover.running p x y).Agrees f := ⟨fun _ _ _ _ => none, nofun⟩

theorem Handover.agrees_suspended {p : Position} {x y : Option Nat} {request : Bool} (asked : (f request).request = request)
    (some : f request ≠ ⟨false, false, false, false⟩) : (Handover.suspended p x y (f request)).Agrees f := by
  refine ⟨nofun, fun _ _ _ r e => ?_⟩
  cases e
  exact ⟨by rw [asked], some⟩

theorem State.reasonsNow_asked (s : State) (a : AreaNo) (request : Bool) : (s.reasonsNow a request).request = request := rfl

/-- The conditions that stand make the set. -/
theorem State.reasonsOf_iff {r : Reasons} : s.ReasonsOf a r ↔ r = s.reasonsNow a r.request := by
  have now := s.reasonsNow_of a r.request
  have asked := s.reasonsNow_asked a r.request
  generalize s.reasonsNow a r.request = v at now asked
  constructor
  · intro given
    have p1 : r.p1 = v.p1 := Bool.eq_iff_iff.mpr (given.p1.trans now.p1.symm)
    have flood : r.flood = v.flood := given.flood.trans now.flood.symm
    have trip : r.trip = v.trip := Bool.eq_iff_iff.mpr (given.trip.trans now.trip.symm)
    cases r
    cases v
    simp_all
  · intro e
    exact e ▸ now

/-- The rule of the reasons, area by area. -/
theorem State.handoversSound_iff : s.HandoversSound ↔ ∀ a, (s.area a).handover.Agrees (s.reasonsNow a) := by
  constructor
  · rintro ⟨running, suspended⟩ a
    refine ⟨fun p x y e => (State.reasonsOf_iff.mp (running a p x y e)).symm, fun p x y r e => ?_⟩
    obtain ⟨of, some⟩ := suspended a p x y r e
    exact ⟨State.reasonsOf_iff.mp of, some⟩
  · intro agrees
    refine ⟨fun a p x y e => State.reasonsOf_iff.mpr ((agrees a).running p x y e).symm, fun a p x y r e => ?_⟩
    obtain ⟨of, some⟩ := (agrees a).suspended p x y r e
    exact ⟨State.reasonsOf_iff.mpr of, some⟩

/-- The completion of a step leaves a RUNNING area RUNNING, or DONE (R145, R146). -/
theorem State.completion_agrees (s : State) (a : AreaNo) {p q : Position} {x y : Option Deadline}
    (k : (Handover.running q x y).Agrees f) : (s.completion a p).2.Agrees f := by
  have none := k.running _ _ _ rfl
  unfold State.completion
  dsimp only
  split
  · exact Handover.agrees_of_settled rfl
  · exact Handover.agrees_running none

/-- Steps passed at once (R145). -/
theorem State.PassesSteps.agrees (x : s.PassesSteps a h ks h') (k : h.Agrees f) : h'.Agrees f := by
  induction x with
  | rests => exact k
  | step p x y ks h' condition more ih => exact ih (s.completion_agrees a k)
  | shift h n k ks h' more ih => exact ih (Handover.agrees_of_settled rfl)

/-- What the reasons that stand make of a handover agrees with them (R149). -/
theorem State.turned_agrees (s : State) (a : AreaNo) (request : Bool) (h : Handover) :
    (s.turned a request h).2.Agrees (s.reasonsNow a) := by
  unfold State.turned
  have asked := s.reasonsNow_asked a
  generalize s.reasonsNow a = f at asked ⊢
  dsimp only
  cases h with
  | steady | halted | done => exact Handover.agrees_of_settled rfl
  | running p x y | suspended p x y r =>
    dsimp only
    by_cases none : f request = ⟨false, false, false, false⟩
    · have unasked : request = false := (asked request).symm.trans (congrArg Reasons.request none)
      rw [if_pos none]
      exact Handover.agrees_running (unasked ▸ none)
    · rw [if_neg none]
      exact Handover.agrees_suspended (asked request) none

theorem State.begun_agrees (s : State) (a : AreaNo) : (s.begun a).2.Agrees (s.reasonsNow a) := by
  have asked := s.reasonsNow_asked a false
  simp only [State.begun, ← State.entering_eq]
  generalize s.reasonsNow a = f at asked ⊢
  unfold State.entering
  dsimp only
  split
  · exact Handover.agrees_running (Reasons.isEmpty_iff.mp ‹_›)
  · exact Handover.agrees_suspended asked fun e => absurd (Reasons.isEmpty_iff.mpr e) ‹_›

/-! ### Every area -/

/-- The rule of the areas but those of `D`. -/
structure State.AgreesOff (D : AreaNo → Prop) (s : State) : Prop where
  area : ∀ a, ¬ D a → (s.area a).handover.Agrees (s.reasonsNow a)

theorem State.AgreesOff.mono (k : s.AgreesOff D) (h : ∀ a, D a → E a) : s.AgreesOff E :=
  ⟨fun a ha => k.area a fun hd => ha (h a hd)⟩

/-- Work on one area leaves the rule of the others. -/
theorem Work.ActsOn.agrees (x : w.ActsOn a w' l) (k : w.s.AgreesOff D)
    (own : ¬ E a → (w'.s.area a).handover.Agrees (w.s.reasonsNow a)) (h : ∀ b, b ≠ a → D b → E b) : w'.s.AgreesOff E := by
  refine ⟨fun b hb => ?_⟩
  have now : w'.s.reasonsNow b = w.s.reasonsNow b := funext (x.acts.reasonsNow b)
  rw [now]
  by_cases e : b = a
  · subst e; exact own hb
  · rw [x.other b e]
    exact k.area b fun hd => hb (h b e hd)

/-- An area's steps are examined: it goes on as the reasons have it. -/
theorem Work.examine_agrees (f : StepKind → Bool) (k : w.s.AgreesOff D) : (w.examine a f).s.AgreesOff D := by
  obtain ⟨l, acts, passes⟩ := w.examine_acts a f
  exact acts.agrees k (fun hd => passes.agrees (k.area a hd)) fun _ _ => id

/-- A turn to a record that agrees with the reasons. -/
theorem Work.Turns.agrees {x : List NoticeKind × Handover} (k : w.Turns a x w') (own : x.2.Agrees (w.s.reasonsNow a))
    (h : w.s.AgreesOff D) : w'.s.AgreesOff fun b => D b ∧ b ≠ a := by
  obtain ⟨l, acts, passes⟩ := k
  exact acts.agrees h (fun _ => passes.agrees own) fun b hb hd => ⟨hd, hb⟩

theorem Work.setReasons_agrees (a : AreaNo) (request : Bool) (k : w.s.AgreesOff D) :
    (w.setReasons a (w.s.reasonsNow a request)).s.AgreesOff fun b => D b ∧ b ≠ a :=
  (w.setReasons_turns a request).agrees (w.s.turned_agrees a request _) k

theorem Work.reconsider_agrees (a : AreaNo) (f : StepKind → Bool) (k : w.s.AgreesOff D) :
    (w.reconsider a f).s.AgreesOff fun b => D b ∧ b ≠ a := by
  unfold Work.reconsider
  split
  · exact Work.examine_agrees f (Work.setReasons_agrees a _ k)
  · rename_i settled
    refine Work.ActsOn.agrees (.refl a w) k (fun _ => ?_) fun b hb hd => ⟨hd, hb⟩
    exact Handover.agrees_of_settled (by simpa using settled)

/-- The areas whose reasons a change of a point bears on (R16). -/
def Point.bears (p : Point) (a : AreaNo) : Prop := p.priority = .p1 ∧ a = p.area

theorem Work.pointChanged_agrees (p : Point) (k : w.s.AgreesOff p.bears) : (w.pointChanged p).s.AgreesOff fun _ => False := by
  unfold Work.pointChanged
  split
  · exact (Work.reconsider_agrees p.area _ k).mono fun b hb => hb.2 hb.1.2
  · rename_i other
    exact k.mono fun b hb => other hb.1

theorem Work.tripsChanged_agrees (w : Work) : w.tripsChanged.s.AgreesOff fun _ => False := by
  have pass (as : List AreaNo) (w : Work) (k : w.s.AgreesOff (· ∈ as)) :
      (as.foldl (fun w a => w.reconsider a fun _ => false) w).s.AgreesOff fun _ => False := by
    induction as generalizing w with
    | nil => exact k.mono fun a ha => List.not_mem_nil ha
    | cons a as ih =>
      exact ih _ ((Work.reconsider_agrees a _ k).mono fun b hb => (List.mem_cons.mp hb.1).resolve_left hb.2)
  exact pass allAreas w ⟨fun a ha => absurd (mem_allAreas a) ha⟩

theorem Work.seatsChanged_agrees (f : AreaNo → Bool) (k : w.s.AgreesOff D) : (w.seatsChanged f).s.AgreesOff D := by
  unfold Work.seatsChanged
  generalize allAreas = as
  induction as generalizing w with
  | nil => exact k
  | cons a as ih =>
    refine ih ?_
    dsimp only
    split
    · exact Work.examine_agrees _ k
    · exact k

theorem Work.begin_agrees (a : AreaNo) (k : w.s.AgreesOff D) : (w.begin a).s.AgreesOff D :=
  ((w.begin_turns a).agrees (w.s.begun_agrees a) k).mono fun _ => And.left

theorem Work.foldl_begin_agrees (as : List AreaNo) (k : w.s.AgreesOff D) :
    (as.foldl (fun w a => w.begin a) w).s.AgreesOff D := by
  induction as generalizing w with
  | nil => exact k
  | cons a as ih =>
    rw [List.foldl_cons]
    have begun := Work.begin_agrees a k
    generalize w.begin a = v at begun ⊢
    exact ih begun

theorem Work.completeStep_agrees {p : Position} {x y : Option Deadline} (hr : (w.s.area a).handover = .running p x y)
    (k : w.s.AgreesOff D) : (w.completeStep a).s.AgreesOff D := by
  obtain ⟨l, acts, passes⟩ := Work.completeStep_acts hr
  exact acts.agrees k (fun hd => passes.agrees (w.s.completion_agrees a (hr ▸ k.area a hd))) fun _ _ => id

end Sys2Proof.Machine

/-!
The duty crews and the areas outstanding in the handover unit's work (`Work.DutiesKept`): the rule of R138 to R140 in the middle of
an event, where no area may be outstanding until the shift changes.
-/

namespace Sys2Proof.Machine

variable {s t u : State} {w w' w'' : Work} {a b : AreaNo} {h h' : Handover} {l ks : List NoticeKind}

/-- The areas outstanding: those configured and not DONE (R138). -/
def State.undone (s : State) : Nat :=
  (List.finRange 32).countP fun a => (s.area a).config.configured && !(s.area a).handover.isDone

/-- The rule of the duty crews and the areas outstanding within an event, which changes the shift exactly where an OPEN handover has
no area outstanding (R138 to R140, R154). -/
structure Work.DutiesKept (w : Work) : Prop where
  closed : w.s.mill.incoming = none → w.s.mill.outstanding = 0 ∧ w.shift = false ∧ ∀ a, (w.s.area a).handover = .steady
  opened : w.s.mill.incoming ≠ none → w.s.mill.outstanding = w.s.undone ∧ (w.shift ↔ w.s.mill.outstanding = 0)
  steady : ∀ a, (w.s.area a).config.configured = false → (w.s.area a).handover = .steady
  done   : ∀ a p k, (w.s.area a).handover = .done p → w.s.mill.incoming = some k → (w.s.area a).duty = k
  duty   : ∀ a, (w.s.area a).handover.isDone = false → (w.s.area a).duty = w.s.mill.duty

theorem Handover.isDone_iff : h.isDone = false ↔ ∀ p, h ≠ .done p := by
  cases h <;> simp [Handover.isDone]

theorem State.DutiesSound.kept (k : s.DutiesSound) (cover sheets : Bool) : (Work.mk s [] cover false sheets).DutiesKept := by
  obtain ⟨closed, opened, steady, done, duty⟩ := k
  refine ⟨fun e => ⟨(closed e).1, rfl, (closed e).2⟩, fun e => ⟨(opened e).2, ?_⟩, steady, done,
    fun a e => duty a (Handover.isDone_iff.mp e)⟩
  have pos := (opened e).1
  exact iff_of_false nofun (Nat.ne_of_gt pos)

/-- Where no shift changes, the rule is that of the statement. -/
theorem Work.DutiesKept.sound (k : w.DutiesKept) (hs : w.shift = false) : w.s.DutiesSound where
  closed e := ⟨(k.closed e).1, (k.closed e).2.2⟩
  opened e := by
    obtain ⟨outstanding, shift⟩ := k.opened e
    exact ⟨Nat.pos_of_ne_zero fun zero => by simp [shift.mpr zero] at hs, outstanding⟩
  steady := k.steady
  done := k.done
  duty a e := k.duty a (Handover.isDone_iff.mpr e)

/-- An area that is not STEADY is configured, and the handover OPEN (R138, R139). -/
theorem Work.DutiesKept.opens (k : w.DutiesKept) (e : (w.s.area a).handover ≠ .steady) :
    (w.s.area a).config.configured ∧ w.s.mill.incoming ≠ none :=
  ⟨by cases configured : (w.s.area a).config.configured with
    | true => rfl
    | false => exact absurd (k.steady a configured) e, fun closed => e ((k.closed closed).2.2 a)⟩

/-- An area's steps keep the rule, which is not DONE before them (R146). -/
theorem Work.Ends.duties (e : w.Ends w' a h) (k : w.DutiesKept) (undone : (w.s.area a).handover.isDone = false)
    (configured : (w.s.area a).config.configured) (isOpen : w.s.mill.incoming ≠ none) : w'.DutiesKept := by
  have incoming : w'.s.mill.incoming = w.s.mill.incoming := by rw [e.mill]
  have duty : w'.s.mill.duty = w.s.mill.duty := by rw [e.mill]
  have outstanding : w'.s.mill.outstanding = w.s.mill.outstanding - if h.isDone then 1 else 0 := by rw [e.mill]
  obtain ⟨count, shift⟩ := k.opened isOpen
  have counts : w'.s.undone + 1 = w.s.undone + if h.isDone then 0 else 1 := by
    have change := countP_change_one (List.nodup_finRange 32) (List.mem_finRange a)
      (p := fun b => (w'.s.area b).config.configured && !(w'.s.area b).handover.isDone)
      (q := fun b => (w.s.area b).config.configured && !(w.s.area b).handover.isDone)
      fun b hb => by rw [e.config, (e.other b hb).1]
    rw [undone, e.handover, e.config, configured] at change
    refine change.trans ?_
    cases h.isDone <;> rfl
  have positive : 0 < w.s.mill.outstanding := by
    rw [count]
    exact List.countP_pos_iff.mpr ⟨a, List.mem_finRange a, by rw [configured, undone]; rfl⟩
  have unshifted : w.shift = false := Bool.eq_false_iff.mpr fun e => by have := shift.mp e; omega
  refine ⟨fun closed => absurd (incoming ▸ closed) isOpen, fun _ => ⟨?_, ?_⟩, fun b hb => ?_, fun b p k' hb hk => ?_, fun b hb => ?_⟩
  · rw [outstanding, count]
    cases hd : h.isDone <;> simp only [hd, Bool.false_eq_true, reduceIte] at counts ⊢ <;> omega
  · rw [e.shift, unshifted, outstanding]
    cases hd : h.isDone
    · simpa using Nat.ne_of_gt positive
    · simp
  · rw [e.config] at hb
    have other : b ≠ a := fun e => by rw [e, configured] at hb; cases hb
    rw [(e.other b other).1]
    exact k.steady b hb
  · rw [incoming] at hk
    by_cases hb' : b = a
    · subst hb'
      rw [e.handover] at hb
      rw [e.duty, hb, hk]; rfl
    · rw [(e.other b hb').1] at hb
      rw [(e.other b hb').2]
      exact k.done b p k' hb hk
  · rw [duty]
    by_cases hb' : b = a
    · subst hb'
      rw [e.handover] at hb
      rw [e.duty, if_neg (by simp [hb])]
      exact k.duty b undone
    · rw [(e.other b hb').1] at hb
      rw [(e.other b hb').2]
      exact k.duty b hb

/-! ### The operations on one area -/

/-- Two operations on one area, of which the first leaves it short of DONE. -/
theorem Work.Ends.trans (x : w.Ends w' a h) (undone : h.isDone = false) (y : w'.Ends w'' a h') : w.Ends w'' a h' := by
  have mill : w'.s.mill = w.s.mill := by rw [x.mill, undone]; rfl
  have duty : (w'.s.area a).duty = (w.s.area a).duty := by rw [x.duty, undone]; rfl
  have shift : w'.shift = w.shift := by rw [x.shift, undone]; simp
  refine ⟨y.handover, ?_, ?_, ?_, fun b => (y.config b).trans (x.config b), fun b hb => ?_⟩
  · rw [y.duty, mill, duty]
  · rw [y.mill, mill]
  · rw [y.shift, shift, mill]
  · rw [(y.other b hb).1, (y.other b hb).2]
    exact x.other b hb

theorem Work.setHandover_ends (undone : h.isDone = false) (w : Work) : w.Ends (w.setHandover a h) a h :=
  (w.setHandover_comes h (Handover.isDone_iff.mp undone)).ends

/-- The notices, and what the end of the event must do beside the shift change, bear on nothing here. -/
theorem Work.Ends.same (x : w.Ends w' a h) (hs : w''.s = w'.s) (shift : w''.shift = w'.shift) : w.Ends w'' a h := by
  obtain ⟨handover, duty, mill, shift', config, other⟩ := x
  exact ⟨hs ▸ handover, hs ▸ duty, hs ▸ mill, shift.trans shift', hs ▸ config, hs ▸ other⟩

theorem Work.DutiesKept.same (k : w.DutiesKept) (hs : w'.s = w.s) (shift : w'.shift = w.shift) : w'.DutiesKept := by
  obtain ⟨closed, opened, steady, done, duty⟩ := k
  rw [← hs] at closed opened steady done duty
  rw [← shift] at closed opened
  exact ⟨closed, opened, steady, done, duty⟩

theorem Work.Ends.refl (undone : (w.s.area a).handover.isDone = false) : w.Ends w a (w.s.area a).handover := by
  refine ⟨rfl, ?_, ?_, ?_, fun _ => rfl, fun _ _ => ⟨rfl, rfl⟩⟩ <;> rw [undone]
  · rfl
  · rfl
  · simp

/-- The steps that a RUNNING area passes (R144 to R146). -/
theorem Work.advance_ends (n : Nat) {w : Work} {p : Position} {x y : Option Deadline}
    (hr : (w.s.area a).handover = .running p x y) : ∃ h, w.Ends (w.advance n a) a h := by
  induction n generalizing w p x y with
  | zero => exact ⟨_, .refl (by rw [hr]; rfl)⟩
  | succ n ih =>
    unfold Work.advance
    rw [hr]
    dsimp only
    have said : w.Ends (if (w.s.stepEntry p.index).notify then w.say (.stepDone a p.ordinal) else w) a (.running p x y) := by
      have stands := Work.Ends.refl (w := w) (a := a) (by rw [hr]; rfl)
      rw [hr] at stands
      split
      · exact stands.same rfl rfl
      · exact stands
    generalize (if (w.s.stepEntry p.index).notify then w.say (.stepDone a p.ordinal) else w) = v at said ⊢
    split
    · exact ⟨_, said.trans rfl (v.completeArea_comes p).ends⟩
    · obtain ⟨q, x', y', e⟩ : ∃ q x' y', v.s.entering ⟨(w.s.stepEntry p.index).next, p.ordinal + 1⟩ Reasons.none
          = .running q x' y' := ⟨_, _, _, rfl⟩
      rw [e]
      have entered := said.trans rfl (v.setHandover_ends (a := a) (h := .running q x' y') rfl)
      split
      · obtain ⟨h, ends⟩ := ih (w := v.setHandover a (.running q x' y')) entered.handover
        exact ⟨h, entered.trans rfl ends⟩
      · exact ⟨_, entered⟩

theorem Work.completeStep_ends {p : Position} {x y : Option Deadline} (hr : (w.s.area a).handover = .running p x y) :
    ∃ h, w.Ends (w.completeStep a) a h := Work.advance_ends _ hr

/-- An operation on one area whose handover is in progress or HALTED. -/
theorem Work.DutiesKept.ends (k : w.DutiesKept) (e : ∃ h, w.Ends w' a h) (start : (w.s.area a).handover ≠ .steady)
    (undone : (w.s.area a).handover.isDone = false) : w'.DutiesKept := by
  obtain ⟨h, e⟩ := e
  obtain ⟨configured, isOpen⟩ := k.opens start
  exact e.duties k undone configured isOpen

theorem Work.DutiesKept.completeStep {p : Position} {x y : Option Deadline} (k : w.DutiesKept)
    (hr : (w.s.area a).handover = .running p x y) : (w.completeStep a).DutiesKept :=
  k.ends (Work.completeStep_ends hr) (by rw [hr]; nofun) (by rw [hr]; rfl)

theorem Work.DutiesKept.examine (k : w.DutiesKept) (a : AreaNo) (f : StepKind → Bool) : (w.examine a f).DutiesKept := by
  unfold Work.examine
  split
  case h_1 p x y hr =>
    dsimp only
    split
    · exact k.completeStep hr
    · exact k
  all_goals exact k

/-- The handover record of an area in progress or HALTED is written short of DONE. -/
theorem Work.DutiesKept.setHandover (k : w.DutiesKept) (start : (w.s.area a).handover ≠ .steady)
    (before : (w.s.area a).handover.isDone = false) (after : h.isDone = false) : (w.setHandover a h).DutiesKept :=
  k.ends ⟨_, w.setHandover_ends after⟩ start before

theorem Work.DutiesKept.setReasons (k : w.DutiesKept) (a : AreaNo) (r : Reasons) : (w.setReasons a r).DutiesKept := by
  unfold Work.setReasons
  split
  case h_1 p x y hr =>
    split
    · exact k
    · exact (k.setHandover (by rw [hr]; nofun) (by rw [hr]; rfl) rfl).same rfl rfl
  case h_2 p x y q hr =>
    have set (h : Handover) (after : h.isDone = false) : (w.setHandover a h).DutiesKept :=
      k.setHandover (by rw [hr]; nofun) (by rw [hr]; rfl) after
    split
    · have resumed := set (.running p (x.map w.s.resumeIn) (y.map w.s.resumeIn)) rfl
      exact (resumed.same (w' := (w.setHandover a _).say (.handoverResumed a)) rfl rfl).examine a _
    · exact (set (.suspended p x y r) rfl).same rfl rfl
  all_goals exact k

theorem Work.DutiesKept.reconsider (k : w.DutiesKept) (a : AreaNo) (f : StepKind → Bool) : (w.reconsider a f).DutiesKept := by
  unfold Work.reconsider
  split
  · exact (k.setReasons a _).examine a f
  · exact k

theorem Work.DutiesKept.pointChanged (k : w.DutiesKept) (p : Point) : (w.pointChanged p).DutiesKept := by
  unfold Work.pointChanged
  split
  · exact k.reconsider p.area _
  · exact k

theorem Work.DutiesKept.foldl {f : Work → AreaNo → Work} (hf : ∀ (w : Work) a, w.DutiesKept → (f w a).DutiesKept)
    (k : w.DutiesKept) (as : List AreaNo) : (as.foldl f w).DutiesKept := by
  induction as generalizing w with
  | nil => exact k
  | cons a as ih =>
    rw [List.foldl_cons]
    exact ih (hf w a k)

theorem Work.DutiesKept.tripsChanged (k : w.DutiesKept) : w.tripsChanged.DutiesKept :=
  k.foldl (fun _ a k => k.reconsider a _) allAreas

theorem Work.DutiesKept.seatsChanged (k : w.DutiesKept) (f : AreaNo → Bool) : (w.seatsChanged f).DutiesKept := by
  refine k.foldl (fun w a k => ?_) allAreas
  split
  · exact k.examine a _
  · exact k

/-- A list begun again, or for the first time while the handover is OPEN (R143, R153). -/
theorem Work.begin_ends (w : Work) (a : AreaNo) : ∃ h, w.Ends (w.begin a) a h := by
  unfold Work.begin
  dsimp only
  rw [State.entering_eq]
  have undone : (w.s.entered ⟨(w.s.area a).config.start, 1⟩ (w.s.reasonsNow a false)).isDone = false :=
    Handover.isDone_iff.mpr fun q => w.s.entered_not_done _ q _
  generalize w.s.entered ⟨(w.s.area a).config.start, 1⟩ (w.s.reasonsNow a false) = h at undone
  have entered := (w.setHandover_ends (a := a) undone).same (w'' := { w.setHandover a h with cover := true }) rfl rfl
  generalize ({ w.setHandover a h with cover := true } : Work) = v at entered ⊢
  split
  · unfold Work.examine
    split
    case h_1 p x y hr =>
      dsimp only
      split
      · obtain ⟨h', ends⟩ := Work.completeStep_ends hr
        exact ⟨h', entered.trans undone ends⟩
      · exact ⟨h, entered⟩
    all_goals exact ⟨h, entered⟩
  · exact ⟨h, entered.same rfl rfl⟩

theorem Work.DutiesKept.begin (k : w.DutiesKept) (undone : (w.s.area a).handover.isDone = false)
    (configured : (w.s.area a).config.configured) (isOpen : w.s.mill.incoming ≠ none) : (w.begin a).DutiesKept := by
  obtain ⟨h, e⟩ := w.begin_ends a
  exact e.duties k undone configured isOpen

/-- The lists of several areas, none of them DONE before its own is begun. -/
theorem Work.DutiesKept.beginAll (k : w.DutiesKept) {as : List AreaNo} (nodup : as.Nodup)
    (undone : ∀ a ∈ as, (w.s.area a).handover.isDone = false) (configured : ∀ a ∈ as, (w.s.area a).config.configured)
    (isOpen : w.s.mill.incoming ≠ none) : (as.foldl (fun w a => w.begin a) w).DutiesKept := by
  induction as generalizing w with
  | nil => exact k
  | cons a as ih =>
    obtain ⟨new, nodup⟩ := List.nodup_cons.mp nodup
    have begun := k.begin (undone a List.mem_cons_self) (configured a List.mem_cons_self) isOpen
    obtain ⟨h, e⟩ := w.begin_ends a
    rw [List.foldl_cons]
    refine ih begun nodup (fun b hb => ?_) (fun b hb => ?_) (by rw [e.mill]; exact isOpen)
    · rw [(e.other b fun e => new (e ▸ hb)).1]
      exact undone b (List.mem_cons_of_mem a hb)
    · rw [e.config]
      exact configured b (List.mem_cons_of_mem a hb)

end Sys2Proof.Machine

/-!
The end of an event (R156), for the handovers: `State.Carries` says that it keeps the rules of the duty crews and of the suspension
reasons, and tells of every change.
-/

namespace Sys2Proof.Machine

variable {s t u d : State} {w : Work} {a : AreaNo} {h h' : Handover} {l ks ls : List NoticeKind} {D E : AreaNo → Prop}
  {q q' r : Prop} {own : AreaNo → Option (List NoticeKind × Handover)} {mid : AreaNo → Handover}

/-! ### The notices of a settling -/

theorem NoticeKind.isPlain_of_coverage {k : NoticeKind} (h : k.coverageArea.isSome) : k.isPlain := by
  cases k with
  | areaCovered | areaUncovered => rfl
  | _ => cases h

theorem NoticeKind.isPlain_of_banner {k : NoticeKind} (h : k.bannerConsole.isSome) : k.isPlain := by
  cases k with
  | banner => rfl
  | _ => cases h

/-- Notices among which those that are not plain are those of `l`, with SHIFT_CHANGED as `b` says. -/
structure Tellings (ks l : List NoticeKind) (b : List (Nat × Crew)) : Prop where
  turns  : ∀ a, ks.filter (·.turns a) = l.filter (·.turns a)
  handed : ∀ a, ks.filterMap (·.handedOver? a) = l.filterMap (·.handedOver? a)
  shifts : ks.filterMap (·.shift?) = b

theorem Tellings.append {l' : List NoticeKind} {b b' : List (Nat × Crew)} (x : Tellings ks l b) (y : Tellings ls l' b') :
    Tellings (ks ++ ls) (l ++ l') (b ++ b') where
  turns a := by rw [List.filter_append, List.filter_append, x.turns, y.turns]
  handed a := by rw [List.filterMap_append, List.filterMap_append, x.handed, y.handed]
  shifts := by rw [List.filterMap_append, x.shifts, y.shifts]

theorem Tellings.ofPlain (h : ∀ k ∈ ks, k.isPlain) : Tellings ks [] [] := by
  have silent := filter_turns_none fun k hk => (NoticeKind.isPlain_iff.mp (h k hk)).1
  exact ⟨fun a => (silent a).1, fun a => (silent a).2, filterMap_shift_plain h⟩

theorem Tellings.ofHandover (h : ∀ k ∈ l, k.handoverArea.isSome) : Tellings l l [] :=
  ⟨fun _ => rfl, fun _ => rfl, filterMap_none fun k hk => NoticeKind.shift?_of_handover (h k hk)⟩

/-- The notices of a shift change tell of no handover (R85, R154). -/
theorem State.ShiftNotices.tellings (h : s.ShiftNotices ks) : ∃ b, Tellings ks [] [b] := by
  obtain ⟨ends, n, k, coverage, rfl, banners, covers, -⟩ := h
  have before : ∀ k ∈ ends.flatMap (fun x => .shelfExpired x.1 :: x.2), k.isPlain := by
    intro k hk
    obtain ⟨x, hx, hk⟩ := List.mem_flatMap.mp hk
    rcases List.mem_cons.mp hk with rfl | hk
    · rfl
    · exact NoticeKind.isPlain_of_banner ((banners x hx).1 k hk)
  have after : ∀ k ∈ coverage, k.isPlain := fun k hk => NoticeKind.isPlain_of_coverage (covers.1 k hk)
  have change : Tellings [.shiftChanged n k] [] [(n, k)] := ⟨fun _ => rfl, fun _ => rfl, rfl⟩
  exact ⟨(n, k), (Tellings.ofPlain before).append (change.append (.ofPlain after))⟩

/-- What the settling of an event tells of the handovers are the handover unit's own notices. -/
theorem Work.Of.tellings (of : w.Of d own) : ∃ ks b, d.Hands w.settle ks ∧ Tellings ks w.out b ∧ (b = [] ∨ ∃ x, b = [x]) ∧
    Follows (ShiftStep (d.mill.incoming.getD d.mill.duty)) (d.mill.shift, d.mill.duty, d.shelves) b
      (w.settle.mill.shift, w.settle.mill.duty, w.settle.shelves) := by
  obtain ⟨cov, ban, shift, x⟩ := of.settle
  have before : Tellings (cov ++ ban) [] [] := by
    refine .ofPlain fun k hk => (List.mem_append.mp hk).elim (fun hk => ?_) fun hk => ?_
    · exact NoticeKind.isPlain_of_coverage (x.covKey.1 k hk)
    · exact NoticeKind.isPlain_of_banner (x.banKey.1 k hk)
  have after : ∃ b, Tellings shift [] b ∧ (b = [] ∨ ∃ x, b = [x]) := by
    rcases x.turn with rfl | notices
    · exact ⟨[], .ofPlain nofun, .inl rfl⟩
    · obtain ⟨b, told⟩ := notices.tellings
      exact ⟨[b], told, .inr ⟨b, rfl⟩⟩
  obtain ⟨b, after, once⟩ := after
  have all := before.append ((Tellings.ofHandover of.acts.kinds).append after)
  rw [List.append_assoc, List.append_nil, List.nil_append] at all
  refine ⟨_, b, x.tells.queue, all, once, ?_⟩
  have shifts := x.tells.shifts
  rwa [all.shifts] at shifts

theorem State.shiftAfter_ne (s : State) : s.shiftAfter ≠ s.mill.shift := by
  unfold State.shiftAfter
  split <;> omega

theorem Tellings.areaGoes {b : List (Nat × Crew)} (x : Tellings ks l b) (g : d.AreaGoes q a h l h') : d.AreaGoes q a h ks h' := by
  obtain ⟨turns, handed, quiet⟩ := g
  rw [← x.turns] at turns quiet
  rw [← x.handed] at handed
  exact ⟨turns, handed, quiet⟩

/-! ### The settling -/

/-- After the shift change the duty crews are sound (R154). -/
theorem State.Changed.duties (c : s.Changed t) : t.DutiesSound := by
  have closed : t.mill.incoming = none := by rw [c.mill]
  refine ⟨fun _ => ⟨by rw [c.mill], fun a => (c.area a).1⟩, fun e => absurd closed e, fun a _ => (c.area a).1, fun a p k e => ?_,
    fun a _ => ?_⟩
  · rw [(c.area a).1] at e
    cases e
  · rw [(c.area a).2, c.mill]

/-- The rule reads the mill's record, and of the areas' the configuration, the handover and the duty crew. -/
theorem State.DutiesSound.congr (k : s.DutiesSound) (mill : t.mill = s.mill) (config : ∀ a, (t.area a).config = (s.area a).config)
    (handover : ∀ a, (t.area a).handover = (s.area a).handover) (duty : ∀ a, (t.area a).duty = (s.area a).duty) :
    t.DutiesSound := by
  obtain ⟨closed, opened, steady, done, duties⟩ := k
  constructor <;> simp only [mill, config, handover, duty] <;> assumption

theorem Work.settle_changed (hw : w.shift) : w.s.Changed w.settle :=
  Work.finish_changed (w := { w with sheets := false }) hw []

theorem Work.DutiesKept.settle (k : w.DutiesKept) : w.settle.DutiesSound := by
  cases hw : w.shift with
  | true => exact (Work.settle_changed hw).duties
  | false =>
    have quiet := w.settle_quiet hw
    refine (k.sound hw).congr quiet.mill (fun a => ?_) (fun a => ?_) fun a => ?_ <;> rw [quiet.area a]

/-- With no area outstanding every configured one is DONE (R138). -/
theorem Work.DutiesKept.all_done (k : w.DutiesKept) (hw : w.shift) :
    ∀ a, if (w.s.area a).config.configured then (w.s.area a).handover.isDone else (w.s.area a).handover = .steady := by
  intro a
  split
  · rename_i configured
    have isOpen : w.s.mill.incoming ≠ none := fun e => by rw [(k.closed e).2.1] at hw; cases hw
    obtain ⟨count, shift⟩ := k.opened isOpen
    have none := count.symm.trans (shift.mp hw)
    have test := List.countP_eq_zero.mp none a (List.mem_finRange a)
    simpa [configured] using test
  · rename_i unconfigured
    exact k.steady a (Bool.eq_false_iff.mpr unconfigured)

theorem Work.Of.tellsHandovers (of : w.Of d own) (goes : ∀ a, d.AreaGoes q a (d.area a).handover w.out (w.s.area a).handover)
    (kept : w.DutiesKept) : ∃ ks, d.TellsHandovers q w.settle ks := by
  obtain ⟨ks, b, hands, told, once, follows⟩ := of.tellings
  obtain ⟨shift, duty, incoming⟩ := of.acts.mill
  refine ⟨ks, hands, fun a => (w.s.area a).handover, fun a => told.areaGoes (goes a), ?_⟩
  cases hw : w.shift with
  | false =>
    have quiet := w.settle_quiet hw
    have number : w.settle.mill.shift = d.mill.shift := by rw [quiet.mill]; exact shift
    have none : b = [] := by
      refine once.resolve_right ?_
      rintro ⟨x, rfl⟩
      obtain ⟨z, ⟨rfl, rfl⟩, e⟩ := follows
      exact d.shiftAfter_ne ((congrArg (fun y => y.1) e).trans number)
    exact .inl ⟨told.shifts.trans none, number, by rw [quiet.mill]; exact duty, by rw [quiet.mill]; exact incoming,
      fun a => by rw [quiet.area a]⟩
  | true =>
    have changed := Work.settle_changed hw
    obtain ⟨k, isOpen⟩ : ∃ k, d.mill.incoming = some k := by
      cases e : d.mill.incoming with
      | some k => exact ⟨k, rfl⟩
      | none =>
        have closed := kept.closed (incoming.trans e)
        rw [closed.2.1] at hw
        cases hw
    have number : w.settle.mill.shift = d.shiftAfter := by
      rw [changed.mill]
      show (if w.s.mill.shift = 65535 then 0 else w.s.mill.shift + 1) = _
      rw [shift]; rfl
    have crew : w.settle.mill.duty = k := by
      rw [changed.mill]
      show w.s.mill.incoming.getD w.s.mill.duty = k
      rw [incoming.trans isOpen]; rfl
    refine .inr ⟨k, isOpen, ?_, number, crew, by rw [changed.mill], fun a => (changed.area a).1, fun a => ?_⟩
    · rcases once with rfl | ⟨x, rfl⟩
      · exact absurd (number.symm.trans (congrArg (fun y => y.1) follows).symm) d.shiftAfter_ne
      · obtain ⟨z, ⟨rfl, rfl⟩, -⟩ := follows
        rw [told.shifts, isOpen]; rfl
    · rw [← of.acts.frames.config]
      exact kept.all_done hw a

end Sys2Proof.Machine

/-!
Every event for the handovers: what an owner's own changes leave (`State.Spares`), and what the whole event then does
(`State.Carries`): it keeps the rules of the duty crews and of the suspension reasons, and tells of every change.
-/

namespace Sys2Proof.Machine

variable {s t u d : State} {w : Work} {a : AreaNo} {h h' : Handover} {l ks ls : List NoticeKind} {D E : AreaNo → Prop}
  {q q' r : Prop} {own : AreaNo → Option (List NoticeKind × Handover)} {mid : AreaNo → Handover}

/-! ### The relation -/

/-- No area. -/
abbrev noAreas : AreaNo → Prop := fun _ => False

/-- An event in `s`, in which the reasons' conditions of the areas `D` may have changed before it, keeps the rule of the duty crews
and brings that of the suspension reasons about, and tells of every change of the handovers; where `q` it only passes steps. -/
structure State.Carries (q : Prop) (D : AreaNo → Prop) (s t : State) : Prop where
  clock    : t.clock = s.clock
  settings : t.settings = s.settings
  config   : ∀ a, (t.area a).config = (s.area a).config
  duties   : s.DutiesSound → t.DutiesSound
  agrees   : s.AgreesOff D → t.AgreesOff noAreas
  told     : s.DutiesSound → ∃ ks, s.TellsHandovers q t ks

theorem State.Carries.mono (k : State.Carries q D s t) (h : r → q) : State.Carries r D s t := by
  obtain ⟨clock, settings, config, duties, agrees, told⟩ := k
  exact ⟨clock, settings, config, duties, agrees, fun sound => (told sound).imp fun _ x => x.mono h⟩

/-- Two events, of which one only passes steps. -/
theorem State.Carries.trans (k : State.Carries q D s u) (k' : State.Carries q' noAreas u t) (hq : q ∨ q') (hr : r → q ∧ q') :
    State.Carries r D s t where
  clock := k'.clock.trans k.clock
  settings := k'.settings.trans k.settings
  config a := (k'.config a).trans (k.config a)
  duties sound := k'.duties (k.duties sound)
  agrees x := k'.agrees (k.agrees x)
  told sound := by
    obtain ⟨ks, told⟩ := k.told sound
    obtain ⟨ls, told'⟩ := k'.told (k.duties sound)
    exact ⟨ks ++ ls, told.trans told' hq hr k.clock k.settings k.config⟩

/-- An event behind one that only passes steps. -/
theorem State.Carries.behind (k : State.Carries True D s u) (k' : State.Carries q noAreas u t) : State.Carries q D s t :=
  k.trans k' (.inl trivial) fun e => ⟨trivial, e⟩

/-- An event before one that only passes steps. -/
theorem State.Carries.before (k : State.Carries q D s u) (k' : State.Carries True noAreas u t) : State.Carries q D s t :=
  k.trans k' (.inr trivial) fun e => ⟨e, trivial⟩

theorem State.Carries.refl (s : State) : State.Carries q noAreas s s :=
  ⟨rfl, rfl, fun _ => rfl, id, id, fun _ => ⟨[], .ofPlain rfl nofun rfl fun _ => rfl⟩⟩

/-! ### An owner's own changes -/

/-- An owner's own changes before the end of its event: they leave the clock, the mill handover, the areas' handovers and duty
crews, give no handover notice, and change the conditions of the reasons of the areas `D` alone. -/
structure State.Spares (D : AreaNo → Prop) (s t : State) : Prop where
  clock    : t.clock = s.clock
  settings : t.settings = s.settings
  mill     : t.mill = s.mill
  area     : ∀ a, (t.area a).config = (s.area a).config ∧ (t.area a).handover = (s.area a).handover ∧
    (t.area a).duty = (s.area a).duty
  told     : ∃ ks, s.Hands t ks ∧ ∀ k ∈ ks, k.isPlain
  reasons  : ∀ a, ¬ D a → t.reasonsNow a = s.reasonsNow a

theorem State.Spares.trans (x : State.Spares D s u) (y : State.Spares D u t) : State.Spares D s t where
  clock := y.clock.trans x.clock
  settings := y.settings.trans x.settings
  mill := y.mill.trans x.mill
  area a := by
    obtain ⟨config, handover, duty⟩ := x.area a
    obtain ⟨config', handover', duty'⟩ := y.area a
    exact ⟨config'.trans config, handover'.trans handover, duty'.trans duty⟩
  told := by
    obtain ⟨ks, hands, plain⟩ := x.told
    obtain ⟨ls, hands', plain'⟩ := y.told
    exact ⟨ks ++ ls, hands.trans hands' x.clock x.settings, fun k hk => (List.mem_append.mp hk).elim (plain k) (plain' k)⟩
  reasons a ha := (y.reasons a ha).trans (x.reasons a ha)

theorem State.Spares.mono (x : State.Spares D s t) (h : ∀ a, D a → E a) : State.Spares E s t := by
  obtain ⟨clock, settings, mill, area, told, reasons⟩ := x
  exact ⟨clock, settings, mill, area, told, fun a ha => reasons a fun hd => ha (h a hd)⟩

theorem State.Spares.foldl {α : Type} {f : State → α → State} (h : ∀ (s : State) x, State.Spares D s (f s x)) (l : List α)
    (s : State) : State.Spares D s (l.foldl f s) := by
  induction l generalizing s with
  | nil => exact ⟨rfl, rfl, rfl, fun _ => ⟨rfl, rfl, rfl⟩, ⟨[], rfl, nofun⟩, fun _ _ => rfl⟩
  | cons x l ih => exact (h s x).trans (ih _)

theorem State.Spares.duties (x : State.Spares D s t) (k : s.DutiesSound) : t.DutiesSound :=
  k.congr x.mill (fun a => (x.area a).1) (fun a => (x.area a).2.1) fun a => (x.area a).2.2

theorem State.Spares.tells (x : State.Spares D s t) : ∃ ks, s.TellsHandovers q t ks := by
  obtain ⟨ks, hands, plain⟩ := x.told
  exact ⟨ks, .ofPlain hands plain x.mill fun a => (x.area a).2.1⟩

theorem State.Spares.agrees (x : State.Spares D s t) (k : s.AgreesOff noAreas) : t.AgreesOff D :=
  ⟨fun a ha => by rw [x.reasons a ha, (x.area a).2.1]; exact k.area a id⟩

/-- What changes no reason's condition and has no event is over at once. -/
theorem State.Spares.carries (x : State.Spares noAreas s t) : State.Carries q noAreas s t :=
  ⟨x.clock, x.settings, fun a => (x.area a).1, x.duties, x.agrees, fun _ => x.tells⟩

/-- An owner's changes and the event that they bring about. -/
theorem State.Spares.then (x : State.Spares D s d) (k : State.Carries q D d t) : State.Carries q noAreas s t where
  clock := k.clock.trans x.clock
  settings := k.settings.trans x.settings
  config a := (k.config a).trans (x.area a).1
  duties sound := k.duties (x.duties sound)
  agrees sound := k.agrees (x.agrees sound)
  told sound := by
    obtain ⟨ks, told⟩ := x.tells (q := True)
    obtain ⟨ls, told'⟩ := k.told (x.duties sound)
    exact ⟨ks ++ ls, told.trans told' (.inl trivial) (fun e => ⟨trivial, e⟩) x.clock x.settings fun a => (x.area a).1⟩

/-! ### What the reasons' conditions are read from -/

theorem State.reasonsNow_congr (alarms : t.p1In a (· == .new) = s.p1In a (· == .new))
    (flooded : (t.area a).flooded = (s.area a).flooded) (trips : t.tripCovers a = s.tripCovers a) :
    t.reasonsNow a = s.reasonsNow a := by
  funext request
  simp only [State.reasonsNow, alarms, flooded, trips]

theorem State.p1In_congr (points : t.points = s.points) (a : AreaNo) (f : Annunciation → Bool) : t.p1In a f = s.p1In a f := by
  simp only [State.p1In, State.numbered, points]

theorem State.tripCovers_congr (trip : t.trip = s.trip) (a : AreaNo) : t.tripCovers a = s.tripCovers a := by
  simp only [State.tripCovers, State.code, trip]

/-- A change of none of the records that the handovers hang on. -/
theorem State.Spares.ofRest (clock : t.clock = s.clock) (settings : t.settings = s.settings) (mill : t.mill = s.mill)
    (areas : t.areas = s.areas) (queue : t.queue = s.queue) (points : t.points = s.points) (trip : t.trip = s.trip) :
    State.Spares D s t := by
  have area (a : AreaNo) : t.area a = s.area a := by simp only [State.area, areas]
  exact ⟨clock, settings, mill, fun a => by rw [area]; exact ⟨rfl, rfl, rfl⟩, ⟨[], queue, nofun⟩, fun a _ =>
    State.reasonsNow_congr (State.p1In_congr points a _) (by rw [area]) (State.tripCovers_congr trip a)⟩

theorem State.Spares.refl (s : State) : State.Spares D s s := .ofRest rfl rfl rfl rfl rfl rfl rfl

theorem State.notifyAll_spares (h : ∀ k ∈ ks, k.isPlain) (s : State) : State.Spares D s (s.notifyAll ks) := by
  have rest := s.notifyAll_eq ks
  have hands : s.Hands (s.notifyAll ks) ks := rfl
  rw [rest] at hands ⊢
  exact ⟨rfl, rfl, rfl, fun _ => ⟨rfl, rfl, rfl⟩, ⟨ks, hands, h⟩, fun _ _ => rfl⟩

theorem State.notify_spares {k : NoticeKind} (h : k.isPlain) (s : State) : State.Spares D s (s.notify k) :=
  State.notifyAll_spares (ks := [k]) (fun _ hk => List.mem_singleton.mp hk ▸ h) s

theorem State.Spares.notify (x : State.Spares D s t) {k : NoticeKind} (h : k.isPlain) : State.Spares D s (t.notify k) :=
  x.trans (State.notify_spares h t)

/-- An area's record changes beside its handover; a flood flag that changes bears on a reason. -/
theorem State.modArea_spares {f : Area → Area} (same : (f (s.area a)).config = (s.area a).config ∧
    (f (s.area a)).handover = (s.area a).handover ∧ (f (s.area a)).duty = (s.area a).duty)
    (flooded : (f (s.area a)).flooded = (s.area a).flooded ∨ D a) : State.Spares D s (s.modArea a f) := by
  refine ⟨rfl, rfl, rfl, fun b => ?_, ⟨[], rfl, nofun⟩, fun b hb => State.reasonsNow_congr rfl ?_ rfl⟩
  · rw [State.area_modArea]
    split
    · subst_vars; exact same
    · exact ⟨rfl, rfl, rfl⟩
  · rw [State.area_modArea]
    split
    · subst_vars; exact flooded.resolve_right hb
    · rfl

/-! ### The work of an event -/

/-- The work `w` of an event whose owner has made `d`: it keeps the rules, and its notices tell of the handovers. -/
structure Work.Handles (d : State) (q : Prop) (D : AreaNo → Prop) (w : Work) : Prop where
  of     : ∃ own, w.Of d own
  goes   : ∀ a, d.AreaGoes q a (d.area a).handover w.out (w.s.area a).handover
  duties : d.DutiesSound → w.DutiesKept
  agrees : d.AgreesOff D → w.s.AgreesOff noAreas

theorem Work.Of.goes_out (of : w.Of d own) (owns : ∀ a x, own a = some x → d.AreaGoes q a (d.area a).handover x.1 x.2)
    (loud : ∀ a, own a = none → ¬ q) (a : AreaNo) : d.AreaGoes q a (d.area a).handover w.out (w.s.area a).handover := by
  refine State.AreaGoes.ofTold ((of.goes a).goes ?_ (owns a) (loud a))
  exact filterMap_none fun k hk => NoticeKind.shift?_of_handover (of.acts.kinds k (List.mem_filter.mp hk).1)

theorem Work.Of.handles (of : w.Of d own) (owns : ∀ a x, own a = some x → d.AreaGoes q a (d.area a).handover x.1 x.2)
    (loud : ∀ a, own a = none → ¬ q) (duties : d.DutiesSound → w.DutiesKept)
    (agrees : d.AgreesOff D → w.s.AgreesOff noAreas) : w.Handles d q D :=
  ⟨⟨own, of⟩, of.goes_out owns loud, duties, agrees⟩

/-- Once the work agrees with the reasons, so does what the settling leaves. -/
theorem Work.settle_agrees (k : w.s.AgreesOff noAreas) : w.settle.AgreesOff noAreas := by
  refine ⟨fun a _ => ?_⟩
  cases hw : w.shift with
  | true => exact Handover.agrees_of_settled (by rw [((Work.settle_changed hw).area a).1]; rfl)
  | false =>
    have quiet := w.settle_quiet hw
    have now : w.settle.reasonsNow a = w.s.reasonsNow a :=
      State.reasonsNow_congr (State.p1In_congr quiet.points a _) (by rw [quiet.area a])
        (State.tripCovers_congr w.settle_frames.trip a)
    rw [now, quiet.area a]
    exact k.area a id

theorem Work.Handles.settle (k : w.Handles d q D) : State.Carries q D d w.settle := by
  obtain ⟨own, of⟩ := k.of
  have frames := of.acts.frames.trans w.settle_frames
  exact ⟨frames.clock, frames.settings, frames.config, fun sound => (k.duties sound).settle,
    fun x => Work.settle_agrees (k.agrees x), fun sound => of.tellsHandovers k.goes (k.duties sound)⟩

/-- An event in which the handover unit has nothing to do. -/
theorem Work.start_handles (d : State) (cover sheets : Bool) : (Work.mk d [] cover false sheets).Handles d q noAreas :=
  ⟨⟨_, .start d cover false sheets⟩, fun a => .refl d a _, fun sound => sound.kept cover sheets, id⟩

theorem Work.examine_handles (a : AreaNo) (f : StepKind → Bool) (d : State) (cover sheets : Bool) :
    ((Work.mk d [] cover false sheets).examine a f).Handles d True noAreas :=
  (Work.examine_passes a f d cover false sheets).handles (fun b x e => by cases e; exact .refl d b _) (fun b e => by cases e)
    (fun sound => (sound.kept cover sheets).examine a f) fun x => Work.examine_agrees (w := .mk d [] cover false sheets) f x

/-! ### The sheet store's pass -/

theorem State.swapSheets_spares (a : AreaNo) (s : State) : State.Spares D s (s.swapSheets a) := by
  have rest := (s.swapSheets_fills a).same
  have frames := s.swapSheets_frames a
  have same := s.swapSheets_same a
  have points : (s.swapSheets a).points = s.points := by rw [rest]; rfl
  exact ⟨frames.clock, frames.settings, same.1, fun b => ⟨frames.config b, (same.2 b).1, (same.2 b).2⟩,
    ⟨[], by rw [rest]; rfl, nofun⟩, fun b _ =>
      State.reasonsNow_congr (State.p1In_congr points b _) (frames.flooded b) (State.tripCovers_congr frames.trip b)⟩

theorem State.exchange_carries (a : AreaNo) (s : State) : State.Carries True noAreas s (s.exchange a) :=
  ((s.swapSheets_spares a).notify rfl).then (Work.examine_handles a _ _ false false).settle

theorem State.reportShort_spares (a : AreaNo) (s : State) : State.Spares D s (s.reportShort a) := by
  unfold State.reportShort
  split
  · exact .refl s
  · exact (State.modArea_spares ⟨rfl, rfl, rfl⟩ (.inl rfl)).notify rfl

theorem State.examineSheet_carries (a : AreaNo) (s : State) : State.Carries True noAreas s (s.examineSheet a).1 := by
  unfold State.examineSheet
  split
  · split
    · exact s.exchange_carries a
    · exact (s.reportShort_spares a).carries
  · exact .refl s

theorem State.passOnce_carries (s : State) : State.Carries True noAreas s s.passOnce.1 := by
  have pass (l : List AreaNo) (x : State × Bool) : State.Carries True noAreas x.1
      (l.foldl (fun x a => let y := x.1.examineSheet a; (y.1, x.2 || y.2)) x).1 := by
    induction l generalizing x with
    | nil => exact .refl x.1
    | cons a l ih =>
      rw [List.foldl_cons]
      exact (x.1.examineSheet_carries a).behind (ih (let y := x.1.examineSheet a; (y.1, x.2 || y.2)))
  exact pass allAreas (s, false)

theorem State.passes_carries (n : Nat) (s : State) : State.Carries True noAreas s (s.passes n) := by
  induction n generalizing s with
  | zero => exact .refl s
  | succ n ih =>
    unfold State.passes
    dsimp only
    split
    · exact s.passOnce_carries.behind (ih _)
    · exact s.passOnce_carries

/-- What the end of an event adds to its settling: the owner's notices that stand behind it, and the sheet store's passes. -/
theorem Work.finish_carries {after : List NoticeKind} (ha : ∀ k ∈ after, k.isPlain := by simp) (w : Work) :
    State.Carries True noAreas w.settle (w.finish after) := by
  have noticed : State.Carries True noAreas w.settle (w.settle.notifyAll after) := (State.notifyAll_spares ha w.settle).carries
  unfold Work.finish
  dsimp only
  split
  · exact noticed.behind (State.passes_carries 33 _)
  · exact noticed

theorem Work.Handles.finish (k : w.Handles d q D) {after : List NoticeKind} (ha : ∀ k ∈ after, k.isPlain := by simp) :
    State.Carries q D d (w.finish after) := k.settle.before (w.finish_carries ha)

end Sys2Proof.Machine

/-!
The events of the handover unit's work, one lemma for each kind (`State.Carries`): a reason's condition that has changed, seats that
have, a step that completes, a list begun, an area halted, and the REQUEST reason.
-/

namespace Sys2Proof.Machine

variable {s t u d : State} {w : Work} {a : AreaNo} {D E : AreaNo → Prop} {q : Prop} {after : List NoticeKind}

/-! ### Reasons and seats -/

theorem Work.reconsider_handles (a : AreaNo) (f : StepKind → Bool) (d : State) (cover sheets : Bool) :
    ((Work.mk d [] cover false sheets).reconsider a f).Handles d False (· = a) :=
  (Work.reconsider_of a f d cover false sheets).handles nofun (fun _ _ => id)
    (fun sound => (sound.kept cover sheets).reconsider a f) fun x =>
      (Work.reconsider_agrees (w := .mk d [] cover false sheets) a f x).mono fun _ hb => hb.2 hb.1

theorem Work.pointChanged_handles (p : Point) (d : State) (cover sheets : Bool) :
    ((Work.mk d [] cover false sheets).pointChanged p).Handles d False p.bears :=
  (Work.pointChanged_of p d cover false sheets).handles nofun (fun _ _ => id)
    (fun sound => (sound.kept cover sheets).pointChanged p) fun x =>
      Work.pointChanged_agrees (w := .mk d [] cover false sheets) p x

theorem Work.tripsChanged_handles (d : State) : (Work.tripsChanged { s := d }).Handles d False fun _ => True :=
  (Work.tripsChanged_of d).handles nofun (fun _ _ => id) (fun sound => (sound.kept false false).tripsChanged) fun _ =>
    Work.tripsChanged_agrees _

/-- SEAT_IN steps are passed, and no area turns (R142). -/
theorem Work.seatsChanged_handles (f : AreaNo → Bool) (d : State) (cover : Bool) :
    (Work.seatsChanged f { s := d, cover }).Handles d True noAreas := by
  have examined (w : Work) (a : AreaNo) : ∃ l, w.ActsOn a (if f a then w.examine a (· == .seatIn) else w) l ∧
      w.s.PassesSteps a (w.s.area a).handover l ((if f a then w.examine a (· == .seatIn) else w).s.area a).handover := by
    split
    · exact w.examine_acts a _
    · exact ⟨[], .refl a w, .rests _⟩
  obtain ⟨l, acts, -, own, passes, -⟩ := Work.fold_acts (Q := fun s a x m y => s.PassesSteps a x m y)
    (g := fun w a => if f a then w.examine a (· == .seatIn) else w) (fun c p => c.passes p) examined allAreas_sorted
    (Work.mk d [] cover false false)
  have out : (Work.seatsChanged f { s := d, cover }).out = l := acts.out.trans (List.nil_append l)
  refine ⟨⟨_, Work.seatsChanged_of f d cover⟩, fun a => .ofTold ?_, fun sound => (sound.kept cover false).seatsChanged f,
    fun x => Work.seatsChanged_agrees (w := { s := d, cover }) f x⟩
  rw [out]
  refine (passes a (mem_allAreas a)).goes (filterMap_none fun k hk => ?_)
  obtain ⟨b, -, e⟩ := own k (List.mem_filter.mp hk).1
  exact NoticeKind.shift?_of_handover (by rw [e]; rfl)

/-- The change of a point, with what its area's reasons make of it (R16). -/
theorem State.Spares.pointEvent {p : Point} (x : State.Spares p.bears s d) (sheets : Bool)
    (ha : ∀ k ∈ after, k.isPlain := by simp) :
    State.Carries False noAreas s (((Work.mk d [] false false sheets).pointChanged p).finish after) :=
  x.then ((Work.pointChanged_handles p d false sheets).finish ha)

/-- The change of one area's reasons. -/
theorem State.Spares.areaEvent (x : State.Spares (· = a) s d) (f : StepKind → Bool) :
    State.Carries False noAreas s (Work.reconsider a f { s := d }).finish :=
  x.then (Work.reconsider_handles a f d false false).finish

/-- The end of an event that the handover unit has nothing to do in. -/
theorem State.Spares.event (x : State.Spares noAreas s d) (cover sheets : Bool) :
    State.Carries q noAreas s (Work.mk d [] cover false sheets).finish :=
  x.then (Work.start_handles d cover sheets).finish

/-- The TRIP reason of every area follows the trip unit (R147). -/
theorem State.Spares.tripEvent (x : State.Spares (fun _ => True) s d) : State.Carries False noAreas s d.tripEvent :=
  x.then (Work.tripsChanged_handles d).finish

/-- The SEAT_IN steps follow the seats (R142). -/
theorem State.Spares.seatEvent (x : State.Spares noAreas s d) (f : AreaNo → Bool) (cover : Bool) :
    State.Carries True noAreas s (Work.seatsChanged f { s := d, cover }).finish :=
  x.then (Work.seatsChanged_handles f d cover).finish

/-! ### The handover unit's own events -/

theorem owns_one {x : List NoticeKind × Handover} (h : s.AreaGoes q a (s.area a).handover x.1 x.2) :
    ∀ b y, (if b = a then some x else none) = some y → s.AreaGoes q b (s.area b).handover y.1 y.2 := by
  intro b y e
  split at e
  · subst_vars
    cases e
    exact h
  · cases e

/-- A RUNNING area's step completes (R145). -/
theorem State.completedStep_carries {p : Position} {x y : Option Deadline} (hr : (s.area a).handover = .running p x y)
    (sheets : Bool) : State.Carries False noAreas s (Work.completeStep a { s, sheets }).finish :=
  ((Work.completeStep_of hr false false sheets).handles (owns_one (hr ▸ s.completion_goes a p x y)) (fun _ _ => id)
    (fun sound => (sound.kept false sheets).completeStep hr)
    fun x => Work.completeStep_agrees (w := { s, sheets }) hr x).finish

/-- The REQUEST reason of an area becomes `b` (R148). -/
theorem State.request_carries (a : AreaNo) (b : Bool) (s : State) : State.Carries False noAreas s (s.request a b) := by
  have turns := Work.setReasons_turns a b (Work.mk s [] false false false)
  refine (Work.Of.handles (Work.Turns.of turns) (owns_one (s.turned_goes a b _)) (fun _ _ => id)
    (fun sound => (sound.kept false false).setReasons a _) fun x => ?_).finish
  exact (Work.setReasons_agrees (w := { s }) a b x).mono fun _ => And.left

/-- A HALTED area begins its list again (R153). -/
theorem State.restarted_carries {p : Position} (hh : (s.area a).handover = .halted p) :
    State.Carries False noAreas s (Work.begin a { s }).finish := by
  refine (Work.Of.handles (Work.Turns.of (Work.begin_turns a (Work.mk s [] false false false)))
    (owns_one (s.begun_goes a (by rw [hh]; rfl) (by rw [hh]; rfl) (by rw [hh]; nofun))) (fun _ _ => id)
    (fun sound => ?_) fun x => Work.begin_agrees (w := { s }) a x).finish
  have kept := sound.kept false false
  obtain ⟨configured, isOpen⟩ := kept.opens (a := a) (by rw [hh]; nofun)
  exact kept.begin (by rw [hh]; rfl) configured isOpen

/-- The abort record may as well be written before the handover's. -/
theorem State.modArea_abort_halted (s : State) (a : AreaNo) (h : Handover) (x : Abort) :
    (s.modArea a fun r => { r with handover := h }).modArea a (fun r => { r with abort := some x }) =
      (s.modArea a fun r => { r with abort := some x }).modArea a fun r => { r with handover := h } := by
  simp only [State.modArea, State.area, Fin.getElem_fin, Vector.getElem_set_self, Vector.set_set]

theorem Handover.InProgressAt.start {h : Handover} {p : Position} (hp : h.InProgressAt p) :
    h ≠ .steady ∧ h.isDone = false ∧ h.inProgress := by
  rcases hp with ⟨x, y, rfl⟩ | ⟨x, y, r, rfl⟩ <;> exact ⟨nofun, rfl, rfl⟩

/-- The halt of an area in progress, its abort record written before (R151, R152). -/
theorem Work.halt_handles {p : Position} (why : AbortReason) (hp : (s.area a).handover.InProgressAt p) :
    (Work.halt a why { s }).Handles (s.modArea a fun r => { r with abort := some (s.abortRecord a why p.ordinal) })
      False noAreas := by
  rw [Work.halt_eq hp, State.modArea_abort_halted]
  have start : ((s.modArea a fun r => { r with abort := some (s.abortRecord a why p.ordinal) }).area a).handover.InProgressAt p := by
    rw [State.area_modArea, if_pos rfl]
    exact hp
  obtain ⟨outside, undone, inProgress⟩ := start.start
  generalize s.modArea a (fun r => { r with abort := some (s.abortRecord a why p.ordinal) }) = d at outside undone inProgress ⊢
  obtain ⟨set, halted⟩ := (Work.mk d [] true false false).setHandover_acts a (.halted p)
  have acts := set.trans (w'' := Work.mk (d.modArea a fun r => { r with handover := .halted p })
    [.handoverAborted a why p.ordinal] true false true) (.of_eq (l := [.handoverAborted a why p.ordinal]) rfl rfl fun k hk => by
      rw [List.mem_singleton.mp hk]; rfl)
  have turns : (Work.mk d [] true false false).Turns a ([.handoverAborted a why p.ordinal], .halted p)
      (Work.mk (d.modArea a fun r => { r with handover := .halted p }) [.handoverAborted a why p.ordinal] true false true) :=
    .rests acts halted
  refine (Work.Turns.of turns).handles (owns_one (d.halted_goes a p why inProgress)) (fun _ _ => id) (fun sound => ?_) fun x => ?_
  · exact ((sound.kept true false).setHandover (h := .halted p) outside undone rfl).same rfl rfl
  · exact (turns.agrees (Handover.agrees_of_settled rfl) x).mono fun _ => And.left

theorem State.halted_carries {p : Position} (why : AbortReason) (hp : (s.area a).handover.InProgressAt p) :
    State.Carries False noAreas s (Work.halt a why { s }).finish :=
  State.Spares.then (State.modArea_spares ⟨rfl, rfl, rfl⟩ (.inl rfl)) (Work.halt_handles why hp).finish

end Sys2Proof.Machine

/-!
The points in the handovers: a change of a point bears on its area's P1 reason where the point is of priority 1 (R16, R147), and the
meter's flood test on the FLOOD reason (R71); every owner that makes one has the area's reasons reconsidered.
-/

namespace Sys2Proof.Machine

variable {s t u d : State} {a : AreaNo} {n : PointNo} {D E : AreaNo → Prop} {q : Prop}

/-! ### What a point does to the reasons -/

/-- The point is one of area `a`'s that give it its P1 reason (R147). -/
def Point.Alarms (p : Point) (a : AreaNo) : Prop :=
  p.area = a ∧ p.priority = .p1 ∧ p.hidden = false ∧ p.ann = .new

theorem State.p1In_new_iff : s.p1In a (· == .new) ↔ ∃ n, (s.point n).Alarms a := by
  rw [State.p1In_iff]
  simp only [beq_iff_eq, Point.Alarms]

/-- A point changes, and the reasons of the areas that it alarms both before and after, or neither, stand. -/
theorem State.setPoint_spares {p : Point} (h : ∀ a, ¬ D a → (p.Alarms a ↔ (s.point n).Alarms a)) :
    State.Spares D s (s.setPoint n p) := by
  refine ⟨rfl, rfl, rfl, fun _ => ⟨rfl, rfl, rfl⟩, ⟨[], rfl, nofun⟩, fun a ha => State.reasonsNow_congr ?_ rfl rfl⟩
  rw [Bool.eq_iff_iff, State.p1In_new_iff, State.p1In_new_iff]
  refine exists_congr fun m => ?_
  rw [State.point_setPoint]
  split
  · subst_vars; exact h a ha
  · exact Iff.rfl

theorem State.raiseCounter_spares (k : Nat) (s : State) : State.Spares D s { s with raiseCounter := k } :=
  .ofRest rfl rfl rfl rfl rfl rfl rfl

/-- A point keeps its place, and bears on its own area alone. -/
theorem State.setPoint_bears {p : Point} (area : p.area = (s.point n).area) (priority : p.priority = (s.point n).priority) :
    State.Spares (s.point n).bears s (s.setPoint n p) :=
  State.setPoint_spares fun a ha => by
    have bears : ¬ ((s.point n).area = a ∧ (s.point n).priority = .p1) := fun ⟨e, e'⟩ => ha ⟨e', e.symm⟩
    refine iff_of_false (fun ⟨e, e', _⟩ => bears ⟨area ▸ e, priority ▸ e'⟩) fun ⟨e, e', _⟩ => bears ⟨e, e'⟩

/-- A point out of view stays so. -/
theorem State.setPoint_hidden_spares {p : Point} (h : (s.point n).hidden) (hp : p.hidden) : State.Spares D s (s.setPoint n p) :=
  State.setPoint_spares fun a _ => by
    simp [Point.Alarms, h, hp]

theorem State.becomeNew_bears {marked : Bool} {p : Point} (area : p.area = (s.point n).area)
    (priority : p.priority = (s.point n).priority) : State.Spares (s.point n).bears s (s.becomeNew n marked p) :=
  (s.raiseCounter_spares _).trans (State.setPoint_bears (s := { s with raiseCounter := nextSeq s.raiseCounter })
    (p := { p with ann := .new, raiseSeq := some (nextSeq s.raiseCounter), acked := none, postTrip := marked }) area priority)

theorem State.addReason_bears {f : Point → Point} (h : ∀ p, (f p).area = p.area ∧ (f p).priority = p.priority) :
    State.Spares (s.point n).bears s (s.addReason n f) := by
  obtain ⟨area, priority⟩ := h (s.point n)
  rw [State.addReason_eq]
  split
  · exact State.setPoint_bears area priority
  · exact State.setPoint_bears area priority

theorem State.removeReason_bears {f : Point → Point} (h : ∀ p, (f p).area = p.area ∧ (f p).priority = p.priority) (marked : Bool) :
    State.Spares (s.point n).bears s (s.removeReason n f marked) := by
  obtain ⟨area, priority⟩ := h (s.point n)
  unfold State.removeReason
  dsimp only
  split
  · exact State.becomeNew_bears area priority
  · exact State.setPoint_bears area priority

/-! ### Raise, clear and the meter -/

/-- The flood test of a meter's new value bears on the FLOOD reason where the flag changes (R71). -/
theorem State.setMeter_spares {l : Nat} (h : ((s.setMeter a l).area a).flooded = (s.area a).flooded ∨ D a) :
    State.Spares D s (s.setMeter a l) := by
  have noticed (b : Bool) (k : NoticeKind) : (((s.modArea a fun x => { x with meter := l, flooded := b }).notify k).area a).flooded
      = b := by
    obtain ⟨-, -, -, areas⟩ := (s.modArea a fun x => { x with meter := l, flooded := b }).notify_records k
    rw [areas, State.area_modArea, if_pos rfl]
  have metered (b : Bool) (hb : b = (s.area a).flooded ∨ D a) :
      State.Spares D s (s.modArea a fun x => { x with meter := l, flooded := b }) := State.modArea_spares ⟨rfl, rfl, rfl⟩ hb
  unfold State.setMeter at h ⊢
  dsimp only at h ⊢
  split
  · rw [if_pos ‹_›, noticed] at h
    exact (metered true h).notify (k := .floodOn a) rfl
  · rw [if_neg ‹_›] at h
    split
    · rw [if_pos ‹_›, noticed] at h
      exact (metered false h).notify (k := .floodOff a) rfl
    · exact State.modArea_spares (f := fun x => { x with meter := l }) ⟨rfl, rfl, rfl⟩ (.inl rfl)

theorem State.raiseInView_carries (n : PointNo) (s : State) : State.Carries False noAreas s (s.raiseInView n) := by
  have raised : State.Spares (s.point n).bears s (s.becomeNew n false ((s.point n).raised s.now)) :=
    State.becomeNew_bears rfl rfl
  unfold State.raiseInView
  dsimp only
  generalize s.becomeNew n false ((s.point n).raised s.now) = t at raised
  split
  · rename_i bearing
    exact ((raised.mono fun _ hb => hb.2).trans (State.setMeter_spares (.inr rfl))).areaEvent _
  · rename_i quiet
    rw [not_or, not_not] at quiet
    obtain ⟨other, level⟩ := quiet
    exact ((raised.mono fun _ hb => other hb.1).trans (State.setMeter_spares (.inl level))).event false false

theorem actRaise_carries (n : PointNo) (s : State) : (actRaise s n).Gives (State.Carries False noAreas s) := by
  unfold actRaise
  dsimp only
  split
  · trivial
  · split
    · trivial
    · split
      · exact (State.setPoint_hidden_spares ‹_› ‹_›).carries
      · exact s.raiseInView_carries n

/-- A clear makes no point NEW (R9). -/
theorem Annunciation.cleared_ne_new (x : Annunciation) (h : x ≠ .new) : x.cleared ≠ .new := by
  cases x with
  | new => exact absurd rfl h
  | _ => decide

theorem actClear_carries (n : PointNo) (s : State) : (actClear s n).Gives (State.Carries False noAreas s) := by
  unfold actClear
  dsimp only
  split
  · trivial
  · split
    · trivial
    · split
      · exact (State.setPoint_hidden_spares ‹_› ‹_›).carries
      · have cleared : State.Spares (s.point n).bears s (s.setPoint n (s.point n).cleared) := State.setPoint_bears rfl rfl
        show State.Carries False noAreas s (Work.finish (if _ then _ else _))
        split
        · exact cleared.pointEvent false
        · rename_i settled
          refine State.Spares.event (State.setPoint_spares fun a _ => ?_) false false
          exact iff_of_false (fun x => Annunciation.cleared_ne_new _ settled x.2.2.2) fun x => settled x.2.2.2

theorem execDecayStep_carries (a : AreaNo) (s : State) :
    ∃ t, execDecayStep a s = .next t ∧ State.Carries False noAreas s t := by
  unfold execDecayStep
  dsimp only
  split
  · split
    · exact ⟨_, rfl, (State.setMeter_spares (.inl ‹_›)).carries⟩
    · exact ⟨_, rfl, (State.setMeter_spares (D := (· = a)) (.inr rfl)).areaEvent _⟩
  · exact ⟨s, rfl, .refl s⟩

/-! ### Out of service and shelves -/

theorem State.dropShelf_spares (r : Shelf) (s : State) : State.Spares D s (s.dropShelf r) := by
  have unlisted : State.Spares D s { s with shelves := s.shelves.filter (· != r) } := .ofRest rfl rfl rfl rfl rfl rfl rfl
  exact unlisted.trans (State.modArea_spares (f := fun x => { x with shelvedCount := x.shelvedCount - 1 }) ⟨rfl, rfl, rfl⟩ (.inl rfl))

theorem State.dropShelfOf_spares (n : PointNo) (s : State) : State.Spares D s (s.dropShelfOf n) := by
  unfold State.dropShelfOf
  split
  · exact s.dropShelf_spares _
  · exact .refl s

/-- A code keeps its operating state and its area set, and its TRIP reasons stand. -/
theorem State.modCode_spares {c : TripNo} {f : TripCode → TripCode} (state : (f (s.code c)).state = (s.code c).state)
    (areas : (f (s.code c)).areas = (s.code c).areas) : State.Spares D s (s.modCode c f) := by
  refine ⟨rfl, rfl, rfl, fun _ => ⟨rfl, rfl, rfl⟩, ⟨[], rfl, nofun⟩, fun a _ => State.reasonsNow_congr rfl rfl ?_⟩
  unfold State.tripCovers
  congr 1
  funext e
  rw [State.code_modCode]
  split
  · subst_vars; rw [state, areas]
  · rfl

theorem State.uncountSuppressed_spares (cs : List TripNo) (s : State) : State.Spares D s (s.uncountSuppressed cs) :=
  .foldl (fun _ _ => State.modCode_spares rfl rfl) cs s

theorem State.takeOut_carries (n : PointNo) (s : State) : State.Carries False noAreas s (s.takeOut n) := by
  have point : ((s.dropShelfOf n).uncountSuppressed (s.point n).suppression).point n = s.point n := by
    rw [State.uncountSuppressed_rest]
    exact s.point_dropShelfOf n n
  have dropped : State.Spares (s.point n).bears s ((s.dropShelfOf n).uncountSuppressed (s.point n).suppression) :=
    (s.dropShelfOf_spares n).trans (State.uncountSuppressed_spares _ _)
  have hidden := State.addReason_bears (s := (s.dropShelfOf n).uncountSuppressed (s.point n).suppression) (n := n)
    (f := fun q => { q with shelved := false, suppression := [], outOfService := true }) fun _ => ⟨rfl, rfl⟩
  rw [point] at hidden
  exact (dropped.trans hidden).pointEvent (s.shelfOf? n).isSome

theorem actTakeOut_carries (x : ConsoleNo × PointNo) (s : State) : (actTakeOut s x).Gives (State.Carries False noAreas s) := by
  refine .withOperator (fun _ => ?_) _
  split
  · trivial
  · split
    · trivial
    · exact s.takeOut_carries x.2

theorem actReturn_carries (x : ConsoleNo × PointNo) (s : State) : (actReturn s x).Gives (State.Carries False noAreas s) := by
  refine .withOperator (fun _ => ?_) _
  split
  · trivial
  · split
    · trivial
    · have back : State.Spares (s.point x.2).bears s (s.removeReason x.2 (fun q => { q with outOfService := false }) false) :=
        State.removeReason_bears (f := fun q => { q with outOfService := false }) (fun _ => ⟨rfl, rfl⟩) false
      exact back.pointEvent false

theorem actShelve_carries (x : ConsoleNo × PointNo × ShelveFor) (s : State) :
    (actShelve s x).Gives (State.Carries False noAreas s) := by
  have shelved (r : Shelf) (h : (s.point r.point).priority ≠ .p1) : State.Spares noAreas s (s.addShelf r) := by
    have listed : State.Spares noAreas s { s with shelves := s.shelves ++ [r] } := .ofRest rfl rfl rfl rfl rfl rfl rfl
    have counted := listed.trans (State.modArea_spares (a := r.area) (f := fun x => { x with shelvedCount := x.shelvedCount + 1 })
      ⟨rfl, rfl, rfl⟩ (.inl rfl))
    exact counted.trans ((State.addReason_bears (f := fun p => { p with shelved := true }) fun _ => ⟨rfl, rfl⟩).mono
      fun _ hb => h hb.1)
  refine .withOperator (fun o => ?_) _
  dsimp only
  split
  · trivial
  · rename_i priority
    split
    · trivial
    · split
      · trivial
      · split
        · trivial
        · split
          · trivial
          · split
            · trivial
            · exact (shelved (s.newShelf x.1 x.2.1 o.number x.2.2) priority).event false true

theorem State.endShelf_bears (r : Shelf) (s : State) : State.Spares (s.point r.point).bears s (s.endShelf r) :=
  (s.dropShelf_spares r).trans (State.removeReason_bears (s := s.dropShelf r) (f := fun p => { p with shelved := false }) (fun _ => ⟨rfl, rfl⟩) false)

theorem actUnshelve_carries (x : ConsoleNo × PointNo) (s : State) : (actUnshelve s x).Gives (State.Carries False noAreas s) := by
  refine .withOperator (fun _ => ?_) _
  split
  · trivial
  · split
    · trivial
    · exact (s.endShelf_bears _).pointEvent true

theorem execShelfExpired_carries (n : PointNo) (s : State) :
    ∃ t, execShelfExpired n s = .next t ∧ State.Carries False noAreas s t := by
  unfold execShelfExpired
  split
  · split
    · exact ⟨_, rfl, ((s.endShelf_bears _).notify rfl).pointEvent true⟩
    · exact ⟨s, rfl, .refl s⟩
  · exact ⟨s, rfl, .refl s⟩

/-! ### Acknowledgement and silence -/

theorem State.ackEvent_carries (n : PointNo) (o : Nat) {after : List NoticeKind} (ha : ∀ k ∈ after, k.isPlain) (s : State) :
    State.Carries False noAreas s (s.ackEvent n o after) :=
  State.Spares.pointEvent (State.setPoint_bears (p := (s.point n).acknowledge o s.now) rfl rfl) false ha

theorem actAck_carries (x : ConsoleNo × PointNo) (s : State) : (actAck s x).Gives (State.Carries False noAreas s) := by
  refine .withOperator (fun o => ?_) _
  dsimp only
  split
  · trivial
  · split
    · trivial
    · exact s.ackEvent_carries x.2 o.number (by simp)

theorem actAckHead_carries (x : ConsoleNo × Option PointNo) (s : State) :
    (actAckHead s x).Gives (State.Carries False noAreas s) := by
  refine .withOperator (fun _ => ?_) _
  split
  · trivial
  · refine .withOperator (fun o => ?_) _
    split
    · trivial
    · exact s.ackEvent_carries _ o.number (by simp)

/-- Points that are not of priority 1 are acknowledged one after another. -/
theorem State.acknowledgeAll_spares (o : Nat) (ns : List PointNo) (h : ∀ n ∈ ns, (s.point n).priority ≠ .p1) :
    State.Spares noAreas s (ns.foldl (fun s n => s.acknowledge n o) s) := by
  induction ns generalizing s with
  | nil => exact .refl s
  | cons n ns ih =>
    have priority (m : PointNo) : ((s.acknowledge n o).point m).priority = (s.point m).priority := by
      unfold State.acknowledge
      rw [State.point_setPoint]
      split
      · subst_vars; rfl
      · rfl
    have first : State.Spares noAreas s (s.acknowledge n o) :=
      (State.setPoint_bears (p := (s.point n).acknowledge o s.now) rfl rfl).mono fun _ hb => h n List.mem_cons_self hb.1
    rw [List.foldl_cons]
    exact first.trans (ih fun m hm => by rw [priority]; exact h m (List.mem_cons_of_mem n hm))

theorem actAckArea_carries {p : List Byte} {x : ConsoleNo × AreaNo × Nat} (hx : parseAckArea p = some x) (s : State) :
    (actAckArea s x).Gives (State.Carries False noAreas s) := by
  have priority (n : PointNo) (hn : n ∈ s.ackSelection x.2.1 x.2.2) : (s.point n).priority ≠ .p1 := fun e => by
    have limit := parseAckArea_limit hx
    rw [State.mem_ackSelection] at hn
    simp only [State.ackSelects, Bool.and_eq_true, decide_eq_true_eq, e] at hn
    exact absurd (limit.trans hn.2) (by decide)
  unfold actAckArea
  refine .withOperator (fun o => ?_) _
  dsimp only
  generalize s.ackSelection x.2.1 x.2.2 = ns at priority
  split
  · exact .refl s
  · exact (State.acknowledgeAll_spares o.number ns priority).event false false

theorem State.modConsole_spares (c : ConsoleNo) (f : Console → Console) (s : State) : State.Spares D s (s.modConsole c f) :=
  .ofRest rfl rfl rfl rfl rfl rfl rfl

theorem State.driveOutputs_spares (s : State) : State.Spares D s s.driveOutputs :=
  .ofRest rfl rfl rfl rfl rfl rfl rfl

theorem State.silence_spares (c : ConsoleNo) (source : SilenceSource) (s : State) : State.Spares D s (s.silence c source) := by
  have marked : State.Spares D s (s.modConsole c (Console.silenced s.raiseCounter (s.resoundAfter c))) := s.modConsole_spares c _
  unfold State.silence
  dsimp only
  generalize s.modConsole c (Console.silenced s.raiseCounter (s.resoundAfter c)) = v at marked ⊢
  refine State.Spares.notify (.trans ?_ (State.driveOutputs_spares _)) rfl
  split
  · exact marked.trans (.ofRest rfl rfl rfl rfl rfl rfl rfl)
  · exact marked

theorem State.ackPress_carries (c : ConsoleNo) (s : State) : State.Carries False noAreas s (s.ackPress c) := by
  unfold State.ackPress
  split
  · exact (State.notify_spares rfl s).carries
  · split
    · exact (State.notify_spares rfl s).carries
    · split
      · exact (State.notify_spares rfl s).carries
      · exact s.ackEvent_carries _ _ fun _ hk => List.mem_singleton.mp hk ▸ rfl

theorem State.silencePress_carries (c : ConsoleNo) (s : State) : State.Carries q noAreas s (s.silencePress c) := by
  unfold State.silencePress
  split
  · exact (State.notify_spares rfl s).carries
  · exact (s.silence_spares c .key).carries

end Sys2Proof.Machine

/-!
The trip unit in the handovers: whatever it does to its codes and to the points, every area's reasons are reconsidered at the end of
its event (R147).
-/

namespace Sys2Proof.Machine

variable {s t u d : State} {a : AreaNo} {c : TripNo} {D E : AreaNo → Prop} {q : Prop}

/-- Every area. -/
abbrev everyArea : AreaNo → Prop := fun _ => True

/-- A change of the points and the trip unit alone. -/
theorem State.Spares.ofTrips (clock : t.clock = s.clock) (settings : t.settings = s.settings) (mill : t.mill = s.mill)
    (areas : t.areas = s.areas) (queue : t.queue = s.queue) : State.Spares everyArea s t := by
  have area (a : AreaNo) : t.area a = s.area a := by simp only [State.area, areas]
  exact ⟨clock, settings, mill, fun a => by rw [area]; exact ⟨rfl, rfl, rfl⟩, ⟨[], queue, nofun⟩,
    fun _ ha => absurd trivial ha⟩

theorem State.modCode_trips (c : TripNo) (f : TripCode → TripCode) (s : State) : State.Spares everyArea s (s.modCode c f) :=
  .ofTrips rfl rfl rfl rfl rfl

/-- The trip unit's records change beside its codes. -/
theorem State.modTrip_spares {f : TripUnit → TripUnit} (h : (f s.trip).codes = s.trip.codes) :
    State.Spares D s (s.modTrip f) := by
  refine ⟨rfl, rfl, rfl, fun _ => ⟨rfl, rfl, rfl⟩, ⟨[], rfl, nofun⟩, fun a _ => State.reasonsNow_congr rfl rfl ?_⟩
  have code (e : TripNo) : (s.modTrip f).code e = s.code e := by
    simp only [State.code]
    exact congrArg (·[e]) h
  simp only [State.tripCovers, code]

/-! ### Runs -/

theorem State.runGroup_trips (c : TripNo) (g : Group) (s : State) : State.Spares everyArea s (s.runGroup c g).1 := by
  have changes : s.GroupChanges (s.runGroup c g).1 := s.runMembers_changes c g _
  rw [changes.rest]
  exact .ofTrips rfl rfl rfl rfl rfl

theorem State.tripDone_trips (c : TripNo) (s : State) : State.Spares everyArea s (s.tripDone c) :=
  (s.modCode_trips c _).notify rfl

theorem State.dropPending_spares (s : State) : State.Spares D s s.dropPending := by
  unfold State.dropPending
  split
  · exact (State.modTrip_spares (f := fun x => { x with pending := none }) rfl).notify rfl
  · exact .refl s

theorem State.tripFault_trips (c : TripNo) (e : EntryNo) (s : State) : State.Spares everyArea s (s.tripFault c e) :=
  (((s.modCode_trips c _).trans (State.modTrip_spares (f := fun x => { x with latch := true }) rfl)).notify rfl).trans
    (State.dropPending_spares _)

theorem State.tripStep_spares (c : TripNo) (e : EntryNo) (notify : Bool) (s : State) :
    State.Spares D s (s.tripStep c e notify) := by
  unfold State.tripStep
  split
  · exact State.notify_spares rfl s
  · exact .refl s

/-- The processing of a running code's list (R110 to R114). -/
theorem State.runFrom_trips (c : TripNo) (n i : Nat) (s : State) : State.Spares everyArea s (s.runFrom c n i) := by
  induction n generalizing i s with
  | zero => exact s.tripFault_trips c 511
  | succ n ih =>
    unfold State.runFrom
    split
    · exact s.tripFault_trips c 511
    · rename_i k _
      split
      · exact s.tripFault_trips c k
      · exact (s.tripStep_spares c k _).trans (State.modCode_trips c _ _)
      · rename_i g _ _ _
        have group := s.runGroup_trips c g
        generalize s.runGroup c g = x at group
        obtain ⟨t, faulty⟩ := x
        have stepped (notify : Bool) := group.trans (State.tripStep_spares c k notify t)
        dsimp only
        split
        · exact group.trans (t.tripFault_trips c k)
        · split
          · exact (stepped _).trans (State.tripDone_trips c _)
          · exact (stepped _).trans (ih _ _)

theorem State.startRun_trips (c : TripNo) (s : State) : State.Spares everyArea s (s.startRun c) :=
  ((s.modCode_trips c _).notify rfl).trans (State.runFrom_trips c _ _ _)

theorem State.takePending_trips (s : State) : State.Spares everyArea s s.takePending := by
  unfold State.takePending
  split
  · exact (State.modTrip_spares (f := fun x => { x with pending := none }) rfl).trans (State.startRun_trips _ _)
  · exact .refl s

theorem State.deliver_trips (c : TripNo) (s : State) : State.Spares everyArea s (s.deliver c) := by
  unfold State.deliver
  split
  · exact State.notify_spares rfl s
  · split
    · exact State.notify_spares rfl s
    · split
      · exact (s.startRun_trips c).trans (State.takePending_trips _)
      · split
        · exact .refl s
        · split
          · exact State.modTrip_spares rfl
          · exact State.notify_spares rfl s

theorem execTripQualifyTimerExpiry_carries (s : State) :
    ∃ t, execTripQualifyTimerExpiry s = .next t ∧ State.Carries False noAreas s t := by
  unfold execTripQualifyTimerExpiry
  split
  · have settled : State.Spares everyArea s (s.modTrip fun x => { x with qualifier := .settling false }) :=
      State.modTrip_spares rfl
    exact ⟨_, rfl, (settled.trans (State.deliver_trips _ _)).tripEvent⟩
  all_goals exact ⟨s, rfl, .refl s⟩

theorem execWaitDeadline_carries (c : TripNo) (s : State) :
    ∃ t, execWaitDeadline c s = .next t ∧ State.Carries False noAreas s t := by
  unfold execWaitDeadline
  split
  · rename_i k d _
    split
    · have left := s.modCode_trips c fun r => { r with state := .running k none }
      refine ⟨_, rfl, State.Spares.tripEvent ((left.trans ?_).trans (State.takePending_trips _))⟩
      split
      · exact State.tripDone_trips c _
      all_goals exact State.runFrom_trips c _ _ _
    · exact ⟨s, rfl, .refl s⟩
  all_goals exact ⟨s, rfl, .refl s⟩

/-! ### Releases -/

theorem State.unsuppressAll_trips (c : TripNo) (s : State) : State.Spares everyArea s (s.unsuppressAll c).1 := by
  rw [(s.unsuppressAll_spec c).rest]
  exact .ofTrips rfl rfl rfl rfl rfl

theorem State.release_carries (c : TripNo) (source : ReleaseSource) (s : State) :
    State.Carries False noAreas s (s.release c source).1 := by
  have freed := s.unsuppressAll_trips c
  unfold State.release
  generalize s.unsuppressAll c = x at freed ⊢
  obtain ⟨t, new⟩ := x
  dsimp only at freed ⊢
  exact (((freed.trans (t.modCode_trips c _)).notify rfl).trans (State.takePending_trips _)).tripEvent

theorem releaseAnswer_carries (c : TripNo) (source : ReleaseSource) (s : State) :
    (releaseAnswer s c source).Gives (State.Carries False noAreas s) := by
  have released := s.release_carries c source
  unfold releaseAnswer
  split
  · trivial
  · generalize s.release c source = x at released ⊢
    obtain ⟨t, new⟩ := x
    exact released

theorem actReleaseTrip_carries (x : Option ConsoleNo × TripNo) (s : State) :
    (actReleaseTrip s x).Gives (State.Carries False noAreas s) := by
  unfold actReleaseTrip
  split
  · exact releaseAnswer_carries _ _ s
  · exact .withOperator (fun _ => releaseAnswer_carries _ _ s) _

theorem execTripHoldDeadline_carries (c : TripNo) (s : State) :
    ∃ t, execTripHoldDeadline c s = .next t ∧ State.Carries False noAreas s t := by
  unfold execTripHoldDeadline
  split
  · split
    · exact ⟨_, rfl, s.release_carries c .expiry⟩
    · exact ⟨s, rfl, .refl s⟩
  all_goals exact ⟨s, rfl, .refl s⟩

/-! ### The lines and the loads -/

theorem execTripLinesChange_carries (lines : Fin 16) (s : State) :
    ∃ t, execTripLinesChange lines s = .next t ∧ State.Carries False noAreas s t := by
  unfold execTripLinesChange
  split
  · exact ⟨s, rfl, .refl s⟩
  · exact ⟨_, rfl, (State.modTrip_spares rfl).carries⟩

theorem execTripReleaseTimerExpiry_carries (s : State) :
    ∃ t, execTripReleaseTimerExpiry s = .next t ∧ State.Carries False noAreas s t := by
  unfold execTripReleaseTimerExpiry
  split
  · exact ⟨_, rfl, (State.modTrip_spares rfl).carries⟩
  all_goals exact ⟨s, rfl, .refl s⟩

theorem actLoadTripEntries_carries (x : Nat × List TripEntry × Bool) (s : State) :
    (actLoadTripEntries s x).Gives (State.Carries False noAreas s) := by
  unfold actLoadTripEntries
  split
  · trivial
  · exact (State.modTrip_spares rfl).carries

/-- A code that is loaded is IDLE, and gives no area its TRIP reason before or after. -/
theorem actLoadTripCode_carries (x : TripNo × TripConfig) (hs : s.ConfigSound) :
    (actLoadTripCode s x).Gives (State.Carries False noAreas s) := by
  unfold actLoadTripCode
  split
  · trivial
  · rename_i free
    have idle (e : TripNo) : (s.code e).state = .idle := by
      cases hm : s.mode with
      | config => exact (hs hm).codes e
      | run =>
        have all : s.tripsIdle := by simpa [hm] using free
        have idle := List.all_eq_true.mp all e (List.mem_finRange e)
        revert idle
        cases (s.code e).state <;> simp [TripState.isIdle]
    have none (t : State) (h : ∀ e, (t.code e).state = .idle) (a : AreaNo) : t.tripCovers a = false :=
      List.any_eq_false.mpr fun e _ => by simp [h e, TripState.isRunning]
    refine State.Spares.carries ⟨rfl, rfl, rfl, fun _ => ⟨rfl, rfl, rfl⟩, ⟨[], rfl, nofun⟩, fun a _ => ?_⟩
    refine State.reasonsNow_congr rfl rfl ((none _ (fun e => ?_) a).trans (none s idle a).symm)
    rw [State.code_modCode]
    split
    · exact idle x.1
    · exact idle e

end Sys2Proof.Machine

/-!
The seats, the sheets and the handover unit's own commands in the handovers, and every request but those that open and close the mill
handover, set the clock or the configuration, or reset.
-/

namespace Sys2Proof.Machine

variable {s t u d : State} {a : AreaNo} {c : ConsoleNo} {D E : AreaNo → Prop} {q : Prop}

/-! ### Seats -/

theorem State.roster_spares (l : List Operator) (s : State) : State.Spares D s { s with roster := l } :=
  .ofRest rfl rfl rfl rfl rfl rfl rfl

theorem State.revive_carries (c : ConsoleNo) (n : Nat) (s : State) : State.Carries True noAreas s (s.revive c n) :=
  ((s.modConsole_spares c _).notify rfl).seatEvent _ true

theorem State.activity_carries (c : ConsoleNo) (s : State) : State.Carries True noAreas s (s.activity c) := by
  unfold State.activity
  split
  · exact .refl s
  · exact (s.modConsole_spares c _).carries
  · exact s.revive_carries c _

theorem State.noteActivity_carries (p : List Byte) (s : State) : State.Carries True noAreas s (s.noteActivity p) := by
  unfold State.noteActivity
  split
  · exact s.activity_carries _
  · exact .refl s

theorem State.keyAction_carries (c : ConsoleNo) (k : KeyName) (s : State) : State.Carries False noAreas s (s.keyAction c k) := by
  cases k with
  | ack => exact (s.activity_carries c).behind (State.ackPress_carries c _)
  | silence => exact (s.activity_carries c).behind (State.silencePress_carries c _)

theorem execKeyQualifyTimerExpiry_carries (c : ConsoleNo) (k : KeyName) (s : State) :
    ∃ t, execKeyQualifyTimerExpiry c k s = .next t ∧ State.Carries False noAreas s t := by
  unfold execKeyQualifyTimerExpiry
  dsimp only
  split
  · exact ⟨_, rfl, State.Carries.behind (s.modConsole_spares c _).carries (State.keyAction_carries c k _)⟩
  · exact ⟨s, rfl, .refl s⟩

theorem execPresenceDeadline_carries (c : ConsoleNo) (s : State) :
    ∃ t, execPresenceDeadline c s = .next t ∧ State.Carries False noAreas s t := by
  unfold execPresenceDeadline
  split
  · split
    · exact ⟨_, rfl, ((s.modConsole_spares c _).notify rfl).event true false⟩
    · exact ⟨s, rfl, .refl s⟩
  all_goals exact ⟨s, rfl, .refl s⟩

theorem actSignOn_carries (x : ConsoleNo × Nat) (s : State) : (actSignOn s x).Gives (State.Carries False noAreas s) := by
  have event : State.Carries True noAreas s (s.signOn x.1 x.2) :=
    ((s.modConsole_spares x.1 _).trans (State.roster_spares _ _)).seatEvent _ true
  unfold actSignOn
  split
  · trivial
  · split
    · trivial
    · split
      · trivial
      · split
        · trivial
        · split
          · trivial
          · exact event.mono False.elim

theorem State.signedOff_spares (c : ConsoleNo) (s : State) : State.Spares D s (s.signedOff c) := by
  have rest : (s.signedOff c).clock = s.clock ∧ (s.signedOff c).settings = s.settings ∧ (s.signedOff c).mill = s.mill ∧
      (s.signedOff c).queue = s.queue ∧ (s.signedOff c).points = s.points ∧ (s.signedOff c).trip = s.trip := by
    unfold State.signedOff State.unseat
    split <;> exact ⟨rfl, rfl, rfl, rfl, rfl, rfl⟩
  obtain ⟨clock, settings, mill, queue, points, trip⟩ := rest
  refine ⟨clock, settings, mill, fun b => ?_, ⟨[], queue, nofun⟩, fun b _ =>
    State.reasonsNow_congr (State.p1In_congr points b _) ?_ (State.tripCovers_congr trip b)⟩
  · rw [State.area_signedOff]; exact ⟨rfl, rfl, rfl⟩
  · rw [State.area_signedOff]

theorem actSignOff_carries (x : Option ConsoleNo × ConsoleNo) (s : State) :
    (actSignOff s x).Gives (State.Carries False noAreas s) := by
  have event : State.Carries True noAreas s (s.signOff x.2) := by
    rw [State.signOff_eq]
    exact (s.signedOff_spares x.2).seatEvent _ true
  unfold actSignOff
  split
  · trivial
  · split
    · trivial
    · exact event.mono False.elim

theorem actLoadOperator_carries (x : OperatorLoad) (s : State) : (actLoadOperator s x).Gives (State.Carries False noAreas s) := by
  have stored (o : Operator) : State.Carries False noAreas s (s.storeOperator o) := by
    unfold State.storeOperator
    split
    all_goals exact (s.roster_spares _).carries
  unfold actLoadOperator
  split
  · split
    · trivial
    · split
      · trivial
      · exact stored _
  · split
    · trivial
    · split
      · trivial
      · exact (s.roster_spares _).carries

/-! ### Keys and timers -/

theorem execKeyContactChange_carries (c : ConsoleNo) (k : KeyName) (closed : Bool) (s : State) :
    ∃ t, execKeyContactChange c k closed s = .next t ∧ State.Carries False noAreas s t := by
  unfold execKeyContactChange
  dsimp only
  split
  · exact ⟨s, rfl, .refl s⟩
  · split <;> exact ⟨_, rfl, (s.modConsole_spares c _).carries⟩

theorem execKeyReleaseTimerExpiry_carries (c : ConsoleNo) (k : KeyName) (s : State) :
    ∃ t, execKeyReleaseTimerExpiry c k s = .next t ∧ State.Carries False noAreas s t := by
  unfold execKeyReleaseTimerExpiry
  dsimp only
  split
  · exact ⟨_, rfl, (s.modConsole_spares c _).carries⟩
  · exact ⟨s, rfl, .refl s⟩

theorem execStuckTimerExpiry_carries (c : ConsoleNo) (k : KeyName) (s : State) :
    ∃ t, execStuckTimerExpiry c k s = .next t ∧ State.Carries False noAreas s t := by
  unfold execStuckTimerExpiry
  dsimp only
  split
  · exact ⟨_, rfl, ((s.modConsole_spares c _).notify rfl).carries⟩
  · exact ⟨s, rfl, .refl s⟩

theorem execP1ResoundDeadline_carries (c : ConsoleNo) (s : State) :
    ∃ t, execP1ResoundDeadline c s = .next t ∧ State.Carries False noAreas s t := by
  unfold execP1ResoundDeadline
  split
  · split
    · exact ⟨_, rfl, ((s.modConsole_spares c _).trans (State.driveOutputs_spares _)).carries⟩
    · exact ⟨s, rfl, .refl s⟩
  · exact ⟨s, rfl, .refl s⟩

/-! ### Sheets -/

theorem State.modDraft_spares (a : AreaNo) (f : Draft → Draft) (s : State) : State.Spares D s (s.modDraft a f) :=
  State.modArea_spares (f := fun r => { r with draft := f r.draft }) ⟨rfl, rfl, rfl⟩ (.inl rfl)

theorem State.placeItem_spares (i : SlotNo) (x : Item) (s : State) : State.Spares D s (s.placeItem i x) :=
  .ofRest rfl rfl rfl rfl rfl rfl rfl

theorem State.freeSlot_spares (i : SlotNo) (s : State) : State.Spares D s (s.freeSlot i) :=
  .ofRest rfl rfl rfl rfl rfl rfl rfl

theorem actLockDraft_carries (x : ConsoleNo × AreaNo) (s : State) : (actLockDraft s x).Gives (State.Carries False noAreas s) := by
  refine .withOperator (fun _ => ?_) _
  dsimp only
  split
  · trivial
  · split
    · trivial
    · exact (s.modDraft_spares x.2 _).carries

theorem actUnlockDraft_carries (x : ConsoleNo × AreaNo) (s : State) :
    (actUnlockDraft s x).Gives (State.Carries False noAreas s) := by
  refine .withOperator (fun _ => ?_) _
  dsimp only
  split
  · trivial
  · split
    · trivial
    · exact (s.modDraft_spares x.2 _).carries

theorem actAddItem_carries (x : ConsoleNo × AreaNo × ItemKind) (s : State) :
    (actAddItem s x).Gives (State.Carries False noAreas s) := by
  have added (i : SlotNo) (o : Nat) : State.Spares noAreas s (s.addItem x.2.1 i x.2.2 o) :=
    (s.placeItem_spares i _).trans (State.modDraft_spares x.2.1 _ _)
  refine .withOperator (fun o => ?_) _
  dsimp only
  split
  · trivial
  · split
    · trivial
    · split
      · trivial
      · split
        · trivial
        · exact (added _ o.number).event false true

theorem actRemoveItem_carries (x : ConsoleNo × AreaNo × Nat) (s : State) :
    (actRemoveItem s x).Gives (State.Carries False noAreas s) := by
  refine .withOperator (fun _ => ?_) _
  dsimp only
  split
  · trivial
  · split
    · trivial
    · rename_i i _
      have drafted : State.Spares noAreas s (s.modDraft x.2.1 fun d => { d with items := d.items.eraseIdx x.2.2 }) :=
        s.modDraft_spares x.2.1 _
      exact (drafted.trans (State.freeSlot_spares i _)).event false true

theorem actPost_carries (x : ConsoleNo × AreaNo) (s : State) : (actPost s x).Gives (State.Carries False noAreas s) := by
  refine .withOperator (fun o => ?_) _
  split
  · trivial
  · exact (s.modDraft_spares x.2 _).event false true

theorem actReviewItem_carries (x : ConsoleNo × AreaNo × Nat) (s : State) :
    (actReviewItem s x).Gives (State.Carries False noAreas s) := by
  have reviewed (i : SlotNo) (o : Nat) : State.Spares noAreas s (s.review i o) := .ofRest rfl rfl rfl rfl rfl rfl rfl
  refine .withOperator (fun o => ?_) _
  dsimp only
  split
  · trivial
  · split
    · trivial
    · split
      · trivial
      · split
        · trivial
        · exact ((reviewed _ o.number).then (Work.examine_handles x.2.1 _ _ false true).finish).mono False.elim

/-! ### Handovers -/

theorem actSuspendArea_carries (a : AreaNo) (s : State) : (actSuspendArea s a).Gives (State.Carries False noAreas s) := by
  unfold actSuspendArea
  dsimp only
  split
  · trivial
  · split
    · trivial
    · split
      · trivial
      · exact s.request_carries a true

theorem actResumeArea_carries (a : AreaNo) (s : State) : (actResumeArea s a).Gives (State.Carries False noAreas s) := by
  unfold actResumeArea
  dsimp only
  split
  · trivial
  · split
    · trivial
    · split
      · trivial
      · exact s.request_carries a false

theorem actConfirmStep_carries (x : ConsoleNo × AreaNo) (s : State) :
    (actConfirmStep s x).Gives (State.Carries False noAreas s) := by
  refine .withOperator (fun o => ?_) _
  split
  · trivial
  · rename_i may
    have running : (s.area x.2).handover.isRunning := by
      unfold State.mayConfirm at may
      cases h : (s.area x.2).handover.isRunning <;> simp_all
    cases h : (s.area x.2).handover with
    | running p step hold => exact State.completedStep_carries h true
    | steady | suspended | halted | done => rw [h] at running; cases running

theorem execHandoverHoldDeadline_carries (a : AreaNo) (s : State) :
    ∃ t, execHandoverHoldDeadline a s = .next t ∧ State.Carries False noAreas s t := by
  unfold execHandoverHoldDeadline
  split
  · rename_i h
    split
    · exact ⟨_, rfl, State.completedStep_carries h true⟩
    · exact ⟨s, rfl, .refl s⟩
  all_goals exact ⟨s, rfl, .refl s⟩

theorem execStepTimeout_carries (a : AreaNo) (s : State) :
    ∃ t, execStepTimeout a s = .next t ∧ State.Carries False noAreas s t := by
  unfold execStepTimeout
  split
  · rename_i h
    split
    · exact ⟨_, rfl, State.halted_carries .stepTimeout (.inl ⟨_, _, h⟩)⟩
    · exact ⟨s, rfl, .refl s⟩
  all_goals exact ⟨s, rfl, .refl s⟩

theorem actAbortArea_carries (a : AreaNo) (s : State) : (actAbortArea s a).Gives (State.Carries False noAreas s) := by
  unfold actAbortArea
  dsimp only
  split
  · trivial
  · split
    · trivial
    · split
      · trivial
      · rename_i inProgress
        cases h : (s.area a).handover with
        | running => exact State.halted_carries .hostAbort (.inl ⟨_, _, h⟩)
        | suspended => exact State.halted_carries .hostAbort (.inr ⟨_, _, _, h⟩)
        | steady | halted | done => rw [h] at inProgress; simp [Handover.inProgress] at inProgress

theorem actClearAbort_carries (a : AreaNo) (s : State) : (actClearAbort s a).Gives (State.Carries False noAreas s) := by
  unfold actClearAbort
  split
  · trivial
  · exact State.Spares.carries (State.modArea_spares (f := fun r => { r with abort := none }) ⟨rfl, rfl, rfl⟩ (.inl rfl))

theorem actRestartArea_carries (x : ConsoleNo × AreaNo) (s : State) :
    (actRestartArea s x).Gives (State.Carries False noAreas s) := by
  refine .withOperator (fun o => ?_) _
  split
  · trivial
  · rename_i halted
    cases h : (s.area x.2).handover with
    | halted p => exact State.restarted_carries h
    | steady | running | suspended | done => rw [h] at halted; simp [Handover.isHalted] at halted

/-! ### Loads of the records in CONFIG -/

/-- In CONFIG every area is STEADY, whatever the points and the trip codes say. -/
theorem State.Carries.ofConfig (rest : s.AtRest) (clock : t.clock = s.clock) (settings : t.settings = s.settings)
    (mill : t.mill = s.mill) (areas : t.areas = s.areas) (queue : t.queue = s.queue) : State.Carries q noAreas s t := by
  have area (a : AreaNo) : t.area a = s.area a := by simp only [State.area, areas]
  refine ⟨clock, settings, fun a => by rw [area], fun k => k.congr mill (fun a => by rw [area]) (fun a => by rw [area])
    fun a => by rw [area], fun _ => ⟨fun a _ => Handover.agrees_of_settled ?_⟩, fun _ => ⟨[], .ofPlain queue nofun mill
      fun a => by rw [area]⟩⟩
  rw [area, rest.handover a]
  rfl

theorem actSetPoint_carries (x : PointNo × AreaNo × Priority) (hs : s.ConfigSound) :
    (actSetPoint s x).Gives (State.Carries False noAreas s) := by
  unfold actSetPoint
  dsimp only
  split
  · trivial
  · split
    · trivial
    · rename_i inService
      split
      · trivial
      · cases hm : s.mode with
        | config => exact .ofConfig (hs hm) rfl rfl rfl rfl rfl
        | run =>
          have out : (s.point x.1).outOfService := by simpa [hm] using inService
          exact (State.setPoint_hidden_spares (by simp [Point.hidden, out]) (by simp [Point.hidden, out])).carries

end Sys2Proof.Machine

/-!
The commands that open and close the mill handover (R143, R155), and those that set the clock, the configuration or the operating
state: what each keeps and tells of the handovers (`State.Attends`).
-/

namespace Sys2Proof.Machine

variable {s t u d s' t' : State} {w : Work} {a : AreaNo} {h h' : Handover} {k : Crew} {ks : List NoticeKind} {q n m : Prop}

/-! ### The relation -/

/-- A command keeps the rules of the duty crews and of the suspension reasons, and where `n` its notices tell of both. -/
structure State.Attends (n : Prop) (s t : State) : Prop where
  duties : s.DutiesSound → t.DutiesSound
  agrees : s.HandoversSound → t.HandoversSound
  told   : n → s.DutiesSound → ∃ ks, s.TellsDuties t ks ∧ s.TellsReasons t ks

theorem State.agreesOff_iff : s.AgreesOff noAreas ↔ s.HandoversSound :=
  ⟨fun x => State.handoversSound_iff.mpr fun a => x.area a id, fun x => ⟨fun a _ => State.handoversSound_iff.mp x a⟩⟩

theorem State.Carries.attends (x : State.Carries q noAreas s t) (hs : s.ConfigSound) : State.Attends n s t where
  duties := x.duties
  agrees sound := State.agreesOff_iff.mp (x.agrees (State.agreesOff_iff.mpr sound))
  told _ sound := by
    obtain ⟨ks, told⟩ := x.told sound
    have starts := sound.starts hs
    exact ⟨ks, told.duties starts (x.duties sound) x.config, told.reasons starts⟩

/-- The records that the rules and their notices hang on. -/
structure State.SameCore (s t : State) : Prop where
  mode     : t.mode = s.mode
  clock    : t.clock = s.clock
  settings : t.settings = s.settings
  points   : t.points = s.points
  areas    : t.areas = s.areas
  trip     : t.trip = s.trip
  mill     : t.mill = s.mill
  queue    : t.queue = s.queue

theorem State.SameCore.duties (x : s.SameCore t) (sound : s.DutiesSound) : t.DutiesSound := by
  have area (a : AreaNo) : t.area a = s.area a := by simp only [State.area, x.areas]
  exact sound.congr x.mill (fun a => by rw [area]) (fun a => by rw [area]) fun a => by rw [area]

theorem State.SameCore.agrees (x : s.SameCore t) (sound : s.HandoversSound) : t.HandoversSound :=
  have spares : State.Spares noAreas s t := .ofRest x.clock x.settings x.mill x.areas x.queue x.points x.trip
  State.agreesOff_iff.mp (spares.agrees (State.agreesOff_iff.mpr sound))

theorem State.SameCore.hands (before : s'.SameCore s) (after : t.SameCore t') (x : s.Hands t ks) : s'.Hands t' ks :=
  (after.queue.trans x).trans (State.notifyAll_congr ks before.queue before.clock before.settings)

theorem State.TellsDuties.congr (x : s.TellsDuties t ks) (before : s'.SameCore s) (after : t.SameCore t') : s'.TellsDuties t' ks := by
  have area (b : AreaNo) : s'.area b = s.area b := by simp only [State.area, before.areas]
  have area' (b : AreaNo) : t'.area b = t.area b := by simp only [State.area, after.areas]
  obtain ⟨queue, shift, areas⟩ := x
  refine ⟨before.hands after queue, ?_, fun b => by rw [area, area']; exact areas b⟩
  simp only [State.shiftAfter, before.mill, before.mode, after.mill] at shift ⊢
  exact shift

theorem State.TellsReasons.congr (x : s.TellsReasons t ks) (before : s'.SameCore s) (after : t.SameCore t') :
    s'.TellsReasons t' ks := by
  have area (b : AreaNo) : s'.area b = s.area b := by simp only [State.area, before.areas]
  have area' (b : AreaNo) : t'.area b = t.area b := by simp only [State.area, after.areas]
  obtain ⟨queue, once, suspended, resumed, aborted⟩ := x
  refine ⟨before.hands after queue, once, ?_, ?_, ?_⟩ <;> simp only [area, area'] <;> assumption

theorem State.Attends.congr (x : State.Attends n s t) (before : s'.SameCore s) (after : t.SameCore t') : State.Attends n s' t' where
  duties sound := after.duties (x.duties (before.duties sound))
  agrees sound := after.agrees (x.agrees (before.agrees sound))
  told hn sound := by
    obtain ⟨ks, duties, reasons⟩ := x.told hn (before.duties sound)
    exact ⟨ks, duties.congr before after, reasons.congr before after⟩

/-! ### Opening the mill handover (R143) -/

/-- The work of the opening: every configured area's list is begun. -/
def State.opening (k : Crew) (s : State) : Work :=
  s.configuredAreas.foldl (fun w a => w.begin a)
    { s := s.openMill k, cover := true, shift := s.configuredAreas.isEmpty, sheets := true }

theorem State.beginHandover_eq (k : Crew) (s : State) : s.beginHandover k = (s.opening k).finish := rfl

theorem State.opening_of (k : Crew) (s : State) : (s.opening k).Of (s.openMill k) fun a =>
    if (s.area a).config.configured then some ((s.openMill k).begun a) else none := by
  have sorted : s.configuredAreas.Pairwise (· < ·) := allAreas_sorted.filter _
  have of := Work.Of.fold (d := s.openMill k) (own := fun s a => some (s.begun a)) (g := fun w a => w.begin a)
    (fun c => by rw [c.begun]) (fun w a => (w.begin_turns a).goes) sorted true s.configuredAreas.isEmpty true
  unfold State.opening
  simpa [State.configuredAreas, mem_allAreas] using of

/-- At the opening every configured area is outstanding (R138, R143). -/
theorem State.openMill_kept (k : Crew) (sound : s.DutiesSound) (closed : s.mill.incoming = none) :
    (Work.mk (s.openMill k) [] true s.configuredAreas.isEmpty true).DutiesKept := by
  have steady := (sound.closed closed).2
  have area (a : AreaNo) : (s.openMill k).area a = s.area a := rfl
  have count : s.configuredAreas.length = (s.openMill k).undone := by
    simp only [State.configuredAreas, State.undone, area, steady, List.countP_eq_length_filter]
    simp [Handover.isDone, allAreas]
  refine ⟨fun e => absurd e (by simp [State.openMill]), fun _ => ⟨count, ?_⟩, fun a _ => steady a, fun a p j e => ?_, fun a _ => ?_⟩
  · simp [State.openMill]
  · rw [area, steady] at e
    cases e
  · exact sound.duty a fun p e => by rw [steady] at e; cases e

theorem State.opening_kept (k : Crew) (sound : s.DutiesSound) (closed : s.mill.incoming = none) : (s.opening k).DutiesKept := by
  have steady := (sound.closed closed).2
  refine (State.openMill_kept k sound closed).beginAll ((List.nodup_finRange 32).filter _) (fun a _ => ?_) (fun a ha => ?_)
    (by simp [State.openMill])
  · show (s.area a).handover.isDone = false
    rw [steady]; rfl
  · exact State.mem_configuredAreas.mp ha

theorem State.opening_goes (k : Crew) (sound : s.DutiesSound) (closed : s.mill.incoming = none) (a : AreaNo) :
    (s.openMill k).AreaGoes False a (s.area a).handover (s.opening k).out ((s.opening k).s.area a).handover := by
  refine (s.opening_of k).goes_out (fun b x e => ?_) (fun _ _ => id) a
  have steady : (s.area b).handover = .steady := (sound.closed closed).2 b
  have begun : (s.openMill k).AreaGoes False b (s.area b).handover ((s.openMill k).begun b).1 ((s.openMill k).begun b).2 :=
    State.begun_goes _ b (by rw [steady]; rfl) (by rw [steady]; rfl) fun _ => by simp [State.openMill]
  split at e
  · exact Option.some.inj e ▸ begun
  · cases e

/-- The telling from the opened handover is that from before: no area is under way, and no crew comes in. -/
theorem State.TellsDuties.ofOpen (x : (s.openMill k).TellsDuties t ks) (closed : s.mill.incoming = none) : s.TellsDuties t ks := by
  obtain ⟨queue, shift, areas⟩ := x
  refine ⟨Eq.trans queue (State.notifyAll_congr ks rfl rfl rfl), shift.imp_right ?_, areas⟩
  exact fun ⟨told, run, _, mill⟩ => ⟨told, run, fun j e => absurd (closed.symm.trans e) nofun, mill⟩

theorem State.TellsReasons.ofOpen (x : (s.openMill k).TellsReasons t ks) : s.TellsReasons t ks := by
  obtain ⟨queue, once, suspended, resumed, aborted⟩ := x
  exact ⟨Eq.trans queue (State.notifyAll_congr ks rfl rfl rfl), once, suspended, resumed, aborted⟩

theorem State.beginHandover_attends (k : Crew) (closed : s.mill.incoming = none) (hm : s.mode = .run) :
    State.Attends n s (s.beginHandover k) := by
  rw [State.beginHandover_eq]
  have ends := (s.opening k).finish_carries (after := [])
  have duties (sound : s.DutiesSound) : (s.opening k).finish.DutiesSound :=
    ends.duties (State.opening_kept k sound closed).settle
  refine ⟨duties, fun sound => ?_, fun _ sound => ?_⟩
  · have opened : (s.openMill k).AgreesOff noAreas :=
      ⟨fun a _ => State.handoversSound_iff.mp sound a⟩
    have begun : (s.opening k).s.AgreesOff noAreas := Work.foldl_begin_agrees _ opened
    exact State.agreesOff_iff.mp (ends.agrees (Work.settle_agrees begun))
  · have kept := State.opening_kept k sound closed
    have of := s.opening_of k
    obtain ⟨ks, told⟩ := of.tellsHandovers (State.opening_goes k sound closed) kept
    obtain ⟨ls, told'⟩ := ends.told kept.settle
    have frames := of.acts.frames.trans (s.opening k).settle_frames
    have all := told.trans told' (r := False) (.inr trivial) (fun e => e.elim) frames.clock frames.settings frames.config
    have starts : (s.openMill k).StartsSound := ⟨fun _ => hm, fun e => absurd e (by simp [State.openMill]), sound.steady⟩
    have config (a : AreaNo) : ((s.opening k).finish.area a).config = (s.area a).config :=
      (ends.config a).trans (frames.config a)
    exact ⟨ks ++ ls, (all.duties starts (duties sound) config).ofOpen closed, (all.reasons starts).ofOpen⟩

theorem actBeginHandover_attends (k : Crew) (hm : s.mode = .run) : (actBeginHandover s k).Gives (State.Attends n s) := by
  unfold actBeginHandover
  split
  · trivial
  · rename_i closed
    split
    · trivial
    · exact State.beginHandover_attends k (by simpa [Mill.isOpen] using closed) hm

end Sys2Proof.Machine

/-!
Cancelling the mill handover (R155), and what is no event: the clock (R175), the loads in CONFIG, and the resets (R172, R176, R177).
None tells of a handover, for none turns one but the cancelling, which has no notice (R156).
-/

namespace Sys2Proof.Machine

variable {s t u d s' t' : State} {w : Work} {a : AreaNo} {h h' : Handover} {k : Crew} {ks : List NoticeKind} {q n m : Prop}

/-! ### Nothing told -/

/-- Where no notice turns an area, none turns. -/
theorem State.TellsReasons.ofSilent (queue : s.Hands t ks) (turns : ∀ a, ks.filter (·.turns a) = [])
    (suspended : ∀ a p x y r, (t.area a).handover = .suspended p x y r → ∃ p x y q, (s.area a).handover = .suspended p x y q)
    (resumed : ∀ a p x y r, (s.area a).handover = .suspended p x y r → (∀ p x y, (t.area a).handover ≠ .running p x y) ∧
      ∀ p, (t.area a).handover ≠ .done p)
    (halted : ∀ a p, (t.area a).handover = .halted p → ∃ q, (s.area a).handover = .halted q)
    (shifts : ks.filterMap (·.shift?) = []) : s.TellsReasons t ks := by
  have silent {k : NoticeKind} {a : AreaNo} (hk : k.turns a) : k ∉ ks := by
    rw [mem_iff_mem_turns hk, turns]
    exact List.not_mem_nil
  have unchanged : ¬ ∃ n k, .shiftChanged n k ∈ ks := fun ⟨n, k, hx⟩ => by
    have listed : (n, k) ∈ ks.filterMap (·.shift?) := List.mem_filterMap.mpr ⟨_, hx, rfl⟩
    rw [shifts] at listed
    cases listed
  refine ⟨queue, fun a => ?_, fun a r => ?_, fun a => ?_, fun a n => ?_⟩
  · rw [List.countP_eq_length_filter, turns]
    exact Nat.zero_le 1
  · refine iff_of_false (silent (a := a) (by simp [NoticeKind.turns])) fun ⟨⟨p, x, y, e⟩, outside⟩ => ?_
    obtain ⟨p, x, y, q, e⟩ := suspended a p x y r e
    exact outside p x y q e
  · refine iff_of_false (silent (a := a) (by simp [NoticeKind.turns])) fun ⟨⟨p, x, y, r, e⟩, left⟩ => ?_
    obtain ⟨waits, undone⟩ := resumed a p x y r e
    rcases left with ⟨p, x, y, e⟩ | ⟨p, e⟩ | ⟨-, changed⟩
    · exact waits p x y e
    · exact undone p e
    · exact unchanged changed
  · refine iff_of_false (fun ⟨why, hx⟩ => silent (a := a) (by simp [NoticeKind.turns]) hx) fun ⟨p, e, _, outside⟩ => ?_
    obtain ⟨q, e⟩ := halted a p e
    exact outside q e

/-- Where no notice hands an area over, none becomes DONE. -/
theorem State.TellsDuties.ofSilent (queue : s.Hands t ks) (handed : ∀ a, ks.filterMap (·.handedOver? a) = [])
    (shifts : ks.filterMap (·.shift?) = []) (mill : s.mode = .run → t.mill.shift = s.mill.shift ∧ t.mill.duty = s.mill.duty)
    (done : ∀ a, (t.area a).handover.isDone → (s.area a).handover.isDone) : s.TellsDuties t ks := by
  refine ⟨queue, .inl ⟨shifts, mill⟩, fun a => ?_⟩
  rw [handed, if_neg]
  rintro ⟨-, undone, becomes | changed⟩
  · rw [done a becomes] at undone
    cases undone
  · exact changed shifts

/-! ### Cancelling -/

theorem State.closeHandover_duties (sound : s.DutiesSound) (undone : ∀ a, (s.area a).handover.isDone = false) :
    s.closeHandover.DutiesSound := by
  have steady (a : AreaNo) : (s.closeHandover.area a).handover = .steady := by rw [State.area_closeHandover]
  refine ⟨fun _ => ⟨rfl, steady⟩, fun e => absurd rfl e, fun a _ => steady a, fun a p j e => ?_, fun a _ => ?_⟩
  · rw [steady] at e
    cases e
  · rw [State.area_closeHandover]
    exact sound.duty a (Handover.isDone_iff.mp (undone a))

theorem State.cancelled_attends (undone : s.DutiesSound → ∀ a, (s.area a).handover.isDone = false) :
    State.Attends n s (Work.finish { s := s.closeHandover, cover := true, sheets := true }) := by
  have steady (a : AreaNo) : (s.closeHandover.area a).handover = .steady := by rw [State.area_closeHandover]
  have ends : State.Carries True noAreas s.closeHandover (Work.finish { s := s.closeHandover, cover := true, sheets := true }) :=
    (Work.start_handles s.closeHandover true true).finish
  generalize Work.finish { s := s.closeHandover, cover := true, sheets := true } = t at ends
  have closed (sound : s.DutiesSound) := s.closeHandover_duties sound (undone sound)
  refine ⟨fun sound => ends.duties (closed sound), fun _ => ?_, fun _ sound => ?_⟩
  · exact State.agreesOff_iff.mp (ends.agrees ⟨fun a _ => Handover.agrees_of_settled (by rw [steady]; rfl)⟩)
  · obtain ⟨ks, queue, mid, goes, rested | ⟨j, changed⟩⟩ := ends.told (closed sound)
    · have silent (a : AreaNo) := (steady a ▸ goes a).steady rfl
      have after (a : AreaNo) : (t.area a).handover = .steady := (rested.handover a).trans (silent a).2.2
      have hands : s.Hands t ks := Eq.trans queue (State.notifyAll_congr ks rfl rfl rfl)
      refine ⟨ks, .ofSilent hands (fun a => (silent a).2.1) rested.shifts (fun _ => ⟨rested.shift, rested.duty⟩) fun a e => ?_,
        .ofSilent hands (fun a => (silent a).1) (fun a p x y r e => ?_) (fun a p x y r _ => ?_) (fun a p e => ?_) rested.shifts⟩
      · rw [after] at e; cases e
      · rw [after] at e; cases e
      · rw [after]; exact ⟨nofun, nofun⟩
      · rw [after] at e; cases e
    · exact absurd changed.incoming nofun

theorem actCancelHandover_attends (x : Unit) (s : State) : (actCancelHandover s x).Gives (State.Attends n s) := by
  unfold actCancelHandover
  split
  · trivial
  · split
    · trivial
    · rename_i none
      refine State.cancelled_attends fun sound a => ?_
      cases configured : (s.area a).config.configured with
      | false => rw [sound.steady a configured]; rfl
      | true =>
        have each := List.any_eq_false.mp (by simpa using none) a (State.mem_configuredAreas.mpr configured)
        simpa using each

/-! ### The clock and the queue -/

theorem Handover.cases_of_undated (e : h'.undated = h.undated) :
    h' = h ∨ ∃ p x y x' y', h = .running p x y ∧ h' = .running p x' y' := by
  cases h' with
  | running p x' y' =>
    obtain ⟨x, y, running⟩ := Handover.running_of_undated e rfl
    exact .inr ⟨p, x, y, x', y', running, rfl⟩
  | steady | suspended | halted | done => cases h <;> simp_all [Handover.undated, Handover.mapDeadline]

theorem Handover.isDone_of_undated (e : h'.undated = h.undated) : h'.isDone = h.isDone := by
  rcases Handover.cases_of_undated e with rfl | ⟨p, x, y, x', y', rfl, rfl⟩ <;> rfl

theorem Handover.Agrees.undated {f : Bool → Reasons} (k : h.Agrees f) (e : h'.undated = h.undated) : h'.Agrees f := by
  rcases Handover.cases_of_undated e with rfl | ⟨p, x, y, x', y', rfl, rfl⟩
  · exact k
  · exact Handover.agrees_running (k.running p x y rfl)

/-- An area stands where no deadline of it is read. -/
theorem Handover.stands_of_undated (e : h'.undated = h.undated) :
    (h = .steady → h' = .steady) ∧ (∀ p, h = .done p ↔ h' = .done p) ∧ (∀ p, h' = .halted p → h = .halted p) ∧
      ∀ p x y r, h = .suspended p x y r ↔ h' = .suspended p x y r := by
  rcases Handover.cases_of_undated e with rfl | ⟨p, x, y, x', y', rfl, rfl⟩
  · exact ⟨id, fun _ => Iff.rfl, fun _ => id, fun _ _ _ _ => Iff.rfl⟩
  · exact ⟨nofun, fun _ => ⟨nofun, nofun⟩, nofun, fun _ _ _ _ => ⟨nofun, nofun⟩⟩

/-- What changes deadlines, the queue and the clock at most. -/
theorem State.Attends.ofUndated (mill : t.mill = s.mill) (area : ∀ a, (t.area a).config = (s.area a).config ∧
    (t.area a).duty = (s.area a).duty ∧ (t.area a).handover.undated = (s.area a).handover.undated)
    (reasons : ∀ a, t.reasonsNow a = s.reasonsNow a) (queue : n → t.queue = s.queue) : State.Attends n s t := by
  have config (a : AreaNo) := (area a).1
  have crew (a : AreaNo) := (area a).2.1
  have stands (a : AreaNo) := Handover.stands_of_undated (area a).2.2
  have isDone (a : AreaNo) : (t.area a).handover.isDone = (s.area a).handover.isDone :=
    Handover.isDone_of_undated (area a).2.2
  refine ⟨fun sound => ?_, fun sound => ?_, fun hn _ => ?_⟩
  · obtain ⟨closed, opened, steady, done, duty⟩ := sound
    refine ⟨fun e => ?_, fun e => ?_, fun a e => ?_, fun a p j e isOpen => ?_, fun a e => ?_⟩
    · rw [mill] at e ⊢
      obtain ⟨outstanding, all⟩ := closed e
      exact ⟨outstanding, fun a => (stands a).1 (all a)⟩
    · rw [mill] at e ⊢
      simp only [config, isDone]
      exact opened e
    · exact (stands a).1 (steady a (config a ▸ e))
    · rw [crew]
      exact done a p j (((stands a).2.1 p).mpr e) (mill ▸ isOpen)
    · rw [crew, mill]
      exact duty a fun p x => e p (((stands a).2.1 p).mp x)
  · refine State.handoversSound_iff.mpr fun a => ?_
    rw [reasons]
    exact (State.handoversSound_iff.mp sound a).undated (area a).2.2
  · refine ⟨[], .ofSilent (queue hn) (fun _ => rfl) rfl (fun _ => by rw [mill]; exact ⟨rfl, rfl⟩) fun a e => isDone a ▸ e,
      .ofSilent (queue hn) (fun _ => rfl) (fun a p x y r e => ?_) (fun a p x y r e => ?_) (fun a p e => ?_) rfl⟩
    · exact ⟨p, x, y, r, ((stands a).2.2.2 p x y r).mpr e⟩
    · rw [((stands a).2.2.2 p x y r).mp e]
      exact ⟨nofun, nofun⟩
    · exact ⟨p, (stands a).2.2.1 p e⟩

theorem execClockSecond_attends (s : State) : ∃ t, execClockSecond s = .next t ∧ State.Attends n s t :=
  ⟨_, rfl, .ofUndated rfl (fun _ => ⟨rfl, rfl, rfl⟩) (fun _ => rfl) fun _ => rfl⟩

theorem State.setClock_attends (x : Nat) (s : State) : State.Attends n s (s.setClock x) := by
  refine .ofUndated rfl (fun a => ?_) (fun a => State.reasonsNow_congr rfl ?_ ?_) fun _ => rfl
  · rw [State.area_setClock]
    exact ⟨rfl, rfl, Handover.undated_mapDeadline _ _⟩
  · rw [State.area_setClock]
  · have code (c : TripNo) : (s.setClock x).code c = { s.code c with
        state := (s.code c).state.mapDeadline (Deadline.move s.now x s.clock.timebase) } := by
      simp only [State.setClock, State.mapDeadlines, State.code, Fin.getElem_fin, Vector.getElem_map]
    have runs (f : Deadline → Deadline) (y : TripState) : (y.mapDeadline f).isRunning = y.isRunning := by cases y <;> rfl
    simp only [State.tripCovers, code, runs]

/-- FETCH_NOTICES takes notices away (R169). -/
theorem actFetchNotices_attends (x : Nat) (s : State) : (actFetchNotices s x).Gives (State.Attends False s) :=
  State.Attends.ofUndated rfl (fun _ => ⟨rfl, rfl, rfl⟩) (fun _ => rfl) False.elim

/-! ### CONFIG (R172) -/

/-- A command that is taken in CONFIG, or enters it, leaves every area STEADY and under the mill duty crew. -/
theorem State.Attends.ofSteady (closed : t.mill.incoming = none) (steady : ∀ a, (t.area a).handover = .steady)
    (outstanding : s.DutiesSound → t.mill.outstanding = 0) (duty : s.DutiesSound → ∀ a, (t.area a).duty = t.mill.duty)
    (told : n → s.mode = .config ∧ t.queue = s.queue ∧ ∀ a, (s.area a).handover = .steady) : State.Attends n s t := by
  refine ⟨fun sound => ?_, fun _ => ?_, fun hn _ => ?_⟩
  · exact ⟨fun _ => ⟨outstanding sound, steady⟩, fun e => absurd closed e, fun a _ => steady a,
      fun a p j e => (by rw [steady] at e; cases e), fun a _ => duty sound a⟩
  · exact State.handoversSound_iff.mpr fun a => Handover.agrees_of_settled (by rw [steady]; rfl)
  · obtain ⟨config, queue, start⟩ := told hn
    refine ⟨[], .ofSilent queue (fun _ => rfl) rfl (fun run => ?_) fun a e => ?_,
      .ofSilent queue (fun _ => rfl) (fun a p x y r e => ?_) (fun a p x y r e => ?_) (fun a p e => ?_) rfl⟩
    · rw [config] at run; cases run
    · rw [steady] at e; cases e
    · rw [steady] at e; cases e
    · rw [start] at e; cases e
    · rw [steady] at e; cases e

/-- A load in CONFIG, with the areas' duty crews and handovers as they were. -/
theorem State.AtRest.attends (rest : s.AtRest) (hm : s.mode = .config) (mill : t.mill = s.mill)
    (area : ∀ a, (t.area a).handover = (s.area a).handover ∧ (t.area a).duty = (s.area a).duty) (queue : n → t.queue = s.queue) :
    State.Attends n s t := by
  refine .ofSteady (mill ▸ rest.mill) (fun a => (area a).1.trans (rest.handover a)) (fun sound => ?_) (fun sound a => ?_)
    fun hn => ⟨hm, queue hn, rest.handover⟩
  · rw [mill]
    exact (sound.closed rest.mill).1
  · rw [mill, (area a).2]
    exact sound.duty a fun p e => by rw [rest.handover] at e; cases e

theorem actSetTiming_attends (x : Setting × Nat) (rest : s.AtRest) (hm : s.mode = .config) :
    (actSetTiming s x).Gives (State.Attends False s) := by
  show State.Attends False s (s.storeSetting x.1 (x.1.clamped x.2))
  unfold State.storeSetting
  dsimp only
  split
  all_goals exact rest.attends hm rfl (fun _ => ⟨rfl, rfl⟩) False.elim

theorem actLoadArea_attends (x : AreaNo × AreaConfig) (rest : s.AtRest) (hm : s.mode = .config) :
    (actLoadArea s x).Gives (State.Attends n s) := by
  refine rest.attends (t := s.modArea x.1 fun r => { r with config := x.2 }) hm rfl (fun a => ?_) fun _ => rfl
  rw [State.area_modArea]
  split
  · subst_vars; exact ⟨rfl, rfl⟩
  · exact ⟨rfl, rfl⟩

theorem actSetShift_attends (x : Nat × Crew) (rest : s.AtRest) (hm : s.mode = .config) :
    (actSetShift s x).Gives (State.Attends n s) := by
  have area (a : AreaNo) : (s.areas.map fun r => { r with duty := x.2 })[a] = { s.area a with duty := x.2 } := by
    simp [State.area]
  refine State.Attends.ofSteady (t := { s with
      mill := { s.mill with shift := x.1, duty := x.2 }, areas := s.areas.map fun r => { r with duty := x.2 } })
    rest.mill (fun a => ?_) (fun sound => (sound.closed rest.mill).1) (fun _ a => ?_) fun _ => ⟨hm, rfl, rest.handover⟩
  · rw [State.area, area]
    exact rest.handover a
  · rw [State.area, area]

theorem actStart_attends (x : Unit) (rest : s.AtRest) (hm : s.mode = .config) : (actStart s x).Gives (State.Attends n s) := by
  unfold actStart
  split
  · trivial
  · refine rest.attends hm rfl (fun a => ?_) fun _ => rfl
    rw [State.enterRun_area]
    exact ⟨(rest.handover a).symm, rfl⟩

/-! ### The resets (R177) -/

theorem State.hardReset_attends (strapLow : Bool) (s : State) : State.Attends False s (s.hardReset strapLow) :=
  .ofSteady rfl (s.hardReset_rests strapLow).2.handover (fun _ => rfl)
    (fun _ a => by simp [State.area, State.hardReset, State.reset, Area.reset, Mill.reset]) False.elim

theorem State.restart_attends (s : State) : State.Attends False s s.restart :=
  .ofSteady rfl s.restart_rests.2.handover (fun _ => rfl)
    (fun _ a => by simp [State.area, State.restart, State.deriveAttention, Area.restart]) False.elim

end Sys2Proof.Machine

/-!
Every command keeps the rules of the duty crews and of the suspension reasons and tells of the handovers; and the statements.
-/

namespace Sys2Proof.Machine

variable {s t u : State} {q n m : Prop}

/-! ### Requests -/

theorem Answer.Gives.imp {P Q : State → Prop} {r : Answer} (x : r.Gives P) (h : ∀ t, P t → Q t) : r.Gives Q := by
  cases r with
  | error e => trivial
  | ok v => exact h _ x

theorem State.Attends.mono (x : State.Attends n s t) (h : m → n) : State.Attends m s t :=
  ⟨x.duties, x.agrees, fun hm => x.told (h hm)⟩

theorem State.link_sameCore (l : Link) (s : State) : s.SameCore { s with link := l } := ⟨rfl, rfl, rfl, rfl, rfl, rfl, rfl, rfl⟩

theorem State.take_sameCore {f : Frame} (h : s.take f = some u) : s.SameCore u := State.take_eq h ▸ s.link_sameCore _

theorem State.SameCore.attends (x : s.SameCore t) (hs : s.ConfigSound) : State.Attends n s t :=
  State.Carries.attends (q := False)
    (State.Spares.carries (.ofRest x.clock x.settings x.mill x.areas x.queue x.points x.trip)) hs

theorem State.answer_attends {kind tag : Byte} {r : Answer} (hs : s.ConfigSound) (h : r.Gives (State.Attends n s)) :
    State.Attends n s (s.answer kind tag r) := by
  unfold State.answer
  split
  · exact State.SameCore.attends (s.link_sameCore _) hs
  · exact State.Attends.congr h ⟨rfl, rfl, rfl, rfl, rfl, rfl, rfl, rfl⟩ (State.link_sameCore _ _)

theorem hostRequest_attends {α : Type} {kind tag : Byte} {p : List Byte} {parse : List Byte → Option α} {m : TakenIn}
    {act : State → α → Answer} (hs : s.ConfigSound)
    (h : ∀ u x, m.refusal u.mode = none → u.ConfigSound → (act u x).Gives (State.Attends n u)) :
    ∃ t, hostRequest kind tag p parse m act s = .next t ∧ State.Attends n s t := by
  unfold hostRequest
  split
  · exact ⟨s, rfl, State.Carries.attends (q := False) (.refl s) hs⟩
  · rename_i u hu
    have sound : u.ConfigSound := State.take_eq hu ▸ State.ConfigSound.link s _ hs
    have answered := State.answer_attends (kind := kind) (tag := tag) sound
      (checkRequest_gives (parsed := parse p) fun x _ hm => h u x hm sound)
    exact ⟨_, rfl, answered.congr (State.take_sameCore hu) ⟨rfl, rfl, rfl, rfl, rfl, rfl, rfl, rfl⟩⟩

/-- A request of the host's whose owner has its event. -/
theorem hostRequest_carries {α : Type} {kind tag : Byte} {p : List Byte} {parse : List Byte → Option α} {m : TakenIn}
    {act : State → α → Answer} (hs : s.ConfigSound)
    (h : ∀ u x, m.refusal u.mode = none → u.ConfigSound → (act u x).Gives (State.Carries False noAreas u)) :
    ∃ t, hostRequest kind tag p parse m act s = .next t ∧ State.Attends n s t :=
  hostRequest_attends hs fun u x hm hu => (h u x hm hu).imp fun _ carried => carried.attends hu

/-- A request that only reads. -/
theorem query_attends {α : Type} {kind tag : Byte} {p : List Byte} {parse : List Byte → Option α} {m : TakenIn}
    {act : State → α → Answer} (hs : s.ConfigSound) (h : ∀ u x, (act u x).Gives (· = u)) :
    ∃ t, hostRequest kind tag p parse m act s = .next t ∧ State.Attends n s t :=
  hostRequest_carries hs fun u x _ _ => (h u x).imp fun v (same : v = u) => same ▸ .refl v

theorem State.link_carries (l : Link) (s : State) : State.Carries q noAreas s { s with link := l } :=
  State.Spares.carries (.ofRest rfl rfl rfl rfl rfl rfl rfl)

theorem consoleRequest_attends {α : Type} {kind tag : Byte} {p : List Byte} {parse : List Byte → Option α}
    {act : State → α → Answer} (hs : s.ConfigSound)
    (h : ∀ u x, parse p = some x → (act u x).Gives (State.Carries False noAreas u)) :
    ∃ t, consoleRequest kind tag p parse act s = .next t ∧ State.Attends n s t := by
  have answered (u : State) {r : Answer} (hr : r.Gives (State.Carries False noAreas u)) :
      State.Carries False noAreas u (u.answer kind tag r) := by
    unfold State.answer
    split
    · exact u.link_carries _
    · exact State.Carries.before hr (State.link_carries _ _)
  unfold consoleRequest
  split
  · exact ⟨s, rfl, State.Carries.attends (q := False) (.refl s) hs⟩
  · rename_i u hu
    have taken : State.Carries True noAreas s u := State.take_eq hu ▸ s.link_carries _
    have active := taken.behind (u.noteActivity_carries p)
    exact ⟨_, rfl, (active.behind (answered _ (checkRequest_gives fun x hx _ => h _ x hx))).attends hs⟩

/-- A command of the part's own, of the keys or the timers. -/
theorem attends_of_carries {r : Result} (hs : s.ConfigSound) (h : ∃ t, r = .next t ∧ State.Carries False noAreas s t) :
    ∃ t, r = .next t ∧ State.Attends n s t :=
  h.imp fun _ x => ⟨x.1, x.2.attends hs⟩

/-! ### The line -/

theorem execBadKind_carries (kind tag : Byte) (p : List Byte) (s : State) :
    ∃ t, execBadKind kind tag p s = .next t ∧ State.Carries False noAreas s t := by
  unfold execBadKind
  split
  · exact ⟨s, rfl, .refl s⟩
  · split
    · exact ⟨s, rfl, .refl s⟩
    · rename_i u hu
      have taken : State.Carries True noAreas s u := State.take_eq hu ▸ s.link_carries _
      exact ⟨_, rfl, taken.behind (u.link_carries _)⟩

theorem execLinkError_carries (s : State) : ∃ t, execLinkError s = .next t ∧ State.Carries False noAreas s t := by
  unfold execLinkError
  split
  · exact ⟨_, rfl, s.link_carries _⟩
  all_goals exact ⟨s, rfl, .refl s⟩

theorem execGapTimerExpiry_carries (s : State) : ∃ t, execGapTimerExpiry s = .next t ∧ State.Carries False noAreas s t := by
  unfold execGapTimerExpiry
  split
  · exact ⟨s, rfl, .refl s⟩
  all_goals exact ⟨_, rfl, s.link_carries _⟩

/-! ### Every command -/

theorem actLoadOrder_carries (x : OrderNo × Order) (s : State) : (actLoadOrder s x).Gives (State.Carries False noAreas s) := by
  unfold actLoadOrder
  split
  · trivial
  · exact State.Spares.carries (.ofRest rfl rfl rfl rfl rfl rfl rfl)

theorem exec_attends {i : Instr} (hs : s.ConfigSound) : ∃ t, exec i s = .next t ∧ State.Attends (OnlyNotifies i) s t := by
  cases i with
  | hardReset strap => exact ⟨_, rfl, (s.hardReset_attends strap).mono fun x => x.1 strap rfl⟩
  | receiveCharacter b => exact ⟨_, rfl, State.Carries.attends (q := False) (s.link_carries _) hs⟩
  | gapTimerExpiry => exact attends_of_carries hs (execGapTimerExpiry_carries s)
  | linkError => exact attends_of_carries hs (execLinkError_carries s)
  | badKind => exact attends_of_carries hs (execBadKind_carries _ _ _ s)
  | clockSecond => exact execClockSecond_attends s
  | identify | queryPoint | listStanding | queryMeters => exact query_attends hs fun _ _ => rfl
  | queryOperator => exact query_attends hs fun u n => by cases u.operator? n <;> trivial
  | queryConsole | queryTrip | queryHandover => exact query_attends hs fun _ x => by cases x <;> rfl
  | listShelves | readSheet => exact query_attends hs fun _ _ => rfl
  | setClock => exact hostRequest_attends hs fun u x _ _ => u.setClock_attends x
  | fetchNotices tag p =>
    exact hostRequest_attends hs fun u x _ _ => (actFetchNotices_attends x u).imp fun _ k => k.mono fun y => (y.2 tag p).2.1 rfl
  | start => exact hostRequest_attends hs fun u x hm hu => actStart_attends x (hu (config_of_refusal hm)) (config_of_refusal hm)
  | restart tag p => exact hostRequest_attends hs fun u _ _ _ => u.restart_attends.mono fun y => (y.2 tag p).1 rfl
  | setTiming tag p =>
    exact hostRequest_attends hs fun u x hm hu => (actSetTiming_attends x (hu (config_of_refusal hm)) (config_of_refusal hm)).imp
      fun _ k => k.mono fun y => (y.2 tag p).2.2 rfl
  | setShift =>
    exact hostRequest_attends hs fun u x hm hu => actSetShift_attends x (hu (config_of_refusal hm)) (config_of_refusal hm)
  | loadPoints =>
    refine hostRequest_carries hs fun u x hm hu => ?_
    show State.Carries False noAreas u (u.storePoints x.1 x.2)
    rw [u.storePoints_rest x.1 x.2]
    exact .ofConfig (hu (config_of_refusal hm)) rfl rfl rfl rfl rfl
  | loadArea =>
    exact hostRequest_attends hs fun u x hm hu => actLoadArea_attends x (hu (config_of_refusal hm)) (config_of_refusal hm)
  | loadConsole | loadRole | loadSteps =>
    exact hostRequest_carries hs fun u x _ _ => State.Spares.carries (.ofRest rfl rfl rfl rfl rfl rfl rfl)
  | loadOrder => exact hostRequest_carries hs fun u x _ _ => actLoadOrder_carries x u
  | loadOperator | loadOperatorRemove => exact hostRequest_carries hs fun u x _ _ => actLoadOperator_carries x u
  | loadTripCode => exact hostRequest_carries hs fun u x _ hu => actLoadTripCode_carries x hu
  | loadTripEntries => exact hostRequest_carries hs fun u x _ _ => actLoadTripEntries_carries x u
  | setPoint => exact hostRequest_carries hs fun u x _ hu => actSetPoint_carries x hu
  | raise => exact hostRequest_carries hs fun u x _ _ => actRaise_carries x u
  | clear => exact hostRequest_carries hs fun u x _ _ => actClear_carries x u
  | clearTripFault =>
    refine hostRequest_carries hs fun u x _ _ => ?_
    split
    · exact (State.modTrip_spares (f := fun t => { t with latch := false }) rfl).carries
    · trivial
  | beginHandover => exact hostRequest_attends hs fun u x hm _ => actBeginHandover_attends x (run_of_refusal hm)
  | cancelHandover => exact hostRequest_attends hs fun u x _ _ => actCancelHandover_attends x u
  | suspendArea => exact hostRequest_carries hs fun u x _ _ => actSuspendArea_carries x u
  | resumeArea => exact hostRequest_carries hs fun u x _ _ => actResumeArea_carries x u
  | abortArea => exact hostRequest_carries hs fun u x _ _ => actAbortArea_carries x u
  | clearAbort => exact hostRequest_carries hs fun u x _ _ => actClearAbort_carries x u
  | signOn => exact consoleRequest_attends hs fun u x _ => actSignOn_carries x u
  | signOff => exact consoleRequest_attends hs fun u x _ => actSignOff_carries x u
  | silence =>
    refine consoleRequest_attends hs fun u x _ => Answer.Gives.withOperator (fun _ => ?_) _
    exact (u.silence_spares x.1 _).carries
  | ack => exact consoleRequest_attends hs fun u x _ => actAck_carries x u
  | ackHead => exact consoleRequest_attends hs fun u x _ => actAckHead_carries x u
  | ackArea => exact consoleRequest_attends hs fun u x hx => actAckArea_carries hx u
  | shelve => exact consoleRequest_attends hs fun u x _ => actShelve_carries x u
  | unshelve => exact consoleRequest_attends hs fun u x _ => actUnshelve_carries x u
  | takeOut => exact consoleRequest_attends hs fun u x _ => actTakeOut_carries x u
  | returnPoint => exact consoleRequest_attends hs fun u x _ => actReturn_carries x u
  | releaseTrip => exact consoleRequest_attends hs fun u x _ => actReleaseTrip_carries x u
  | lockDraft => exact consoleRequest_attends hs fun u x _ => actLockDraft_carries x u
  | unlockDraft => exact consoleRequest_attends hs fun u x _ => actUnlockDraft_carries x u
  | addItem => exact consoleRequest_attends hs fun u x _ => actAddItem_carries x u
  | removeItem => exact consoleRequest_attends hs fun u x _ => actRemoveItem_carries x u
  | post => exact consoleRequest_attends hs fun u x _ => actPost_carries x u
  | reviewItem => exact consoleRequest_attends hs fun u x _ => actReviewItem_carries x u
  | confirmStep => exact consoleRequest_attends hs fun u x _ => actConfirmStep_carries x u
  | restartArea => exact consoleRequest_attends hs fun u x _ => actRestartArea_carries x u
  | keyContactChange c k closed => exact attends_of_carries hs (execKeyContactChange_carries c k closed s)
  | keyQualifyTimerExpiry c k => exact attends_of_carries hs (execKeyQualifyTimerExpiry_carries c k s)
  | keyReleaseTimerExpiry c k => exact attends_of_carries hs (execKeyReleaseTimerExpiry_carries c k s)
  | stuckTimerExpiry c k => exact attends_of_carries hs (execStuckTimerExpiry_carries c k s)
  | presenceDeadline c => exact attends_of_carries hs (execPresenceDeadline_carries c s)
  | p1ResoundDeadline c => exact attends_of_carries hs (execP1ResoundDeadline_carries c s)
  | shelfExpired n => exact attends_of_carries hs (execShelfExpired_carries n s)
  | decayStep a => exact attends_of_carries hs (execDecayStep_carries a s)
  | tripLinesChange lines => exact attends_of_carries hs (execTripLinesChange_carries lines s)
  | tripQualifyTimerExpiry => exact attends_of_carries hs (execTripQualifyTimerExpiry_carries s)
  | tripReleaseTimerExpiry => exact attends_of_carries hs (execTripReleaseTimerExpiry_carries s)
  | waitDeadline c => exact attends_of_carries hs (execWaitDeadline_carries c s)
  | tripHoldDeadline c => exact attends_of_carries hs (execTripHoldDeadline_carries c s)
  | stepTimeout a => exact attends_of_carries hs (execStepTimeout_carries a s)
  | handoverHoldDeadline a => exact attends_of_carries hs (execHandoverHoldDeadline_carries a s)

/-! ### The statements -/

/-- A step does what its front command does; on an empty queue it does nothing. -/
theorem step_attends (hs : s.ConfigSound) (e : step s = .next t) :
    State.Attends (∃ c rest, s.pending = c :: rest ∧ OnlyNotifies c) s t := by
  unfold step at e
  split at e
  · cases e
    exact State.Carries.attends (q := False) (.refl s) hs
  · rename_i i rest front
    have same : s.SameCore { s with pending := rest } := ⟨rfl, rfl, rfl, rfl, rfl, rfl, rfl, rfl⟩
    obtain ⟨v, hv, attends⟩ := exec_attends (i := i) (s := { s with pending := rest }) (hs.same rfl rfl rfl rfl rfl rfl rfl rfl)
    cases hv.symm.trans e
    refine (attends.congr same ⟨rfl, rfl, rfl, rfl, rfl, rfl, rfl, rfl⟩).mono ?_
    rintro ⟨c, l, first, notifies⟩
    cases front.symm.trans first
    exact notifies

/-- Settles O13: every command ends in one event of the handover unit's, which keeps the rule of the duty crews and gives its
notices area by area; what is no event leaves the handovers or is taken in CONFIG, where all are STEADY. -/
theorem dutiesFollowHandover : Obligations.DutiesFollowHandover := by
  unfold Obligations.DutiesFollowHandover
  intro s t config duties e
  have attends := step_attends config e
  refine ⟨attends.duties duties, fun c rest front notifies => ?_⟩
  obtain ⟨ks, told, -⟩ := attends.told ⟨c, rest, front, notifies⟩ duties
  exact ⟨ks, told⟩

/-- Settles O14: whatever changes a reason's condition has the areas that it bears on reconsidered in the same event. -/
theorem reasonsSuspendAndResume : Obligations.ReasonsSuspendAndResume := by
  unfold Obligations.ReasonsSuspendAndResume
  intro s t config handovers e
  have attends := step_attends config e
  refine ⟨attends.agrees handovers, fun duties c rest front notifies => ?_⟩
  obtain ⟨ks, -, told⟩ := attends.told ⟨c, rest, front, notifies⟩ duties
  exact ⟨ks, told⟩

end Sys2Proof.Machine
